-- ==== Sys2Proof/Word.lean ====
section
/-! DEFINITION. The machine's unit of data: the byte, and sequences of bytes (00_scope.md R11, R12; every wire
field is one byte, 20_memory.md R48). -/

namespace Sys2Proof

/-- A byte, bits numbered 7 (most significant) to 0 (00_scope.md R11). -/
abbrev Byte := BitVec 8

/-- A finite sequence of bytes in wire order (00_scope.md R12). -/
abbrev Bytes := List Byte

end Sys2Proof
end

