-- ==== Sys2Proof/Config.lean ====
section
/-! DEFINITION. The parameters of the block (00_scope.md R8), their legal ranges (R10), and the constants the spec
leaves OPEN. A parameter the spec lets a model vary is a field of `Config`, so that a claim holds of every
configuration; a literal of the document is a constant (R7). -/

namespace Sys2Proof

/-- `TENBIT_CHECK` (00_scope.md R8; D10): when the 10-bit check runs. -/
inductive TenBitCheck where
  | prescan
  | inorder
deriving DecidableEq, Repr

/-- `DIR_OUT_VALUE_MODE` (00_scope.md R8; D14): how `GPIO_DIR_OUTPUT` forms the value bit. -/
inductive DirOutValueMode where
  | assign
  | copyOr
deriving DecidableEq, Repr

/-- The parameters of 00_scope.md R8 that a configuration may set. `SPEED_CODE_100K` is at most 0x13
(30_encoding.md R67) and `IDLE_PIN` at most 7 (R10) by their types; the other bounds are `Config.wf`. -/
structure Config where
  /-- `WCHUNK_FIRST`: largest payload of the first write chunk. -/
  wchunkFirst : Nat
  /-- `WCHUNK_CONT`: largest payload of a continuation write chunk. -/
  wchunkCont : Nat
  /-- `RCHUNK`: largest payload of a read chunk. -/
  rchunk : Nat
  /-- `MAX_SEG`: receive length requested for a read chunk's reply. -/
  maxSeg : Nat
  /-- `FINAL_IN`: the byte of the final single-byte IN of a read. -/
  finalIn : Byte
  /-- `SPEED_CODE_100K`: the speed field of SET-SPEED for 100 kHz. -/
  speedCode : Fin 20
  /-- `VARIANT_ID`: the variant identifier that needs the idle-pin frame. -/
  variantId : Nat
  /-- `IDLE_PIN`: the pin forced output-high for that variant. -/
  idlePin : Fin 8
  /-- `VARIANT`: the attached bridge's variant identifier, an input at attach. -/
  variant : Nat
  /-- `EP_OUT`: the bulk-OUT endpoint number. -/
  epOut : Nat
  /-- `EP_IN`: the bulk-IN endpoint number. -/
  epIn : Nat
  /-- `TENBIT_CHECK`. -/
  tenBitCheck : TenBitCheck
  /-- `DIR_OUT_VALUE_MODE`. -/
  dirOutValueMode : DirOutValueMode
deriving DecidableEq, Repr

namespace Config

/-- `MAX_SUB_LEN` (00_scope.md R8): the largest length field of OUT and IN. -/
def maxSubLen : Nat := 63

/-- `SCRATCH_LEN` (00_scope.md R8): the size of the OUT and IN scratch buffers. -/
def scratchLen : Nat := 512

/-- `GPIO_PINS` (00_scope.md R8). -/
def gpioPins : Nat := 8

/-- `GPIO_FRAME_LEN` (00_scope.md R8). -/
def gpioFrameLen : Nat := 11

/-- `GPIO_REPLY_LEN` (00_scope.md R8; D12). -/
def gpioReplyLen : Nat := 11

/-- `ACK` (00_scope.md R8): the ACK marker. -/
def ack : Byte := 0x01

/-- `MAX_XFER_LEN` (00_scope.md R8; D40): the largest length of one logical I2C message. -/
def maxXferLen : Nat := 65535

/-- `TIMEOUT_MS` (00_scope.md R8): the bound on each bulk operation. The model has no clock: a timeout is an answer
the bridge may give to any bulk operation (40_transport.md R92; 60_exceptions.md R143). -/
def timeoutMs : Nat := 1000

/-- The parameter constraints of 00_scope.md R10 that the types of the fields do not already enforce. -/
def wf (c : Config) : Bool :=
  decide (1 ≤ c.wchunkFirst) && decide (c.wchunkFirst ≤ maxSubLen - 1)
    && decide (1 ≤ c.wchunkCont) && decide (c.wchunkCont ≤ maxSubLen)
    && decide (1 ≤ c.rchunk) && decide (c.rchunk ≤ maxSubLen)
    && decide (c.rchunk + 1 ≤ c.maxSeg) && decide (c.maxSeg ≤ scratchLen)
    && (c.finalIn == 0xC0 || c.finalIn == 0xC1)

/-- DESIGN CHOICE (notes/assumptions/7.md): `SPEED_CODE_100K` is OPEN (D30), so it is a constant with no body. -/
opaque openSpeedCode : Fin 20

/-- DESIGN CHOICE (notes/assumptions/7.md): `VARIANT_ID` is OPEN (D32). -/
opaque openVariantId : Nat

/-- DESIGN CHOICE (notes/assumptions/7.md): `IDLE_PIN` is OPEN (D32). -/
opaque openIdlePin : Fin 8

/-- DESIGN CHOICE (notes/assumptions/7.md): `VARIANT` is an input at attach (00_scope.md R8). -/
opaque openVariant : Nat

/-- DESIGN CHOICE (notes/assumptions/7.md): `EP_OUT` is OPEN (D23). -/
opaque openEpOut : Nat

/-- DESIGN CHOICE (notes/assumptions/7.md): `EP_IN` is OPEN (D23). -/
opaque openEpIn : Nat

/-- The values of 00_scope.md R8, with the OPEN parameters left open, for a bridge of the given variant. -/
def attached (variant : Nat) : Config where
  wchunkFirst := 62
  wchunkCont := 62
  rchunk := 63
  maxSeg := 512
  finalIn := 0xC1
  speedCode := openSpeedCode
  variantId := openVariantId
  idlePin := openIdlePin
  variant := variant
  epOut := openEpOut
  epIn := openEpIn
  tenBitCheck := .prescan
  dirOutValueMode := .assign

/-- An operation named in the capability descriptor handed over at registration. -/
inductive Capability where
  | i2cRead
  | i2cWrite
  | gpioGet
  | gpioSet
  | gpioGetMultiple
  | gpioSetMultiple
  | gpioDirectionGet
  | gpioDirectionSet
deriving DecidableEq, Repr

/-- The capability descriptor of 43_init.md R127: "{read, write} for I2C; {get, set, get_multiple, set_multiple,
direction_get/set} for GPIO". -/
def capabilities : List Capability :=
  [.i2cRead, .i2cWrite, .gpioGet, .gpioSet, .gpioGetMultiple, .gpioSetMultiple, .gpioDirectionGet, .gpioDirectionSet]

end Config

end Sys2Proof
end

