-- ==== Sys2Proof/Syntax.lean ====
section
/-! DEFINITION. The instructions: one constructor for each row of spec/opcode_table.json, with the operands
30_encoding.md R81 gives it (requests and message records), 30_encoding.md R62, R63 and R78 give it (wire
sub-commands and the GPIO frame) or 40_transport.md R86, R87, R89 and 42_gpio.md R111 give it (internal operations). -/

namespace Sys2Proof

/-- A message record of a batch (30_encoding.md R81, 41_i2c.md R104). A read's destination buffer is named out of
band. A record with `TEN = 1` keeps its uninterpreted address byte. -/
inductive Msg where
  /-- `RD = 0, TEN = 0`: write the payload to the 7-bit address. -/
  | write (addr : BitVec 7) (src : Bytes)
  /-- `RD = 1, TEN = 0`: read `len` bytes from the 7-bit address. -/
  | read (addr : BitVec 7) (len : Nat)
  /-- `TEN = 1`: a 10-bit message, never framed (41_i2c.md R105). -/
  | ten (rd : Bool) (addr : Byte) (len : Nat) (payload : Bytes)
deriving DecidableEq, Repr

/-- One pin's control byte (10_state.md R32, 30_encoding.md R79): either the pin is left alone (`0x00`), or its
direction and value are requested with both apply flags set. -/
inductive PinCtl where
  | leave
  | apply (dir val : Bool)
deriving DecidableEq, Repr

/-- The rows of spec/opcode_table.json (30_encoding.md R82). -/
inductive Instr where
  -- requests
  | i2cXfer (msgs : List Msg)
  | gpioRead (pin : Byte)
  | gpioReadAll (mask : Byte)
  | gpioWrite (pin : Byte) (val : Bool)
  | gpioWriteMultiple (mask bits : Byte)
  | gpioDirInput (pin : Byte)
  | gpioDirOutput (pin : Byte) (val : Bool)
  | gpioDirGet (pin : Byte)
  | init
  | teardown
  -- message records
  | i2cWrite (addr : BitVec 7) (src : Bytes)
  | i2cRead (addr : BitVec 7) (len : Nat)
  | i2cMsgTen (rd : Bool) (addr : Byte) (len : Nat) (payload : Bytes)
  -- wire sub-commands and the GPIO frame
  | stream
  | start
  | stop
  | setSpeed (speed : BitVec 5)
  | endPkt
  | outSub (data : Bytes)
  | inSub (n : BitVec 6)
  | gpioFrame (pins : List PinCtl)
  -- internal operations
  | exchange (out : Bytes) (m : Nat)
  | acquire
  | release
  | gpioRt
deriving DecidableEq, Repr

/-- The "format" column of spec/opcode_table.json. -/
inductive Format where
  | req
  | msg
  | wireB
  | wireL
  | wireG
  | internal
deriving DecidableEq, Repr

/-- The format of each row. -/
def Instr.format : Instr → Format
  | .i2cXfer _ => .req
  | .gpioRead _ => .req
  | .gpioReadAll _ => .req
  | .gpioWrite _ _ => .req
  | .gpioWriteMultiple _ _ => .req
  | .gpioDirInput _ => .req
  | .gpioDirOutput _ _ => .req
  | .gpioDirGet _ => .req
  | .init => .req
  | .teardown => .req
  | .i2cWrite _ _ => .msg
  | .i2cRead _ _ => .msg
  | .i2cMsgTen _ _ _ _ => .msg
  | .stream => .wireB
  | .start => .wireB
  | .stop => .wireB
  | .setSpeed _ => .wireB
  | .endPkt => .wireB
  | .outSub _ => .wireL
  | .inSub _ => .wireL
  | .gpioFrame _ => .wireG
  | .exchange _ _ => .internal
  | .acquire => .internal
  | .release => .internal
  | .gpioRt => .internal

namespace Msg

/-- The message record as an instruction of its own (30_encoding.md R82). -/
def toInstr : Msg → Instr
  | .write a src => .i2cWrite a src
  | .read a len => .i2cRead a len
  | .ten rd a len p => .i2cMsgTen rd a len p

/-- The message is flagged as a 10-bit one. -/
def isTen : Msg → Bool
  | .ten _ _ _ _ => true
  | _ => false

/-- The message's payload length `L`. -/
def length : Msg → Nat
  | .write _ src => src.length
  | .read _ len => len
  | .ten _ _ len _ => len

end Msg

/-! The pseudo-instructions of 30_encoding.md R85. -/

/-- `i2c.write a, [bytes]`. -/
def Instr.pseudoI2cWrite (a : BitVec 7) (src : Bytes) : Instr := .i2cXfer [.write a src]

/-- `i2c.read a, #n`. -/
def Instr.pseudoI2cRead (a : BitVec 7) (n : Nat) : Instr := .i2cXfer [.read a n]

/-- `i2c.probe a`: one address-only packet (41_i2c.md R99). -/
def Instr.pseudoI2cProbe (a : BitVec 7) : Instr := .i2cXfer [.write a []]

/-- `i2c.write_read a, [bytes], #n`. -/
def Instr.pseudoI2cWriteRead (a : BitVec 7) (src : Bytes) (n : Nat) : Instr := .i2cXfer [.write a src, .read a n]

/-- `gpio.set p`. -/
def Instr.pseudoGpioSet (p : Byte) : Instr := .gpioWrite p true

/-- `gpio.clr p`. -/
def Instr.pseudoGpioClr (p : Byte) : Instr := .gpioWrite p false

end Sys2Proof
end

