-- ==== Sys2Proof/WellFormed.lean ====
section
/-! DEFINITION. Which instructions have an encoding and operands in range (30_encoding.md R63, R64, R81, R83;
40_transport.md R89). Everything a type of Syntax.lean does not already enforce is checked here. -/

namespace Sys2Proof

/-- A message record that a descriptor can carry (30_encoding.md R81, R83): a length of at most `MAX_XFER_LEN`, and
for a 10-bit record a payload of `L` bytes when it is a write and none when it is a read. -/
def Msg.wf : Msg → Bool
  | .write _ src => decide (src.length ≤ Config.maxXferLen)
  | .read _ len => decide (len ≤ Config.maxXferLen)
  | .ten rd _ len p => decide (len ≤ Config.maxXferLen) && decide (p.length = if rd then 0 else len)

/-- The operands of an instruction are in the range its encoding and its rule allow. -/
def Instr.wf : Instr → Bool
  | .i2cXfer msgs => decide (1 ≤ msgs.length) && decide (msgs.length ≤ 255) && msgs.all Msg.wf
  | .gpioRead _ => true
  | .gpioReadAll _ => true
  | .gpioWrite _ _ => true
  | .gpioWriteMultiple _ _ => true
  | .gpioDirInput _ => true
  | .gpioDirOutput _ _ => true
  | .gpioDirGet _ => true
  | .init => true
  | .teardown => true
  | .i2cWrite a src => (Msg.write a src).wf
  | .i2cRead a len => (Msg.read a len).wf
  | .i2cMsgTen rd a len p => (Msg.ten rd a len p).wf
  | .stream => true
  | .start => true
  | .stop => true
  | .setSpeed sp => decide (sp.toNat ≤ 0x13)
  | .endPkt => true
  | .outSub data => decide (data.length ≤ Config.maxSubLen)
  | .inSub _ => true
  | .gpioFrame pins => decide (pins.length = Config.gpioPins)
  | .exchange o m => decide (1 ≤ o.length) && decide (o.length ≤ Config.scratchLen) && decide (m ≤ Config.scratchLen)
  | .acquire => true
  | .release => true
  | .gpioRt => true

end Sys2Proof
end

