-- ==== Sys2Proof/Decode.lean ====
section
/-! DEFINITION. The encodings of 30_encoding.md: the bytes of every sub-command, frame and request descriptor, the
decoders (total on any bytes; what they refuse is none) and the encoder. -/

namespace Sys2Proof

/-! ## The bytes of the wire encoding -/

/-- A bit as a byte. -/
def bitByte (b : Bool) : Byte := if b then 1 else 0

/-- The stream marker (30_encoding.md R68). -/
def streamByte : Byte := 0xAA

/-- START (30_encoding.md R63, R69). -/
def startByte : Byte := 0x74

/-- STOP (30_encoding.md R63, R70). -/
def stopByte : Byte := 0x75

/-- END (30_encoding.md R63, R74). -/
def endByte : Byte := 0x00

/-- SET-SPEED, `0x60 | s` (30_encoding.md R67). -/
def setSpeedByte (s : BitVec 5) : Byte := 0x60 ||| s.setWidth 8

/-- The opcode byte of OUT, `0x80 | n` (30_encoding.md R64). -/
def outByte (n : Nat) : Byte := 0x80 ||| BitVec.ofNat 8 n

/-- The opcode byte of IN, `0xC0 | n` (30_encoding.md R64). -/
def inByte (n : Nat) : Byte := 0xC0 ||| BitVec.ofNat 8 n

/-- The address byte, `(a << 1) | rw` (30_encoding.md R66): `rw` is 0 for a write and 1 for a read. -/
def addrByte (a : BitVec 7) (rw : Bool) : Byte := (a.setWidth 8 <<< 1) ||| bitByte rw

/-- The control byte the block writes for a pin (30_encoding.md R79). -/
def pinctl (dir apply val : Bool) : Byte :=
  (bitByte dir <<< 7) ||| (if apply then 0x30 else 0x00) ||| (bitByte val <<< 3)

/-- The control byte of a pin request. -/
def PinCtl.byte : PinCtl → Byte
  | .leave => pinctl false false false
  | .apply d v => pinctl d true v

/-- The pin request of a control byte: one of `0x00`, `0x30`, `0x38`, `0xB0`, `0xB8` (10_state.md R32). -/
def PinCtl.ofByte (b : Byte) : Option PinCtl :=
  if b = 0x00 then some .leave
  else if b = 0x30 then some (.apply false false)
  else if b = 0x38 then some (.apply false true)
  else if b = 0xB0 then some (.apply true false)
  else if b = 0xB8 then some (.apply true true)
  else none

/-- The three header bytes of the GPIO frame (30_encoding.md R78). -/
def gpioHeader : Bytes := [0xCC, 0x08, 0x00]

/-! ## The wire decoder -/

/-- A bare sub-command byte, format B, in sub-command position (30_encoding.md R63, R75). START and STOP match before
SET-SPEED, and 0x76 to 0x7F are no SET-SPEED (spec/opcode_table.json). -/
def decodeWireB (b : Byte) : Option Instr :=
  if b = endByte then some .endPkt
  else if b = startByte then some .start
  else if b = stopByte then some .stop
  else if 0x60 ≤ b.toNat ∧ b.toNat ≤ 0x73 then some (.setSpeed (b.setWidth 5))
  else none

/-- A length-carrying sub-command, format L (30_encoding.md R63, R64, R75): OUT takes its data bytes, IN none. -/
def decodeWireL (b : Byte) (rest : Bytes) : Option (Instr × Bytes) :=
  let n := b.toNat % 64
  if b.toNat / 64 = 2 then
    if n ≤ rest.length then some (.outSub (rest.take n), rest.drop n) else none
  else if b.toNat / 64 = 3 then some (.inSub (BitVec.ofNat 6 n), rest)
  else none

/-- One sub-command in sub-command position, and the bytes after it (30_encoding.md R75). -/
def decodeSub : Bytes → Option (Instr × Bytes)
  | [] => none
  | b :: rest =>
    match decodeWireL b rest with
    | some r => some r
    | none => (decodeWireB b).map fun i => (i, rest)

/-- The eight control bytes of a GPIO frame. -/
def decodePins : Bytes → Option (List PinCtl)
  | [] => some []
  | b :: rest =>
    match PinCtl.ofByte b, decodePins rest with
    | some p, some ps => some (p :: ps)
    | _, _ => none

/-- The GPIO frame: the header, then exactly eight control bytes (30_encoding.md R78). -/
def decodeWireG (bs : Bytes) : Option Instr :=
  if bs.take 3 = gpioHeader ∧ bs.length = Config.gpioFrameLen then
    (decodePins (bs.drop 3)).map .gpioFrame
  else none

/-- What stands at byte 0 of a transfer: the stream marker (30_encoding.md R68) or a whole GPIO frame (R78). -/
def decodeStart : Bytes → Option (Instr × Bytes)
  | [] => none
  | b :: rest =>
    if b = streamByte then some (.stream, rest)
    else (decodeWireG (b :: rest)).map fun i => (i, [])

/-- The wire decoder at byte 0 of a transfer (`atStart`) or in sub-command position. -/
def decodeWire (atStart : Bool) (bs : Bytes) : Option (Instr × Bytes) :=
  if atStart then decodeStart bs else decodeSub bs

/-- The loop of 30_encoding.md R75 from byte 1 on: the sub-commands up to an END that is the last byte. Only the
configured SET-SPEED byte is inside the grammar. The fuel is the packet's length. -/
def decodeBody (speed : Fin 20) : Nat → Bytes → Option (List Instr)
  | 0, _ => none
  | fuel + 1, bs =>
    match decodeSub bs with
    | none => none
    | some (.endPkt, rest) => if rest = [] then some [] else none
    | some (.setSpeed s, rest) =>
      if s.toNat = speed.val then (decodeBody speed fuel rest).map (Instr.setSpeed s :: ·) else none
    | some (i, rest) => (decodeBody speed fuel rest).map (i :: ·)

/-- The packet decoder of 30_encoding.md R75: the sub-commands of a command packet, or none where R75 has Invalid. -/
def decodePacket (speed : Fin 20) : Bytes → Option (List Instr)
  | [] => none
  | b :: rest => if b = streamByte then decodeBody speed rest.length rest else none

/-! ## The request decoder -/

/-- `val` is 0 or 1 (30_encoding.md R81, R83). -/
def decodeVal (b : Byte) : Option Bool :=
  if b = 0 then some false else if b = 1 then some true else none

/-- `L = LEN_LO | (LEN_HI << 8)`, little-endian (30_encoding.md R81; 20_memory.md R49). -/
def decodeLen (lo hi : Byte) : Nat := lo.toNat + 256 * hi.toNat

/-- One message record and the bytes after it (30_encoding.md R81, R83). -/
def decodeMsg : Bytes → Option (Msg × Bytes)
  | flags :: addr :: lo :: hi :: rest =>
    let len := decodeLen lo hi
    if Config.maxXferLen < len then none
    else if flags = 0x00 then
      if addr.msb then none
      else if rest.length < len then none
      else some (.write (addr.setWidth 7) (rest.take len), rest.drop len)
    else if flags = 0x01 then
      if addr.msb then none else some (.read (addr.setWidth 7) len, rest)
    else if flags = 0x02 then
      if rest.length < len then none
      else some (.ten false addr len (rest.take len), rest.drop len)
    else if flags = 0x03 then some (.ten true addr len [], rest)
    else none
  | _ => none

/-- `K` message records. -/
def decodeMsgs : Nat → Bytes → Option (List Msg × Bytes)
  | 0, bs => some ([], bs)
  | k + 1, bs =>
    match decodeMsg bs with
    | none => none
    | some (m, rest) => (decodeMsgs k rest).map fun r => (m :: r.1, r.2)

/-- A request descriptor at the front of the bytes, and the bytes after it (30_encoding.md R81, R83). -/
def decodeRequestPrefix : Bytes → Option (Instr × Bytes)
  | [] => none
  | op :: rest =>
    if op = 0x01 then
      match rest with
      | k :: rest => if k = 0 then none else (decodeMsgs k.toNat rest).map fun r => (.i2cXfer r.1, r.2)
      | [] => none
    else if op = 0x02 then
      match rest with
      | pin :: rest => some (.gpioRead pin, rest)
      | [] => none
    else if op = 0x03 then
      match rest with
      | mask :: rest => some (.gpioReadAll mask, rest)
      | [] => none
    else if op = 0x04 then
      match rest with
      | pin :: v :: rest => (decodeVal v).map fun b => (.gpioWrite pin b, rest)
      | _ => none
    else if op = 0x05 then
      match rest with
      | mask :: bits :: rest => some (.gpioWriteMultiple mask bits, rest)
      | _ => none
    else if op = 0x06 then
      match rest with
      | pin :: rest => some (.gpioDirInput pin, rest)
      | [] => none
    else if op = 0x07 then
      match rest with
      | pin :: v :: rest => (decodeVal v).map fun b => (.gpioDirOutput pin b, rest)
      | _ => none
    else if op = 0x08 then
      match rest with
      | pin :: rest => some (.gpioDirGet pin, rest)
      | [] => none
    else if op = 0x09 then some (.init, rest)
    else if op = 0x0A then some (.teardown, rest)
    else none

/-- The whole of the bytes, or nothing: bytes left over refuse (30_encoding.md R83). -/
def whole {α : Type} : Option (α × Bytes) → Option α
  | some (a, []) => some a
  | _ => none

/-- The request decoder (30_encoding.md R81, R83): none is `REFUSE(BadDescriptor)`. -/
def decodeRequest (bs : Bytes) : Option Instr := whole (decodeRequestPrefix bs)

/-- A single message record as an instruction (30_encoding.md R82). -/
def decodeRecord (bs : Bytes) : Option Instr := (whole (decodeMsg bs)).map Msg.toInstr

/-- The decoder of each format of spec/opcode_table.json, on exactly the instruction's bytes. The internal
operations have no encoding. -/
def decodeAs : Format → Bytes → Option Instr
  | .req, bs => decodeRequest bs
  | .msg, bs => decodeRecord bs
  | .wireB, [b] => if b = streamByte then some .stream else decodeWireB b
  | .wireB, _ => none
  | .wireL, b :: rest => whole (decodeWireL b rest)
  | .wireL, [] => none
  | .wireG, bs => decodeWireG bs
  | .internal, _ => none

/-! ## The encoder -/

/-- The length bytes of a message record, low byte first (20_memory.md R49). -/
def encodeLen (len : Nat) : Bytes := [BitVec.ofNat 8 len, BitVec.ofNat 8 (len / 256)]

/-- A message record (30_encoding.md R81). -/
def encodeMsg : Msg → Bytes
  | .write a src => [0x00, a.setWidth 8] ++ encodeLen src.length ++ src
  | .read a len => [0x01, a.setWidth 8] ++ encodeLen len
  | .ten rd a len p => [0x02 ||| bitByte rd, a] ++ encodeLen len ++ p

/-- The bytes of an instruction (30_encoding.md R62, R63, R78, R81). The internal operations have none. -/
def encode : Instr → Bytes
  | .i2cXfer msgs => [0x01, BitVec.ofNat 8 msgs.length] ++ msgs.flatMap encodeMsg
  | .gpioRead pin => [0x02, pin]
  | .gpioReadAll mask => [0x03, mask]
  | .gpioWrite pin v => [0x04, pin, bitByte v]
  | .gpioWriteMultiple mask bits => [0x05, mask, bits]
  | .gpioDirInput pin => [0x06, pin]
  | .gpioDirOutput pin v => [0x07, pin, bitByte v]
  | .gpioDirGet pin => [0x08, pin]
  | .init => [0x09]
  | .teardown => [0x0A]
  | .i2cWrite a src => encodeMsg (.write a src)
  | .i2cRead a len => encodeMsg (.read a len)
  | .i2cMsgTen rd a len p => encodeMsg (.ten rd a len p)
  | .stream => [streamByte]
  | .start => [startByte]
  | .stop => [stopByte]
  | .setSpeed s => [setSpeedByte s]
  | .endPkt => [endByte]
  | .outSub data => outByte data.length :: data
  | .inSub n => [inByte n.toNat]
  | .gpioFrame pins => gpioHeader ++ pins.map PinCtl.byte
  | .exchange _ _ => []
  | .acquire => []
  | .release => []
  | .gpioRt => []

/-! ## The opcode table's own numbering

The table gives every row one byte, its first. Several rows share a first byte, because the formats are read at
different places (spec/opcode_table.json, column "format"). The order tried is: request descriptor, byte 0 of a
transfer, sub-command position, message record (DESIGN CHOICE, notes/assumptions/9.md). -/

/-- The mask and the pattern of each row of spec/opcode_table.json, over the first byte; the internal operations have
neither. -/
def opcodeRow : Instr → Option (Byte × Byte)
  | .i2cXfer _ => some (0xFF, 0x01)
  | .gpioRead _ => some (0xFF, 0x02)
  | .gpioReadAll _ => some (0xFF, 0x03)
  | .gpioWrite _ _ => some (0xFF, 0x04)
  | .gpioWriteMultiple _ _ => some (0xFF, 0x05)
  | .gpioDirInput _ => some (0xFF, 0x06)
  | .gpioDirOutput _ _ => some (0xFF, 0x07)
  | .gpioDirGet _ => some (0xFF, 0x08)
  | .init => some (0xFF, 0x09)
  | .teardown => some (0xFF, 0x0A)
  | .i2cWrite _ _ => some (0xFF, 0x00)
  | .i2cRead _ _ => some (0xFF, 0x01)
  | .i2cMsgTen _ _ _ _ => some (0xFE, 0x02)
  | .stream => some (0xFF, 0xAA)
  | .start => some (0xFF, 0x74)
  | .stop => some (0xFF, 0x75)
  | .setSpeed _ => some (0xE0, 0x60)
  | .endPkt => some (0xFF, 0x00)
  | .outSub _ => some (0xC0, 0x80)
  | .inSub _ => some (0xC0, 0xC0)
  | .gpioFrame _ => some (0xFF, 0xCC)
  | .exchange _ _ => none
  | .acquire => none
  | .release => none
  | .gpioRt => none

/-- The place at which an instruction's bytes are read. -/
inductive Place where
  /-- the request port -/
  | port
  /-- byte 0 of a transfer -/
  | wireStart
  /-- sub-command position -/
  | wireSub
  /-- a message record -/
  | record
deriving DecidableEq, Repr

/-- The bytes of a table word: `nbits` bits of `w`, bit 0 the least significant bit of the first byte, then zeros. -/
def tableBytes (nbits w : Nat) : Bytes :=
  (List.range (nbits / 8)).map (fun i => BitVec.ofNat 8 (w / 256 ^ i)) ++ List.replicate 16 0

/-- The instruction at the front of the bytes and the place that reads it. -/
def decodePlaced (bs : Bytes) : Option (Place × Instr) :=
  match decodeRequestPrefix bs with
  | some r => some (.port, r.1)
  | none =>
    match decodeStart (if bs.take 3 = gpioHeader then bs.take Config.gpioFrameLen else bs) with
    | some r => some (.wireStart, r.1)
    | none =>
      match decodeSub bs with
      | some r => some (.wireSub, r.1)
      | none => (decodeMsg bs).map fun r => (.record, r.1.toInstr)

/-- The instruction the decoder reads from a word numbered as spec/opcode_table.json numbers it. -/
def decodeTableWord (nbits w : Nat) : Option Instr := (decodePlaced (tableBytes nbits w)).map (·.2)

end Sys2Proof
end

