-- ==== Sys2Proof/Machine/State.lean ====
section
/-! DEFINITION. The state of the machine: the session (10_state.md R29), the engine contexts (R37), the records OPEN_TXN
and HIST (R41, R42), and the inputs of the outside world as plain data. -/

namespace Sys2Proof.Machine

/-! ## Byte spaces -/

/-- A byte space (20_memory.md R44) as a list of (address, byte) cells in one canonical form: addresses strictly
rising. An address that is not listed is `Unknown` (00_scope.md R15): no rule has written it. -/
abbrev Memory := List Host.Cell

/-- The canonical form: addresses strictly rising, so each address is listed at most once. -/
abbrev Memory.wf (m : Memory) : Prop := m.Pairwise fun a b => a.1 < b.1

/-! ## The session's fields -/

/-- `SSTATE` (10_state.md R36). -/
inductive SState where
  | attached
  | initialized
  | dead
deriving DecidableEq, Repr

/-- `LOCK` (10_state.md R35): free, or held by the engine context of that number. -/
inductive Lock where
  | free
  | held (c : Nat)
deriving DecidableEq, Repr

/-! ## Errors and results -/

/-- Which step of an exchange, or of INIT, an IOError names (60_exceptions.md R130). `registration` is the model's own
(notes/assumptions/20.md): a registration failure is reported as IOError (43_init.md R124). -/
inductive IoStep where
  | send
  | recv
  | registration
deriving DecidableEq, Repr

/-- What an InvalidArgument records (60_exceptions.md R130). -/
inductive ArgInfo where
  /-- `TenBitAddress` and the message index -/
  | tenBitAddress (idx : Nat)
  /-- `PinRange` and the pin -/
  | pinRange (pin : Byte)
deriving DecidableEq, Repr

/-- The four errors of the block, with the information they record (60_exceptions.md R130). -/
inductive Err where
  | ioError (step : IoStep)
  | protocolError (off required actual : Nat)
  | nackError (off index : Nat)
  | invalidArgument (info : ArgInfo)
deriving DecidableEq, Repr

/-- A result handed to the caller (60_exceptions.md R131, R132). -/
inductive Result where
  /-- `Ok` with no value -/
  | ok
  /-- `Ok(count)`: the messages processed (41_i2c.md R104) -/
  | okCount (k : Nat)
  /-- `Ok(bit)` (42_gpio.md R114, R120) -/
  | okBit (b : Bool)
  /-- `Ok(byte)` (42_gpio.md R115) -/
  | okByte (b : Byte)
  /-- `Err(E)` -/
  | err (e : Err)
  /-- `()`: the operation has no status (42_gpio.md R121, 43_init.md R128) -/
  | noStatus
deriving DecidableEq, Repr

/-! ## Engine contexts -/

/-- `PHASE` (10_state.md R38). -/
inductive Phase where
  | admitting
  | waitLock
  | build
  | xchg
  | check
  | commit
  | next
  | done (r : Result)
  | failed (e : Err)
deriving DecidableEq, Repr

/-- One engine context (10_state.md R37). `n`, `last` and `res` are unset (none) at creation, as R37 has them. `dst`
holds the caller's DST buffer of message `j` at index `j` (20_memory.md R44). -/
structure Ctx where
  op : Instr
  phase : Phase
  off : Nat
  n : Option Nat
  first : Bool
  last : Option Bool
  idx : Nat
  pkt : Bytes
  res : Option Result
  dst : List Memory
deriving DecidableEq, Repr

/-! ## The bridge, the host and the schedule -/

/-- The outcome of a Send (40_transport.md R90). -/
inductive SendAns where
  | ok (k : Nat)
  | err
  | timeout
deriving DecidableEq, Repr

/-- The outcome of a Recv (40_transport.md R91). -/
inductive RecvAns where
  | ok (r : Bytes)
  | err
  | timeout
deriving DecidableEq, Repr

/-- One entry of `HIST` (10_state.md R42): the context, the bytes sent, the send outcome, the receive request and the
receive outcome (none when no Recv was made). -/
structure Exch where
  ctx : Nat
  sent : Bytes
  sendAns : SendAns
  m : Nat
  recvAns : Option RecvAns
deriving DecidableEq, Repr

/-- What the block asked of the host (43_init.md R127, R128): a registration with its answer, or an unregistration. -/
inductive HostEvent where
  | register (caps : List Config.Capability) (answer : Option Nat)
  | unregister (handle : Nat)
deriving DecidableEq, Repr

/-- What the machine executes next (DESIGN CHOICE, notes/assumptions/1.md). -/
inductive Command where
  /-- a caller submits a request descriptor at the request port (30_encoding.md R81) -/
  | request (desc : Bytes)
  /-- a single message record is handed to the I2C engine -/
  | message (record : Bytes)
  /-- context `c` emits wire bytes into what it is building -/
  | wire (c : Nat) (bytes : Bytes)
  /-- context `c` runs one internal operation, which has no encoding (30_encoding.md R82) -/
  | internal (c : Nat) (op : Instr)
  /-- context `c`, already in flight, runs on -/
  | turn (c : Nat)
deriving DecidableEq, Repr

/-- The state of the machine. -/
structure State where
  /-- the parameters, fixed for the machine (00_scope.md R8, R18) -/
  cfg : Config
  /-- `SSTATE` -/
  sstate : SState
  /-- `REG_HANDLE` -/
  regHandle : Option Nat
  /-- `LOCK` -/
  lock : Lock
  /-- `OUTBUF`, addresses 0 to 511 -/
  outbuf : Memory
  /-- `OUTLEN`; none is `Unknown` -/
  outlen : Option Nat
  /-- `INBUF`, addresses 0 to 511 -/
  inbuf : Memory
  /-- `INLEN`; none is `Unknown` -/
  inlen : Option Nat
  /-- `GPO`, addresses 0 to 10 -/
  gpo : Memory
  /-- `GPI`, addresses 0 to 10 -/
  gpi : Memory
  /-- `GPI_VALID` -/
  gpiValid : Bool
  /-- the engine contexts; context `c` stands at index `c` -/
  ctxs : List Ctx
  /-- `HIST` -/
  hist : List Exch
  /-- `OPEN_TXN` -/
  openTxn : Bool
  /-- the model's own: the host events so far -/
  hostLog : List HostEvent
  /-- the model's own: the context on whose behalf a single internal or wire command runs -/
  cur : Nat
  /-- the model's own: the commands waiting, the next one first -/
  port : List Command
  /-- the model's own: the DST buffers handed over with the next request, one for each message -/
  dstPort : List Memory
  /-- the model's own: the bridge's answers to the coming Sends -/
  sends : List SendAns
  /-- the model's own: the bridge's answers to the coming Recvs -/
  recvs : List RecvAns
  /-- the model's own: the host's answers to the coming registrations (none is a failure) -/
  regs : List (Option Nat)
  /-- the model's own: the number of moves the next context to run may make before another agent runs -/
  quanta : List Nat
deriving DecidableEq, Repr

/-! ## Faults and refusals -/

/-- The model faults of 60_exceptions.md R138: the spec's own stops, final and never cleared. All are safe: the spec
gives the machine no step here. -/
inductive Fault where
  /-- Raised by the GPIO engine when it reads the mirror `GPI` with `GPI_VALID = 0`, and by any rule that needs a byte or
  a field that is `Unknown` or unset (00_scope.md R15). Safe. -/
  | unwrittenRead
  /-- Raised by EXCHANGE, RELEASE and GPIO_RT without holding the lock. Safe. -/
  | lockNotHeld
  /-- Raised by ACQUIRE of the holder. Safe. -/
  | lockReentry
  /-- Raised by EXCHANGE with no bytes, more than 512 bytes, or a receive length over 512. Safe. -/
  | badExchange
deriving DecidableEq, Repr

/-- The refusals of 60_exceptions.md R139, and those of the model's own. A refused command creates no context and does
nothing. All are safe. -/
inductive Refusal where
  /-- The instruction has no meaning yet (raised by exec's refused arms). Safe. -/
  | notModelled (mnemonic : String)
  /-- Raised by step: the bytes are no request descriptor, no message record and no wire bytes (30_encoding.md R83). Safe. -/
  | badDescriptor
  /-- Raised by every I2C and GPIO request while `SSTATE` is not Initialized. Safe. -/
  | notInitialized
  /-- Raised by INIT while `SSTATE` is not Attached, or when an INIT was already submitted. Safe. -/
  | badLifecycle
  /-- Raised by I2C_XFER with no message. Safe. -/
  | emptyBatch
  /-- Raised by every request under parameters outside 00_scope.md R10. Safe. -/
  | badConfig
  /-- Raised by TEARDOWN with an operation in flight or the lock held: the host's duty is broken and there is no step
  (43_init.md R128). Safe. -/
  | hostDuty
  /-- Raised by a single wire sub-command or GPIO frame for a context that is not building under the lock (10_state.md
  R38). Safe. -/
  | notBuilding
  /-- Raised by a single wire sub-command or GPIO frame that is not what the context emits at that place: the block emits
  five shapes only, and never the reserved bytes (30_encoding.md R76, R77). Safe. -/
  | wirePosition
deriving DecidableEq, Repr

/-! ## Reset -/

/-- Session creation at attach of a bridge of the given variant (10_state.md R43, 70_reset_and_hazards.md R146). -/
def State.attach (variant : Nat) : State where
  cfg := Config.attached variant
  sstate := .attached
  regHandle := none
  lock := .free
  outbuf := []
  outlen := none
  inbuf := []
  inlen := none
  gpo := [(0, 0xCC), (1, 0x08), (2, 0x00)]
  gpi := []
  gpiValid := false
  ctxs := []
  hist := []
  openTxn := false
  hostLog := []
  cur := 0
  port := []
  dstPort := []
  sends := []
  recvs := []
  regs := []
  quanta := []

/-- The machine right after reset: the session just created (70_reset_and_hazards.md R146). -/
def State.reset : State := State.attach Config.openVariant

end Sys2Proof.Machine
end

