-- ==== Sys2Proof/Machine/Flags.lean ====
section
/-! DEFINITION. Every status bit and flag computation: the ACK checks, the direction and value bits of a pin status, the
`LAST` flag, the ghost bit `OPEN_TXN`, and the status codes. -/

namespace Sys2Proof.Machine

/-- A status byte is the ACK marker (00_scope.md R8, 30_encoding.md R80). -/
def isAck (b : Byte) : Bool := b == Config.ack

/-- The least index of a status byte that is not the ACK marker (41_i2c.md R97; 60_exceptions.md R133 item 7). -/
def firstNack : Bytes → Option Nat
  | [] => none
  | b :: bs => if isAck b then (firstNack bs).map (· + 1) else some 0

/-- `DIR`, bit 7 of a pin status: 1 for an output (10_state.md R34). -/
def dirBit (b : Byte) : Bool := b.getLsbD 7

/-- `VAL`, bit 6 of a pin status: the current value of the pin (10_state.md R34). -/
def valBit (b : Byte) : Bool := b.getLsbD 6

/-- `LAST`: set exactly when the chunk reaches the end of the message (10_state.md R39, 41_i2c.md R95). -/
def lastFlag (off n len : Nat) : Bool := decide (off + n = len)

/-- A packet contains START as a sub-command, not as data (10_state.md R41; 30_encoding.md R75). -/
def hasStart (speed : Fin 20) (p : Bytes) : Bool := ((decodePacket speed p).getD []).contains .start

/-- A packet contains STOP as a sub-command, not as data (10_state.md R41; 30_encoding.md R75). -/
def hasStop (speed : Fin 20) (p : Bytes) : Bool := ((decodePacket speed p).getD []).contains .stop

/-- `OPEN_TXN` after a packet was handed to Send (10_state.md R41; DEDUCED, notes/assumptions/21.md): STOP closes,
START without STOP opens, anything else leaves it. -/
def txnAfter (speed : Fin 20) (opened : Bool) (p : Bytes) : Bool :=
  if hasStop speed p then false else if hasStart speed p then true else opened

/-- The status codes of the request port (60_exceptions.md R131). -/
def Err.code : Err → Nat
  | .ioError _ => 1
  | .protocolError _ _ _ => 2
  | .nackError _ _ => 3
  | .invalidArgument _ => 4

/-- The classes a caller sees (60_exceptions.md R131). -/
inductive CallerClass where
  | ioError
  | protocolError
  | timeout
  | invalidArgument
deriving DecidableEq, Repr

/-- The caller-visible class of an error: a NACK is seen as a time-out (60_exceptions.md R131). -/
def Err.callerClass : Err → CallerClass
  | .ioError _ => .ioError
  | .protocolError _ _ _ => .protocolError
  | .nackError _ _ => .timeout
  | .invalidArgument _ => .invalidArgument

/-- The status code of a result; an operation with no status has none (60_exceptions.md R131, R132). -/
def Result.code : Result → Option Nat
  | .ok => some 0
  | .okCount _ => some 0
  | .okBit _ => some 0
  | .okByte _ => some 0
  | .err e => some e.code
  | .noStatus => none

end Sys2Proof.Machine
end

