-- ==== Sys2Proof/Machine/Operands.lean ====
section
/-! DEFINITION. Every operand form: the engine of each operation, the pin range, the messages of an I2C operation and their 10-bit check, and the
chunk plans of 41_i2c.md R95 and R100. -/

namespace Sys2Proof.Machine

/-- The engine that runs an operation (00_scope.md R1). -/
inductive EngineKind where
  | i2c
  | gpio
  | initSeq
  | none
deriving DecidableEq, Repr

/-- The engine of each instruction; only requests and message records have one. -/
def engineOf : Instr → EngineKind
  | .i2cXfer _ => .i2c
  | .i2cWrite _ _ => .i2c
  | .i2cRead _ _ => .i2c
  | .i2cMsgTen _ _ _ _ => .i2c
  | .gpioRead _ => .gpio
  | .gpioReadAll _ => .gpio
  | .gpioWrite _ _ => .gpio
  | .gpioWriteMultiple _ _ => .gpio
  | .gpioDirInput _ => .gpio
  | .gpioDirOutput _ _ => .gpio
  | .gpioDirGet _ => .gpio
  | .init => .initSeq
  | .teardown => .none
  | .stream => .none
  | .start => .none
  | .stop => .none
  | .setSpeed _ => .none
  | .endPkt => .none
  | .outSub _ => .none
  | .inSub _ => .none
  | .gpioFrame _ => .none
  | .exchange _ _ => .none
  | .acquire => .none
  | .release => .none
  | .gpioRt => .none

/-- The pin operand names a pin (42_gpio.md R112). -/
def pinOk (p : Byte) : Bool := decide (p.toNat < Config.gpioPins)

/-- Bit `p` of a mask or a bit pattern (42_gpio.md R115, R117). -/
def maskBit (mask : Byte) (p : Nat) : Bool := mask.getLsbD p

/-- The messages an I2C operation runs: a batch's, or the single message record's own. -/
def msgsOf : Instr → List Msg
  | .i2cXfer msgs => msgs
  | .i2cWrite a src => [.write a src]
  | .i2cRead a len => [.read a len]
  | .i2cMsgTen rd a len p => [.ten rd a len p]
  | _ => []

/-- The index of the first 10-bit message of a batch (41_i2c.md R104). -/
def firstTen (msgs : List Msg) : Option Nat := msgs.findIdx? Msg.isTen

/-- The result of a batch whose messages all succeeded: the count for I2C_XFER (41_i2c.md R104), `Ok` for a single
message record (R98, R102). -/
def xferResult : Instr → Result
  | .i2cXfer msgs => .okCount msgs.length
  | _ => .ok

/-- The operations whose errors are swallowed (42_gpio.md R121; 60_exceptions.md R134). -/
def isFireAndForget : Instr → Bool
  | .gpioWrite _ _ => true
  | .gpioWriteMultiple _ _ => true
  | _ => false

/-- A write chunk `(off, n, first, last)` (41_i2c.md R95). -/
structure Chunk where
  off : Nat
  n : Nat
  first : Bool
  last : Bool
deriving DecidableEq, Repr

/-- The write chunk at offset `off` of a message of `len` bytes (41_i2c.md R95). -/
def wchunkAt (cfg : Config) (len off : Nat) (first : Bool) : Chunk :=
  let n := min (len - off) (if first then cfg.wchunkFirst else cfg.wchunkCont)
  { off := off, n := n, first := first, last := lastFlag off n len }

/-- The loop of `wchunks` from offset `off` on. -/
def wchunksFrom (cfg : Config) (len : Nat) : Nat → Nat → Bool → List Chunk
  | 0, _, _ => []
  | fuel + 1, off, first =>
    let ch := wchunkAt cfg len off first
    if ch.last then [ch] else ch :: wchunksFrom cfg len fuel (off + ch.n) false

/-- `wchunks(L)`, the write chunk plan (41_i2c.md R95), of which R108 item 1 speaks (Laws/I2cProperties.lean). -/
def wchunks (cfg : Config) (len : Nat) : List Chunk := wchunksFrom cfg len (len + 1) 0 true

/-- The length of the read chunk at offset `off` (41_i2c.md R100). -/
def rchunkLen (cfg : Config) (len off : Nat) : Nat := min (len - off) cfg.rchunk

/-- The loop of the read chunk plan from offset `off` on: pairs `(off, n)`. -/
def rchunksFrom (cfg : Config) (len : Nat) : Nat → Nat → List (Nat × Nat)
  | 0, _ => []
  | fuel + 1, off =>
    if off < len then (off, rchunkLen cfg len off) :: rchunksFrom cfg len fuel (off + rchunkLen cfg len off) else []

/-- The read chunk plan (41_i2c.md R100). -/
def rchunks (cfg : Config) (len : Nat) : List (Nat × Nat) := rchunksFrom cfg len (len + 1) 0

/-- The receive length of a write chunk: the OUT length field (41_i2c.md R97). -/
def writeReplyLen (n : Nat) (first : Bool) : Nat := if first then n + 1 else n

end Sys2Proof.Machine
end

