-- ==== Sys2Proof/Machine/Ops.lean ====
section
/-! DEFINITION. The operations the rules share: reading and writing byte spaces, the context fields, the lock
(40_transport.md R86, R87), the bulk exchange (R89 to R92), and the abort and completion of an operation
(60_exceptions.md R134), which are this block's taking of an exception; there is no return from one (R136). -/

namespace Sys2Proof.Machine

/-! ## Byte spaces -/

/-- The byte at an address; none is `Unknown`. -/
def Memory.byteAt : Memory → Nat → Option Byte
  | [], _ => none
  | (x, b) :: m, a => if x = a then some b else Memory.byteAt m a

/-- Write one byte. -/
def Memory.put : Memory → Nat → Byte → Memory
  | [], a, b => [(a, b)]
  | (x, y) :: m, a, b =>
    if a < x then (a, b) :: (x, y) :: m
    else if a = x then (a, b) :: m
    else (x, y) :: Memory.put m a b

/-- Write bytes at consecutive addresses (20_memory.md R47: every other byte is unchanged). -/
def Memory.putBytes : Memory → Nat → Bytes → Memory
  | m, _, [] => m
  | m, a, b :: bs => Memory.putBytes (Memory.put m a b) (a + 1) bs

/-- Read `n` bytes at consecutive addresses; none if one of them is `Unknown`. -/
def Memory.bytesAt (m : Memory) : Nat → Nat → Option Bytes
  | _, 0 => some []
  | a, n + 1 =>
    match Memory.byteAt m a, Memory.bytesAt m (a + 1) n with
    | some b, some bs => some (b :: bs)
    | _, _ => none

/-- Every listed address lies below `n`. -/
def Memory.below (n : Nat) (m : Memory) : Prop := ∀ cell ∈ m, cell.1 < n

/-- `MemRead(SRC, off, n)` (20_memory.md R46). -/
def memRead (src : Bytes) (off n : Nat) : Bytes := (src.drop off).take n

/-- `MemWrite(DST, off, s)` (20_memory.md R47). -/
def memWrite (dst : Memory) (off : Nat) (s : Bytes) : Memory := dst.putBytes off s

/-! ## Contexts -/

/-- Change context `c`, if it exists. -/
def State.modCtx (s : State) (c : Nat) (f : Ctx → Ctx) : State := { s with ctxs := s.ctxs.modify c f }

/-- `phase <- p` in context `c` (10_state.md R38). -/
def State.setPhase (s : State) (c : Nat) (p : Phase) : State := s.modCtx c fun x => { x with phase := p }

/-- `Done` and `Failed` are final (10_state.md R38). -/
def Phase.isFinal : Phase → Bool
  | .done _ => true
  | .failed _ => true
  | _ => false

/-- The phases in which a context holds the lock (10_state.md R38). -/
def Phase.holdsLock : Phase → Bool
  | .build => true
  | .xchg => true
  | .check => true
  | .commit => true
  | _ => false

/-- A context is in flight: admitted and not yet final (60_exceptions.md R144). -/
def Ctx.inFlight (x : Ctx) : Bool := !x.phase.isFinal

/-- The context of a newly admitted request (10_state.md R37), with the caller's DST buffers. -/
def newCtx (op : Instr) (dst : List Memory) : Ctx where
  op := op
  phase := .admitting
  off := 0
  n := none
  first := true
  last := none
  idx := 0
  pkt := []
  res := none
  dst := dst

/-- The DST buffers of an operation: one for each message, the caller's as far as it handed any over. -/
def dstFor (op : Instr) (given : List Memory) : List Memory :=
  (List.range (msgsOf op).length).map fun j => given.getD j []

/-- Admit a request: its context comes into being and takes the DST buffers handed over with it. -/
def State.admitOp (s : State) (op : Instr) : State :=
  { s with ctxs := s.ctxs ++ [newCtx op (dstFor op s.dstPort)], dstPort := [] }

/-! ## The lock -/

/-- `Acquire()` of context `c` (40_transport.md R86): one atomic step when the lock is free; otherwise the context
waits and nothing else changes. -/
def acquire (c : Nat) (s : State) : Except Fault State :=
  match s.lock with
  | .free => .ok (({ s with lock := .held c } : State).setPhase c .build)
  | .held d => if d = c then .error .lockReentry else .ok (s.setPhase c .waitLock)

/-- `Release()` of context `c` (40_transport.md R87). -/
def release (c : Nat) (s : State) : Except Fault State :=
  if s.lock = .held c then .ok { s with lock := .free } else .error .lockNotHeld

/-! ## Abort and completion -/

/-- The result an abort hands to the caller (60_exceptions.md R134): nothing for the fire-and-forget operations. -/
def abortResult (op : Instr) (e : Err) : Result := if isFireAndForget op then .noStatus else .err e

/-- The message the context stands at. -/
def Ctx.msg (x : Ctx) : Option Msg := (msgsOf x.op)[x.idx]?

/-- The chunk in hand belongs to a write and is not its last (10_state.md R41). -/
def Ctx.midWrite (x : Ctx) : Bool :=
  match x.msg with
  | some (.write _ _) => x.last == some false
  | _ => false

/-- Context `c` stands in a chunk of a write that is not its last. -/
def State.midWrite (s : State) (c : Nat) : Bool :=
  match s.ctxs[c]? with
  | some x => x.midWrite
  | none => false

/-- The context `s.cur`, when it is building under the lock (10_state.md R38). -/
def State.building (s : State) : Option Ctx :=
  match s.ctxs[s.cur]? with
  | some x => if x.phase = .build ∧ s.lock = .held s.cur then some x else none
  | none => none

/-- Context `c` runs INIT. -/
def State.runsInit (s : State) (c : Nat) : Bool :=
  match s.ctxs[c]? with
  | some x => x.op == .init
  | none => false

/-- A context that failed with `e` (60_exceptions.md R134). -/
def Ctx.fail (e : Err) (x : Ctx) : Ctx := { x with phase := .failed e, res := some (abortResult x.op e) }

/-- A context that completed with `r` (60_exceptions.md R134). -/
def Ctx.finish (r : Result) (x : Ctx) : Ctx := { x with phase := .done r, res := some r }

/-- `raise E(info)` in context `c` (60_exceptions.md R134): the lock is released if held, the context fails, a failed
INIT makes the session Dead (R135, R137), and a write aborted before its last chunk leaves `OPEN_TXN = 1` (R135;
10_state.md R41), which it can only do inside its critical section. -/
def abort (c : Nat) (e : Err) (s : State) : State :=
  { s with
    lock := if s.lock = .held c then .free else s.lock
    openTxn := s.openTxn || (decide (s.lock = .held c) && s.midWrite c)
    ctxs := s.ctxs.modify c (Ctx.fail e)
    sstate := if s.runsInit c then .dead else s.sstate }

/-- `return v` in context `c` (60_exceptions.md R134). -/
def complete (c : Nat) (r : Result) (s : State) : State := s.modCtx c (Ctx.finish r)

/-! ## The exchange -/

/-- What an operation that may raise an error answers: a model fault, an error to abort with, or the state to go on
from. -/
inductive Attempt where
  | fault (f : Fault)
  | fail (e : Err) (s : State)
  | ok (s : State)

/-- Raise the error of an attempt in context `c`. -/
def Attempt.orAbort (c : Nat) : Attempt → Except Fault State
  | .fault f => .error f
  | .fail e s => .ok (abort c e s)
  | .ok s => .ok s

/-- The bridge's answer to one bulk-OUT transfer of `len` bytes (40_transport.md R90), and the answers left. A bridge
that gives no more answers is a non-responding device (R92; notes/assumptions/2.md). -/
def sendDraw (len : Nat) : List SendAns → SendAns × List SendAns
  | [] => (.timeout, [])
  | .ok k :: rest => (.ok (min k len), rest)
  | a :: rest => (a, rest)

/-- The bridge's answer to one bulk-IN transfer of at most `m` bytes (40_transport.md R91), and the answers left. -/
def recvDraw (m : Nat) : List RecvAns → RecvAns × List RecvAns
  | [] => (.timeout, [])
  | .ok r :: rest => (.ok (r.take m), rest)
  | a :: rest => (a, rest)

/-- Append an exchange to `HIST` (10_state.md R42) and bring `OPEN_TXN` up to date (R41). -/
def State.record (s : State) (e : Exch) : State :=
  { s with hist := s.hist ++ [e], openTxn := txnAfter s.cfg.speedCode s.openTxn e.sent }

/-- `OUTBUF[0..len(o)) <- o`, `OUTLEN <- len(o)`, and one answer of the bridge to the Send is drawn. -/
def State.sent (s : State) (o : Bytes) : State :=
  { s with outbuf := s.outbuf.putBytes 0 o, outlen := some o.length, sends := (sendDraw o.length s.sends).2 }

/-- One answer of the bridge to the Recv is drawn. -/
def State.drewRecv (s : State) (m : Nat) : State := { s with recvs := (recvDraw m s.recvs).2 }

/-- `INBUF[0..len(r)) <- r`, `INLEN <- len(r)`. -/
def State.received (s : State) (r : Bytes) : State :=
  { s with inbuf := s.inbuf.putBytes 0 r, inlen := some r.length }

/-- `Exchange(o, m)` of context `c` (40_transport.md R89). After it the reply stands in `INBUF[0..INLEN)`. -/
def exchange (c : Nat) (o : Bytes) (m : Nat) (s : State) : Attempt :=
  if s.lock ≠ .held c then .fault .lockNotHeld
  else if o.length = 0 ∨ Config.scratchLen < o.length ∨ Config.scratchLen < m then .fault .badExchange
  else
    let s1 := (s.setPhase c .xchg).sent o
    match (sendDraw o.length s.sends).1 with
    | .ok k =>
      if m = 0 then .ok ((s1.record ⟨c, o, .ok k, 0, none⟩).setPhase c .check)
      else
        match (recvDraw m s.recvs).1 with
        | .ok r => .ok ((((s1.drewRecv m).received r).record ⟨c, o, .ok k, m, some (.ok r)⟩).setPhase c .check)
        | a => .fail (.ioError .recv) ((s1.drewRecv m).record ⟨c, o, .ok k, m, some a⟩)
    | a => .fail (.ioError .send) (s1.record ⟨c, o, a, m, none⟩)

/-- The reply of the last exchange, `INBUF[0..INLEN)` (10_state.md R31). -/
def State.reply (s : State) : Option Bytes :=
  match s.inlen with
  | none => none
  | some n => s.inbuf.bytesAt 0 n

/-! ## Outcomes -/

/-- The outcome of a step that can only go on or fault. -/
def toOutcome : Except Fault State → Host.Outcome State Fault Refusal
  | .ok s => .next s
  | .error f => .fault f

end Sys2Proof.Machine
end

