-- ==== Sys2Proof/Machine/Wire.lean ====
section
/-! DEFINITION. The packets the block builds (30_encoding.md R77) and the meaning of each wire row of the opcode table:
a context that is building appends the sub-command to its packet, as the builders of 41_i2c.md R96 and R101 do line by line
(notes/assumptions/12.md). What the bridge then does with a byte is the bridge's (00_scope.md R6). -/

namespace Sys2Proof.Machine

/-! ## Packet builders -/

/-- `wpkt`, the write packet builder (41_i2c.md R96). -/
def wpkt (a : BitVec 7) (src : Bytes) (off n : Nat) (first last : Bool) : Bytes :=
  [streamByte]
    ++ (if first then [startByte, outByte (n + 1), addrByte a false] else [outByte n])
    ++ memRead src off n
    ++ (if last then [stopByte] else [])
    ++ [endByte]

/-- `rpkt`, the read packet builder (41_i2c.md R101). -/
def rpkt (cfg : Config) (a : BitVec 7) (n : Nat) : Bytes :=
  [streamByte, startByte, outByte 1, addrByte a true]
    ++ (if 1 < n then [inByte (n - 1)] else [])
    ++ [cfg.finalIn]
    ++ [stopByte, endByte]

/-- The speed command `AA (60 | SPEED_CODE_100K) 00` (43_init.md R125). -/
def speedPkt (cfg : Config) : Bytes :=
  [streamByte, setSpeedByte (BitVec.ofNat 5 cfg.speedCode.val), endByte]

/-- The packet the context builds in its phase `Build`: that of the chunk in hand, or INIT's speed command (30_encoding.md
R77); none when it builds no packet there, or has no chunk in hand. -/
def Ctx.packet (cfg : Config) (x : Ctx) : Option Bytes :=
  match x.msg, x.n with
  | some (.write a src), some n => some (wpkt a src x.off n x.first (x.last.getD false))
  | some (.read a _), some n => some (rpkt cfg a n)
  | _, _ => if x.op = .init ∧ x.idx = 0 then some (speedPkt cfg) else none

/-! ## Emitting a sub-command -/

/-- Sub-commands up to here, none of them END: another sub-command may follow (30_encoding.md R62, R75). -/
def subsOpen : Nat → Bytes → Bool
  | _, [] => true
  | 0, _ :: _ => false
  | fuel + 1, b :: bs =>
    match decodeSub (b :: bs) with
    | none => false
    | some (.endPkt, _) => false
    | some (_, rest) => subsOpen fuel rest

/-- The packet has its stream marker and no END: it stands in sub-command position (30_encoding.md R62). -/
def inSubPosition : Bytes → Bool
  | [] => false
  | b :: rest => b == streamByte && subsOpen rest.length rest

/-- The sub-commands the block never emits (30_encoding.md R67, R76): OUT of no bytes, IN of no bytes unless it is `FINAL_IN`,
and SET-SPEED with another code than `SPEED_CODE_100K`. -/
def neverEmitted (cfg : Config) : Instr → Bool
  | .outSub data => data.isEmpty
  | .inSub n => n == 0 && cfg.finalIn != 0xC0
  | .setSpeed speed => speed.toNat != cfg.speedCode.val
  | _ => false

/-- Append an instruction's bytes to what `keep` leaves of the packet so far, when the packet the context builds begins
with the outcome (30_encoding.md R76, R77: the block emits nothing else). -/
def emit (keep : Bytes → Bytes) (i : Instr) (s : State) : Host.Outcome State Fault Refusal :=
  match s.building with
  | none => .refused .notBuilding
  | some x =>
    match x.packet s.cfg with
    | none => .refused .wirePosition
    | some p =>
      if neverEmitted s.cfg i = false ∧ (keep x.pkt ++ encode i).isPrefixOf p = true then
        .next (s.modCtx s.cur fun x => { x with pkt := keep x.pkt ++ encode i })
      else .refused .wirePosition

/-- STREAM: the marker begins the packet, `p <- [0xAA]` (41_i2c.md R96, R101; 30_encoding.md R68). -/
def execStream (s : State) : Host.Outcome State Fault Refusal := emit (fun _ => []) .stream s

/-- START (30_encoding.md R69). -/
def execStart (s : State) : Host.Outcome State Fault Refusal := emit id .start s

/-- STOP (30_encoding.md R70). -/
def execStop (s : State) : Host.Outcome State Fault Refusal := emit id .stop s

/-- SET-SPEED: the block emits one such byte, `0x60 | SPEED_CODE_100K`, in INIT's speed command (30_encoding.md R67,
R73). -/
def execSetSpeed (speed : BitVec 5) (s : State) : Host.Outcome State Fault Refusal := emit id (.setSpeed speed) s

/-- END (30_encoding.md R74). -/
def execEndPkt (s : State) : Host.Outcome State Fault Refusal := emit id .endPkt s

/-- OUT with its data bytes (30_encoding.md R71). -/
def execOutSub (data : Bytes) (s : State) : Host.Outcome State Fault Refusal := emit id (.outSub data) s

/-- IN (30_encoding.md R72). -/
def execInSub (n : BitVec 6) (s : State) : Host.Outcome State Fault Refusal := emit id (.inSub n) s

end Sys2Proof.Machine
end

