-- ==== Sys2Proof/Machine/I2cEngine.lean ====
section
/-! DEFINITION. The I2C Transfer Engine (41_i2c.md), phase by phase: what a context of an I2C operation does in each of
its phases (10_state.md R38). `c` is the context's number and `x` its fields. -/

namespace Sys2Proof.Machine

/-- The message at index `j` begins, with `OFF <- 0` (41_i2c.md R95, R102). -/
def Ctx.enter (j : Nat) (x : Ctx) : Ctx := { x with idx := j, off := 0 }

/-- The next write chunk is chosen at `OFF`: `N <- n`, `LAST <- last` (41_i2c.md R95, R98). -/
def Ctx.chooseWrite (cfg : Config) (src : Bytes) (x : Ctx) : Ctx :=
  let ch := wchunkAt cfg src.length x.off x.first
  { x with n := some ch.n, last := some ch.last, phase := .waitLock }

/-- The next read chunk is chosen at `OFF`: `N <- min(L - OFF, RCHUNK)` (41_i2c.md R102). -/
def Ctx.chooseRead (cfg : Config) (len : Nat) (x : Ctx) : Ctx :=
  { x with n := some (rchunkLen cfg len x.off), phase := .waitLock }

/-- The loop of `I2CXfer` from the message at index `j` on (41_i2c.md R104), up to the choice of a chunk: a write has one
always (R95), a read of length 0 has none and is done (R103), a 10-bit message ends the batch (R105), and after the last
message the batch returns `r`. Only a write sets `FIRST` again; `N` and `LAST` stay until a chunk is chosen (10_state.md R39;
notes/assumptions/42.md). -/
def beginMsgs (c : Nat) (r : Result) : Nat → List Msg → State → State
  | _, [], s => complete c r s
  | j, .ten _ _ _ _ :: _, s => abort c (.invalidArgument (.tenBitAddress j)) (s.modCtx c (Ctx.enter j))
  | j, .write _ src :: _, s => s.modCtx c fun x => ({ x.enter j with first := true }).chooseWrite s.cfg src
  | j, .read _ len :: rest, s =>
    if 0 < len then s.modCtx c fun x => (x.enter j).chooseRead s.cfg len
    else beginMsgs c r (j + 1) rest (s.modCtx c (Ctx.enter j))

/-- Phase `Admit`: the 10-bit prescan (41_i2c.md R104; R108 item 4), before any Acquire (60_exceptions.md R133 item 3); then the batch
begins. -/
def i2cAdmit (c : Nat) (x : Ctx) (s : State) : State :=
  match s.cfg.tenBitCheck, firstTen (msgsOf x.op) with
  | .prescan, some j => abort c (.invalidArgument (.tenBitAddress j)) s
  | _, _ => beginMsgs c (xferResult x.op) 0 (msgsOf x.op) s

/-- The message at `IDX` is done: the batch goes on with the next (41_i2c.md R104). -/
def i2cNextMsg (c : Nat) (x : Ctx) (s : State) : State :=
  beginMsgs c (xferResult x.op) (x.idx + 1) ((msgsOf x.op).drop (x.idx + 1)) s

/-- Phase `Next`: choose the next chunk, the next message, or completion (41_i2c.md R98, R102, R104). A write is done when
its first chunk has committed and no byte is left. -/
def i2cNext (c : Nat) (x : Ctx) (s : State) : State :=
  match x.msg with
  | none => complete c (xferResult x.op) s
  | some (.ten _ _ _ _) => abort c (.invalidArgument (.tenBitAddress x.idx)) s
  | some (.write _ src) =>
    if x.first = false ∧ x.off = src.length then i2cNextMsg c x s else s.modCtx c (Ctx.chooseWrite s.cfg src)
  | some (.read _ len) => if x.off < len then s.modCtx c (Ctx.chooseRead s.cfg len) else i2cNextMsg c x s

/-- Phase `Build`: `PKT <- wpkt(..)` or `PKT <- rpkt(..)` (41_i2c.md R96, R98, R101, R102). -/
def i2cBuild (c : Nat) (x : Ctx) (s : State) : Except Fault State :=
  match x.packet s.cfg with
  | some p => .ok (s.modCtx c fun x => { x with pkt := p, phase := .xchg })
  | none => .error .unwrittenRead

/-- Phase `Xchg`: the exchange of the chunk's packet (41_i2c.md R97, R98, R102). -/
def i2cXchg (c : Nat) (x : Ctx) (s : State) : Except Fault State :=
  match x.msg, x.n with
  | some (.write _ _), some n => (exchange c x.pkt (writeReplyLen n x.first) s).orAbort c
  | some (.read _ _), some _ => (exchange c x.pkt s.cfg.maxSeg s).orAbort c
  | _, _ => .error .unwrittenRead

/-- The check of a write chunk's reply (41_i2c.md R97): the length first, then every status byte. -/
def checkWrite (off m : Nat) (r : Bytes) : Option Err :=
  if r.length ≠ m then some (.protocolError off m r.length)
  else (firstNack r).map fun i => .nackError off i

/-- The check of a read chunk's reply (41_i2c.md R102; R108 item 3): (a) the length, then (b) the status byte. -/
def checkRead (off n : Nat) (r : Bytes) : Option Err :=
  if r.length ≠ n + 1 then some (.protocolError off (n + 1) r.length)
  else
    match r with
    | b :: _ => if isAck b then none else some (.nackError off 0)
    | [] => some (.nackError off 0)

/-- Phase `Check`: validate the reply in INBUF; a good write chunk releases the lock, its bytes are done (10_state.md R37;
notes/assumptions/42.md) and `FIRST` is cleared (R39); a good read chunk goes on to `Commit` (41_i2c.md R98, R102). -/
def i2cCheck (c : Nat) (x : Ctx) (s : State) : Except Fault State :=
  match x.msg, x.n, s.reply with
  | some (.write _ _), some n, some r =>
    match checkWrite x.off (writeReplyLen n x.first) r with
    | some e => .ok (abort c e s)
    | none =>
      match release c s with
      | .error f => .error f
      | .ok s1 => .ok (s1.modCtx c fun x => { x with off := x.off + n, first := false, phase := .next })
  | some (.read _ _), some n, some r =>
    match checkRead x.off n r with
    | some e => .ok (abort c e s)
    | none => .ok (s.setPhase c .commit)
  | _, _, _ => .error .unwrittenRead

/-- Phase `Commit` of a read: copy the payload from INBUF to DST inside the lock, release, advance `OFF`
(41_i2c.md R102, R108 item 2; D53). That a read's context which a single GPIO_RT left in `Commit` copies that reply unchecked is
the model's choice (notes/assumptions/35.md). -/
def i2cCommit (c : Nat) (x : Ctx) (s : State) : Except Fault State :=
  match x.msg, x.n, s.reply with
  | some (.read _ _), some n, some r =>
    match release c s with
    | .error f => .error f
    | .ok s1 =>
      .ok (s1.modCtx c fun x =>
        { x with
          dst := x.dst.set x.idx (memWrite (x.dst.getD x.idx []) x.off ((r.drop 1).take n))
          off := x.off + n
          phase := .next })
  | _, _, _ => .error .unwrittenRead

end Sys2Proof.Machine
end

