-- ==== Sys2Proof/Machine/GpioEngine.lean ====
section
/-! DEFINITION. The GPIO Engine (42_gpio.md): the frame each operation forms, the result each extracts, and the
round-trip GPIO_RT they share, phase by phase. `c` is the context's number and `x` its fields. -/

namespace Sys2Proof.Machine

/-! ## Frames -/

/-- Clear: `GPO[3..11) <- zeros(8)` (42_gpio.md R109). -/
def clearPins (gpo : Memory) : Memory := gpo.putBytes 3 (List.replicate 8 0x00)

/-- Apply: request a direction and a value for pin `p` (42_gpio.md R110). -/
def applyPin (gpo : Memory) (p : Nat) (dir val : Bool) : Memory := gpo.put (3 + p) (pinctl dir true val)

/-- The cached status of pin `p`: `PINSTAT[p] = GPI[3+p]`, which no rule may read while `GPI_VALID = 0`
(10_state.md R34). -/
def State.pinStat (s : State) (p : Nat) : Except Fault Byte :=
  if s.gpiValid then
    match s.gpi.byteAt (3 + p) with
    | some b => .ok b
    | none => .error .unwrittenRead
  else .error .unwrittenRead

/-- The frame of GPIO_READ: no pin is requested (42_gpio.md R114). -/
def frameGpioRead (s : State) : Except Fault Memory := .ok (clearPins s.gpo)

/-- The frame of GPIO_READ_ALL (42_gpio.md R115). -/
def frameGpioReadAll (s : State) : Except Fault Memory := .ok (clearPins s.gpo)

/-- The frame of GPIO_DIR_GET (42_gpio.md R120). -/
def frameGpioDirGet (s : State) : Except Fault Memory := .ok (clearPins s.gpo)

/-- The frame of GPIO_WRITE: the last-known direction is kept (42_gpio.md R116). -/
def frameGpioWrite (p : Byte) (v : Bool) (s : State) : Except Fault Memory :=
  match s.pinStat p.toNat with
  | .error f => .error f
  | .ok b => .ok (applyPin (clearPins s.gpo) p.toNat (dirBit b) v)

/-- The loop of GPIO_WRITE_MULTIPLE over the pins listed: those in `mask` whose cached direction is output are
requested (42_gpio.md R117). -/
def frameMultiple (mask bits : Byte) (s : State) : List Nat → Memory → Except Fault Memory
  | [], g => .ok g
  | p :: ps, g =>
    if maskBit mask p then
      match s.pinStat p with
      | .error f => .error f
      | .ok b => frameMultiple mask bits s ps (if dirBit b then applyPin g p true (maskBit bits p) else g)
    else frameMultiple mask bits s ps g

/-- The frame of GPIO_WRITE_MULTIPLE (42_gpio.md R117). -/
def frameGpioWriteMultiple (mask bits : Byte) (s : State) : Except Fault Memory :=
  frameMultiple mask bits s (List.range 8) (clearPins s.gpo)

/-- The frame of GPIO_DIR_INPUT: the cached value is copied (42_gpio.md R118). -/
def frameGpioDirInput (p : Byte) (s : State) : Except Fault Memory :=
  match s.pinStat p.toNat with
  | .error f => .error f
  | .ok b => .ok (applyPin (clearPins s.gpo) p.toNat false (valBit b))

/-- The frame of GPIO_DIR_OUTPUT: the value is the operand, or in `copy_or` mode the cached value OR the operand
(42_gpio.md R119). -/
def frameGpioDirOutput (p : Byte) (v : Bool) (s : State) : Except Fault Memory :=
  match s.cfg.dirOutValueMode with
  | .assign => .ok (applyPin (clearPins s.gpo) p.toNat true v)
  | .copyOr =>
    match s.pinStat p.toNat with
    | .error f => .error f
    | .ok b => .ok (applyPin (clearPins s.gpo) p.toNat true (valBit b || v))

/-- The frame of INIT's idle pin: output-high at `IDLE_PIN`, every other pin left alone (43_init.md R126). -/
def frameIdlePin (s : State) : Except Fault Memory := .ok (applyPin (clearPins s.gpo) s.cfg.idlePin.val true true)

/-- The frame an operation forms in GPO in its phase `Build`. -/
def gpioFrameOf (op : Instr) (s : State) : Except Fault Memory :=
  match op with
  | .gpioRead _ => frameGpioRead s
  | .gpioReadAll _ => frameGpioReadAll s
  | .gpioWrite p v => frameGpioWrite p v s
  | .gpioWriteMultiple mask bits => frameGpioWriteMultiple mask bits s
  | .gpioDirInput p => frameGpioDirInput p s
  | .gpioDirOutput p v => frameGpioDirOutput p v s
  | .gpioDirGet _ => frameGpioDirGet s
  | _ => frameIdlePin s

/-- The context forms a GPIO frame in its phase `Build`: it runs a GPIO operation, or INIT past its speed command
(30_encoding.md R77; 43_init.md R124). -/
def Ctx.buildsFrame (x : Ctx) : Bool := engineOf x.op == .gpio || (x.op == .init && x.idx != 0)

/-- GPIO_FRAME: the context forms its operation's frame in GPO (42_gpio.md R109, R110), which is `CC 08 00` and the
control bytes the row gives; it never forms another (30_encoding.md R77, R78; notes/assumptions/13.md). -/
def execGpioFrame (pins : List PinCtl) (s : State) : Host.Outcome State Fault Refusal :=
  match s.building with
  | none => .refused .notBuilding
  | some x =>
    if x.buildsFrame then
      match gpioFrameOf x.op s with
      | .error f => .fault f
      | .ok g =>
        if g.bytesAt 3 Config.gpioPins = some (pins.map PinCtl.byte) then .next { s with gpo := g }
        else .refused .wirePosition
    else .refused .wirePosition

/-! ## Results, read from the mirror the round-trip has just filled -/

/-- The result of GPIO_READ: bit 6 of the pin's status (42_gpio.md R114). -/
def resultGpioRead (p : Byte) (s : State) : Except Fault Result :=
  match s.pinStat p.toNat with
  | .error f => .error f
  | .ok b => .ok (.okBit (valBit b))

/-- The loop of GPIO_READ_ALL: the value bit of every listed pin in `mask` goes to its place (42_gpio.md R115). -/
def collectValues (mask : Byte) (s : State) : List Nat → Byte → Except Fault Byte
  | [], acc => .ok acc
  | p :: ps, acc =>
    if maskBit mask p then
      match s.pinStat p with
      | .error f => .error f
      | .ok b => collectValues mask s ps (acc ||| (bitByte (valBit b) <<< p))
    else collectValues mask s ps acc

/-- The result of GPIO_READ_ALL (42_gpio.md R115). -/
def resultGpioReadAll (mask : Byte) (s : State) : Except Fault Result :=
  match collectValues mask s (List.range 8) 0x00 with
  | .error f => .error f
  | .ok b => .ok (.okByte b)

/-- The result of GPIO_DIR_GET: bit 7 of the pin's status, 1 for an output (42_gpio.md R120). -/
def resultGpioDirGet (p : Byte) (s : State) : Except Fault Result :=
  match s.pinStat p.toNat with
  | .error f => .error f
  | .ok b => .ok (.okBit (dirBit b))

/-- The result of an operation whose round-trip succeeded. -/
def gpioResultOf (op : Instr) (s : State) : Except Fault Result :=
  match op with
  | .gpioRead p => resultGpioRead p s
  | .gpioReadAll mask => resultGpioReadAll mask s
  | .gpioWrite _ _ => .ok .noStatus
  | .gpioWriteMultiple _ _ => .ok .noStatus
  | .gpioDirInput _ => .ok .ok
  | .gpioDirOutput _ _ => .ok .ok
  | .gpioDirGet p => resultGpioDirGet p s
  | _ => .ok .ok

/-! ## The round-trip (42_gpio.md R111) -/

/-- A failed round-trip: every byte of the mirror becomes `Unknown` and `GPI_VALID <- 0`. -/
def State.dropMirror (s : State) : State := { s with gpi := [], gpiValid := false }

/-- A good round-trip: `GPI[0..11) <- r` and `GPI_VALID <- 1`. -/
def State.setMirror (s : State) (r : Bytes) : State := { s with gpi := s.gpi.putBytes 0 r, gpiValid := true }

/-- The exchange of the whole frame `GPO[0..11)`. -/
def roundTripXchg (c : Nat) (s : State) : Attempt :=
  match s.gpo.bytesAt 0 Config.gpioFrameLen with
  | none => .fault .unwrittenRead
  | some frame =>
    match exchange c frame Config.gpioReplyLen s with
    | .fail e s1 => .fail e s1.dropMirror
    | a => a

/-- The length check of the reply; the header is not checked. -/
def roundTripCheck (c off : Nat) (s : State) : Attempt :=
  match s.reply with
  | none => .fault .unwrittenRead
  | some r =>
    if r.length ≠ Config.gpioReplyLen then
      .fail (.protocolError off Config.gpioReplyLen r.length) s.dropMirror
    else .ok (s.setPhase c .commit)

/-- The mirror takes the reply. -/
def roundTripCommit (s : State) : Except Fault State :=
  match s.reply with
  | none => .error .unwrittenRead
  | some r => .ok (s.setMirror r)

/-- Go on from a good attempt. -/
def Attempt.andThen (a : Attempt) (k : State → Attempt) : Attempt :=
  match a with
  | .ok s => k s
  | .fault f => .fault f
  | .fail e s => .fail e s

/-- `GpioRT()` of context `c`, whole (42_gpio.md R111). -/
def roundTrip (c off : Nat) (s : State) : Attempt :=
  ((roundTripXchg c s).andThen (roundTripCheck c off)).andThen fun s1 =>
    match roundTripCommit s1 with
    | .error f => .fault f
    | .ok s2 => .ok s2

/-! ## The phases of a GPIO operation -/

/-- The pin operand whose range an operation checks (42_gpio.md R112). -/
def checkedPin : Instr → Option Byte
  | .gpioRead p => some p
  | .gpioWrite p _ => some p
  | .gpioDirInput p => some p
  | .gpioDirOutput p _ => some p
  | .gpioDirGet p => some p
  | _ => none

/-- Phase `Admit`: the pin range, before any Acquire (42_gpio.md R112): InvalidArgument, or for GPIO_WRITE a silent end
(R116). -/
def gpioAdmit (c : Nat) (x : Ctx) (s : State) : State :=
  match checkedPin x.op with
  | some p =>
    if pinOk p then s.setPhase c .waitLock
    else if isFireAndForget x.op then complete c .noStatus s
    else abort c (.invalidArgument (.pinRange p)) s
  | none => s.setPhase c .waitLock

/-- Phase `Build`: form the frame in GPO (42_gpio.md R109, R110). -/
def gpioBuild (c : Nat) (x : Ctx) (s : State) : Except Fault State :=
  match gpioFrameOf x.op s with
  | .error f => .error f
  | .ok g => .ok (({ s with gpo := g } : State).setPhase c .xchg)

/-- Phase `Xchg`. -/
def gpioXchg (c : Nat) (s : State) : Except Fault State := (roundTripXchg c s).orAbort c

/-- Phase `Check`. -/
def gpioCheck (c : Nat) (x : Ctx) (s : State) : Except Fault State := (roundTripCheck c x.off s).orAbort c

/-- Phase `Commit`: the mirror takes the reply, the result is read from it, the lock is released, the operation
returns. -/
def gpioCommit (c : Nat) (x : Ctx) (s : State) : Except Fault State :=
  match roundTripCommit s with
  | .error f => .error f
  | .ok s1 =>
    match gpioResultOf x.op s1 with
    | .error f => .error f
    | .ok r =>
      match release c s1 with
      | .error f => .error f
      | .ok s2 => .ok (complete c r s2)

/-- Phase `Next`, which only a single RELEASE leads to (notes/assumptions/15.md): the operation begins its critical section
again, and makes its exchange also when it made one before the RELEASE. -/
def gpioNext (c : Nat) (s : State) : State := s.setPhase c .waitLock

/-- GPIO_RT as a single command of the context `s.cur` (42_gpio.md R111; notes/assumptions/35.md): on success the
context stands in `Commit` and still holds the lock, whichever operation it runs; an error aborts its operation. -/
def execGpioRt (s : State) : Host.Outcome State Fault Refusal :=
  toOutcome ((roundTrip s.cur 0 s).orAbort s.cur)

end Sys2Proof.Machine
end

