-- ==== Sys2Proof/Machine/InitEngine.lean ====
section
/-! DEFINITION. The Init Sequencer (43_init.md R124), phase by phase. `IDX` counts its steps (notes/assumptions/17.md):
0 is the speed command, 1 the idle-pin frame, 2 the registration. -/

namespace Sys2Proof.Machine

/-- Phase `Admit`. -/
def initAdmit (c : Nat) (s : State) : State := s.setPhase c .waitLock

/-- Phase `Build`: the speed command (43_init.md R125) or the idle-pin frame (R126). -/
def initBuild (c : Nat) (x : Ctx) (s : State) : Except Fault State :=
  if x.idx = 0 then .ok (s.modCtx c fun x => { x with pkt := speedPkt s.cfg, phase := .xchg })
  else gpioBuild c x s

/-- Phase `Xchg`: the speed command asks for no reply (43_init.md R124). -/
def initXchg (c : Nat) (x : Ctx) (s : State) : Except Fault State :=
  if x.idx = 0 then (exchange c x.pkt 0 s).orAbort c else gpioXchg c s

/-- Phase `Check`: nothing is checked after the speed command (30_encoding.md R80); it releases and goes on to step 2. -/
def initCheck (c : Nat) (x : Ctx) (s : State) : Except Fault State :=
  if x.idx = 0 then
    match release c s with
    | .error f => .error f
    | .ok s1 => .ok (s1.modCtx c fun x => { x with idx := 1, phase := .next })
  else gpioCheck c x s

/-- Phase `Commit` of the idle-pin frame: the mirror takes the reply, the lock is released. -/
def initCommit (c : Nat) (s : State) : Except Fault State :=
  match roundTripCommit s with
  | .error f => .error f
  | .ok s1 =>
    match release c s1 with
    | .error f => .error f
    | .ok s2 => .ok (s2.modCtx c fun x => { x with idx := 2, phase := .next })

/-- The host's answer to a registration, and the answers left: a host that gives no more answers hands back no handle
(43_init.md R127; notes/assumptions/3.md). -/
def regDraw : List (Option Nat) → Option Nat × List (Option Nat)
  | [] => (none, [])
  | a :: rest => (a, rest)

/-- Step 3: `RegisterBus()` (43_init.md R124, R127). A failure is fatal and reported as IOError. -/
def registerBus (c : Nat) (s : State) : State :=
  let s1 : State := { s with
    regs := (regDraw s.regs).2
    hostLog := s.hostLog ++ [.register Config.capabilities (regDraw s.regs).1] }
  match (regDraw s.regs).1 with
  | some h => complete c .ok { s1 with regHandle := some h, sstate := .initialized }
  | none => abort c (.ioError .registration) s1

/-- Phase `Next`: the idle-pin frame only for the one variant, then the registration (43_init.md R124). -/
def initNext (c : Nat) (x : Ctx) (s : State) : State :=
  if x.idx = 0 then s.setPhase c .waitLock
  else if x.idx = 1 ∧ s.cfg.variant = s.cfg.variantId then s.setPhase c .waitLock
  else registerBus c s

end Sys2Proof.Machine
end

