-- ==== Sys2Proof/Machine/Engine.lean ====
section
/-! DEFINITION. How engine contexts run: one move is one phase of one context (10_state.md R38), a run is a row of
moves, and a request admits a context and runs it (70_reset_and_hazards.md R158). Between two moves another context
may run: the schedule is data in State (notes/assumptions/4.md). -/

namespace Sys2Proof.Machine

/-- A move in phase `Admit`. -/
def moveAdmit (c : Nat) (x : Ctx) (s : State) : State :=
  match engineOf x.op with
  | .i2c => i2cAdmit c x s
  | .gpio => gpioAdmit c x s
  | .initSeq => initAdmit c s
  | .none => s

/-- A move in phase `Build`. -/
def moveBuild (c : Nat) (x : Ctx) (s : State) : Except Fault State :=
  match engineOf x.op with
  | .i2c => i2cBuild c x s
  | .gpio => gpioBuild c x s
  | .initSeq => initBuild c x s
  | .none => .ok s

/-- A move in phase `Xchg`. -/
def moveXchg (c : Nat) (x : Ctx) (s : State) : Except Fault State :=
  match engineOf x.op with
  | .i2c => i2cXchg c x s
  | .gpio => gpioXchg c s
  | .initSeq => initXchg c x s
  | .none => .ok s

/-- A move in phase `Check`. -/
def moveCheck (c : Nat) (x : Ctx) (s : State) : Except Fault State :=
  match engineOf x.op with
  | .i2c => i2cCheck c x s
  | .gpio => gpioCheck c x s
  | .initSeq => initCheck c x s
  | .none => .ok s

/-- A move in phase `Commit`. -/
def moveCommit (c : Nat) (x : Ctx) (s : State) : Except Fault State :=
  match engineOf x.op with
  | .i2c => i2cCommit c x s
  | .gpio => gpioCommit c x s
  | .initSeq => initCommit c s
  | .none => .ok s

/-- A move in phase `Next`. -/
def moveNext (c : Nat) (x : Ctx) (s : State) : State :=
  match engineOf x.op with
  | .i2c => i2cNext c x s
  | .gpio => gpioNext c s
  | .initSeq => initNext c x s
  | .none => s

/-- One move of context `c`: its phase's work. A context that does not exist or is final makes no move, and one that
waits while another holds the lock makes none either (40_transport.md R86). -/
def move (c : Nat) (s : State) : Except Fault State :=
  match s.ctxs[c]? with
  | none => .ok s
  | some x =>
    match x.phase with
    | .admitting => .ok (moveAdmit c x s)
    | .waitLock => acquire c s
    | .build => moveBuild c x s
    | .xchg => moveXchg c x s
    | .check => moveCheck c x s
    | .commit => moveCommit c x s
    | .next => .ok (moveNext c x s)
    | .done _ => .ok s
    | .failed _ => .ok s

/-- Context `c` has no move to make: it does not exist, is final, or waits while another context holds the lock. -/
def settled (c : Nat) (s : State) : Bool :=
  match s.ctxs[c]? with
  | none => true
  | some x =>
    x.phase.isFinal || (x.phase == .waitLock && match s.lock with | .free => false | .held d => d != c)

/-- At most `fuel` moves of context `c`, fewer if it settles. -/
def drive : Nat → Nat → State → Except Fault State
  | 0, _, s => .ok s
  | fuel + 1, c, s =>
    if settled c s then .ok s
    else
      match move c s with
      | .error f => .error f
      | .ok s1 => drive fuel c s1

/-- More moves than a message can take: at most six a chunk, at most one chunk a byte, and one to go on. -/
def msgBound (m : Msg) : Nat := 6 * m.length + 8

/-- More moves than an operation can take from its beginning to its end when nothing holds it up. -/
def moveBound (op : Instr) : Nat := 20 + ((msgsOf op).map msgBound).sum

/-- Run context `c` for its next quantum: as many moves as the schedule says, or until it settles when the schedule
says nothing (notes/assumptions/4.md). -/
def runCtx (c : Nat) (s : State) : Except Fault State :=
  match s.quanta with
  | q :: qs => drive q c { s with quanta := qs }
  | [] =>
    match s.ctxs[c]? with
    | none => .ok s
    | some x => drive (moveBound x.op) c s

/-- Admit a request and run its context (60_exceptions.md R144: a context starts when its request is admitted). -/
def submit (op : Instr) (s : State) : Host.Outcome State Fault Refusal :=
  toOutcome (runCtx s.ctxs.length (s.admitOp op))

/-- Why a request of the I2C or the GPIO engine is not admitted (60_exceptions.md R139; 42_gpio.md R113;
notes/assumptions/23.md for the configuration). -/
def engineRefusal (s : State) : Option Refusal :=
  if s.cfg.wf = false then some .badConfig
  else if s.sstate ≠ .initialized then some .notInitialized
  else none

/-- Submit a request of the I2C or the GPIO engine. -/
def submitAdmitted (op : Instr) (s : State) : Host.Outcome State Fault Refusal :=
  match engineRefusal s with
  | some r => .refused r
  | none => submit op s

end Sys2Proof.Machine
end

