-- ==== Sys2Proof/Machine/Gpio.lean ====
section
/-! DEFINITION. The GPIO operations as instructions (42_gpio.md). The frames, the results and the phases are in
GpioEngine.lean. -/

namespace Sys2Proof.Machine

/-- GPIO_READ: the current value of pin `p` (42_gpio.md R114). -/
def execGpioRead (p : Byte) (s : State) : Host.Outcome State Fault Refusal := submitAdmitted (.gpioRead p) s

/-- GPIO_READ_ALL: the values of the pins in `mask` (42_gpio.md R115). -/
def execGpioReadAll (mask : Byte) (s : State) : Host.Outcome State Fault Refusal := submitAdmitted (.gpioReadAll mask) s

/-- GPIO_WRITE: request value `v` on pin `p`, fire-and-forget (42_gpio.md R116). -/
def execGpioWrite (p : Byte) (v : Bool) (s : State) : Host.Outcome State Fault Refusal :=
  submitAdmitted (.gpioWrite p v) s

/-- GPIO_WRITE_MULTIPLE: request the values in `bits` on the output pins in `mask` (42_gpio.md R117). -/
def execGpioWriteMultiple (mask bits : Byte) (s : State) : Host.Outcome State Fault Refusal :=
  submitAdmitted (.gpioWriteMultiple mask bits) s

/-- GPIO_DIR_INPUT: make pin `p` an input (42_gpio.md R118). -/
def execGpioDirInput (p : Byte) (s : State) : Host.Outcome State Fault Refusal := submitAdmitted (.gpioDirInput p) s

/-- GPIO_DIR_OUTPUT: make pin `p` an output driving `v` (42_gpio.md R119). -/
def execGpioDirOutput (p : Byte) (v : Bool) (s : State) : Host.Outcome State Fault Refusal :=
  submitAdmitted (.gpioDirOutput p v) s

/-- GPIO_DIR_GET: the current direction of pin `p` (42_gpio.md R120). -/
def execGpioDirGet (p : Byte) (s : State) : Host.Outcome State Fault Refusal := submitAdmitted (.gpioDirGet p) s

end Sys2Proof.Machine
end

