-- ==== Sys2Proof/Machine/I2c.lean ====
section
/-! DEFINITION. The I2C operations as instructions (41_i2c.md). The engine's phases are in I2cEngine.lean. -/

namespace Sys2Proof.Machine

/-- I2C_XFER: run a batch of messages in order (41_i2c.md R104). -/
def execI2cXfer (msgs : List Msg) (s : State) : Host.Outcome State Fault Refusal :=
  match engineRefusal s with
  | some r => .refused r
  | none => if msgs = [] then .refused .emptyBatch else submit (.i2cXfer msgs) s

/-- I2C_WRITE: write the payload to device `a` (41_i2c.md R98; notes/assumptions/16.md). -/
def execI2cWrite (a : BitVec 7) (src : Bytes) (s : State) : Host.Outcome State Fault Refusal :=
  submitAdmitted (.i2cWrite a src) s

/-- I2C_READ: read `len` bytes from device `a` into DST (41_i2c.md R102; notes/assumptions/16.md). -/
def execI2cRead (a : BitVec 7) (len : Nat) (s : State) : Host.Outcome State Fault Refusal :=
  submitAdmitted (.i2cRead a len) s

/-- I2C_MSG_TEN: a 10-bit message is never framed; InvalidArgument with no exchange (41_i2c.md R105). -/
def execI2cMsgTen (rd : Bool) (a : Byte) (len : Nat) (p : Bytes) (s : State) : Host.Outcome State Fault Refusal :=
  submitAdmitted (.i2cMsgTen rd a len p) s

end Sys2Proof.Machine
end

