-- ==== Sys2Proof/Machine/Init.lean ====
section
/-! DEFINITION. INIT and TEARDOWN as instructions (43_init.md). The sequencer's phases are in InitEngine.lean. -/

namespace Sys2Proof.Machine

/-- An INIT was submitted on this session already (43_init.md R129; notes/assumptions/18.md). -/
def State.initSubmitted (s : State) : Bool := s.ctxs.any fun x => x.op == .init

/-- INIT: configure the bridge and bring the session up (43_init.md R124, R129). -/
def execInit (s : State) : Host.Outcome State Fault Refusal :=
  if s.cfg.wf = false then .refused .badConfig
  else if s.sstate ≠ .attached ∨ s.initSubmitted = true then .refused .badLifecycle
  else submit .init s

/-- Some context is in flight (60_exceptions.md R144). -/
def State.anyInFlight (s : State) : Bool := s.ctxs.any Ctx.inFlight

/-- `UnregisterBus(REG_HANDLE)` when the session was initialized, then `SSTATE <- Dead` (43_init.md R128). -/
def closeSession (s : State) : State :=
  match s.sstate, s.regHandle with
  | .initialized, some h =>
    { s with regHandle := none, sstate := .dead, hostLog := s.hostLog ++ [.unregister h] }
  | .initialized, none => { s with sstate := .dead }
  | _, _ => { s with sstate := .dead }

/-- TEARDOWN: destroy the session (43_init.md R128). It sends nothing and returns `()`. Like every request it is refused under
an illegal configuration (60_exceptions.md R139). -/
def execTeardown (s : State) : Host.Outcome State Fault Refusal :=
  if s.cfg.wf = false then .refused .badConfig
  else if s.anyInFlight = true ∨ s.lock ≠ .free then .refused .hostDuty
  else .next (complete s.ctxs.length .noStatus ((closeSession s).admitOp .teardown))

end Sys2Proof.Machine
end

