-- ==== Sys2Proof/Machine/Transport.lean ====
section
/-! DEFINITION. The internal operations of the transport as single commands of the context `s.cur`: ACQUIRE, RELEASE
and EXCHANGE (40_transport.md R86, R87, R89; notes/assumptions/1.md, 14.md, 15.md, 40.md). -/

namespace Sys2Proof.Machine

/-- What the rule of context `c` does before it calls `Acquire`: in `Admit` the argument checks, in `Next` the choice of the
chunk (10_state.md R38; 60_exceptions.md R133 item 3; 41_i2c.md R98). In any other phase nothing is left to do. -/
def approach (c : Nat) (s : State) : State :=
  match s.ctxs[c]? with
  | none => s
  | some x =>
    match x.phase with
    | .admitting => moveAdmit c x s
    | .next => moveNext c x s
    | _ => s

/-- Context `c` exists and has not ended. -/
def State.isLive (s : State) (c : Nat) : Bool :=
  match s.ctxs[c]? with
  | some x => x.inFlight
  | none => false

/-- ACQUIRE (40_transport.md R86): the holder faults with LockReentry; any other context comes to its Acquire, takes the
lock if it is free and else waits. A context that has ended, or that ends before its Acquire, acquires nothing
(10_state.md R38; notes/assumptions/14.md). -/
def execAcquire (s : State) : Host.Outcome State Fault Refusal :=
  if s.lock = .held s.cur then .fault .lockReentry
  else
    let s1 := approach s.cur s
    if s1.isLive s.cur then toOutcome (acquire s.cur s1) else .next s1

/-- RELEASE (40_transport.md R87), after which the context stands in `Next` (10_state.md R38). That phase, and that an exchange
made before the RELEASE and not yet committed is then made again, are the model's choices (notes/assumptions/15.md). -/
def execRelease (s : State) : Host.Outcome State Fault Refusal :=
  match release s.cur s with
  | .error f => .fault f
  | .ok s' => .next (s'.setPhase s.cur .next)

/-- EXCHANGE (40_transport.md R89); an IOError aborts the context's operation (60_exceptions.md R134). How the operation goes
on after it, and that an EXCHANGE of a GPIO context leaves the mirror to its `Check` and `Commit`, are the model's choices
(notes/assumptions/40.md), and so is that a single EXCHANGE command sends any bytes R89 admits, also ones that are none of
the five shapes of 30_encoding.md R77 (notes/assumptions/43.md). -/
def execExchange (o : Bytes) (m : Nat) (s : State) : Host.Outcome State Fault Refusal :=
  toOutcome ((exchange s.cur o m s).orAbort s.cur)

end Sys2Proof.Machine
end

