-- ==== Sys2Proof/Machine/Dispatch.lean ====
section
/-! DEFINITION. The meaning of every instruction: one arm for each row of spec/opcode_table.json. -/

namespace Sys2Proof.Machine

def exec (i : Instr) (s : State) : Host.Outcome State Fault Refusal :=
  match i with
  | .i2cXfer msgs => Sys2Proof.Machine.execI2cXfer msgs s
  | .gpioRead pin => Sys2Proof.Machine.execGpioRead pin s
  | .gpioReadAll mask => Sys2Proof.Machine.execGpioReadAll mask s
  | .gpioWrite pin val => Sys2Proof.Machine.execGpioWrite pin val s
  | .gpioWriteMultiple mask bits => Sys2Proof.Machine.execGpioWriteMultiple mask bits s
  | .gpioDirInput pin => Sys2Proof.Machine.execGpioDirInput pin s
  | .gpioDirOutput pin val => Sys2Proof.Machine.execGpioDirOutput pin val s
  | .gpioDirGet pin => Sys2Proof.Machine.execGpioDirGet pin s
  | .init => Sys2Proof.Machine.execInit s
  | .teardown => Sys2Proof.Machine.execTeardown s
  | .i2cWrite addr src => Sys2Proof.Machine.execI2cWrite addr src s
  | .i2cRead addr len => Sys2Proof.Machine.execI2cRead addr len s
  | .i2cMsgTen rd addr len payload => Sys2Proof.Machine.execI2cMsgTen rd addr len payload s
  | .stream => Sys2Proof.Machine.execStream s
  | .start => Sys2Proof.Machine.execStart s
  | .stop => Sys2Proof.Machine.execStop s
  | .setSpeed speed => Sys2Proof.Machine.execSetSpeed speed s
  | .endPkt => Sys2Proof.Machine.execEndPkt s
  | .outSub data => Sys2Proof.Machine.execOutSub data s
  | .inSub n => Sys2Proof.Machine.execInSub n s
  | .gpioFrame pins => Sys2Proof.Machine.execGpioFrame pins s
  | .exchange out m => Sys2Proof.Machine.execExchange out m s
  | .acquire => Sys2Proof.Machine.execAcquire s
  | .release => Sys2Proof.Machine.execRelease s
  | .gpioRt => Sys2Proof.Machine.execGpioRt s

end Sys2Proof.Machine
end

