-- ==== Sys2Proof/Machine/Fetch.lean ====
section
/-! DEFINITION. How the next command becomes an instruction: the bytes of a command are decoded at the place that reads
them, on behalf of a context (notes/assumptions/1.md), and how a word of the opcode table is laid there
(notes/assumptions/8.md). -/

namespace Sys2Proof.Machine

/-- Context `c` stands at byte 0 of what it is building: no packet is begun, or the one before has its END. -/
def State.atPacketStart (s : State) (c : Nat) : Bool :=
  match s.ctxs[c]? with
  | some x => !inSubPosition x.pkt
  | none => false

/-- An instruction that runs as a single internal operation of a context (30_encoding.md R82). -/
def internalOnly (i : Instr) : Option Instr := if i.format = .internal then some i else none

/-- The instruction of a command, decoded at its place; none is refused (30_encoding.md R83). A turn has none. -/
def fetchInstr (cmd : Command) (s : State) : Option Instr :=
  match cmd with
  | .request desc => decodeRequest desc
  | .message record => decodeRecord record
  | .wire c bytes => whole (decodeWire (s.atPacketStart c) bytes)
  | .internal _ op => internalOnly op
  | .turn _ => none

/-- The context on whose behalf a single internal or wire command runs. -/
def commandCtx (cmd : Command) (s : State) : Nat :=
  match cmd with
  | .request _ => s.cur
  | .message _ => s.cur
  | .wire c _ => c
  | .internal c _ => c
  | .turn _ => s.cur

/-- The state in which the instruction of the first waiting command runs: the command is taken from the port. -/
def takeCommand (cmd : Command) (rest : List Command) (s : State) : State :=
  { s with port := rest, cur := commandCtx cmd s }

/-- A turn: context `c` runs on for its next quantum. -/
def takeTurn (c : Nat) (s : State) : Host.Outcome State Fault Refusal := toOutcome (runCtx c s)

/-! ## Laying an instruction where the next step fetches it -/

/-- The session as the boot of 70_reset_and_hazards.md R148 leaves it, so that an I2C or a GPIO request is admitted. -/
def State.broughtUp (s : State) : State :=
  if s.sstate = .initialized then s else { s with sstate := .initialized, regHandle := some 0 }

/-- A context that builds under the lock, where wire bytes are emitted. -/
def State.withBuilder (s : State) (x : Ctx) : State :=
  { s with lock := .held s.ctxs.length, ctxs := s.ctxs ++ [{ x with phase := .build }] }

/-- The I2C operation of one message, with its only chunk chosen. -/
def builderOf (msg : Msg) (n : Nat) (pkt : Bytes) : Ctx :=
  { newCtx (.i2cXfer [msg]) [[]] with n := some n, last := some true, pkt := pkt }

/-- A context that stands where it emits the instruction `i`, if the block ever emits it. -/
def builderFor : Instr → Ctx
  | .stream => builderOf (.write 0 []) 0 []
  | .start => builderOf (.write 0 []) 0 [streamByte]
  | .stop => builderOf (.write 0 []) 0 [streamByte, startByte, outByte 1, addrByte 0 false]
  | .endPkt => builderOf (.write 0 []) 0 [streamByte, startByte, outByte 1, addrByte 0 false, stopByte]
  | .outSub data => { builderOf (.write 0 data) data.length [streamByte] with first := false }
  | .inSub n => builderOf (.read 0 (min (n.toNat + 1) Config.maxSubLen)) (min (n.toNat + 1) Config.maxSubLen)
      [streamByte, startByte, outByte 1, addrByte 0 true]
  | .setSpeed _ => { newCtx .init [] with pkt := [streamByte] }
  | _ => newCtx (.gpioReadAll 0xFF) []

/-- The parameter a wire byte is: it is emitted only where `SPEED_CODE_100K` (30_encoding.md R67) or `FINAL_IN` (41_i2c.md
R101) has its value. -/
def configFor (cfg : Config) : Instr → Config
  | .setSpeed speed => if h : speed.toNat < 20 then { cfg with speedCode := ⟨speed.toNat, h⟩ } else cfg
  | .inSub n => if n = 0 then { cfg with finalIn := 0xC0 } else cfg
  | _ => cfg

/-- A context that emits the instruction `i`, and `i` as its next wire bytes. -/
def State.withWire (s : State) (i : Instr) : State :=
  let s1 : State := { s with cfg := configFor s.cfg i }
  let s2 : State := if (builderFor i).op = .init then s1 else s1.broughtUp
  { s2.withBuilder (builderFor i) with port := .wire s.ctxs.length (encode i) :: s.port }

/-- The state in which the next step fetches the instruction `i` read at `place`. -/
def State.placeInstr (s : State) (place : Place) (i : Instr) : State :=
  match place with
  | .port =>
    let s1 : State := if i = .init ∨ i = .teardown then s else s.broughtUp
    { s1 with port := .request (encode i) :: s.port }
  | .record => { s.broughtUp with port := .message (encode i) :: s.port }
  | .wireStart => s.withWire i
  | .wireSub => s.withWire i

/-- Lay a word of the opcode table where the next step fetches it; a word that is no instruction stands at the request
port as it is. -/
def State.layTableWord (s : State) (nbits w : Nat) : State :=
  match decodePlaced (tableBytes nbits w) with
  | some (place, i) => s.placeInstr place i
  | none => { s with port := .request (tableBytes nbits w) :: s.port }

end Sys2Proof.Machine
end

