-- ==== Sys2Proof/Machine/Step.lean ====
section
/-! DEFINITION. One step of the machine: the first waiting command is taken, decoded and run, or a context in flight
takes its turn. With no command waiting the block does nothing: every result is the answer to a request
(60_exceptions.md R140; notes/assumptions/28.md). -/

namespace Sys2Proof.Machine

/-- Take the first waiting command and run it. A command that is refused, or faults, has no next state: the run ends there and
the commands behind it do not run (the model's choice for a refusal: notes/assumptions/39.md). The bytes are decoded before
anything else is looked at (60_exceptions.md R133 item 1); that BadDescriptor wins over BadConfig too, which R133 does not
list, is the model's choice (notes/assumptions/23.md). -/
def stepCommand (cmd : Command) (rest : List Command) (s : State) : Host.Outcome State Fault Refusal :=
  match cmd with
  | .turn c => takeTurn c (takeCommand cmd rest s)
  | cmd =>
    match fetchInstr cmd s with
    | none => .refused .badDescriptor
    | some i => exec i (takeCommand cmd rest s)

/-- One step. -/
def step (s : State) : Host.Outcome State Fault Refusal :=
  match s.port with
  | [] => .next s
  | cmd :: rest => stepCommand cmd rest s

/-- The state in which the next step fetches the instruction whose bits are `w`, numbered as spec/opcode_table.json
numbers them. -/
def State.withFetchWord (s : State) (nbits w : Nat) : State := s.layTableWord nbits w

end Sys2Proof.Machine
end

