-- ==== Sys2Proof/Machine/Asm.lean ====
section
/-! DEFINITION. The textual syntax of requests (30_encoding.md R84) and the pseudo-instructions (R85): a line of text
gives an instruction, and the instruction its descriptor. -/

namespace Sys2Proof

/-- The pieces of a line: words (names and numbers) and punctuation marks. -/
inductive AsmToken where
  | word (w : List Char)
  | mark (c : Char)
deriving DecidableEq, Repr

/-- The opening brace of a batch. -/
def asmOpen : Char := Char.ofNat 123

/-- The closing brace of a batch. -/
def asmClose : Char := Char.ofNat 125

/-- The characters of names and numbers. -/
def asmWordChar (c : Char) : Bool := c.isAlphanum || c == '.' || c == '_'

/-- The punctuation marks of R84. -/
def asmMarkChar (c : Char) : Bool :=
  c == ',' || c == ';' || c == '[' || c == ']' || c == '#' || c == asmOpen || c == asmClose

/-- The word collected so far, if there is one, before the tokens that follow it. -/
def asmEndWord (acc : List Char) (rest : List AsmToken) : List AsmToken :=
  if acc = [] then rest else .word acc.reverse :: rest

/-- Cut a line into tokens; `acc` is the word being read, backwards. -/
def asmTokens : List Char → List Char → Option (List AsmToken)
  | [], acc => some (asmEndWord acc [])
  | c :: cs, acc =>
    if asmWordChar c then asmTokens cs (c :: acc)
    else if c == ' ' then (asmTokens cs []).map (asmEndWord acc)
    else if asmMarkChar c then (asmTokens cs []).map fun ts => asmEndWord acc (.mark c :: ts)
    else none

/-- The value of a digit. -/
def asmDigit (c : Char) : Option Nat :=
  if '0' ≤ c ∧ c ≤ '9' then some (c.toNat - '0'.toNat)
  else if 'a' ≤ c ∧ c ≤ 'f' then some (c.toNat - 'a'.toNat + 10)
  else if 'A' ≤ c ∧ c ≤ 'F' then some (c.toNat - 'A'.toNat + 10)
  else none

/-- The value of digits in a base, after the digits before them. -/
def asmDigits (base : Nat) : List Char → Nat → Option Nat
  | [], acc => some acc
  | c :: cs, acc =>
    match asmDigit c with
    | none => none
    | some d => if d < base then asmDigits base cs (acc * base + d) else none

/-- A number, decimal or `0x` hexadecimal (30_encoding.md R84). -/
def asmNumber : List Char → Option Nat
  | [] => none
  | '0' :: 'x' :: d :: ds => asmDigits 16 (d :: ds) 0
  | ds => asmDigits 10 ds 0

/-- A number below a bound. -/
def asmBelow (bound : Nat) (w : List Char) : Option Nat :=
  match asmNumber w with
  | some n => if n < bound then some n else none
  | none => none

/-- A byte operand: a pin, a mask or a bit pattern. -/
def asmByteArg (w : List Char) : Option Byte := (asmBelow 256 w).map (BitVec.ofNat 8)

/-- A `0` or `1` operand. -/
def asmBitArg (w : List Char) : Option Bool := (asmBelow 2 w).map (· == 1)

/-- The byte that hexadecimal digits give. -/
def asmHexByte (ds : List Char) : Option Byte :=
  match asmDigits 16 ds 0 with
  | some n => if n < 256 then some (BitVec.ofNat 8 n) else none
  | none => none

/-- A byte inside brackets: hexadecimal digits, with or without one `0x` before them, as 95_test_vectors.md P1 and P3 show (DEDUCED, notes/assumptions/26.md). -/
def asmDataByte : List Char → Option Byte
  | [] => none
  | '0' :: 'x' :: d :: ds => asmHexByte (d :: ds)
  | ds => asmHexByte ds

/-- The bytes up to the closing bracket, and the tokens after it. -/
def asmData : List AsmToken → Option (Bytes × List AsmToken)
  | .word w :: ts =>
    match asmDataByte w, asmData ts with
    | some b, some (bs, rest) => some (b :: bs, rest)
    | _, _ => none
  | .mark c :: ts => if c = ']' then some ([], ts) else none
  | [] => none

/-- One message of a batch (30_encoding.md R84). The address of `w10` and `r10` has ten bits; the descriptor holds its
low byte, which is not interpreted (DESIGN CHOICE, notes/assumptions/32.md). -/
def asmMsg : List AsmToken → Option (Msg × List AsmToken)
  | .word k :: .word a :: .mark ',' :: .mark '[' :: ts =>
    match asmData ts with
    | none => none
    | some (bs, rest) =>
      if k = "w".toList then (asmBelow 128 a).map fun n => (.write (BitVec.ofNat 7 n) bs, rest)
      else if k = "w10".toList then (asmBelow 1024 a).map fun n => (.ten false (BitVec.ofNat 8 n) bs.length bs, rest)
      else none
  | .word k :: .word a :: .mark ',' :: .mark '#' :: .word n :: rest =>
    match asmNumber n with
    | none => none
    | some len =>
      if k = "r".toList then (asmBelow 128 a).map fun n => (.read (BitVec.ofNat 7 n) len, rest)
      else if k = "r10".toList then (asmBelow 1024 a).map fun n => (.ten true (BitVec.ofNat 8 n) len [], rest)
      else none
  | _ => none

/-- The messages of a batch, up to its closing brace at the end of the line. The fuel is the number of tokens. -/
def asmMsgs : Nat → List AsmToken → Option (List Msg)
  | 0, _ => none
  | fuel + 1, ts =>
    match asmMsg ts with
    | some (m, .mark c :: rest) =>
      if c = asmClose ∧ rest = [] then some [m]
      else if c = ';' then (asmMsgs fuel rest).map (m :: ·)
      else none
    | _ => none

/-- An operation with no operand, one byte, a byte and a bit, or two bytes. -/
def asmSimple (k : List Char) : List AsmToken → Option Instr
  | [] =>
    if k = "init".toList then some .init
    else if k = "teardown".toList then some .teardown
    else none
  | [.word p] =>
    if k = "gpio.read".toList then (asmByteArg p).map .gpioRead
    else if k = "gpio.read_all".toList then (asmByteArg p).map .gpioReadAll
    else if k = "gpio.dir_in".toList then (asmByteArg p).map .gpioDirInput
    else if k = "gpio.dir_get".toList then (asmByteArg p).map .gpioDirGet
    else if k = "gpio.set".toList then (asmByteArg p).map Instr.pseudoGpioSet
    else if k = "gpio.clr".toList then (asmByteArg p).map Instr.pseudoGpioClr
    else if k = "i2c.probe".toList then (asmBelow 128 p).map fun n => Instr.pseudoI2cProbe (BitVec.ofNat 7 n)
    else none
  | [.word p, .mark ',', .word v] =>
    match asmByteArg p with
    | none => none
    | some p =>
      if k = "gpio.write".toList then (asmBitArg v).map (.gpioWrite p)
      else if k = "gpio.dir_out".toList then (asmBitArg v).map (.gpioDirOutput p)
      else if k = "gpio.write_multiple".toList then (asmByteArg v).map (.gpioWriteMultiple p)
      else none
  | _ => none

/-- The pseudo-instructions with data (30_encoding.md R85). -/
def asmI2c (k : List Char) : List AsmToken → Option Instr
  | [.word a, .mark ',', .mark '#', .word n] =>
    match asmBelow 128 a, asmNumber n with
    | some a, some n => if k = "i2c.read".toList then some (Instr.pseudoI2cRead (BitVec.ofNat 7 a) n) else none
    | _, _ => none
  | .word a :: .mark ',' :: .mark '[' :: ts =>
    match asmBelow 128 a, asmData ts with
    | some a, some (bs, []) =>
      if k = "i2c.write".toList then some (Instr.pseudoI2cWrite (BitVec.ofNat 7 a) bs) else none
    | some a, some (bs, [.mark ',', .mark '#', .word n]) =>
      if k = "i2c.write_read".toList then
        (asmNumber n).map fun n => Instr.pseudoI2cWriteRead (BitVec.ofNat 7 a) bs n
      else none
    | _, _ => none
  | _ => none

/-- The instruction of a line of tokens. -/
def asmInstr : List AsmToken → Option Instr
  | .word k :: .mark c :: ts =>
    if k = "xfer".toList ∧ c = asmOpen then (asmMsgs ts.length ts).map .i2cXfer else none
  | .word k :: ts =>
    match asmSimple k ts with
    | some i => some i
    | none => asmI2c k ts
  | _ => none

/-- The instruction of a line of text; none for a line outside the syntax or with an operand out of range. -/
def parseLine (line : String) : Option Instr :=
  match asmTokens line.toList [] with
  | none => none
  | some ts =>
    match asmInstr ts with
    | none => none
    | some i => if i.wf then some i else none

/-- Assemble a line to its request descriptor (30_encoding.md R84). -/
def assemble (line : String) : Option Bytes := (parseLine line).map encode

end Sys2Proof
end

