-- ==== Sys2Proof/Machine/Rules.lean ====
section
/-! DEFINITION. The rules of whole operations, as the pseudocode of 40_transport.md, 41_i2c.md, 42_gpio.md and
43_init.md has them: one exchange after the other, with no lock, no phase and no other context. The engines of
Machine/ run the same operations phase by phase, so that other contexts can run in between; that an operation which
nothing interrupts does what is written here is a claim (Certificates/Slice0/Obligations.lean). -/

namespace Sys2Proof.Machine

/-! ## Where an operation can run through -/

/-- An operation may run through without another agent in between: the parameters are legal, the session is up, the
lock is free, and the schedule leaves the next context to run (notes/assumptions/4.md). -/
structure State.Ready (s : State) : Prop where
  cfg : s.cfg.wf = true
  up : s.sstate = .initialized
  lock : s.lock = .free
  quanta : s.quanta = []

/-- The frame buffer is what every state after reset has (10_state.md R33). -/
structure State.FrameReady (s : State) : Prop where
  wf : s.gpo.wf
  header : s.gpo.bytesAt 0 3 = some gpioHeader

/-! ## One exchange

Each is one record update of the state before it: a claim that names it says what every field becomes and that every
other field is unchanged. -/

/-- One exchange by context `c` of the bytes `o`, answered with a send of `k` bytes and the reply `r`. -/
def State.exchanged (s : State) (c : Nat) (o : Bytes) (k m : Nat) (r : Bytes) : State :=
  { s with
    outbuf := s.outbuf.putBytes 0 o
    outlen := some o.length
    inbuf := s.inbuf.putBytes 0 r
    inlen := some r.length
    hist := s.hist ++ [⟨c, o, .ok k, m, some (.ok r)⟩]
    openTxn := txnAfter s.cfg.speedCode s.openTxn o
    sends := s.sends.drop 1
    recvs := s.recvs.drop 1 }

/-- One exchange by context `c` that asked for no reply. -/
def State.sentOnly (s : State) (c : Nat) (o : Bytes) (k : Nat) : State :=
  { s with
    outbuf := s.outbuf.putBytes 0 o
    outlen := some o.length
    hist := s.hist ++ [⟨c, o, .ok k, 0, none⟩]
    openTxn := txnAfter s.cfg.speedCode s.openTxn o
    sends := s.sends.drop 1 }

/-- One exchange by context `c` whose Send failed with `a`. -/
def State.sendFailed (s : State) (c : Nat) (o : Bytes) (a : SendAns) (m : Nat) : State :=
  { s with
    outbuf := s.outbuf.putBytes 0 o
    outlen := some o.length
    hist := s.hist ++ [⟨c, o, a, m, none⟩]
    openTxn := txnAfter s.cfg.speedCode s.openTxn o
    sends := s.sends.drop 1 }

/-- One exchange by context `c` whose Recv failed with `a`. -/
def State.recvFailed (s : State) (c : Nat) (o : Bytes) (k m : Nat) (a : RecvAns) : State :=
  { s with
    outbuf := s.outbuf.putBytes 0 o
    outlen := some o.length
    hist := s.hist ++ [⟨c, o, .ok k, m, some a⟩]
    openTxn := txnAfter s.cfg.speedCode s.openTxn o
    sends := s.sends.drop 1
    recvs := s.recvs.drop 1 }

/-- `Exchange(o, m)` by context `c` (40_transport.md R89) whatever the bridge answers (R90, R91): the state after it, and
the reply or the IOError. -/
def State.bulk (s : State) (c : Nat) (o : Bytes) (m : Nat) : State × Except Err Bytes :=
  match (sendDraw o.length s.sends).1 with
  | .ok k =>
    if m = 0 then (s.sentOnly c o k, .ok [])
    else
      match (recvDraw m s.recvs).1 with
      | .ok r => (s.exchanged c o k m r, .ok r)
      | a => (s.recvFailed c o k m a, .error (.ioError .recv))
  | a => (s.sendFailed c o a m, .error (.ioError .send))

/-- One more context, in its final form, which took the DST buffers handed over. -/
def State.withCtx (s : State) (x : Ctx) : State := { s with ctxs := s.ctxs ++ [x], dstPort := [] }

/-! ## The I2C Transfer Engine -/

/-- A write aborted in a chunk that is not its last leaves the transaction open (10_state.md R41; 60_exceptions.md R135). -/
def State.abortedIn (s : State) (ch : Chunk) : State := { s with openTxn := s.openTxn || !ch.last }

/-- The loop of `I2CWrite(a, SRC)` over the chunks left (41_i2c.md R98), by context `c`. -/
def writeLoop (c : Nat) (a : BitVec 7) (src : Bytes) : List Chunk → State → State × Option Err
  | [], s => (s, none)
  | ch :: rest, s =>
    let m := writeReplyLen ch.n ch.first
    match s.bulk c (wpkt a src ch.off ch.n ch.first ch.last) m with
    | (s1, .error e) => (s1.abortedIn ch, some e)
    | (s1, .ok r) =>
      if r.length ≠ m then (s1.abortedIn ch, some (.protocolError ch.off m r.length))
      else
        match firstNack r with
        | some i => (s1.abortedIn ch, some (.nackError ch.off i))
        | none => writeLoop c a src rest s1

/-- The loop of `I2CRead(a, L, DST)` over the chunks left (41_i2c.md R102), by context `c`. -/
def readLoop (c : Nat) (a : BitVec 7) : List (Nat × Nat) → Memory → State → (State × Memory) × Option Err
  | [], dst, s => ((s, dst), none)
  | (off, n) :: rest, dst, s =>
    match s.bulk c (rpkt s.cfg a n) s.cfg.maxSeg with
    | (s1, .error e) => ((s1, dst), some e)
    | (s1, .ok r) =>
      if r.length ≠ n + 1 then ((s1, dst), some (.protocolError off (n + 1) r.length))
      else if r.head? ≠ some Config.ack then ((s1, dst), some (.nackError off 0))
      else readLoop c a rest (memWrite dst off (r.drop 1)) s1

/-- One message of a batch, the one at index `idx` (41_i2c.md R104, R105), with its DST buffer. -/
def msgRule (c idx : Nat) (msg : Msg) (dst : Memory) (s : State) : (State × Memory) × Option Err :=
  match msg with
  | .write a src => (((writeLoop c a src (wchunks s.cfg src.length) s).1, dst),
      (writeLoop c a src (wchunks s.cfg src.length) s).2)
  | .read a len => readLoop c a (rchunks s.cfg len) dst s
  | .ten _ _ _ _ => ((s, dst), some (.invalidArgument (.tenBitAddress idx)))

/-- The loop of `I2CXfer(msgs)` from message `idx` on (41_i2c.md R104), with the DST buffers of the messages left. -/
def batchLoop (c : Nat) : Nat → List Msg → List Memory → State → (State × List Memory) × Option Err
  | _, [], dsts, s => ((s, dsts), none)
  | idx, msg :: msgs, dsts, s =>
    match msgRule c idx msg (dsts.headD []) s with
    | ((s1, d), some e) => ((s1, d :: dsts.tail), some e)
    | ((s1, d), none) =>
      (((batchLoop c (idx + 1) msgs dsts.tail s1).1.1, d :: (batchLoop c (idx + 1) msgs dsts.tail s1).1.2),
        (batchLoop c (idx + 1) msgs dsts.tail s1).2)

/-- `I2CXfer(msgs)` (41_i2c.md R104): the 10-bit prescan, then the messages in order. What it answers: the state, every
message's DST buffer, and the error if there is one. -/
def i2cRule (op : Instr) (s : State) : (State × List Memory) × Option Err :=
  match s.cfg.tenBitCheck, firstTen (msgsOf op) with
  | .prescan, some j => ((s, dstFor op s.dstPort), some (.invalidArgument (.tenBitAddress j)))
  | _, _ => batchLoop s.ctxs.length 0 (msgsOf op) (dstFor op s.dstPort) s

/-- What a bridge that answers well replies to one message: a status byte `01` for every byte of each write chunk
(41_i2c.md R97), and for each read chunk the ACK marker and the device's bytes, which are `d` in all (R102). -/
def msgReplies (cfg : Config) (msg : Msg) (d : Bytes) : List Bytes :=
  match msg with
  | .write _ src => (wchunks cfg src.length).map fun ch => List.replicate (writeReplyLen ch.n ch.first) Config.ack
  | .read _ len => (rchunks cfg len).map fun p => Config.ack :: memRead d p.1 p.2
  | .ten _ _ _ _ => []

/-- What such a bridge replies to the messages of a batch, one after the other; `data` holds the bytes of each read. -/
def goodReplies (cfg : Config) : List Msg → List Bytes → List Bytes
  | [], _ => []
  | msg :: msgs, data => msgReplies cfg msg (data.headD []) ++ goodReplies cfg msgs data.tail

/-- The context `x` of the operation `i` ended as the rule says: with the error, or with the result `r`
(60_exceptions.md R134). -/
structure Ctx.EndedWith (x : Ctx) (i : Instr) (r : Result) (e : Option Err) : Prop where
  op : x.op = i
  phase : x.phase = match e with
    | some e => .failed e
    | none => .done r
  res : x.res = some (match e with
    | some e => abortResult i e
    | none => r)

/-! ## The GPIO Engine -/

/-- The eleven bytes of a GPIO frame with the given control bytes (30_encoding.md R78). -/
def frameBytes (pins : Bytes) : Bytes := gpioHeader ++ pins

/-- Eight control bytes that request nothing (42_gpio.md R109). -/
def noPins : Bytes := List.replicate 8 0x00

/-- Eight control bytes that request one pin (42_gpio.md R110). -/
def onePin (p : Nat) (dir val : Bool) : Bytes := noPins.set p (pinctl dir true val)

/-- `GpioRT()` by context `c` of the frame `o` (42_gpio.md R111): the state after it, and the reply or the error. -/
def State.gpioTrip (s : State) (c : Nat) (o : Bytes) : State × Except Err Bytes :=
  match s.bulk c o Config.gpioReplyLen with
  | (s1, .error e) => ({ s1 with gpi := [], gpiValid := false }, .error e)
  | (s1, .ok r) =>
    if r.length ≠ Config.gpioReplyLen then
      ({ s1 with gpi := [], gpiValid := false }, .error (.protocolError 0 Config.gpioReplyLen r.length))
    else ({ s1 with gpi := s1.gpi.putBytes 0 r, gpiValid := true }, .ok r)

/-- The status byte of pin `p` in a GPIO reply (30_encoding.md R80). -/
def replyPin (r : Bytes) (p : Nat) : Byte := r.getD (3 + p) 0

/-- A GPIO operation that passed its pin check (42_gpio.md R114 to R120): it forms the frame with the control bytes
`pins`, makes one round-trip, and its result is what `res` reads from the reply. -/
def State.gpioRun (s : State) (op : Instr) (pins : Bytes) (res : Bytes → Result) : State :=
  match ({ s with gpo := s.gpo.putBytes 3 pins } : State).gpioTrip s.ctxs.length (frameBytes pins) with
  | (s1, .error e) => s1.withCtx ((newCtx op []).fail e)
  | (s1, .ok r) => s1.withCtx ((newCtx op []).finish (res r))

/-- A GPIO operation turned away by its pin check, with no exchange (42_gpio.md R112). -/
def State.pinRefused (s : State) (op : Instr) (p : Byte) : State :=
  s.withCtx ((newCtx op []).fail (.invalidArgument (.pinRange p)))

/-- The result byte of GPIO_READ_ALL: bit `p` is the value bit of pin `p` when `mask` has it, else 0
(42_gpio.md R115). -/
def readAllByte (mask : Byte) (r : Bytes) : Byte :=
  ((List.range 8).map fun p => if mask.getLsbD p && valBit (replyPin r p) then (1 : Byte) <<< p else 0).foldl (· ||| ·) 0

/-! ## The Init Sequencer -/

/-- The context of INIT when it had made `idx` of its exchanges. -/
def initCtx (cfg : Config) (idx : Nat) : Ctx := { newCtx .init [] with idx := idx, pkt := speedPkt cfg }

/-- INIT failed with `e` (43_init.md R124, 60_exceptions.md R137). -/
def State.initFailed (s : State) (idx : Nat) (e : Err) : State :=
  { s.withCtx ((initCtx s.cfg idx).fail e) with sstate := .dead }

/-- Step 3 of INIT: the registration (43_init.md R124, R127). -/
def State.initRegister (s : State) (idx : Nat) : State :=
  let s1 : State := { s with
    regs := s.regs.drop 1
    hostLog := s.hostLog ++ [.register Config.capabilities (regDraw s.regs).1] }
  match (regDraw s.regs).1 with
  | some h => { s1.withCtx ((initCtx s.cfg idx).finish .ok) with regHandle := some h, sstate := .initialized }
  | none => s1.initFailed idx (.ioError .registration)

/-- `Init()` (43_init.md R124): the speed command, the idle-pin frame for the one variant, the registration. -/
def State.initRun (s : State) : State :=
  match s.bulk s.ctxs.length (speedPkt s.cfg) 0 with
  | (s1, .error e) => s1.initFailed 0 e
  | (s1, .ok _) =>
    if s.cfg.variant = s.cfg.variantId then
      let pins := noPins.set s.cfg.idlePin.val 0xB8
      match ({ s1 with gpo := s1.gpo.putBytes 3 pins } : State).gpioTrip s.ctxs.length (frameBytes pins) with
      | (s2, .error e) => s2.initFailed 1 e
      | (s2, .ok _) => s2.initRegister 2
    else s1.initRegister 1

end Sys2Proof.Machine
end

