-- ==== Sys2Proof/Safety.lean ====
section
/-! DEFINITION. What counts as a safe run, in the terms the claims use: the invariants of the state, the end of a run and
what is observed then. What one whole operation does is Machine/Rules.lean. -/

namespace Sys2Proof.Machine

/-! ## Invariants -/

/-- The lock and the phases agree (10_state.md R35, R38): a context stands in a phase that holds the lock exactly when
`LOCK` names it, so at most one does; and the holder exists. -/
structure State.MutexInv (s : State) : Prop where
  holder : ∀ (c : Nat) (x : Ctx), s.ctxs[c]? = some x → (x.phase.holdsLock = true ↔ s.lock = .held c)
  exists_ : ∀ c, s.lock = .held c → c < s.ctxs.length

/-- The header of the GPIO frame is in place (10_state.md R33). -/
def State.GpoHeaderInv (s : State) : Prop := s.gpo.bytesAt 0 3 = some gpioHeader

/-- Every control byte of GPO that is written is one of the five the block writes (10_state.md R32). -/
def State.GpoPinsInv (s : State) : Prop :=
  ∀ p, p < 8 → s.gpo.byteAt (3 + p) = none ∨ ∃ pc : PinCtl, s.gpo.byteAt (3 + p) = some pc.byte

/-- Every byte space of the session is in canonical form, and the scratch buffers keep to their 512 bytes. -/
structure State.BufferInv (s : State) : Prop where
  outbuf : s.outbuf.wf
  inbuf : s.inbuf.wf
  gpo : s.gpo.wf
  gpi : s.gpi.wf
  outbufSize : Memory.below Config.scratchLen s.outbuf
  inbufSize : Memory.below Config.scratchLen s.inbuf

/-- What `OUTLEN` and `INLEN` say (10_state.md R29, R30, R31): at most 512, and that many bytes of the buffer are known. -/
structure State.LengthInv (s : State) : Prop where
  out : ∀ n, s.outlen = some n → n ≤ Config.scratchLen ∧ ∃ bs, s.outbuf.bytesAt 0 n = some bs
  inn : ∀ n, s.inlen = some n → n ≤ Config.scratchLen ∧ ∃ bs, s.inbuf.bytesAt 0 n = some bs

/-- `OUTBUF[0..OUTLEN)` holds the last packet or frame handed to Send (10_state.md R30). -/
structure State.LastPacketInv (s : State) : Prop where
  none_ : s.hist = [] → s.outlen = none
  some_ : ∀ e, s.hist.getLast? = some e →
    s.outlen = some e.sent.length ∧ s.outbuf.bytesAt 0 e.sent.length = some e.sent

/-- What the packets of `HIST` make of `OPEN_TXN`, one after the other (10_state.md R41, first sentence). -/
def State.packetsOpen (s : State) : Bool := s.hist.foldl (fun o e => txnAfter s.cfg.speedCode o e.sent) false

/-- `OPEN_TXN` is 1 when the packets of `HIST` left the transaction open, and otherwise only because a write was aborted in
a chunk that was not its last (10_state.md R41). -/
structure State.OpenTxnInv (s : State) : Prop where
  packets : s.packetsOpen = true → s.openTxn = true
  aborted : s.openTxn = true → s.packetsOpen = true ∨
    ∃ (c : Nat) (x : Ctx) (e : Err), s.ctxs[c]? = some x ∧ x.phase = .failed e ∧ x.midWrite = true

/-- While `GPI_VALID = 0`, every byte of the mirror is `Unknown` (10_state.md R34). -/
def State.MirrorInvalidInv (s : State) : Prop := s.gpiValid = false → s.gpi = []

/-- The mirror is Unknown, or it holds the eleven bytes of a reply; and a context that is about to commit a GPIO reply
holds one of eleven bytes in INBUF (10_state.md R34, 42_gpio.md R111). -/
structure State.MirrorInv (s : State) : Prop where
  invalid : s.gpiValid = false → s.gpi = []
  valid : s.gpiValid = true → ∃ r, r.length = Config.gpioReplyLen ∧ s.gpi = Memory.putBytes [] 0 r
  commit : ∀ (c : Nat) (x : Ctx), s.ctxs[c]? = some x → x.phase = .commit → engineOf x.op ≠ .i2c →
    ∃ r, s.reply = some r ∧ r.length = Config.gpioReplyLen

/-- The phases from the choice of a chunk to its commit (10_state.md R38). -/
def Phase.inChunk : Phase → Bool
  | .waitLock => true
  | .build => true
  | .xchg => true
  | .check => true
  | .commit => true
  | _ => false

/-- The bounds of one context's fields (10_state.md R28, R37). `idxInit` speaks of INIT's step counter (notes/assumptions/17.md),
`chunk` also of what ended contexts keep (notes/assumptions/42.md), and `dst` and `dstWf` of the DST buffers as the model
holds them (notes/assumptions/24.md): these are the model's choices. -/
structure Ctx.Bounded (x : Ctx) : Prop where
  op : x.op.wf = true
  idx : engineOf x.op = .i2c → x.idx ≤ (msgsOf x.op).length
  idxInit : engineOf x.op = .initSeq → x.idx ≤ 2
  n : ∀ n, x.n = some n → n ≤ Config.maxSubLen
  pkt : x.pkt.length ≤ Config.scratchLen
  chunk : ∀ m, x.msg = some m → x.off ≤ m.length ∧ (x.phase.inChunk = true → x.off + x.n.getD 0 ≤ m.length)
  dst : x.dst.length = (msgsOf x.op).length
  dstWf : ∀ m ∈ x.dst, Memory.wf m
  pin : ∀ p, checkedPin x.op = some p → x.phase ≠ .admitting → x.phase.isFinal = false → pinOk p = true

/-- Every context keeps its bounds, under legal parameters; GPO keeps to its eleven bytes (20_memory.md R44); the DST
buffers waiting are in canonical form. -/
structure State.ContextInv (s : State) : Prop where
  cfg : s.cfg.wf = true
  gpoSize : Memory.below Config.gpioFrameLen s.gpo
  ctxs : ∀ (c : Nat) (x : Ctx), s.ctxs[c]? = some x → x.Bounded
  dstPort : ∀ m ∈ s.dstPort, Memory.wf m

/-- The errors an operation may end with (60_exceptions.md R132). -/
def errAllowed (op : Instr) : Err → Bool
  | .ioError _ => engineOf op != .none
  | .protocolError _ _ _ => engineOf op != .none
  | .nackError _ _ => engineOf op == .i2c
  | .invalidArgument (.tenBitAddress _) => engineOf op == .i2c
  | .invalidArgument (.pinRange _) => (checkedPin op).isSome && !isFireAndForget op

/-- The results an operation may return when it completes (60_exceptions.md R131, R132). -/
def resultAllowed (op : Instr) : Result → Bool
  | .ok => match op with
    | .init => true
    | .gpioDirInput _ => true
    | .gpioDirOutput _ _ => true
    | .i2cWrite _ _ => true
    | .i2cRead _ _ => true
    | .i2cMsgTen _ _ _ _ => true
    | _ => false
  | .okCount k => match op with
    | .i2cXfer msgs => k == msgs.length
    | _ => false
  | .okBit _ => match op with
    | .gpioRead _ => true
    | .gpioDirGet _ => true
    | _ => false
  | .okByte _ => match op with
    | .gpioReadAll _ => true
    | _ => false
  | .err _ => false
  | .noStatus => isFireAndForget op || op == .teardown

/-- How the phase, the result and the operation of one context agree (10_state.md R38, 60_exceptions.md R132, R134). -/
def Ctx.statusOk (x : Ctx) : Bool :=
  match x.phase with
  | .done r => x.res == some r && resultAllowed x.op r
  | .failed e => x.res == some (abortResult x.op e) && errAllowed x.op e
  | _ => x.res == none && engineOf x.op != .none

/-- Every context's status is one its operation may have. -/
def State.StatusInv (s : State) : Prop := ∀ (c : Nat) (x : Ctx), s.ctxs[c]? = some x → x.statusOk = true

/-- The lifecycle (10_state.md R36; 43_init.md R129): at most one INIT was ever submitted, and while one is in flight the
session is Attached. -/
structure State.LifecycleInv (s : State) : Prop where
  unique : ∀ (c d : Nat) (x y : Ctx), s.ctxs[c]? = some x → s.ctxs[d]? = some y → x.op = .init → y.op = .init → c = d
  attached : ∀ (c : Nat) (x : Ctx), s.ctxs[c]? = some x → x.op = .init → x.inFlight = true → s.sstate = .attached
  handle : s.regHandle ≠ none ↔ s.sstate = .initialized

/-- An entry of HIST is one the exchange can make (40_transport.md R89 to R91): 1 to 512 bytes sent, at most 512 asked
for; a good Send wrote at most the bytes handed over; a receive outcome stands exactly after a good Send that asked for
a reply, and a good Recv delivered at most the bytes asked for. -/
structure Exch.Legal (e : Exch) : Prop where
  pos : 1 ≤ e.sent.length
  len : e.sent.length ≤ Config.scratchLen
  ask : e.m ≤ Config.scratchLen
  send : ∀ k, e.sendAns = .ok k → k ≤ e.sent.length
  recv : e.recvAns ≠ none ↔ (∃ k, e.sendAns = .ok k) ∧ e.m ≠ 0
  reply : ∀ r, e.recvAns = some (.ok r) → r.length ≤ e.m

/-- The context on whose behalf the next step runs: a request's is the one it creates. -/
def State.actor (s : State) : Nat :=
  match s.port with
  | .wire c _ :: _ => c
  | .internal c _ :: _ => c
  | .turn c :: _ => c
  | _ => s.ctxs.length

/-- The data bytes a command packet puts on the I2C bus: the data of its OUT sub-commands (30_encoding.md R71, R75). -/
def packetData (speed : Fin 20) (p : Bytes) : Bytes :=
  ((decodePacket speed p).getD []).flatMap fun i =>
    match i with
    | .outSub data => data
    | _ => []

/-- The payload bytes of a read chunk's reply (41_i2c.md R102). -/
def Exch.payload (e : Exch) : Bytes :=
  match e.recvAns with
  | some (.ok r) => r.drop 1
  | _ => []

/-! ## Runs -/

/-- The end of a run (70_reset_and_hazards.md R159): every context is Done or Failed and the lock is free. Commands that wait
at `State.port` are not admitted, so the end does not look at them (the model's choice: notes/assumptions/41.md). A faulted
run has no state, so it never ends. -/
def State.runEnded (s : State) : Bool := s.ctxs.all (fun x => x.phase.isFinal) && s.lock == .free

/-- What is observed at the end of a run (70_reset_and_hazards.md R159). -/
structure Observation where
  results : List (Option Result)
  hist : List Exch
  dst : List (List Memory)
  gpi : Memory
  gpiValid : Bool
  sstate : SState
deriving DecidableEq, Repr

/-- The observation of a state. -/
def State.observe (s : State) : Observation where
  results := s.ctxs.map (·.res)
  hist := s.hist
  dst := s.ctxs.map (·.dst)
  gpi := s.gpi
  gpiValid := s.gpiValid
  sstate := s.sstate

/-- The bulk-OUT stream so far: endpoint and bytes of each transfer (20_memory.md R44, 00_scope.md R2, R16). That a transfer
counts with all the bytes handed to Send, also when the Send failed, timed out or was short, is the model's choice
(notes/assumptions/44.md). -/
def State.epOutStream (s : State) : List (Nat × Bytes) := s.hist.map fun e => (s.cfg.epOut, e.sent)

/-- The bulk-IN stream so far: endpoint and bytes of each transfer whose Recv was good (20_memory.md R44). That a Recv which
failed or timed out counts for nothing is the model's choice (notes/assumptions/44.md). -/
def State.epInStream (s : State) : List (Nat × Bytes) :=
  s.hist.filterMap fun e =>
    match e.recvAns with
    | some (.ok r) => some (s.cfg.epIn, r)
    | _ => none

end Sys2Proof.Machine
end

