-- ==== Sys2Proof/Certificates/Slice0/Obligations.lean ====
section
/-! DEFINITION. The statements for the provers. Each docstring names the rule of spec/ that the statement formalises; where
a statement rests on a choice of the model, it names the log entry of notes/assumptions/. -/

open Sys2Proof Sys2Proof.Machine

/-! ## Encodings -/

/-- 95_test_vectors.md section 2.5, 30_encoding.md R78, R84, R85: descriptors, packets and a frame written out byte by byte
are read as the spec says, and lines of the textual syntax are assembled to the bytes the spec gives them. -/
def Obligations.SpecBytesDecode : Prop :=
  decodeRequest [0x04, 0x03, 0x01] = some (.gpioWrite 3 true) ∧
  decodeRequest [0x01, 0x02, 0x00, 0x50, 0x01, 0x00, 0x00, 0x01, 0x50, 0x04, 0x00] =
    some (.i2cXfer [.write 0x50 [0x00], .read 0x50 4]) ∧
  decodeRequest [0x01, 0x01, 0x02, 0xFF, 0x01, 0x00, 0x00] = some (.i2cXfer [.ten false 0xFF 1 [0x00]]) ∧
  decodeRequest [0x02, 0x09] = some (.gpioRead 9) ∧
  decodeRequest [0x0B] = none ∧
  decodeRequest [0x04, 0x03, 0x02] = none ∧
  decodeRequest [0x01, 0x01, 0x00, 0xD0, 0x00, 0x00] = none ∧
  decodeRequest [0x02, 0x03, 0x00] = none ∧
  decodeRequest [0x01, 0x01, 0x04, 0x50, 0x00, 0x00] = none ∧
  decodePacket 1 [0xAA, 0x74, 0x83, 0xA0, 0x01, 0x02, 0x75, 0x00] = some [.start, .outSub [0xA0, 0x01, 0x02], .stop] ∧
  decodePacket 1 [0xAA, 0x74, 0x81, 0xA1, 0xC1, 0xC1, 0x75, 0x00] =
    some [.start, .outSub [0xA1], .inSub 1, .inSub 1, .stop] ∧
  decodePacket 1 [0xAA, 0x61, 0x00] = some [.setSpeed 1] ∧
  decodePacket 1 [0xAA, 0x74, 0x75] = none ∧
  decodePacket 1 [0xAA, 0x00, 0x00] = none ∧
  decodePacket 1 [0xAA, 0x83, 0x01, 0x00] = none ∧
  decodeWireG [0xCC, 0x08, 0x00, 0x00, 0x30, 0x38, 0xB0, 0xB8, 0x00, 0x00, 0x00] =
    some (.gpioFrame [.leave, .apply false false, .apply false true, .apply true false, .apply true true, .leave, .leave,
      .leave]) ∧
  assemble "gpio.write 3, 1" = some [0x04, 0x03, 0x01] ∧
  assemble ("xfer " ++ String.singleton asmOpen ++ " w 0x50, [01 02] " ++ String.singleton asmClose) =
    some [0x01, 0x01, 0x00, 0x50, 0x02, 0x00, 0x01, 0x02] ∧
  assemble "i2c.probe 0x50" = some [0x01, 0x01, 0x00, 0x50, 0x00, 0x00] ∧
  assemble "gpio.set 3" = some [0x04, 0x03, 0x01]

/-- 30_encoding.md R66, R67, R79 and 10_state.md R32: the address byte, the SET-SPEED byte and the control byte of a pin,
bit by bit. -/
def Obligations.WireBytesHaveTheirFields : Prop :=
  (∀ (a : BitVec 7) (rw : Bool), (addrByte a rw).toNat = 2 * a.toNat + (if rw then 1 else 0)) ∧
  (∀ s : BitVec 5, s.toNat ≤ 0x13 →
    (setSpeedByte s).toNat = 0x60 + s.toNat ∧ setSpeedByte s ≠ startByte ∧ setSpeedByte s ≠ stopByte) ∧
  ∀ dir apply val : Bool,
    (pinctl dir apply val).getLsbD 7 = dir ∧ (pinctl dir apply val).getLsbD 6 = false ∧
    (pinctl dir apply val).getLsbD 5 = apply ∧ (pinctl dir apply val).getLsbD 4 = apply ∧
    (pinctl dir apply val).getLsbD 3 = val ∧ (pinctl dir apply val).getLsbD 2 = false ∧
    (pinctl dir apply val).getLsbD 1 = false ∧ (pinctl dir apply val).getLsbD 0 = false

/-- 30_encoding.md R62 to R66, R78, R81: every well-formed instruction that has an encoding is read back from it, with
every operand. -/
def Obligations.EncodeThenDecodeIsIdentity : Prop :=
  ∀ i : Instr, i.wf = true → i.format ≠ .internal → decodeAs i.format (encode i) = some i

/-- 30_encoding.md R81, R75: whatever a decoder reads is well formed and is exactly what the encoder writes, so each
descriptor, record and sub-command has one meaning and one spelling. -/
def Obligations.DecodeThenEncodeIsIdentity : Prop :=
  (∀ (bs : Bytes) (i : Instr), decodeRequest bs = some i → encode i = bs ∧ i.wf = true ∧ i.format = .req) ∧
  (∀ (bs : Bytes) (i : Instr), decodeRecord bs = some i → encode i = bs ∧ i.wf = true ∧ i.format = .msg) ∧
  (∀ (bs rest : Bytes) (i : Instr), decodeSub bs = some (i, rest) → encode i ++ rest = bs ∧ i.wf = true) ∧
  ∀ (bs : Bytes) (i : Instr), decodeWireG bs = some i → encode i = bs ∧ i.wf = true

/-- 30_encoding.md R83: the invalid descriptors, each refused by the decoder; and step refuses what the decoder refuses,
whatever the session holds. A length over `MAX_XFER_LEN` cannot be written in its 16 bits, so no decoded message has one. -/
def Obligations.InvalidDescriptorsAreRefused : Prop :=
  (∀ (op : Byte) (rest : Bytes), op = 0x00 ∨ 0x0B ≤ op.toNat → decodeRequest (op :: rest) = none) ∧
  (∀ (op pin v : Byte) (rest : Bytes), op = 0x04 ∨ op = 0x07 → v ≠ 0 → v ≠ 1 →
    decodeRequest (op :: pin :: v :: rest) = none) ∧
  (∀ rest : Bytes, decodeRequest (0x01 :: 0x00 :: rest) = none) ∧
  (∀ (k : Byte) (ms : List Msg) (flags addr lo hi : Byte) (rest : Bytes), ms.all Msg.wf = true → ms.length < k.toNat →
    4 ≤ flags.toNat ∨ (flags.toNat < 2 ∧ addr.msb = true) →
    decodeRequest (0x01 :: k :: (ms.flatMap encodeMsg ++ flags :: addr :: lo :: hi :: rest)) = none) ∧
  (∀ (i : Instr) (bs : Bytes), i.wf = true → i.format = .req → bs <+: encode i → bs ≠ encode i →
    decodeRequest bs = none) ∧
  (∀ (i : Instr) (extra : Bytes), i.wf = true → i.format = .req → extra ≠ [] → decodeRequest (encode i ++ extra) = none) ∧
  (∀ (bs : Bytes) (i : Instr), decodeRequest bs = some i → ∀ m ∈ msgsOf i, m.length ≤ Config.maxXferLen) ∧
  ∀ (s : State) (bs : Bytes) (rest : List Command), s.port = .request bs :: rest → decodeRequest bs = none →
    step s = .refused .badDescriptor

/-- 30_encoding.md R75, last sentence: every packet the block builds decodes to its intended sub-commands, with END as its
last byte. -/
def Obligations.BuiltPacketsDecode : Prop :=
  ∀ cfg : Config, cfg.wf = true →
    (∀ (a : BitVec 7) (src : Bytes) (off n : Nat) (first last : Bool), off + n ≤ src.length →
      n ≤ (if first then 62 else 63) →
      decodePacket cfg.speedCode (wpkt a src off n first last) =
        some ((if first then [.start, .outSub (addrByte a false :: memRead src off n)] else [.outSub (memRead src off n)]) ++
          if last then [.stop] else [])) ∧
    (∀ (a : BitVec 7) (n : Nat), 1 ≤ n → n ≤ 63 →
      decodePacket cfg.speedCode (rpkt cfg a n) =
        some ([.start, .outSub [addrByte a true]] ++ (if 1 < n then [.inSub (BitVec.ofNat 6 (n - 1))] else []) ++
          [.inSub (cfg.finalIn.setWidth 6), .stop])) ∧
    decodePacket cfg.speedCode (speedPkt cfg) = some [.setSpeed (BitVec.ofNat 5 cfg.speedCode.val)]

/-- 41_i2c.md R106: packet lengths. -/
def Obligations.PacketLengths : Prop :=
  (∀ (a : BitVec 7) (src : Bytes) (off n : Nat) (first last : Bool), off + n ≤ src.length →
    (wpkt a src off n first last).length = n + 3 + 2 * first.toNat + last.toNat) ∧
  (∀ (cfg : Config) (a : BitVec 7) (src : Bytes), cfg.wf = true → ∀ ch ∈ wchunks cfg src.length,
    (wpkt a src ch.off ch.n ch.first ch.last).length ≤ 68 ∧
    ((wpkt a src ch.off ch.n ch.first ch.last).length = 68 ↔ ch.n = 62 ∧ ch.first = true ∧ ch.last = true)) ∧
  (∀ (cfg : Config) (a : BitVec 7) (n : Nat), 1 ≤ n → (rpkt cfg a n).length = if n = 1 then 7 else 8) ∧
  68 ≤ Config.scratchLen

/-- 41_i2c.md R95, R107 and R108 item 1: the write chunk plan, under every legal configuration. The chunks lie one after
the other, each as long as its ceiling allows; exactly the first has FIRST and exactly the last has LAST; the lengths sum to `L`; and
their number is 1 plus the rounded-up quotient of what the first leaves. -/
def Obligations.WriteChunkPlan : Prop :=
  ∀ (cfg : Config) (len : Nat), cfg.wf = true →
    (∀ (i : Nat) (ch : Chunk), (wchunks cfg len)[i]? = some ch →
      (ch.first = true ↔ i = 0) ∧ (ch.last = true ↔ i + 1 = (wchunks cfg len).length) ∧
      ch.off = (((wchunks cfg len).take i).map Chunk.n).sum ∧
      ch.n = min (len - ch.off) (if i = 0 then cfg.wchunkFirst else cfg.wchunkCont)) ∧
    ((wchunks cfg len).map Chunk.n).sum = len ∧
    (wchunks cfg len).length = 1 + (len - cfg.wchunkFirst + (cfg.wchunkCont - 1)) / cfg.wchunkCont

/-- 41_i2c.md R100, R107: the read chunk plan, under every legal configuration. -/
def Obligations.ReadChunkPlan : Prop :=
  ∀ (cfg : Config) (len : Nat), cfg.wf = true →
    (∀ (i : Nat) (p : Nat × Nat), (rchunks cfg len)[i]? = some p →
      p.1 = (((rchunks cfg len).take i).map Prod.snd).sum ∧ p.1 < len ∧ p.2 = min (len - p.1) cfg.rchunk) ∧
    ((rchunks cfg len).map Prod.snd).sum = len ∧
    (rchunks cfg len).length = (len + (cfg.rchunk - 1)) / cfg.rchunk

/-! ## Steps -/

/-- A step takes the first waiting command, reads its bytes at the place they stand at, and runs the instruction they are
on behalf of its context; a turn runs its context on; with nothing waiting nothing changes. How commands wait is the
model's choice (notes/assumptions/1.md, 28.md). -/
def Obligations.StepRunsTheDecodedInstruction : Prop :=
  ∀ (s : State) (rest : List Command),
    (∀ (bs : Bytes) (i : Instr), s.port = .request bs :: rest → decodeRequest bs = some i →
      step s = exec i { s with port := rest }) ∧
    (∀ (bs : Bytes) (i : Instr), s.port = .message bs :: rest → decodeRecord bs = some i →
      step s = exec i { s with port := rest }) ∧
    (∀ (c : Nat) (bs : Bytes) (i : Instr), s.port = .wire c bs :: rest →
      whole (decodeWire (s.atPacketStart c) bs) = some i → step s = exec i { s with port := rest, cur := c }) ∧
    (∀ (c : Nat) (i : Instr), s.port = .internal c i :: rest → i.format = .internal →
      step s = exec i { s with port := rest, cur := c }) ∧
    (∀ c : Nat, s.port = .turn c :: rest → step s = toOutcome (runCtx c { s with port := rest })) ∧
    (s.port = [] → step s = .next s)

/-! ## Reset -/

/-- 70_reset_and_hazards.md R146, 10_state.md R43: the session right after it is created, for a bridge of any variant. -/
def Obligations.ResetState : Prop :=
  State.reset = State.attach Config.openVariant ∧
  ∀ v : Nat,
    (State.attach v).sstate = .attached ∧ (State.attach v).regHandle = none ∧ (State.attach v).lock = .free ∧
    (State.attach v).gpo.bytesAt 0 3 = some [0xCC, 0x08, 0x00] ∧ (∀ a, 3 ≤ a → (State.attach v).gpo.byteAt a = none) ∧
    (State.attach v).gpiValid = false ∧
    (∀ a, (State.attach v).outbuf.byteAt a = none ∧ (State.attach v).inbuf.byteAt a = none ∧
      (State.attach v).gpi.byteAt a = none) ∧
    (State.attach v).outlen = none ∧ (State.attach v).inlen = none ∧ (State.attach v).ctxs = [] ∧
    (State.attach v).hist = [] ∧ (State.attach v).openTxn = false ∧ (State.attach v).cfg.variant = v

/-- The state right after reset meets every invariant stated below. -/
def Obligations.ResetMeetsTheInvariants : Prop :=
  State.reset.MutexInv ∧ State.reset.GpoHeaderInv ∧ State.reset.GpoPinsInv ∧ State.reset.BufferInv ∧
  State.reset.LengthInv ∧ State.reset.LastPacketInv ∧ State.reset.OpenTxnInv ∧ State.reset.MirrorInv ∧
  State.reset.ContextInv ∧ State.reset.StatusInv ∧ State.reset.LifecycleInv

/-! ## Invariants -/

/-- 10_state.md R35, R38 and 40_transport.md R87: a context stands in a phase that holds the lock exactly when `LOCK`
names it. -/
def Obligations.StepKeepsLockAndPhases : Prop :=
  ∀ s t : State, s.MutexInv → step s = .next t → t.MutexInv

/-- 10_state.md R33: the frame header holds at reset and every step keeps it. -/
def Obligations.FrameHeaderNeverChanges : Prop :=
  State.reset.gpo.bytesAt 0 3 = some [0xCC, 0x08, 0x00] ∧
  (∀ s t : State, s.gpo.bytesAt 0 3 = some [0xCC, 0x08, 0x00] → step s = .next t →
    t.gpo.bytesAt 0 3 = some [0xCC, 0x08, 0x00]) ∧
  ∀ (s t : State) (a : Nat), a < 3 → step s = .next t → t.gpo.byteAt a = s.gpo.byteAt a

/-- 10_state.md R32: a control byte of GPO that is written is one of 0x00, 0x30, 0x38, 0xB0, 0xB8. -/
def Obligations.StepKeepsControlBytes : Prop :=
  ∀ s t : State, s.GpoPinsInv → step s = .next t → t.GpoPinsInv

/-- 10_state.md R29, R30, R31: the scratch buffers keep to 512 bytes and to their canonical form; `OUTLEN` and `INLEN`
bytes of them are known; and `OUTBUF[0..OUTLEN)` is the last packet handed to Send. -/
def Obligations.StepKeepsBuffers : Prop :=
  ∀ s t : State, step s = .next t →
    (s.BufferInv → t.BufferInv) ∧ (s.LengthInv → t.LengthInv) ∧ (s.LastPacketInv → t.LastPacketInv)

/-- 10_state.md R41, 60_exceptions.md R135: `OPEN_TXN` is 1 when the packets of `HIST` left the transaction open, and
otherwise only because a write was aborted before its last chunk. How a packet whose Send failed counts is the model's
reading (notes/assumptions/21.md). -/
def Obligations.StepKeepsOpenTxn : Prop :=
  ∀ s t : State, s.MutexInv → s.OpenTxnInv → step s = .next t → t.OpenTxnInv

/-- 10_state.md R34, 20_memory.md R60: the mirror is Unknown, or it holds a reply of eleven bytes. -/
def Obligations.StepKeepsMirror : Prop :=
  ∀ s t : State, s.MutexInv → s.MirrorInv → step s = .next t → t.MirrorInv

/-- 10_state.md R28, R37: `OFF`, `N`, `IDX` and `PKT` keep to their bounds in every context. Three of the bounds are about the
model's choices: that `IDX` of an INIT context is at most 2, as its step counter (notes/assumptions/17.md); what `OFF` and `IDX`
hold between messages and in an ended context (notes/assumptions/42.md); and one DST buffer for each message
(notes/assumptions/24.md). -/
def Obligations.StepKeepsContextBounds : Prop :=
  ∀ s t : State, s.MutexInv → s.ContextInv → step s = .next t → t.ContextInv

/-- 60_exceptions.md R132, R134: every context ends with a status its operation may have, and has no result before. That a
single message record returns plain `Ok` is the model's choice (notes/assumptions/16.md); that an operation which ends by
`return Err(E)` ends in `Failed(E)`, so that no context is `Done` with an error, is its reading (notes/assumptions/10.md), and
so is `Failed` for a swallowed error (notes/assumptions/11.md). -/
def Obligations.StepKeepsStatuses : Prop :=
  ∀ s t : State, s.MutexInv → s.StatusInv → step s = .next t → t.StatusInv

/-- 10_state.md R36, 43_init.md R129: the lifecycle. That a second INIT is refused while the first is in flight is the
model's choice (notes/assumptions/18.md). -/
def Obligations.StepKeepsLifecycle : Prop :=
  ∀ s t : State, s.MutexInv → s.LifecycleInv → step s = .next t → t.LifecycleInv

/-- 10_state.md R42, 20_memory.md R54, 40_transport.md R89 to R91, 00_scope.md R18: a step only appends to `HIST`, only
exchanges of the context it runs, each of the form an exchange has; and the parameters never change. -/
def Obligations.HistoryOnlyGrows : Prop :=
  ∀ s t : State, step s = .next t →
    t.cfg = s.cfg ∧ ∃ es, t.hist = s.hist ++ es ∧ ∀ e ∈ es, e.ctx = s.actor ∧ e.Legal

/-- 10_state.md R38: `Done` and `Failed` are final: no step changes a context that ended. -/
def Obligations.EndedContextsStay : Prop :=
  ∀ (s t : State) (c : Nat) (x : Ctx), s.MutexInv → s.ctxs[c]? = some x → x.phase.isFinal = true → step s = .next t →
    t.ctxs[c]? = some x

/-! ## The lock between contexts -/

/-- 10_state.md R35, 20_memory.md R52, R59: while context `d` holds the lock, a step of any other context leaves the
buffers, the frame, the mirror, the record, the bridge's answers, the lock and context `d` as they are. -/
def Obligations.LockGuardsTheSession : Prop :=
  ∀ (s t : State) (d : Nat), s.MutexInv → s.lock = .held d → s.actor ≠ d → step s = .next t →
    t.lock = s.lock ∧ t.outbuf = s.outbuf ∧ t.outlen = s.outlen ∧ t.inbuf = s.inbuf ∧ t.inlen = s.inlen ∧
    t.gpo = s.gpo ∧ t.gpi = s.gpi ∧ t.gpiValid = s.gpiValid ∧ t.hist = s.hist ∧ t.openTxn = s.openTxn ∧
    t.sends = s.sends ∧ t.recvs = s.recvs ∧ t.ctxs[d]? = s.ctxs[d]?

/-- 20_memory.md R58, 40_transport.md R86: a context that waits while another holds the lock has no step. The turn that asked
for one, and its quantum, are used up (notes/assumptions/29.md). -/
def Obligations.WaitingContextHasNoStep : Prop :=
  ∀ (s : State) (c d : Nat) (x : Ctx) (rest : List Command), s.port = .turn c :: rest → s.ctxs[c]? = some x →
    x.phase = .waitLock → s.lock = .held d → d ≠ c →
    step s = .next { s with port := rest, quanta := s.quanta.drop 1 }

/-- 40_transport.md R86: ACQUIRE takes the free lock and goes to `Build` in one step, and otherwise waits; the holder faults.
What a single ACQUIRE does for a context that is not in its Acquire yet is the model's choice (notes/assumptions/14.md): the
context first does what its rule does before the Acquire, the pin check in `Admit` or the choice of the chunk in `Next`, and
a context that ended acquires nothing. -/
def Obligations.AcquireTakesTheFreeLock : Prop :=
  ∀ (s : State) (x : Ctx), s.ctxs[s.cur]? = some x →
    (x.phase = .waitLock ∨
      (engineOf x.op = .gpio ∧ (x.phase = .next ∨ (x.phase = .admitting ∧ ∀ p, checkedPin x.op = some p → p.toNat < 8))) ∨
      (x.op = .init ∧ x.phase = .admitting) →
      (s.lock = .free → exec .acquire s =
        .next { s with lock := .held s.cur, ctxs := s.ctxs.modify s.cur fun x => { x with phase := .build } }) ∧
      ∀ d, s.lock = .held d → d ≠ s.cur → exec .acquire s =
        .next { s with ctxs := s.ctxs.modify s.cur fun x => { x with phase := .waitLock } }) ∧
    (x.phase = .next → s.lock = .free → ∀ (a : BitVec 7) (src : Bytes), x.msg = some (.write a src) →
      x.first = true ∨ x.off < src.length → exec .acquire s =
        .next { s with
          lock := .held s.cur
          ctxs := s.ctxs.modify s.cur fun x =>
            let n := min (src.length - x.off) (if x.first then s.cfg.wchunkFirst else s.cfg.wchunkCont)
            { x with n := some n, last := some (x.off + n == src.length), phase := .build } }) ∧
    (x.phase = .next → s.lock = .free → ∀ (a : BitVec 7) (len : Nat), x.msg = some (.read a len) → x.off < len →
      exec .acquire s =
        .next { s with
          lock := .held s.cur
          ctxs := s.ctxs.modify s.cur fun x =>
            { x with n := some (min (len - x.off) s.cfg.rchunk), phase := .build } }) ∧
    (s.lock ≠ .held s.cur → x.phase.isFinal = true → exec .acquire s = .next s) ∧
    (s.lock = .held s.cur → exec .acquire s = .fault .lockReentry)

/-- 40_transport.md R87: RELEASE by the holder frees the lock, by any other context faults. That the context then stands in
`Next` is the model's choice (notes/assumptions/15.md). -/
def Obligations.ReleaseFreesTheLock : Prop :=
  ∀ s : State,
    (s.lock = .held s.cur → exec .release s =
      .next { s with lock := .free, ctxs := s.ctxs.modify s.cur fun x => { x with phase := .next } }) ∧
    (s.lock ≠ .held s.cur → exec .release s = .fault .lockNotHeld)

/-! ## The exchange and the round-trip -/

/-- 40_transport.md R89 to R91, 10_state.md R41: EXCHANGE by the current context, whatever the bridge answers; an IOError
aborts its operation (60_exceptions.md R134). That a packet whose Send failed counts for `OPEN_TXN` is the model's reading
(notes/assumptions/21.md); the phase a single EXCHANGE leaves its context in, and that it does not touch the mirror, are its
choices (notes/assumptions/40.md). -/
def Obligations.ExchangeDoesWhatItsRuleSays : Prop :=
  ∀ (s : State) (o : Bytes) (m : Nat),
    (s.lock ≠ .held s.cur → exec (.exchange o m) s = .fault .lockNotHeld) ∧
    (s.lock = .held s.cur → o.length = 0 ∨ 512 < o.length ∨ 512 < m → exec (.exchange o m) s = .fault .badExchange) ∧
    (s.lock = .held s.cur → 1 ≤ o.length → o.length ≤ 512 → m ≤ 512 →
      exec (.exchange o m) s = .next (match s.bulk s.cur o m with
        | (t, .ok _) => t.setPhase s.cur .check
        | (t, .error e) => abort s.cur e t))

/-- 42_gpio.md R111: GPIO_RT by the current context, whatever the bridge answers. That a single GPIO_RT leaves its context in
`Commit`, and that it reports `OFF` 0, are the model's choices (notes/assumptions/35.md, 22.md). -/
def Obligations.GpioRoundTripDoesWhatItsRuleSays : Prop :=
  ∀ (s : State) (o : Bytes), s.gpo.bytesAt 0 11 = some o →
    (s.lock ≠ .held s.cur → exec .gpioRt s = .fault .lockNotHeld) ∧
    (s.lock = .held s.cur →
      exec .gpioRt s = .next (match s.gpioTrip s.cur o with
        | (t, .ok _) => t.setPhase s.cur .commit
        | (t, .error e) => abort s.cur e t))

/-- 60_exceptions.md R134, R135, R137, 10_state.md R41: what an abort of context `c` leaves; a write aborted in its critical
section before its last chunk leaves `OPEN_TXN = 1`. -/
def Obligations.AbortLeavesWhatItsRuleSays : Prop :=
  ∀ (s : State) (c : Nat) (e : Err) (x : Ctx), s.ctxs[c]? = some x →
    (abort c e s).ctxs[c]? = some { x with
      phase := .failed e
      res := some (if isFireAndForget x.op then .noStatus else .err e) } ∧
    (∀ d, d ≠ c → (abort c e s).ctxs[d]? = s.ctxs[d]?) ∧
    (abort c e s).lock ≠ .held c ∧ (∀ d, d ≠ c → s.lock = .held d → (abort c e s).lock = .held d) ∧
    (abort c e s).sstate = (if x.op = .init then .dead else s.sstate) ∧
    (abort c e s).outbuf = s.outbuf ∧ (abort c e s).inbuf = s.inbuf ∧ (abort c e s).gpo = s.gpo ∧
    (abort c e s).gpi = s.gpi ∧ (abort c e s).gpiValid = s.gpiValid ∧ (abort c e s).hist = s.hist ∧
    (abort c e s).openTxn = (s.openTxn || (decide (s.lock = .held c) && x.midWrite)) ∧
    (abort c e s).regHandle = s.regHandle

/-! ## Wire sub-commands and the GPIO frame -/

/-- 30_encoding.md R62 to R65, R67 to R77: START, STOP, SET-SPEED, END, IN and OUT, by a context that builds the packet `p`
under the lock, each append exactly their bytes to the packet so far and change nothing else, when they stand next in `p`; at
any other place they are refused. STREAM begins PKT afresh, whatever it holds (41_i2c.md R96, R101). A context that builds no
packet, or does not build at all, emits no wire row. Of OUT with no bytes, IN with no bytes and SET-SPEED only IN with no bytes as `FINAL_IN`, and
SET-SPEED with `SPEED_CODE_100K`, are ever emitted. That a wire row runs as an emission is the model's choice
(notes/assumptions/12.md). -/
def Obligations.WireRowsEmitTheirBytes : Prop :=
  (∀ (s : State) (x : Ctx) (p : Bytes), s.ctxs[s.cur]? = some x → x.phase = .build → s.lock = .held s.cur →
    x.packet s.cfg = some p →
    exec .stream s = .next (s.modCtx s.cur fun x => { x with pkt := [0xAA] }) ∧
    (x.pkt ++ [0x74] <+: p → exec .start s = .next (s.modCtx s.cur fun x => { x with pkt := x.pkt ++ [0x74] })) ∧
    (x.pkt ++ [0x75] <+: p → exec .stop s = .next (s.modCtx s.cur fun x => { x with pkt := x.pkt ++ [0x75] })) ∧
    (x.pkt ++ [0x00] <+: p → exec .endPkt s = .next (s.modCtx s.cur fun x => { x with pkt := x.pkt ++ [0x00] })) ∧
    (∀ sp : BitVec 5, sp.toNat = s.cfg.speedCode.val → x.pkt ++ [0x60 ||| sp.setWidth 8] <+: p →
      exec (.setSpeed sp) s = .next (s.modCtx s.cur fun x => { x with pkt := x.pkt ++ [0x60 ||| sp.setWidth 8] })) ∧
    (∀ n : BitVec 6, n ≠ 0 ∨ s.cfg.finalIn = 0xC0 → x.pkt ++ [0xC0 ||| n.setWidth 8] <+: p →
      exec (.inSub n) s = .next (s.modCtx s.cur fun x => { x with pkt := x.pkt ++ [0xC0 ||| n.setWidth 8] })) ∧
    (∀ data : Bytes, data ≠ [] → x.pkt ++ (0x80 ||| BitVec.ofNat 8 data.length) :: data <+: p →
      exec (.outSub data) s =
        .next (s.modCtx s.cur fun x => { x with pkt := x.pkt ++ (0x80 ||| BitVec.ofNat 8 data.length) :: data })) ∧
    ∀ i : Instr, (i.format = .wireB ∧ i ≠ .stream) ∨ i.format = .wireL → ¬ (x.pkt ++ encode i <+: p) →
      exec i s = .refused .wirePosition) ∧
  (∀ (s : State) (i : Instr), i.format = .wireB ∨ i.format = .wireL →
    (s.building = none → exec i s = .refused .notBuilding) ∧
    ∀ x, s.building = some x → x.packet s.cfg = none → exec i s = .refused .wirePosition) ∧
  ∀ s t : State,
    exec (.outSub []) s ≠ .next t ∧ (exec (.inSub 0) s = .next t → s.cfg.finalIn = 0xC0) ∧
    ∀ sp : BitVec 5, exec (.setSpeed sp) s = .next t → sp.toNat = s.cfg.speedCode.val

/-- 30_encoding.md R62, R74: a packet stands in sub-command position from its marker on, and stays there after every
sub-command but END. -/
def Obligations.PacketGrammarIsKept : Prop :=
  inSubPosition [0xAA] = true ∧ inSubPosition [] = false ∧
  ∀ (p : Bytes) (i : Instr), inSubPosition p = true → i.wf = true →
    (i.format = .wireB ∧ i ≠ .stream) ∨ i.format = .wireL →
    (inSubPosition (p ++ encode i) = true ↔ i ≠ .endPkt)

/-- 30_encoding.md R77, R78, 10_state.md R32, R33: GPIO_FRAME, by a context that forms a GPIO frame under the lock, puts its
operation's frame `g` into GPO when the row's control bytes are that frame's, and is refused when they are not; the frame then
reads as its eleven bytes. That the row runs so is the model's choice (notes/assumptions/13.md). -/
def Obligations.GpioFrameFormsTheFrame : Prop :=
  ∀ (s : State) (x : Ctx) (pins : List PinCtl), s.ctxs[s.cur]? = some x → x.phase = .build → s.lock = .held s.cur →
    (x.buildsFrame = false → exec (.gpioFrame pins) s = .refused .wirePosition) ∧
    (x.buildsFrame = true → ∀ f, gpioFrameOf x.op s = .error f → exec (.gpioFrame pins) s = .fault f) ∧
    (x.buildsFrame = true → ∀ g, gpioFrameOf x.op s = .ok g →
      (g.bytesAt 3 8 ≠ some (pins.map PinCtl.byte) → exec (.gpioFrame pins) s = .refused .wirePosition) ∧
      (g.bytesAt 3 8 = some (pins.map PinCtl.byte) → exec (.gpioFrame pins) s = .next { s with gpo := g } ∧
        (s.gpo.bytesAt 0 3 = some [0xCC, 0x08, 0x00] →
          g.bytesAt 0 11 = some ([0xCC, 0x08, 0x00] ++ pins.map PinCtl.byte)) ∧
        ((∀ p, checkedPin x.op = some p → p.toNat < 8) → ∀ a, 11 ≤ a → g.byteAt a = s.gpo.byteAt a)))

/-! ## Admission -/

/-- 60_exceptions.md R139, 00_scope.md R10, 42_gpio.md R113, 43_init.md R129: the requests that are not admitted. That BadConfig is looked at
before the session state is the model's choice (notes/assumptions/23.md). -/
def Obligations.RequestsThatAreNotAdmitted : Prop :=
  ∀ (s : State) (op : Instr),
    (engineOf op = .i2c ∨ engineOf op = .gpio → s.cfg.wf = true → s.sstate ≠ .initialized →
      exec op s = .refused .notInitialized) ∧
    (engineOf op ≠ .none ∨ op = .teardown → s.cfg.wf = false → exec op s = .refused .badConfig) ∧
    (s.cfg.wf = true → s.sstate ≠ .attached → exec .init s = .refused .badLifecycle) ∧
    (s.cfg.wf = true → s.sstate = .initialized → exec (.i2cXfer []) s = .refused .emptyBatch)

/-- 70_reset_and_hazards.md R149, 42_gpio.md R116 to R119: with `GPI_VALID = 0` every operation that reads the cached mirror
faults before it sends anything. -/
def Obligations.UnwrittenMirrorFaults : Prop :=
  ∀ s : State, s.Ready → s.FrameReady → s.gpiValid = false →
    (∀ (p : Byte) (v : Bool), p.toNat < 8 → exec (.gpioWrite p v) s = .fault .unwrittenRead) ∧
    (∀ mask bits : Byte, mask ≠ 0 → exec (.gpioWriteMultiple mask bits) s = .fault .unwrittenRead) ∧
    (∀ p : Byte, p.toNat < 8 → exec (.gpioDirInput p) s = .fault .unwrittenRead) ∧
    (∀ (p : Byte) (v : Bool), p.toNat < 8 → s.cfg.dirOutValueMode = .copyOr →
      exec (.gpioDirOutput p v) s = .fault .unwrittenRead)

/-! ## GPIO operations

Each says what the operation does from any state in which nothing interrupts it, whatever the bridge answers: the next state
is written out in full, so every field it does not name is unchanged. `State.gpioRun` is the rule's own text: the frame with
the given control bytes, one round-trip, the result read from the reply or the error. -/

/-- 42_gpio.md R114, R109, R112: GPIO_READ. That a failed
operation ends in `Failed` is the model's reading (notes/assumptions/10.md), and the offset 0 of its ProtocolError the model's
choice (notes/assumptions/22.md). -/
def Obligations.GpioReadDoesWhatItsRuleSays : Prop :=
  ∀ (s : State) (p : Byte), s.Ready → s.FrameReady →
    exec (.gpioRead p) s = .next (
      if p.toNat < 8 then s.gpioRun (.gpioRead p) noPins fun r => .okBit ((replyPin r p.toNat).getLsbD 6)
      else s.pinRefused (.gpioRead p) p)

/-- 42_gpio.md R115: GPIO_READ_ALL. The byte it returns has bit `p` set exactly when `mask` has it and pin `p` reads 1. That a failed
operation ends in `Failed` is the model's reading (notes/assumptions/10.md), and the offset 0 of its ProtocolError the model's
choice (notes/assumptions/22.md). -/
def Obligations.GpioReadAllDoesWhatItsRuleSays : Prop :=
  (∀ (s : State) (mask : Byte), s.Ready → s.FrameReady →
    exec (.gpioReadAll mask) s = .next (s.gpioRun (.gpioReadAll mask) noPins fun r => .okByte (readAllByte mask r))) ∧
  ∀ (mask : Byte) (r : Bytes) (p : Nat), p < 8 →
    (readAllByte mask r).getLsbD p = (mask.getLsbD p && (replyPin r p).getLsbD 6)

/-- 42_gpio.md R116, R110, R112, R121: GPIO_WRITE keeps the cached direction `d` (bit 7 of the mirror), and has no status.
With an unknown mirror it faults (UnwrittenMirrorFaults). That a
swallowed error leaves the context in `Failed`, with no status, is the model's reading (notes/assumptions/11.md), and the
offset 0 of its ProtocolError the model's choice (notes/assumptions/22.md). -/
def Obligations.GpioWriteDoesWhatItsRuleSays : Prop :=
  ∀ (s : State) (p : Byte) (v : Bool), s.Ready → s.FrameReady →
    (∀ b : Byte, p.toNat < 8 → s.gpiValid = true → s.gpi.byteAt (3 + p.toNat) = some b →
      exec (.gpioWrite p v) s =
        .next (s.gpioRun (.gpioWrite p v) (onePin p.toNat (b.getLsbD 7) v) fun _ => .noStatus)) ∧
    (8 ≤ p.toNat → exec (.gpioWrite p v) s = .next (s.withCtx ((newCtx (.gpioWrite p v) []).finish .noStatus)))

/-- 42_gpio.md R117: GPIO_WRITE_MULTIPLE requests exactly the pins of `mask` whose cached direction is output, with their
bits of `bits`. `st` is the cached status of the pins; with an unknown mirror it faults (UnwrittenMirrorFaults). That a
swallowed error leaves the context in `Failed`, with no status, is the model's reading (notes/assumptions/11.md), and the
offset 0 of its ProtocolError the model's choice (notes/assumptions/22.md). -/
def Obligations.GpioWriteMultipleDoesWhatItsRuleSays : Prop :=
  ∀ (s : State) (mask bits : Byte) (st : Nat → Byte), s.Ready → s.FrameReady →
    (∀ p, p < 8 → mask.getLsbD p = true → s.gpiValid = true ∧ s.gpi.byteAt (3 + p) = some (st p)) →
    exec (.gpioWriteMultiple mask bits) s = .next (s.gpioRun (.gpioWriteMultiple mask bits)
      ((List.range 8).map fun p =>
        if mask.getLsbD p && (st p).getLsbD 7 then pinctl true true (bits.getLsbD p) else 0x00)
      fun _ => .noStatus)

/-- 42_gpio.md R118, R112: GPIO_DIR_INPUT copies the cached value (bit 6 of the mirror); with an unknown mirror it faults
(UnwrittenMirrorFaults). That a failed
operation ends in `Failed` is the model's reading (notes/assumptions/10.md), and the offset 0 of its ProtocolError the model's
choice (notes/assumptions/22.md). -/
def Obligations.GpioDirInputDoesWhatItsRuleSays : Prop :=
  ∀ (s : State) (p : Byte), s.Ready → s.FrameReady →
    (∀ b : Byte, p.toNat < 8 → s.gpiValid = true → s.gpi.byteAt (3 + p.toNat) = some b →
      exec (.gpioDirInput p) s = .next (s.gpioRun (.gpioDirInput p) (onePin p.toNat false (b.getLsbD 6)) fun _ => .ok)) ∧
    (8 ≤ p.toNat → exec (.gpioDirInput p) s = .next (s.pinRefused (.gpioDirInput p) p))

/-- 42_gpio.md R119, R112: GPIO_DIR_OUTPUT, in both modes of `DIR_OUT_VALUE_MODE`; `copy_or` with an unknown mirror faults
(UnwrittenMirrorFaults). That a failed
operation ends in `Failed` is the model's reading (notes/assumptions/10.md), and the offset 0 of its ProtocolError the model's
choice (notes/assumptions/22.md). -/
def Obligations.GpioDirOutputDoesWhatItsRuleSays : Prop :=
  ∀ (s : State) (p : Byte) (v : Bool), s.Ready → s.FrameReady →
    (p.toNat < 8 → s.cfg.dirOutValueMode = .assign →
      exec (.gpioDirOutput p v) s = .next (s.gpioRun (.gpioDirOutput p v) (onePin p.toNat true v) fun _ => .ok)) ∧
    (∀ b : Byte, p.toNat < 8 → s.cfg.dirOutValueMode = .copyOr → s.gpiValid = true →
      s.gpi.byteAt (3 + p.toNat) = some b →
      exec (.gpioDirOutput p v) s =
        .next (s.gpioRun (.gpioDirOutput p v) (onePin p.toNat true (b.getLsbD 6 || v)) fun _ => .ok)) ∧
    (8 ≤ p.toNat → exec (.gpioDirOutput p v) s = .next (s.pinRefused (.gpioDirOutput p v) p))

/-- 42_gpio.md R120, R112: GPIO_DIR_GET. That a failed
operation ends in `Failed` is the model's reading (notes/assumptions/10.md), and the offset 0 of its ProtocolError the model's
choice (notes/assumptions/22.md). -/
def Obligations.GpioDirGetDoesWhatItsRuleSays : Prop :=
  ∀ (s : State) (p : Byte), s.Ready → s.FrameReady →
    exec (.gpioDirGet p) s = .next (
      if p.toNat < 8 then s.gpioRun (.gpioDirGet p) noPins fun r => .okBit ((replyPin r p.toNat).getLsbD 7)
      else s.pinRefused (.gpioDirGet p) p)

/-- 42_gpio.md R109, R110, 20_memory.md R53: the frame an operation on one pin sends requests that pin only. -/
def Obligations.FrameRequestsOnlyItsPin : Prop :=
  ∀ (p q : Nat) (dir val : Bool), p < 8 → q < 8 →
    (frameBytes (onePin p dir val)).length = 11 ∧
    (frameBytes (onePin p dir val))[3 + q]? = some (if q = p then pinctl dir true val else 0x00) ∧
    (frameBytes noPins)[3 + q]? = some 0x00

/-- 42_gpio.md R122, R121, R111, 10_state.md R32, R34: every GPIO operation that passes its pin check makes exactly one
exchange, of the whole frame in GPO, eleven bytes whichever pins it touches; its mirror afterwards is valid exactly when the
round-trip was good, and then holds the reply. -/
def Obligations.GpioOperationsMakeOneExchange : Prop :=
  ∀ (s t : State) (op : Instr), s.Ready → s.FrameReady → engineOf op = .gpio →
    (∀ p, checkedPin op = some p → p.toNat < 8) → exec op s = .next t →
    ∃ (e : Exch) (pins : Bytes), t.hist = s.hist ++ [e] ∧ e.ctx = s.ctxs.length ∧ pins.length = 8 ∧
      e.sent = [0xCC, 0x08, 0x00] ++ pins ∧ e.m = 11 ∧ t.gpo.bytesAt 0 11 = some e.sent ∧
      (t.gpiValid = true ↔ ∃ r, e.recvAns = some (.ok r) ∧ r.length = 11) ∧
      ∀ r, e.recvAns = some (.ok r) → r.length = 11 → t.gpi.bytesAt 0 11 = some r

/-! ## I2C operations -/

/-- 41_i2c.md R104, R98, R102, R105: I2C_XFER does what the pseudocode of the rules does, message by message and chunk by
chunk, whatever the bridge answers; and it ends with the count of messages or with the error of the first one that failed.
That `return Err` ends in `Failed` (notes/assumptions/10.md) and that a packet whose Send failed counts for `OPEN_TXN`
(notes/assumptions/21.md) are the model's readings. -/
def Obligations.I2cXferDoesWhatItsRulesSay : Prop :=
  ∀ (s : State) (msgs : List Msg), s.Ready → msgs ≠ [] →
    ∃ x, exec (.i2cXfer msgs) s = .next ((i2cRule (.i2cXfer msgs) s).1.1.withCtx x) ∧
      x.EndedWith (.i2cXfer msgs) (.okCount msgs.length) (i2cRule (.i2cXfer msgs) s).2 ∧
      x.dst = (i2cRule (.i2cXfer msgs) s).1.2

/-- 41_i2c.md R98, R102: a single message record, run as an operation of its own, is a batch of that one message; that it can
be, and returns plain `Ok`, is the model's choice (notes/assumptions/16.md); that a packet whose Send failed counts for
`OPEN_TXN` is its reading (notes/assumptions/21.md). -/
def Obligations.MessageRecordsDoWhatTheirRulesSay : Prop :=
  ∀ (s : State) (a : BitVec 7), s.Ready →
    (∀ src : Bytes, ∃ x,
      exec (.i2cWrite a src) s = .next ((i2cRule (.i2cXfer [.write a src]) s).1.1.withCtx x) ∧
      x.EndedWith (.i2cWrite a src) .ok (i2cRule (.i2cXfer [.write a src]) s).2 ∧
      x.dst = (i2cRule (.i2cXfer [.write a src]) s).1.2) ∧
    ∀ len : Nat, ∃ x,
      exec (.i2cRead a len) s = .next ((i2cRule (.i2cXfer [.read a len]) s).1.1.withCtx x) ∧
      x.EndedWith (.i2cRead a len) .ok (i2cRule (.i2cXfer [.read a len]) s).2 ∧
      x.dst = (i2cRule (.i2cXfer [.read a len]) s).1.2

/-- 10_state.md R32 to R34, 20_memory.md R47, R53, 41_i2c.md R106: what an operation of the I2C engine leaves alone: the GPIO
frame and the mirror, the lifecycle and the handle, every earlier context, every byte of OUTBUF past the longest packet, and
every byte of INBUF past 512. The fields of the model's own that it leaves alone are named too. -/
def Obligations.I2cOperationsLeaveTheRestAlone : Prop :=
  ∀ (s t : State) (op : Instr), s.Ready → engineOf op = .i2c → exec op s = .next t →
    t.gpo = s.gpo ∧ t.gpi = s.gpi ∧ t.gpiValid = s.gpiValid ∧ t.sstate = s.sstate ∧ t.regHandle = s.regHandle ∧
    t.cfg = s.cfg ∧ t.lock = s.lock ∧ t.hostLog = s.hostLog ∧ t.regs = s.regs ∧ t.port = s.port ∧ t.cur = s.cur ∧
    t.quanta = s.quanta ∧ t.dstPort = [] ∧ (∃ x, t.ctxs = s.ctxs ++ [x]) ∧
    (∀ a, 68 ≤ a → t.outbuf.byteAt a = s.outbuf.byteAt a) ∧ ∀ a, 512 ≤ a → t.inbuf.byteAt a = s.inbuf.byteAt a

/-- 41_i2c.md R105, R108 item 4: a 10-bit message is never framed. In `prescan` the whole batch ends with InvalidArgument,
naming the first 10-bit message, and no exchange is made; a single 10-bit record ends so in both modes. That a single record
runs on its own is the model's choice (notes/assumptions/16.md), and that `return Err` ends in `Failed` its reading
(notes/assumptions/10.md). -/
def Obligations.TenBitMessagesAreNeverFramed : Prop :=
  ∀ s : State, s.Ready →
    (∀ (msgs : List Msg) (j : Nat), s.cfg.tenBitCheck = .prescan → firstTen msgs = some j →
      exec (.i2cXfer msgs) s = .next (s.withCtx
        ((newCtx (.i2cXfer msgs) (dstFor (.i2cXfer msgs) s.dstPort)).fail (.invalidArgument (.tenBitAddress j))))) ∧
    ∀ (rd : Bool) (a : Byte) (len : Nat) (p : Bytes),
      exec (.i2cMsgTen rd a len p) s = .next (s.withCtx
        ((newCtx (.i2cMsgTen rd a len p) (dstFor (.i2cMsgTen rd a len p) s.dstPort)).fail
          (.invalidArgument (.tenBitAddress 0))))

/-- 41_i2c.md R99: a write of length 0 sends exactly one packet, `AA 74 81 (a<<1) 75 00`, with `m = 1`, whatever the bridge
answers; with the reply `01` it succeeds. -/
def Obligations.ZeroLengthWriteSendsTheAddress : Prop :=
  ∀ (s : State) (a : BitVec 7), s.Ready →
    ∃ (t : State) (x : Ctx) (e : Exch), exec (.i2cXfer [.write a []]) s = .next t ∧ t.ctxs = s.ctxs ++ [x] ∧
      t.hist = s.hist ++ [e] ∧ e.sent = [0xAA, 0x74, 0x81, addrByte a false, 0x75, 0x00] ∧ e.m = 1 ∧
      (∀ (k : Nat) (ss : List SendAns) (rs : List RecvAns), s.sends = .ok k :: ss → s.recvs = .ok [0x01] :: rs →
        x.phase = .done (.okCount 1) ∧ x.res = some (.okCount 1))

/-- 41_i2c.md R103: a read of length 0 performs no exchange, completes with `Ok`, and leaves DST as it is. -/
def Obligations.ZeroLengthReadDoesNothing : Prop :=
  ∀ (s : State) (a : BitVec 7), s.Ready →
    ∃ x, exec (.i2cXfer [.read a 0]) s = .next (s.withCtx x) ∧ x.phase = .done (.okCount 1) ∧
      x.res = some (.okCount 1) ∧ x.dst = [s.dstPort.headD []]

/-- 41_i2c.md R108 item 1, R96: a write that succeeded sent the packets of its chunk plan, in order; exactly the first has
START, exactly the last has STOP, and the bytes on the bus are the address byte and then the payload. -/
def Obligations.WriteSendsItsBytesInOrder : Prop :=
  ∀ (s t : State) (a : BitVec 7) (src : Bytes) (x : Ctx), s.Ready → exec (.i2cXfer [.write a src]) s = .next t →
    t.ctxs = s.ctxs ++ [x] → x.res = some (.okCount 1) →
    ∃ es : List Exch, t.hist = s.hist ++ es ∧ es.length = (wchunks s.cfg src.length).length ∧
      (∀ (i : Nat) (e : Exch), es[i]? = some e →
        (hasStart s.cfg.speedCode e.sent = true ↔ i = 0) ∧
        (hasStop s.cfg.speedCode e.sent = true ↔ i + 1 = es.length)) ∧
      es.flatMap (fun e => packetData s.cfg.speedCode e.sent) = addrByte a false :: src

/-- 41_i2c.md R108 item 2: after a read that succeeded, `DST[0..L)` is the concatenation of the chunks' payloads in chunk
order, and every byte past `L` is as before. -/
def Obligations.ReadConcatenatesItsChunks : Prop :=
  ∀ (s t : State) (a : BitVec 7) (len : Nat) (x : Ctx), s.Ready → exec (.i2cXfer [.read a len]) s = .next t →
    t.ctxs = s.ctxs ++ [x] → x.res = some (.okCount 1) →
    ∃ (es : List Exch) (d : Memory), t.hist = s.hist ++ es ∧ x.dst = [d] ∧
      d.bytesAt 0 len = some (es.flatMap Exch.payload) ∧
      ∀ b, len ≤ b → d.byteAt b = (s.dstPort.headD []).byteAt b

/-- 41_i2c.md R108 item 3, R102: a read chunk's reply of the right length whose byte 0 is not the ACK marker gives
NackError at the chunk's offset, and no payload byte of that chunk reaches DST: chunk `i` of the read, at `off`, after the
chunks before it were answered well with the bytes `data`. The chunks before it stay written, and no later chunk is sent. -/
def Obligations.NackedReadWritesNothing : Prop :=
  ∀ (s : State) (a : BitVec 7) (len i off n : Nat) (data r : Bytes) (ks : List Nat) (ss : List SendAns)
    (rs : List RecvAns), s.Ready → (rchunks s.cfg len)[i]? = some (off, n) → data.length = off →
    s.recvs = ((rchunks s.cfg len).take i).map (fun p => .ok (0x01 :: memRead data p.1 p.2)) ++ .ok r :: rs →
    s.sends = ks.map .ok ++ ss → ks.length = i + 1 → r.length = n + 1 → r.head? ≠ some 0x01 →
    ∃ (t : State) (x : Ctx) (es : List Exch) (d : Memory), exec (.i2cXfer [.read a len]) s = .next t ∧
      t.ctxs = s.ctxs ++ [x] ∧ t.hist = s.hist ++ es ∧ es.length = i + 1 ∧ x.phase = .failed (.nackError off 0) ∧
      x.res = some (.err (.nackError off 0)) ∧ x.dst = [d] ∧ d.bytesAt 0 off = some data ∧
      ∀ b, off ≤ b → d.byteAt b = (s.dstPort.headD []).byteAt b

/-- 41_i2c.md R97, 60_exceptions.md R133 item 7: the index a NackError of a write records is the least index of a status
byte that is not the ACK marker; there is none exactly when every byte is. -/
def Obligations.LeastNackIndex : Prop :=
  ∀ (r : Bytes),
    (∀ i, firstNack r = some i ↔ (∃ b, r[i]? = some b ∧ b ≠ 0x01) ∧ ∀ j, j < i → r[j]? = some 0x01) ∧
    (firstNack r = none ↔ ∀ b ∈ r, b = 0x01)

/-- 41_i2c.md R104, R108: a batch with no 10-bit message, answered well by the bridge throughout, returns `Ok(K)`, takes
exactly the answers of its chunks, and every read's DST holds the bytes the device gave. `data` holds the bytes of each
read. -/
def Obligations.WellAnsweredBatchSucceeds : Prop :=
  ∀ (s : State) (msgs : List Msg) (data : List Bytes) (ks : List Nat) (ss : List SendAns) (rs : List RecvAns), s.Ready →
    msgs ≠ [] → (∀ m ∈ msgs, m.isTen = false) → data.length = msgs.length →
    (∀ (j : Nat) (a : BitVec 7) (len : Nat) (d : Bytes), msgs[j]? = some (.read a len) → data[j]? = some d →
      d.length = len) →
    s.recvs = (goodReplies s.cfg msgs data).map RecvAns.ok ++ rs →
    s.sends = ks.map SendAns.ok ++ ss → ks.length = (goodReplies s.cfg msgs data).length →
    ∃ (t : State) (x : Ctx), exec (.i2cXfer msgs) s = .next t ∧ t.ctxs = s.ctxs ++ [x] ∧
      x.phase = .done (.okCount msgs.length) ∧ x.res = some (.okCount msgs.length) ∧
      t.recvs = rs ∧ t.sends = ss ∧ t.hist.length = s.hist.length + ks.length ∧
      ∀ (j : Nat) (a : BitVec 7) (len : Nat) (d : Bytes), msgs[j]? = some (.read a len) → data[j]? = some d →
        ∃ m, x.dst[j]? = some m ∧ m.bytesAt 0 len = some d

/-! ## INIT and TEARDOWN -/

/-- 43_init.md R124 to R127, 60_exceptions.md R137: INIT does what its rule says, for either variant, whatever the bridge and
the host answer. That it is refused while an INIT was already submitted is the model's choice (notes/assumptions/18.md), and so
are `IDX` as its step counter (17.md), the step `registration` its IOError names (20.md) and a failed registration where the
host's answers are used up (3.md), and the offset 0 of a ProtocolError of the idle-pin frame (22.md); that `return Err` ends in
`Failed` is the model's reading (10.md). -/
def Obligations.InitDoesWhatItsRuleSays : Prop :=
  ∀ s : State, s.cfg.wf = true → s.sstate = .attached → s.initSubmitted = false → s.lock = .free → s.quanta = [] →
    s.FrameReady → exec .init s = .next s.initRun

/-- 43_init.md R124, R125, R126, R129 and 60_exceptions.md R137: what INIT sends and how it ends. The speed command comes
first and alone asks for no reply; the idle-pin frame follows for the one variant only; and the session is Initialized with a
handle when the result is `Ok`, else Dead with none. -/
def Obligations.InitSendsAndEnds : Prop :=
  ∀ (s t : State) (x : Ctx), s.cfg.wf = true → s.sstate = .attached → s.regHandle = none → s.initSubmitted = false →
    s.lock = .free → s.quanta = [] → s.FrameReady → exec .init s = .next t → t.ctxs = s.ctxs ++ [x] →
    ∃ e : Exch, ∃ es : List Exch, t.hist = s.hist ++ e :: es ∧
      e.sent = [0xAA, 0x60 ||| BitVec.ofNat 8 s.cfg.speedCode.val, 0x00] ∧ e.m = 0 ∧ e.recvAns = none ∧
      (s.cfg.variant ≠ s.cfg.variantId → es = [] ∧ t.gpiValid = s.gpiValid) ∧
      (s.cfg.variant = s.cfg.variantId → x.res = some .ok → ∃ e2, es = [e2] ∧
        e2.sent = [0xCC, 0x08, 0x00] ++ (List.replicate 8 0x00).set s.cfg.idlePin.val 0xB8) ∧
      (x.res = some .ok → t.sstate = .initialized ∧ t.regHandle ≠ none) ∧
      (x.res ≠ some .ok → t.sstate = .dead ∧ t.regHandle = none)

/-- 43_init.md R128: TEARDOWN with no operation in flight and the lock free unregisters the bus when the session was
initialized, sends nothing, and leaves the session Dead; otherwise there is no step. That no step is a refusal, and that
TEARDOWN leaves a context record, are the model's choices (notes/assumptions/19.md); under illegal parameters it is refused
(RequestsThatAreNotAdmitted). -/
def Obligations.TeardownDoesWhatItsRuleSays : Prop :=
  ∀ s : State, s.cfg.wf = true →
    ((∀ x ∈ s.ctxs, x.phase.isFinal = true) → s.lock = .free →
      exec .teardown s = .next { s.withCtx ((newCtx .teardown []).finish .noStatus) with
        sstate := .dead
        regHandle := if s.sstate = .initialized then none else s.regHandle
        hostLog := s.hostLog ++ (if s.sstate = .initialized then (s.regHandle.map HostEvent.unregister).toList else []) }) ∧
    ((∃ x ∈ s.ctxs, x.phase.isFinal = false) ∨ s.lock ≠ .free → exec .teardown s = .refused .hostDuty)

/-! ## Whole runs -/

/-- 70_reset_and_hazards.md R157, R159: an operation of the I2C or the GPIO engine that nothing interrupts ends: if it does not
fault, its context is Done or Failed, the lock is free again, and a run that had ended has ended again. -/
def Obligations.UninterruptedOperationEnds : Prop :=
  ∀ (s t : State) (op : Instr), s.Ready → s.FrameReady → engineOf op = .i2c ∨ engineOf op = .gpio →
    exec op s = .next t →
    (∃ x, t.ctxs = s.ctxs ++ [x] ∧ x.op = op ∧ x.phase.isFinal = true) ∧ t.lock = .free ∧ t.sstate = .initialized ∧
    (s.runEnded = true → t.runEnded = true)

/-- 60_exceptions.md R131: the status codes and the caller-visible classes. -/
def Obligations.StatusCodesAndClasses : Prop :=
  (∀ st : IoStep, (Err.ioError st).code = 1 ∧ (Err.ioError st).callerClass = .ioError) ∧
  (∀ o q a : Nat, (Err.protocolError o q a).code = 2 ∧ (Err.protocolError o q a).callerClass = .protocolError) ∧
  (∀ o i : Nat, (Err.nackError o i).code = 3 ∧ (Err.nackError o i).callerClass = .timeout) ∧
  (∀ i : ArgInfo, (Err.invalidArgument i).code = 4 ∧ (Err.invalidArgument i).callerClass = .invalidArgument) ∧
  (∀ e : Err, (Result.err e).code = some e.code) ∧
  (Result.ok).code = some 0 ∧ (∀ k, (Result.okCount k).code = some 0) ∧ (∀ b, (Result.okBit b).code = some 0) ∧
  (∀ b, (Result.okByte b).code = some 0) ∧ (Result.noStatus).code = none
end

