-- ==== Sys2Proof/Laws/Memory.lean ====
section
/-! SUPPORT. The laws of byte spaces: read after write, every other byte unchanged, the canonical form kept, and equal
contents are equal data. -/

namespace Sys2Proof.Machine.Memory

/-- Read after write: the written byte at its address, everything else as before. -/
theorem byteAt_put (m : Memory) (a a' : Nat) (b : Byte) :
    byteAt (put m a b) a' = if a = a' then some b else byteAt m a' := by
  induction m with
  | nil => simp [put, byteAt]
  | cons cell m ih =>
    obtain ⟨x, y⟩ := cell
    simp only [put]
    by_cases h1 : a < x
    · simp [h1, byteAt]
    · by_cases h2 : a = x
      · subst h2
        by_cases h3 : a = a' <;> simp [byteAt, h3]
      · simp only [h1, h2, if_false, byteAt, ih]
        by_cases h3 : x = a'
        · subst h3; simp [h2]
        · simp [h3]

@[simp] theorem byteAt_put_self (m : Memory) (a : Nat) (b : Byte) : byteAt (put m a b) a = some b := by
  simp [byteAt_put]

theorem byteAt_put_ne (m : Memory) {a a' : Nat} (b : Byte) (h : a ≠ a') :
    byteAt (put m a b) a' = byteAt m a' := by
  simp [byteAt_put, h]

/-- Reading after writing a row of bytes. -/
theorem byteAt_putBytes (m : Memory) (a a' : Nat) (bs : Bytes) :
    byteAt (putBytes m a bs) a' = if a ≤ a' ∧ a' < a + bs.length then bs[a' - a]? else byteAt m a' := by
  induction bs generalizing m a with
  | nil =>
    have : ¬ (a ≤ a' ∧ a' < a) := by omega
    simp [putBytes, this]
  | cons b bs ih =>
    simp only [putBytes, ih, byteAt_put, List.length_cons]
    by_cases h1 : a + 1 ≤ a' ∧ a' < a + 1 + bs.length
    · have h2 : a ≤ a' ∧ a' < a + (bs.length + 1) := by omega
      have h3 : a' - a = (a' - (a + 1)) + 1 := by omega
      rw [if_pos h1, if_pos h2, h3, List.getElem?_cons_succ]
    · rw [if_neg h1]
      by_cases h2 : a = a'
      · subst h2; simp
      · have h3 : ¬ (a ≤ a' ∧ a' < a + (bs.length + 1)) := by omega
        rw [if_neg h2, if_neg h3]

/-- Every byte outside the written row is unchanged (20_memory.md R47). -/
theorem byteAt_putBytes_outside (m : Memory) (a a' : Nat) (bs : Bytes) (h : a' < a ∨ a + bs.length ≤ a') :
    byteAt (putBytes m a bs) a' = byteAt m a' := by
  rw [byteAt_putBytes, if_neg (by omega)]

/-- What reading a row means, byte by byte. -/
theorem bytesAt_eq_some {m : Memory} {n a : Nat} {bs : Bytes} :
    bytesAt m a n = some bs ↔ bs.length = n ∧ ∀ i, i < n → byteAt m (a + i) = bs[i]? := by
  induction n generalizing a bs with
  | zero =>
    constructor
    · intro h; simp only [bytesAt, Option.some.injEq] at h; subst h; simp
    · intro h; simp [bytesAt, List.length_eq_zero_iff.mp h.1]
  | succ n ih =>
    simp only [bytesAt]
    constructor
    · intro h
      cases hb : byteAt m a with
      | none => simp [hb] at h
      | some b =>
        cases hr : bytesAt m (a + 1) n with
        | none => simp [hb, hr] at h
        | some rest =>
          simp only [hb, hr, Option.some.injEq] at h
          subst h
          obtain ⟨hl, hi⟩ := ih.mp hr
          refine ⟨by simp [hl], ?_⟩
          intro i hin
          cases i with
          | zero => simp [hb]
          | succ i =>
            have := hi i (by omega)
            simpa [Nat.add_assoc, Nat.add_comm 1 i] using this
    · rintro ⟨hl, hi⟩
      cases bs with
      | nil => simp at hl
      | cons b rest =>
        have h0 : byteAt m a = some b := by simpa using hi 0 (by omega)
        have hr : bytesAt m (a + 1) n = some rest := by
          refine ih.mpr ⟨by simpa using hl, ?_⟩
          intro i hin
          have := hi (i + 1) (by omega)
          simpa [Nat.add_assoc, Nat.add_comm 1 i] using this
        simp [h0, hr]

/-- A row reads back as written. -/
@[simp] theorem bytesAt_putBytes_self (m : Memory) (a : Nat) (bs : Bytes) :
    bytesAt (putBytes m a bs) a bs.length = some bs := by
  rw [bytesAt_eq_some]
  refine ⟨rfl, fun i hi => ?_⟩
  rw [byteAt_putBytes, if_pos (by omega)]
  simp

/-- A row whose bytes are all as before reads as before. -/
theorem bytesAt_congr {m m' : Memory} {a n : Nat} (h : ∀ i, i < n → byteAt m' (a + i) = byteAt m (a + i)) :
    bytesAt m' a n = bytesAt m a n := by
  induction n generalizing a with
  | zero => rfl
  | succ n ih =>
    have h0 : byteAt m' a = byteAt m a := by simpa using h 0 (by omega)
    have h1 : bytesAt m' (a + 1) n = bytesAt m (a + 1) n := by
      apply ih
      intro i hi
      have := h (i + 1) (by omega)
      simpa [Nat.add_assoc, Nat.add_comm 1 i] using this
    simp only [bytesAt, h0, h1]

theorem mem_put {m : Memory} {a : Nat} {b : Byte} {cell : Host.Cell} (h : cell ∈ put m a b) :
    cell.1 = a ∨ cell ∈ m := by
  induction m with
  | nil => simp [put] at h; simp [h]
  | cons c m ih =>
    obtain ⟨x, y⟩ := c
    simp only [put] at h
    split at h
    · simp only [List.mem_cons] at h ⊢
      rcases h with h | h | h <;> simp [h]
    · split at h
      · simp only [List.mem_cons] at h ⊢
        rcases h with h | h <;> simp [h]
      · simp only [List.mem_cons] at h ⊢
        rcases h with h | h
        · simp [h]
        · rcases ih h with h | h <;> simp [h]

/-- Writing one byte keeps the canonical form. -/
theorem wf_put {m : Memory} (hm : m.wf) (a : Nat) (b : Byte) : (put m a b).wf := by
  induction m with
  | nil => simp [put, wf]
  | cons c m ih =>
    obtain ⟨x, y⟩ := c
    obtain ⟨hx, hm'⟩ := List.pairwise_cons.mp hm
    simp only [put]
    split
    · rename_i hlt
      refine List.pairwise_cons.mpr ⟨?_, hm⟩
      intro c hc
      rcases List.mem_cons.mp hc with h | h
      · simpa [h] using hlt
      · exact Nat.lt_trans hlt (hx c h)
    · split
      · rename_i heq
        subst heq
        exact List.pairwise_cons.mpr ⟨hx, hm'⟩
      · refine List.pairwise_cons.mpr ⟨?_, ih hm'⟩
        intro c hc
        rcases mem_put hc with h | h
        · simp only [h]; omega
        · exact hx c h

/-- Writing a row keeps the canonical form. -/
theorem wf_putBytes {m : Memory} (hm : m.wf) (a : Nat) (bs : Bytes) : (putBytes m a bs).wf := by
  induction bs generalizing m a with
  | nil => exact hm
  | cons b bs ih => exact ih (wf_put hm a b) (a + 1)

theorem below_put {m : Memory} {n a : Nat} (hm : below n m) (ha : a < n) (b : Byte) : below n (put m a b) := by
  intro c hc
  rcases mem_put hc with h | h
  · omega
  · exact hm c h

theorem below_putBytes {m : Memory} {n a : Nat} {bs : Bytes} (hm : below n m) (ha : a + bs.length ≤ n) :
    below n (putBytes m a bs) := by
  induction bs generalizing m a with
  | nil => exact hm
  | cons b bs ih =>
    simp only [List.length_cons] at ha
    exact ih (below_put hm (by omega) b) (by omega)

theorem byteAt_eq_none_of_lt {m : Memory} {a : Nat} (h : ∀ c ∈ m, a < c.1) : byteAt m a = none := by
  induction m with
  | nil => rfl
  | cons c m ih =>
    obtain ⟨x, y⟩ := c
    have hx : a < x := h (x, y) (by simp)
    simp only [byteAt]
    rw [if_neg (by omega)]
    exact ih fun c hc => h c (by simp [hc])

/-- Equal contents are equal data: a byte space in canonical form is the list of what its addresses read as. -/
theorem ext_of_wf {m m' : Memory} (hm : m.wf) (hm' : m'.wf) (h : ∀ a, byteAt m a = byteAt m' a) : m = m' := by
  induction m generalizing m' with
  | nil =>
    cases m' with
    | nil => rfl
    | cons c m' => obtain ⟨x, y⟩ := c; simpa [byteAt] using h x
  | cons c m ih =>
    obtain ⟨x, y⟩ := c
    obtain ⟨hx, hmw⟩ := List.pairwise_cons.mp hm
    cases m' with
    | nil => simpa [byteAt] using h x
    | cons c' m' =>
      obtain ⟨x', y'⟩ := c'
      obtain ⟨hx', hmw'⟩ := List.pairwise_cons.mp hm'
      have hxx : x = x' := by
        by_contra hne
        rcases Nat.lt_or_gt_of_ne hne with hlt | hlt
        · have h1 := h x
          simp only [byteAt, if_true] at h1
          rw [if_neg (by omega), byteAt_eq_none_of_lt (fun c hc => Nat.lt_trans hlt (hx' c hc))] at h1
          cases h1
        · have h1 := h x'
          simp only [byteAt, if_true] at h1
          rw [if_neg (by omega), byteAt_eq_none_of_lt (fun c hc => Nat.lt_trans hlt (hx c hc))] at h1
          cases h1
      subst hxx
      have hyy : y = y' := by simpa [byteAt] using h x
      subst hyy
      congr 1
      apply ih hmw hmw'
      intro a
      by_cases ha : x = a
      · subst ha
        rw [byteAt_eq_none_of_lt hx, byteAt_eq_none_of_lt hx']
      · have := h a
        simpa [byteAt, ha] using this

end Sys2Proof.Machine.Memory
end

