-- ==== Sys2Proof/Laws/State.lean ====
section
/-! SUPPORT. One lemma for each field and each shared update of the state, true by rfl, so that no proof unfolds a
record update. -/

namespace Sys2Proof.Machine

/-! `State.modCtx` -/

@[simp] theorem State.modCtx_cfg (s : State) (c : Nat) (f : Ctx → Ctx) : (s.modCtx c f).cfg = s.cfg := rfl
@[simp] theorem State.modCtx_sstate (s : State) (c : Nat) (f : Ctx → Ctx) : (s.modCtx c f).sstate = s.sstate := rfl
@[simp] theorem State.modCtx_regHandle (s : State) (c : Nat) (f : Ctx → Ctx) : (s.modCtx c f).regHandle = s.regHandle := rfl
@[simp] theorem State.modCtx_lock (s : State) (c : Nat) (f : Ctx → Ctx) : (s.modCtx c f).lock = s.lock := rfl
@[simp] theorem State.modCtx_outbuf (s : State) (c : Nat) (f : Ctx → Ctx) : (s.modCtx c f).outbuf = s.outbuf := rfl
@[simp] theorem State.modCtx_outlen (s : State) (c : Nat) (f : Ctx → Ctx) : (s.modCtx c f).outlen = s.outlen := rfl
@[simp] theorem State.modCtx_inbuf (s : State) (c : Nat) (f : Ctx → Ctx) : (s.modCtx c f).inbuf = s.inbuf := rfl
@[simp] theorem State.modCtx_inlen (s : State) (c : Nat) (f : Ctx → Ctx) : (s.modCtx c f).inlen = s.inlen := rfl
@[simp] theorem State.modCtx_gpo (s : State) (c : Nat) (f : Ctx → Ctx) : (s.modCtx c f).gpo = s.gpo := rfl
@[simp] theorem State.modCtx_gpi (s : State) (c : Nat) (f : Ctx → Ctx) : (s.modCtx c f).gpi = s.gpi := rfl
@[simp] theorem State.modCtx_gpiValid (s : State) (c : Nat) (f : Ctx → Ctx) : (s.modCtx c f).gpiValid = s.gpiValid := rfl
@[simp] theorem State.modCtx_ctxs (s : State) (c : Nat) (f : Ctx → Ctx) : (s.modCtx c f).ctxs = s.ctxs.modify c f := rfl
@[simp] theorem State.modCtx_hist (s : State) (c : Nat) (f : Ctx → Ctx) : (s.modCtx c f).hist = s.hist := rfl
@[simp] theorem State.modCtx_openTxn (s : State) (c : Nat) (f : Ctx → Ctx) : (s.modCtx c f).openTxn = s.openTxn := rfl
@[simp] theorem State.modCtx_hostLog (s : State) (c : Nat) (f : Ctx → Ctx) : (s.modCtx c f).hostLog = s.hostLog := rfl
@[simp] theorem State.modCtx_cur (s : State) (c : Nat) (f : Ctx → Ctx) : (s.modCtx c f).cur = s.cur := rfl
@[simp] theorem State.modCtx_port (s : State) (c : Nat) (f : Ctx → Ctx) : (s.modCtx c f).port = s.port := rfl
@[simp] theorem State.modCtx_dstPort (s : State) (c : Nat) (f : Ctx → Ctx) : (s.modCtx c f).dstPort = s.dstPort := rfl
@[simp] theorem State.modCtx_sends (s : State) (c : Nat) (f : Ctx → Ctx) : (s.modCtx c f).sends = s.sends := rfl
@[simp] theorem State.modCtx_recvs (s : State) (c : Nat) (f : Ctx → Ctx) : (s.modCtx c f).recvs = s.recvs := rfl
@[simp] theorem State.modCtx_regs (s : State) (c : Nat) (f : Ctx → Ctx) : (s.modCtx c f).regs = s.regs := rfl
@[simp] theorem State.modCtx_quanta (s : State) (c : Nat) (f : Ctx → Ctx) : (s.modCtx c f).quanta = s.quanta := rfl

/-! `State.setPhase` -/

@[simp] theorem State.setPhase_cfg (s : State) (c : Nat) (p : Phase) : (s.setPhase c p).cfg = s.cfg := rfl
@[simp] theorem State.setPhase_sstate (s : State) (c : Nat) (p : Phase) : (s.setPhase c p).sstate = s.sstate := rfl
@[simp] theorem State.setPhase_regHandle (s : State) (c : Nat) (p : Phase) : (s.setPhase c p).regHandle = s.regHandle := rfl
@[simp] theorem State.setPhase_lock (s : State) (c : Nat) (p : Phase) : (s.setPhase c p).lock = s.lock := rfl
@[simp] theorem State.setPhase_outbuf (s : State) (c : Nat) (p : Phase) : (s.setPhase c p).outbuf = s.outbuf := rfl
@[simp] theorem State.setPhase_outlen (s : State) (c : Nat) (p : Phase) : (s.setPhase c p).outlen = s.outlen := rfl
@[simp] theorem State.setPhase_inbuf (s : State) (c : Nat) (p : Phase) : (s.setPhase c p).inbuf = s.inbuf := rfl
@[simp] theorem State.setPhase_inlen (s : State) (c : Nat) (p : Phase) : (s.setPhase c p).inlen = s.inlen := rfl
@[simp] theorem State.setPhase_gpo (s : State) (c : Nat) (p : Phase) : (s.setPhase c p).gpo = s.gpo := rfl
@[simp] theorem State.setPhase_gpi (s : State) (c : Nat) (p : Phase) : (s.setPhase c p).gpi = s.gpi := rfl
@[simp] theorem State.setPhase_gpiValid (s : State) (c : Nat) (p : Phase) : (s.setPhase c p).gpiValid = s.gpiValid := rfl
@[simp] theorem State.setPhase_ctxs (s : State) (c : Nat) (p : Phase) : (s.setPhase c p).ctxs = s.ctxs.modify c fun x => { x with phase := p } := rfl
@[simp] theorem State.setPhase_hist (s : State) (c : Nat) (p : Phase) : (s.setPhase c p).hist = s.hist := rfl
@[simp] theorem State.setPhase_openTxn (s : State) (c : Nat) (p : Phase) : (s.setPhase c p).openTxn = s.openTxn := rfl
@[simp] theorem State.setPhase_hostLog (s : State) (c : Nat) (p : Phase) : (s.setPhase c p).hostLog = s.hostLog := rfl
@[simp] theorem State.setPhase_cur (s : State) (c : Nat) (p : Phase) : (s.setPhase c p).cur = s.cur := rfl
@[simp] theorem State.setPhase_port (s : State) (c : Nat) (p : Phase) : (s.setPhase c p).port = s.port := rfl
@[simp] theorem State.setPhase_dstPort (s : State) (c : Nat) (p : Phase) : (s.setPhase c p).dstPort = s.dstPort := rfl
@[simp] theorem State.setPhase_sends (s : State) (c : Nat) (p : Phase) : (s.setPhase c p).sends = s.sends := rfl
@[simp] theorem State.setPhase_recvs (s : State) (c : Nat) (p : Phase) : (s.setPhase c p).recvs = s.recvs := rfl
@[simp] theorem State.setPhase_regs (s : State) (c : Nat) (p : Phase) : (s.setPhase c p).regs = s.regs := rfl
@[simp] theorem State.setPhase_quanta (s : State) (c : Nat) (p : Phase) : (s.setPhase c p).quanta = s.quanta := rfl

/-! `State.record` -/

@[simp] theorem State.record_cfg (s : State) (e : Exch) : (s.record e).cfg = s.cfg := rfl
@[simp] theorem State.record_sstate (s : State) (e : Exch) : (s.record e).sstate = s.sstate := rfl
@[simp] theorem State.record_regHandle (s : State) (e : Exch) : (s.record e).regHandle = s.regHandle := rfl
@[simp] theorem State.record_lock (s : State) (e : Exch) : (s.record e).lock = s.lock := rfl
@[simp] theorem State.record_outbuf (s : State) (e : Exch) : (s.record e).outbuf = s.outbuf := rfl
@[simp] theorem State.record_outlen (s : State) (e : Exch) : (s.record e).outlen = s.outlen := rfl
@[simp] theorem State.record_inbuf (s : State) (e : Exch) : (s.record e).inbuf = s.inbuf := rfl
@[simp] theorem State.record_inlen (s : State) (e : Exch) : (s.record e).inlen = s.inlen := rfl
@[simp] theorem State.record_gpo (s : State) (e : Exch) : (s.record e).gpo = s.gpo := rfl
@[simp] theorem State.record_gpi (s : State) (e : Exch) : (s.record e).gpi = s.gpi := rfl
@[simp] theorem State.record_gpiValid (s : State) (e : Exch) : (s.record e).gpiValid = s.gpiValid := rfl
@[simp] theorem State.record_ctxs (s : State) (e : Exch) : (s.record e).ctxs = s.ctxs := rfl
@[simp] theorem State.record_hist (s : State) (e : Exch) : (s.record e).hist = s.hist ++ [e] := rfl
@[simp] theorem State.record_openTxn (s : State) (e : Exch) : (s.record e).openTxn = txnAfter s.cfg.speedCode s.openTxn e.sent := rfl
@[simp] theorem State.record_hostLog (s : State) (e : Exch) : (s.record e).hostLog = s.hostLog := rfl
@[simp] theorem State.record_cur (s : State) (e : Exch) : (s.record e).cur = s.cur := rfl
@[simp] theorem State.record_port (s : State) (e : Exch) : (s.record e).port = s.port := rfl
@[simp] theorem State.record_dstPort (s : State) (e : Exch) : (s.record e).dstPort = s.dstPort := rfl
@[simp] theorem State.record_sends (s : State) (e : Exch) : (s.record e).sends = s.sends := rfl
@[simp] theorem State.record_recvs (s : State) (e : Exch) : (s.record e).recvs = s.recvs := rfl
@[simp] theorem State.record_regs (s : State) (e : Exch) : (s.record e).regs = s.regs := rfl
@[simp] theorem State.record_quanta (s : State) (e : Exch) : (s.record e).quanta = s.quanta := rfl

/-! `State.sent` -/

@[simp] theorem State.sent_cfg (s : State) (o : Bytes) : (s.sent o).cfg = s.cfg := rfl
@[simp] theorem State.sent_sstate (s : State) (o : Bytes) : (s.sent o).sstate = s.sstate := rfl
@[simp] theorem State.sent_regHandle (s : State) (o : Bytes) : (s.sent o).regHandle = s.regHandle := rfl
@[simp] theorem State.sent_lock (s : State) (o : Bytes) : (s.sent o).lock = s.lock := rfl
@[simp] theorem State.sent_outbuf (s : State) (o : Bytes) : (s.sent o).outbuf = s.outbuf.putBytes 0 o := rfl
@[simp] theorem State.sent_outlen (s : State) (o : Bytes) : (s.sent o).outlen = some o.length := rfl
@[simp] theorem State.sent_inbuf (s : State) (o : Bytes) : (s.sent o).inbuf = s.inbuf := rfl
@[simp] theorem State.sent_inlen (s : State) (o : Bytes) : (s.sent o).inlen = s.inlen := rfl
@[simp] theorem State.sent_gpo (s : State) (o : Bytes) : (s.sent o).gpo = s.gpo := rfl
@[simp] theorem State.sent_gpi (s : State) (o : Bytes) : (s.sent o).gpi = s.gpi := rfl
@[simp] theorem State.sent_gpiValid (s : State) (o : Bytes) : (s.sent o).gpiValid = s.gpiValid := rfl
@[simp] theorem State.sent_ctxs (s : State) (o : Bytes) : (s.sent o).ctxs = s.ctxs := rfl
@[simp] theorem State.sent_hist (s : State) (o : Bytes) : (s.sent o).hist = s.hist := rfl
@[simp] theorem State.sent_openTxn (s : State) (o : Bytes) : (s.sent o).openTxn = s.openTxn := rfl
@[simp] theorem State.sent_hostLog (s : State) (o : Bytes) : (s.sent o).hostLog = s.hostLog := rfl
@[simp] theorem State.sent_cur (s : State) (o : Bytes) : (s.sent o).cur = s.cur := rfl
@[simp] theorem State.sent_port (s : State) (o : Bytes) : (s.sent o).port = s.port := rfl
@[simp] theorem State.sent_dstPort (s : State) (o : Bytes) : (s.sent o).dstPort = s.dstPort := rfl
@[simp] theorem State.sent_sends (s : State) (o : Bytes) : (s.sent o).sends = (sendDraw o.length s.sends).2 := rfl
@[simp] theorem State.sent_recvs (s : State) (o : Bytes) : (s.sent o).recvs = s.recvs := rfl
@[simp] theorem State.sent_regs (s : State) (o : Bytes) : (s.sent o).regs = s.regs := rfl
@[simp] theorem State.sent_quanta (s : State) (o : Bytes) : (s.sent o).quanta = s.quanta := rfl

/-! `State.drewRecv` -/

@[simp] theorem State.drewRecv_cfg (s : State) (m : Nat) : (s.drewRecv m).cfg = s.cfg := rfl
@[simp] theorem State.drewRecv_sstate (s : State) (m : Nat) : (s.drewRecv m).sstate = s.sstate := rfl
@[simp] theorem State.drewRecv_regHandle (s : State) (m : Nat) : (s.drewRecv m).regHandle = s.regHandle := rfl
@[simp] theorem State.drewRecv_lock (s : State) (m : Nat) : (s.drewRecv m).lock = s.lock := rfl
@[simp] theorem State.drewRecv_outbuf (s : State) (m : Nat) : (s.drewRecv m).outbuf = s.outbuf := rfl
@[simp] theorem State.drewRecv_outlen (s : State) (m : Nat) : (s.drewRecv m).outlen = s.outlen := rfl
@[simp] theorem State.drewRecv_inbuf (s : State) (m : Nat) : (s.drewRecv m).inbuf = s.inbuf := rfl
@[simp] theorem State.drewRecv_inlen (s : State) (m : Nat) : (s.drewRecv m).inlen = s.inlen := rfl
@[simp] theorem State.drewRecv_gpo (s : State) (m : Nat) : (s.drewRecv m).gpo = s.gpo := rfl
@[simp] theorem State.drewRecv_gpi (s : State) (m : Nat) : (s.drewRecv m).gpi = s.gpi := rfl
@[simp] theorem State.drewRecv_gpiValid (s : State) (m : Nat) : (s.drewRecv m).gpiValid = s.gpiValid := rfl
@[simp] theorem State.drewRecv_ctxs (s : State) (m : Nat) : (s.drewRecv m).ctxs = s.ctxs := rfl
@[simp] theorem State.drewRecv_hist (s : State) (m : Nat) : (s.drewRecv m).hist = s.hist := rfl
@[simp] theorem State.drewRecv_openTxn (s : State) (m : Nat) : (s.drewRecv m).openTxn = s.openTxn := rfl
@[simp] theorem State.drewRecv_hostLog (s : State) (m : Nat) : (s.drewRecv m).hostLog = s.hostLog := rfl
@[simp] theorem State.drewRecv_cur (s : State) (m : Nat) : (s.drewRecv m).cur = s.cur := rfl
@[simp] theorem State.drewRecv_port (s : State) (m : Nat) : (s.drewRecv m).port = s.port := rfl
@[simp] theorem State.drewRecv_dstPort (s : State) (m : Nat) : (s.drewRecv m).dstPort = s.dstPort := rfl
@[simp] theorem State.drewRecv_sends (s : State) (m : Nat) : (s.drewRecv m).sends = s.sends := rfl
@[simp] theorem State.drewRecv_recvs (s : State) (m : Nat) : (s.drewRecv m).recvs = (recvDraw m s.recvs).2 := rfl
@[simp] theorem State.drewRecv_regs (s : State) (m : Nat) : (s.drewRecv m).regs = s.regs := rfl
@[simp] theorem State.drewRecv_quanta (s : State) (m : Nat) : (s.drewRecv m).quanta = s.quanta := rfl

/-! `State.received` -/

@[simp] theorem State.received_cfg (s : State) (r : Bytes) : (s.received r).cfg = s.cfg := rfl
@[simp] theorem State.received_sstate (s : State) (r : Bytes) : (s.received r).sstate = s.sstate := rfl
@[simp] theorem State.received_regHandle (s : State) (r : Bytes) : (s.received r).regHandle = s.regHandle := rfl
@[simp] theorem State.received_lock (s : State) (r : Bytes) : (s.received r).lock = s.lock := rfl
@[simp] theorem State.received_outbuf (s : State) (r : Bytes) : (s.received r).outbuf = s.outbuf := rfl
@[simp] theorem State.received_outlen (s : State) (r : Bytes) : (s.received r).outlen = s.outlen := rfl
@[simp] theorem State.received_inbuf (s : State) (r : Bytes) : (s.received r).inbuf = s.inbuf.putBytes 0 r := rfl
@[simp] theorem State.received_inlen (s : State) (r : Bytes) : (s.received r).inlen = some r.length := rfl
@[simp] theorem State.received_gpo (s : State) (r : Bytes) : (s.received r).gpo = s.gpo := rfl
@[simp] theorem State.received_gpi (s : State) (r : Bytes) : (s.received r).gpi = s.gpi := rfl
@[simp] theorem State.received_gpiValid (s : State) (r : Bytes) : (s.received r).gpiValid = s.gpiValid := rfl
@[simp] theorem State.received_ctxs (s : State) (r : Bytes) : (s.received r).ctxs = s.ctxs := rfl
@[simp] theorem State.received_hist (s : State) (r : Bytes) : (s.received r).hist = s.hist := rfl
@[simp] theorem State.received_openTxn (s : State) (r : Bytes) : (s.received r).openTxn = s.openTxn := rfl
@[simp] theorem State.received_hostLog (s : State) (r : Bytes) : (s.received r).hostLog = s.hostLog := rfl
@[simp] theorem State.received_cur (s : State) (r : Bytes) : (s.received r).cur = s.cur := rfl
@[simp] theorem State.received_port (s : State) (r : Bytes) : (s.received r).port = s.port := rfl
@[simp] theorem State.received_dstPort (s : State) (r : Bytes) : (s.received r).dstPort = s.dstPort := rfl
@[simp] theorem State.received_sends (s : State) (r : Bytes) : (s.received r).sends = s.sends := rfl
@[simp] theorem State.received_recvs (s : State) (r : Bytes) : (s.received r).recvs = s.recvs := rfl
@[simp] theorem State.received_regs (s : State) (r : Bytes) : (s.received r).regs = s.regs := rfl
@[simp] theorem State.received_quanta (s : State) (r : Bytes) : (s.received r).quanta = s.quanta := rfl

/-! `abort` -/

@[simp] theorem abort_cfg (s : State) (c : Nat) (e : Err) : (abort c e s).cfg = s.cfg := rfl
@[simp] theorem abort_sstate (s : State) (c : Nat) (e : Err) : (abort c e s).sstate = if s.runsInit c then .dead else s.sstate := rfl
@[simp] theorem abort_regHandle (s : State) (c : Nat) (e : Err) : (abort c e s).regHandle = s.regHandle := rfl
@[simp] theorem abort_lock (s : State) (c : Nat) (e : Err) : (abort c e s).lock = if s.lock = .held c then .free else s.lock := rfl
@[simp] theorem abort_outbuf (s : State) (c : Nat) (e : Err) : (abort c e s).outbuf = s.outbuf := rfl
@[simp] theorem abort_outlen (s : State) (c : Nat) (e : Err) : (abort c e s).outlen = s.outlen := rfl
@[simp] theorem abort_inbuf (s : State) (c : Nat) (e : Err) : (abort c e s).inbuf = s.inbuf := rfl
@[simp] theorem abort_inlen (s : State) (c : Nat) (e : Err) : (abort c e s).inlen = s.inlen := rfl
@[simp] theorem abort_gpo (s : State) (c : Nat) (e : Err) : (abort c e s).gpo = s.gpo := rfl
@[simp] theorem abort_gpi (s : State) (c : Nat) (e : Err) : (abort c e s).gpi = s.gpi := rfl
@[simp] theorem abort_gpiValid (s : State) (c : Nat) (e : Err) : (abort c e s).gpiValid = s.gpiValid := rfl
@[simp] theorem abort_ctxs (s : State) (c : Nat) (e : Err) : (abort c e s).ctxs = s.ctxs.modify c (Ctx.fail e) := rfl
@[simp] theorem abort_hist (s : State) (c : Nat) (e : Err) : (abort c e s).hist = s.hist := rfl
@[simp] theorem abort_openTxn (s : State) (c : Nat) (e : Err) : (abort c e s).openTxn = (s.openTxn || (decide (s.lock = .held c) && s.midWrite c)) := rfl
@[simp] theorem abort_hostLog (s : State) (c : Nat) (e : Err) : (abort c e s).hostLog = s.hostLog := rfl
@[simp] theorem abort_cur (s : State) (c : Nat) (e : Err) : (abort c e s).cur = s.cur := rfl
@[simp] theorem abort_port (s : State) (c : Nat) (e : Err) : (abort c e s).port = s.port := rfl
@[simp] theorem abort_dstPort (s : State) (c : Nat) (e : Err) : (abort c e s).dstPort = s.dstPort := rfl
@[simp] theorem abort_sends (s : State) (c : Nat) (e : Err) : (abort c e s).sends = s.sends := rfl
@[simp] theorem abort_recvs (s : State) (c : Nat) (e : Err) : (abort c e s).recvs = s.recvs := rfl
@[simp] theorem abort_regs (s : State) (c : Nat) (e : Err) : (abort c e s).regs = s.regs := rfl
@[simp] theorem abort_quanta (s : State) (c : Nat) (e : Err) : (abort c e s).quanta = s.quanta := rfl

/-! `complete` -/

@[simp] theorem complete_cfg (s : State) (c : Nat) (r : Result) : (complete c r s).cfg = s.cfg := rfl
@[simp] theorem complete_sstate (s : State) (c : Nat) (r : Result) : (complete c r s).sstate = s.sstate := rfl
@[simp] theorem complete_regHandle (s : State) (c : Nat) (r : Result) : (complete c r s).regHandle = s.regHandle := rfl
@[simp] theorem complete_lock (s : State) (c : Nat) (r : Result) : (complete c r s).lock = s.lock := rfl
@[simp] theorem complete_outbuf (s : State) (c : Nat) (r : Result) : (complete c r s).outbuf = s.outbuf := rfl
@[simp] theorem complete_outlen (s : State) (c : Nat) (r : Result) : (complete c r s).outlen = s.outlen := rfl
@[simp] theorem complete_inbuf (s : State) (c : Nat) (r : Result) : (complete c r s).inbuf = s.inbuf := rfl
@[simp] theorem complete_inlen (s : State) (c : Nat) (r : Result) : (complete c r s).inlen = s.inlen := rfl
@[simp] theorem complete_gpo (s : State) (c : Nat) (r : Result) : (complete c r s).gpo = s.gpo := rfl
@[simp] theorem complete_gpi (s : State) (c : Nat) (r : Result) : (complete c r s).gpi = s.gpi := rfl
@[simp] theorem complete_gpiValid (s : State) (c : Nat) (r : Result) : (complete c r s).gpiValid = s.gpiValid := rfl
@[simp] theorem complete_ctxs (s : State) (c : Nat) (r : Result) : (complete c r s).ctxs = s.ctxs.modify c (Ctx.finish r) := rfl
@[simp] theorem complete_hist (s : State) (c : Nat) (r : Result) : (complete c r s).hist = s.hist := rfl
@[simp] theorem complete_openTxn (s : State) (c : Nat) (r : Result) : (complete c r s).openTxn = s.openTxn := rfl
@[simp] theorem complete_hostLog (s : State) (c : Nat) (r : Result) : (complete c r s).hostLog = s.hostLog := rfl
@[simp] theorem complete_cur (s : State) (c : Nat) (r : Result) : (complete c r s).cur = s.cur := rfl
@[simp] theorem complete_port (s : State) (c : Nat) (r : Result) : (complete c r s).port = s.port := rfl
@[simp] theorem complete_dstPort (s : State) (c : Nat) (r : Result) : (complete c r s).dstPort = s.dstPort := rfl
@[simp] theorem complete_sends (s : State) (c : Nat) (r : Result) : (complete c r s).sends = s.sends := rfl
@[simp] theorem complete_recvs (s : State) (c : Nat) (r : Result) : (complete c r s).recvs = s.recvs := rfl
@[simp] theorem complete_regs (s : State) (c : Nat) (r : Result) : (complete c r s).regs = s.regs := rfl
@[simp] theorem complete_quanta (s : State) (c : Nat) (r : Result) : (complete c r s).quanta = s.quanta := rfl

/-! `State.admitOp` -/

@[simp] theorem State.admit_cfg (s : State) (op : Instr) : (s.admitOp op).cfg = s.cfg := rfl
@[simp] theorem State.admit_sstate (s : State) (op : Instr) : (s.admitOp op).sstate = s.sstate := rfl
@[simp] theorem State.admit_regHandle (s : State) (op : Instr) : (s.admitOp op).regHandle = s.regHandle := rfl
@[simp] theorem State.admit_lock (s : State) (op : Instr) : (s.admitOp op).lock = s.lock := rfl
@[simp] theorem State.admit_outbuf (s : State) (op : Instr) : (s.admitOp op).outbuf = s.outbuf := rfl
@[simp] theorem State.admit_outlen (s : State) (op : Instr) : (s.admitOp op).outlen = s.outlen := rfl
@[simp] theorem State.admit_inbuf (s : State) (op : Instr) : (s.admitOp op).inbuf = s.inbuf := rfl
@[simp] theorem State.admit_inlen (s : State) (op : Instr) : (s.admitOp op).inlen = s.inlen := rfl
@[simp] theorem State.admit_gpo (s : State) (op : Instr) : (s.admitOp op).gpo = s.gpo := rfl
@[simp] theorem State.admit_gpi (s : State) (op : Instr) : (s.admitOp op).gpi = s.gpi := rfl
@[simp] theorem State.admit_gpiValid (s : State) (op : Instr) : (s.admitOp op).gpiValid = s.gpiValid := rfl
@[simp] theorem State.admit_ctxs (s : State) (op : Instr) : (s.admitOp op).ctxs = s.ctxs ++ [newCtx op (dstFor op s.dstPort)] := rfl
@[simp] theorem State.admit_hist (s : State) (op : Instr) : (s.admitOp op).hist = s.hist := rfl
@[simp] theorem State.admit_openTxn (s : State) (op : Instr) : (s.admitOp op).openTxn = s.openTxn := rfl
@[simp] theorem State.admit_hostLog (s : State) (op : Instr) : (s.admitOp op).hostLog = s.hostLog := rfl
@[simp] theorem State.admit_cur (s : State) (op : Instr) : (s.admitOp op).cur = s.cur := rfl
@[simp] theorem State.admit_port (s : State) (op : Instr) : (s.admitOp op).port = s.port := rfl
@[simp] theorem State.admit_dstPort (s : State) (op : Instr) : (s.admitOp op).dstPort = [] := rfl
@[simp] theorem State.admit_sends (s : State) (op : Instr) : (s.admitOp op).sends = s.sends := rfl
@[simp] theorem State.admit_recvs (s : State) (op : Instr) : (s.admitOp op).recvs = s.recvs := rfl
@[simp] theorem State.admit_regs (s : State) (op : Instr) : (s.admitOp op).regs = s.regs := rfl
@[simp] theorem State.admit_quanta (s : State) (op : Instr) : (s.admitOp op).quanta = s.quanta := rfl

/-! `State.dropMirror` -/

@[simp] theorem State.dropMirror_cfg (s : State) : (s.dropMirror).cfg = s.cfg := rfl
@[simp] theorem State.dropMirror_sstate (s : State) : (s.dropMirror).sstate = s.sstate := rfl
@[simp] theorem State.dropMirror_regHandle (s : State) : (s.dropMirror).regHandle = s.regHandle := rfl
@[simp] theorem State.dropMirror_lock (s : State) : (s.dropMirror).lock = s.lock := rfl
@[simp] theorem State.dropMirror_outbuf (s : State) : (s.dropMirror).outbuf = s.outbuf := rfl
@[simp] theorem State.dropMirror_outlen (s : State) : (s.dropMirror).outlen = s.outlen := rfl
@[simp] theorem State.dropMirror_inbuf (s : State) : (s.dropMirror).inbuf = s.inbuf := rfl
@[simp] theorem State.dropMirror_inlen (s : State) : (s.dropMirror).inlen = s.inlen := rfl
@[simp] theorem State.dropMirror_gpo (s : State) : (s.dropMirror).gpo = s.gpo := rfl
@[simp] theorem State.dropMirror_gpi (s : State) : (s.dropMirror).gpi = [] := rfl
@[simp] theorem State.dropMirror_gpiValid (s : State) : (s.dropMirror).gpiValid = false := rfl
@[simp] theorem State.dropMirror_ctxs (s : State) : (s.dropMirror).ctxs = s.ctxs := rfl
@[simp] theorem State.dropMirror_hist (s : State) : (s.dropMirror).hist = s.hist := rfl
@[simp] theorem State.dropMirror_openTxn (s : State) : (s.dropMirror).openTxn = s.openTxn := rfl
@[simp] theorem State.dropMirror_hostLog (s : State) : (s.dropMirror).hostLog = s.hostLog := rfl
@[simp] theorem State.dropMirror_cur (s : State) : (s.dropMirror).cur = s.cur := rfl
@[simp] theorem State.dropMirror_port (s : State) : (s.dropMirror).port = s.port := rfl
@[simp] theorem State.dropMirror_dstPort (s : State) : (s.dropMirror).dstPort = s.dstPort := rfl
@[simp] theorem State.dropMirror_sends (s : State) : (s.dropMirror).sends = s.sends := rfl
@[simp] theorem State.dropMirror_recvs (s : State) : (s.dropMirror).recvs = s.recvs := rfl
@[simp] theorem State.dropMirror_regs (s : State) : (s.dropMirror).regs = s.regs := rfl
@[simp] theorem State.dropMirror_quanta (s : State) : (s.dropMirror).quanta = s.quanta := rfl

/-! `State.setMirror` -/

@[simp] theorem State.setMirror_cfg (s : State) (r : Bytes) : (s.setMirror r).cfg = s.cfg := rfl
@[simp] theorem State.setMirror_sstate (s : State) (r : Bytes) : (s.setMirror r).sstate = s.sstate := rfl
@[simp] theorem State.setMirror_regHandle (s : State) (r : Bytes) : (s.setMirror r).regHandle = s.regHandle := rfl
@[simp] theorem State.setMirror_lock (s : State) (r : Bytes) : (s.setMirror r).lock = s.lock := rfl
@[simp] theorem State.setMirror_outbuf (s : State) (r : Bytes) : (s.setMirror r).outbuf = s.outbuf := rfl
@[simp] theorem State.setMirror_outlen (s : State) (r : Bytes) : (s.setMirror r).outlen = s.outlen := rfl
@[simp] theorem State.setMirror_inbuf (s : State) (r : Bytes) : (s.setMirror r).inbuf = s.inbuf := rfl
@[simp] theorem State.setMirror_inlen (s : State) (r : Bytes) : (s.setMirror r).inlen = s.inlen := rfl
@[simp] theorem State.setMirror_gpo (s : State) (r : Bytes) : (s.setMirror r).gpo = s.gpo := rfl
@[simp] theorem State.setMirror_gpi (s : State) (r : Bytes) : (s.setMirror r).gpi = s.gpi.putBytes 0 r := rfl
@[simp] theorem State.setMirror_gpiValid (s : State) (r : Bytes) : (s.setMirror r).gpiValid = true := rfl
@[simp] theorem State.setMirror_ctxs (s : State) (r : Bytes) : (s.setMirror r).ctxs = s.ctxs := rfl
@[simp] theorem State.setMirror_hist (s : State) (r : Bytes) : (s.setMirror r).hist = s.hist := rfl
@[simp] theorem State.setMirror_openTxn (s : State) (r : Bytes) : (s.setMirror r).openTxn = s.openTxn := rfl
@[simp] theorem State.setMirror_hostLog (s : State) (r : Bytes) : (s.setMirror r).hostLog = s.hostLog := rfl
@[simp] theorem State.setMirror_cur (s : State) (r : Bytes) : (s.setMirror r).cur = s.cur := rfl
@[simp] theorem State.setMirror_port (s : State) (r : Bytes) : (s.setMirror r).port = s.port := rfl
@[simp] theorem State.setMirror_dstPort (s : State) (r : Bytes) : (s.setMirror r).dstPort = s.dstPort := rfl
@[simp] theorem State.setMirror_sends (s : State) (r : Bytes) : (s.setMirror r).sends = s.sends := rfl
@[simp] theorem State.setMirror_recvs (s : State) (r : Bytes) : (s.setMirror r).recvs = s.recvs := rfl
@[simp] theorem State.setMirror_regs (s : State) (r : Bytes) : (s.setMirror r).regs = s.regs := rfl
@[simp] theorem State.setMirror_quanta (s : State) (r : Bytes) : (s.setMirror r).quanta = s.quanta := rfl

/-! The fields of a context -/

@[simp] theorem Ctx.fail_op (e : Err) (x : Ctx) : (x.fail e).op = x.op := rfl
@[simp] theorem Ctx.fail_phase (e : Err) (x : Ctx) : (x.fail e).phase = .failed e := rfl
@[simp] theorem Ctx.fail_off (e : Err) (x : Ctx) : (x.fail e).off = x.off := rfl
@[simp] theorem Ctx.fail_n (e : Err) (x : Ctx) : (x.fail e).n = x.n := rfl
@[simp] theorem Ctx.fail_first (e : Err) (x : Ctx) : (x.fail e).first = x.first := rfl
@[simp] theorem Ctx.fail_last (e : Err) (x : Ctx) : (x.fail e).last = x.last := rfl
@[simp] theorem Ctx.fail_idx (e : Err) (x : Ctx) : (x.fail e).idx = x.idx := rfl
@[simp] theorem Ctx.fail_pkt (e : Err) (x : Ctx) : (x.fail e).pkt = x.pkt := rfl
@[simp] theorem Ctx.fail_res (e : Err) (x : Ctx) : (x.fail e).res = some (abortResult x.op e) := rfl
@[simp] theorem Ctx.fail_dst (e : Err) (x : Ctx) : (x.fail e).dst = x.dst := rfl

@[simp] theorem Ctx.finish_op (r : Result) (x : Ctx) : (x.finish r).op = x.op := rfl
@[simp] theorem Ctx.finish_phase (r : Result) (x : Ctx) : (x.finish r).phase = .done r := rfl
@[simp] theorem Ctx.finish_off (r : Result) (x : Ctx) : (x.finish r).off = x.off := rfl
@[simp] theorem Ctx.finish_n (r : Result) (x : Ctx) : (x.finish r).n = x.n := rfl
@[simp] theorem Ctx.finish_first (r : Result) (x : Ctx) : (x.finish r).first = x.first := rfl
@[simp] theorem Ctx.finish_last (r : Result) (x : Ctx) : (x.finish r).last = x.last := rfl
@[simp] theorem Ctx.finish_idx (r : Result) (x : Ctx) : (x.finish r).idx = x.idx := rfl
@[simp] theorem Ctx.finish_pkt (r : Result) (x : Ctx) : (x.finish r).pkt = x.pkt := rfl
@[simp] theorem Ctx.finish_res (r : Result) (x : Ctx) : (x.finish r).res = some r := rfl
@[simp] theorem Ctx.finish_dst (r : Result) (x : Ctx) : (x.finish r).dst = x.dst := rfl

@[simp] theorem newCtx_op (op : Instr) (d : List Memory) : (newCtx op d).op = op := rfl
@[simp] theorem newCtx_phase (op : Instr) (d : List Memory) : (newCtx op d).phase = .admitting := rfl
@[simp] theorem newCtx_off (op : Instr) (d : List Memory) : (newCtx op d).off = 0 := rfl
@[simp] theorem newCtx_n (op : Instr) (d : List Memory) : (newCtx op d).n = none := rfl
@[simp] theorem newCtx_first (op : Instr) (d : List Memory) : (newCtx op d).first = true := rfl
@[simp] theorem newCtx_last (op : Instr) (d : List Memory) : (newCtx op d).last = none := rfl
@[simp] theorem newCtx_idx (op : Instr) (d : List Memory) : (newCtx op d).idx = 0 := rfl
@[simp] theorem newCtx_pkt (op : Instr) (d : List Memory) : (newCtx op d).pkt = [] := rfl
@[simp] theorem newCtx_res (op : Instr) (d : List Memory) : (newCtx op d).res = none := rfl
@[simp] theorem newCtx_dst (op : Instr) (d : List Memory) : (newCtx op d).dst = d := rfl

@[simp] theorem Ctx.enter_op (j : Nat) (x : Ctx) : (x.enter j).op = x.op := rfl
@[simp] theorem Ctx.enter_phase (j : Nat) (x : Ctx) : (x.enter j).phase = x.phase := rfl
@[simp] theorem Ctx.enter_off (j : Nat) (x : Ctx) : (x.enter j).off = 0 := rfl
@[simp] theorem Ctx.enter_n (j : Nat) (x : Ctx) : (x.enter j).n = x.n := rfl
@[simp] theorem Ctx.enter_first (j : Nat) (x : Ctx) : (x.enter j).first = x.first := rfl
@[simp] theorem Ctx.enter_last (j : Nat) (x : Ctx) : (x.enter j).last = x.last := rfl
@[simp] theorem Ctx.enter_idx (j : Nat) (x : Ctx) : (x.enter j).idx = j := rfl
@[simp] theorem Ctx.enter_pkt (j : Nat) (x : Ctx) : (x.enter j).pkt = x.pkt := rfl
@[simp] theorem Ctx.enter_res (j : Nat) (x : Ctx) : (x.enter j).res = x.res := rfl
@[simp] theorem Ctx.enter_dst (j : Nat) (x : Ctx) : (x.enter j).dst = x.dst := rfl

@[simp] theorem Ctx.chooseWrite_op (cfg : Config) (src : Bytes) (x : Ctx) : (x.chooseWrite cfg src).op = x.op := rfl
@[simp] theorem Ctx.chooseWrite_phase (cfg : Config) (src : Bytes) (x : Ctx) : (x.chooseWrite cfg src).phase = .waitLock := rfl
@[simp] theorem Ctx.chooseWrite_off (cfg : Config) (src : Bytes) (x : Ctx) : (x.chooseWrite cfg src).off = x.off := rfl
@[simp] theorem Ctx.chooseWrite_n (cfg : Config) (src : Bytes) (x : Ctx) : (x.chooseWrite cfg src).n = some (wchunkAt cfg src.length x.off x.first).n := rfl
@[simp] theorem Ctx.chooseWrite_first (cfg : Config) (src : Bytes) (x : Ctx) : (x.chooseWrite cfg src).first = x.first := rfl
@[simp] theorem Ctx.chooseWrite_last (cfg : Config) (src : Bytes) (x : Ctx) : (x.chooseWrite cfg src).last = some (wchunkAt cfg src.length x.off x.first).last := rfl
@[simp] theorem Ctx.chooseWrite_idx (cfg : Config) (src : Bytes) (x : Ctx) : (x.chooseWrite cfg src).idx = x.idx := rfl
@[simp] theorem Ctx.chooseWrite_pkt (cfg : Config) (src : Bytes) (x : Ctx) : (x.chooseWrite cfg src).pkt = x.pkt := rfl
@[simp] theorem Ctx.chooseWrite_res (cfg : Config) (src : Bytes) (x : Ctx) : (x.chooseWrite cfg src).res = x.res := rfl
@[simp] theorem Ctx.chooseWrite_dst (cfg : Config) (src : Bytes) (x : Ctx) : (x.chooseWrite cfg src).dst = x.dst := rfl

@[simp] theorem Ctx.chooseRead_op (cfg : Config) (len : Nat) (x : Ctx) : (x.chooseRead cfg len).op = x.op := rfl
@[simp] theorem Ctx.chooseRead_phase (cfg : Config) (len : Nat) (x : Ctx) : (x.chooseRead cfg len).phase = .waitLock := rfl
@[simp] theorem Ctx.chooseRead_off (cfg : Config) (len : Nat) (x : Ctx) : (x.chooseRead cfg len).off = x.off := rfl
@[simp] theorem Ctx.chooseRead_n (cfg : Config) (len : Nat) (x : Ctx) : (x.chooseRead cfg len).n = some (rchunkLen cfg len x.off) := rfl
@[simp] theorem Ctx.chooseRead_first (cfg : Config) (len : Nat) (x : Ctx) : (x.chooseRead cfg len).first = x.first := rfl
@[simp] theorem Ctx.chooseRead_last (cfg : Config) (len : Nat) (x : Ctx) : (x.chooseRead cfg len).last = x.last := rfl
@[simp] theorem Ctx.chooseRead_idx (cfg : Config) (len : Nat) (x : Ctx) : (x.chooseRead cfg len).idx = x.idx := rfl
@[simp] theorem Ctx.chooseRead_pkt (cfg : Config) (len : Nat) (x : Ctx) : (x.chooseRead cfg len).pkt = x.pkt := rfl
@[simp] theorem Ctx.chooseRead_res (cfg : Config) (len : Nat) (x : Ctx) : (x.chooseRead cfg len).res = x.res := rfl
@[simp] theorem Ctx.chooseRead_dst (cfg : Config) (len : Nat) (x : Ctx) : (x.chooseRead cfg len).dst = x.dst := rfl

end Sys2Proof.Machine
end

