-- ==== Sys2Proof/Laws/Ops.lean ====
section
/-! SUPPORT. What the shared operations can do, said once: the bridge's draws, the exchange, the lock. -/

namespace Sys2Proof.Machine

/-! ## Draws of the bridge -/

/-- A send that succeeded wrote at most the bytes handed over (40_transport.md R90). -/
theorem sendDraw_ok {len k : Nat} {l : List SendAns} (h : (sendDraw len l).1 = .ok k) : k ≤ len := by
  unfold sendDraw at h
  split at h <;> simp_all
  omega

/-- A receive that succeeded delivered at most the bytes asked for (40_transport.md R91). -/
theorem recvDraw_ok {m : Nat} {r : Bytes} {l : List RecvAns} (h : (recvDraw m l).1 = .ok r) : r.length ≤ m := by
  unfold recvDraw at h
  split at h <;> simp_all
  subst h
  simp

/-- An answer is drawn from the front of the list, if there is one. -/
theorem sendDraw_rest (len : Nat) (l : List SendAns) : (sendDraw len l).2 = l.drop 1 := by
  unfold sendDraw
  split <;> simp

/-- An answer is drawn from the front of the list, if there is one. -/
theorem recvDraw_rest (m : Nat) (l : List RecvAns) : (recvDraw m l).2 = l.drop 1 := by
  unfold recvDraw
  split <;> simp

/-- The only send answers are a success, an error and a time-out. -/
theorem sendDraw_cases (len : Nat) (l : List SendAns) :
    (∃ k, k ≤ len ∧ (sendDraw len l).1 = .ok k) ∨ (sendDraw len l).1 = .err ∨ (sendDraw len l).1 = .timeout := by
  cases h : (sendDraw len l).1 with
  | ok k => exact .inl ⟨k, sendDraw_ok h, rfl⟩
  | err => simp
  | timeout => simp

/-! ## The exchange -/

/-- An exchange is legal: the lock is held, and the lengths are in range (40_transport.md R89). -/
structure ExchangeLegal (c : Nat) (o : Bytes) (m : Nat) (s : State) : Prop where
  lock : s.lock = .held c
  pos : 1 ≤ o.length
  len : o.length ≤ Config.scratchLen
  recv : m ≤ Config.scratchLen

/-- Without the lock an exchange faults (60_exceptions.md R138). -/
theorem exchange_lockNotHeld {c : Nat} {o : Bytes} {m : Nat} {s : State} (h : s.lock ≠ .held c) :
    exchange c o m s = .fault .lockNotHeld := by
  simp [exchange, h]

/-- Everything an exchange can do. -/
theorem exchange_cases (c : Nat) (o : Bytes) (m : Nat) (s : State) :
    (exchange c o m s = .fault .lockNotHeld ∧ s.lock ≠ .held c) ∨
    (exchange c o m s = .fault .badExchange) ∨
    (ExchangeLegal c o m s ∧
      ((∃ a, exchange c o m s =
          .fail (.ioError .send) (((s.setPhase c .xchg).sent o).record ⟨c, o, a, m, none⟩)) ∨
       (∃ k, exchange c o m s =
          .ok ((((s.setPhase c .xchg).sent o).record ⟨c, o, .ok k, 0, none⟩).setPhase c .check) ∧ m = 0) ∨
       (∃ k a, exchange c o m s =
          .fail (.ioError .recv)
            ((((s.setPhase c .xchg).sent o).drewRecv m).record ⟨c, o, .ok k, m, some a⟩)) ∨
       (∃ k r, r.length ≤ m ∧ exchange c o m s =
          .ok (((((s.setPhase c .xchg).sent o).drewRecv m).received r).record
            ⟨c, o, .ok k, m, some (.ok r)⟩ |>.setPhase c .check)))) := by
  by_cases hl : s.lock = .held c
  · by_cases hb : o.length = 0 ∨ Config.scratchLen < o.length ∨ Config.scratchLen < m
    · exact .inr (.inl (by unfold exchange; rw [if_neg (by simp [hl]), if_pos hb]))
    · refine .inr (.inr ⟨⟨hl, by omega, by omega, by omega⟩, ?_⟩)
      simp only [exchange, ne_eq, hl, not_true_eq_false, if_false, hb]
      cases hs : (sendDraw o.length s.sends).1 with
      | err => exact .inl ⟨_, rfl⟩
      | timeout => exact .inl ⟨_, rfl⟩
      | ok k =>
        by_cases hm : m = 0
        · exact .inr (.inl ⟨k, by simp [hm], hm⟩)
        · simp only [if_neg hm]
          cases hr : (recvDraw m s.recvs).1 with
          | err => exact .inr (.inr (.inl ⟨k, _, rfl⟩))
          | timeout => exact .inr (.inr (.inl ⟨k, _, rfl⟩))
          | ok r => exact .inr (.inr (.inr ⟨k, r, recvDraw_ok hr, rfl⟩))
  · exact .inl ⟨exchange_lockNotHeld hl, hl⟩

/-! ## The lock -/

/-- An abort that raised an error only, or a state to go on from. -/
theorem orAbort_ok {c : Nat} {a : Attempt} {s' : State} (h : a.orAbort c = .ok s') :
    a = .ok s' ∨ ∃ e s1, a = .fail e s1 ∧ s' = abort c e s1 := by
  cases a with
  | fault f => simp [Attempt.orAbort] at h
  | fail e s1 =>
    simp only [Attempt.orAbort, Except.ok.injEq] at h
    exact .inr ⟨e, s1, rfl, h.symm⟩
  | ok s1 =>
    simp only [Attempt.orAbort, Except.ok.injEq] at h
    exact .inl (by rw [h])

/-- Everything ACQUIRE can do (40_transport.md R86). -/
theorem acquire_ok {c : Nat} {s s' : State} (h : acquire c s = .ok s') :
    (s.lock = .free ∧ s' = ({ s with lock := .held c } : State).setPhase c .build) ∨
    (∃ d, d ≠ c ∧ s.lock = .held d ∧ s' = s.setPhase c .waitLock) := by
  unfold acquire at h
  split at h
  · rename_i hf
    exact .inl ⟨hf, by simpa using h.symm⟩
  · rename_i d hd
    split at h
    · cases h
    · rename_i hne
      exact .inr ⟨d, hne, hd, by simpa using h.symm⟩

/-- Everything RELEASE can do (40_transport.md R87). -/
theorem release_ok {c : Nat} {s s' : State} (h : release c s = .ok s') :
    s.lock = .held c ∧ s' = { s with lock := .free } := by
  unfold release at h
  split at h
  · rename_i hl
    exact ⟨hl, by simpa using h.symm⟩
  · cases h

/-- The outcome of a step that goes on. -/
theorem toOutcome_next {r : Except Fault State} {s' : State} (h : toOutcome r = .next s') : r = .ok s' := by
  cases r with
  | error f => simp [toOutcome] at h
  | ok s => simp only [toOutcome, Host.Outcome.next.injEq] at h; rw [h]

/-! ## Single commands of a context -/

/-- What `s.building` says of the context it names. -/
theorem building_some {s : State} {x : Ctx} (h : s.building = some x) :
    s.ctxs[s.cur]? = some x ∧ x.phase = .build ∧ s.lock = .held s.cur := by
  unfold State.building at h
  split at h
  · rename_i y hy
    split at h
    · rename_i hp; cases h; exact ⟨hy, hp⟩
    · cases h
  · cases h

/-- Everything a wire sub-command can do when it goes on. -/
theorem emit_next {keep : Bytes → Bytes} {i : Instr} {s s' : State} (h : emit keep i s = .next s') :
    ∃ x p, s.building = some x ∧ x.packet s.cfg = some p ∧ neverEmitted s.cfg i = false ∧
      keep x.pkt ++ encode i <+: p ∧
      s' = s.modCtx s.cur fun x => { x with pkt := keep x.pkt ++ encode i } := by
  unfold emit at h
  split at h
  · cases h
  · rename_i x hb
    split at h
    · cases h
    · rename_i p hp
      split at h
      · rename_i hc
        cases h
        exact ⟨x, p, hb, hp, hc.1, List.isPrefixOf_iff_prefix.mp hc.2, rfl⟩
      · cases h

/-- Everything GPIO_FRAME can do when it goes on. -/
theorem gpioFrame_next {pins : List PinCtl} {s s' : State} (h : execGpioFrame pins s = .next s') :
    ∃ x g, s.building = some x ∧ x.buildsFrame = true ∧ gpioFrameOf x.op s = .ok g ∧
      g.bytesAt 3 Config.gpioPins = some (pins.map PinCtl.byte) ∧ s' = { s with gpo := g } := by
  unfold execGpioFrame at h
  split at h
  · cases h
  · rename_i x hb
    split at h
    · rename_i hf
      split at h
      · cases h
      · rename_i g hg
        split at h
        · rename_i hp; cases h; exact ⟨x, g, hb, hf, hg, hp, rfl⟩
        · cases h
    · cases h

/-- What a context does before its Acquire is one of its moves, or nothing. -/
theorem approach_move (c : Nat) (s : State) : approach c s = s ∨ move c s = .ok (approach c s) := by
  unfold approach move
  cases s.ctxs[c]? with
  | none => exact .inl rfl
  | some x => cases hp : x.phase <;> simp [hp]

/-- A context that has not ended exists. -/
theorem isLive_some {s : State} {c : Nat} (h : s.isLive c = true) :
    ∃ x, s.ctxs[c]? = some x ∧ x.phase.isFinal = false := by
  unfold State.isLive at h
  split at h
  · rename_i x hx; exact ⟨x, hx, by simpa [Ctx.inFlight] using h⟩
  · cases h

/-- Everything a single ACQUIRE can do when it goes on. -/
theorem acquireCmd_next {s s' : State} (h : execAcquire s = .next s') :
    s.lock ≠ .held s.cur ∧
      (((approach s.cur s).isLive s.cur = false ∧ s' = approach s.cur s) ∨
        ((approach s.cur s).isLive s.cur = true ∧ acquire s.cur (approach s.cur s) = .ok s')) := by
  unfold execAcquire at h
  split at h
  · cases h
  · rename_i hl
    refine ⟨hl, ?_⟩
    simp only at h
    split at h
    · rename_i hv; exact .inr ⟨hv, toOutcome_next h⟩
    · rename_i hv; cases h; exact .inl ⟨by simpa using hv, rfl⟩

/-- Everything TEARDOWN can do when it goes on. -/
theorem teardown_next {s s' : State} (h : execTeardown s = .next s') :
    s.cfg.wf = true ∧ s.anyInFlight = false ∧ s.lock = .free ∧
      s' = complete s.ctxs.length .noStatus ((closeSession s).admitOp .teardown) := by
  unfold execTeardown at h
  split at h
  · cases h
  · rename_i hc
    split at h
    · cases h
    · rename_i hn
      cases h
      simp only [not_or, Bool.not_eq_true, Decidable.not_not] at hn
      exact ⟨by simpa using hc, hn.1, hn.2, rfl⟩

end Sys2Proof.Machine
end

