-- ==== Sys2Proof/Laws/Closed.lean ====
section
/-! SUPPORT. A property of the state that does not look at the engine contexts is kept by every step as soon as it is
kept by the shared updates: the induction over phases, moves, runs and instructions, packaged once. -/

namespace Sys2Proof.Machine

/-- A property kept by every shared update that a move of context `c` makes. -/
structure MoveClosed (c : Nat) (P : State → Prop) : Prop where
  modCtx : ∀ s f, P s → P (s.modCtx c f)
  lock : ∀ (s : State) l, P s → P { s with lock := l }
  opened : ∀ s : State, P s → P { s with openTxn := true }
  sent : ∀ (s : State) o e, P s → 1 ≤ o.length → o.length ≤ Config.scratchLen → e.sent = o →
    P ((s.sent o).record e)
  recvFail : ∀ (s : State) o m e, P s → 1 ≤ o.length → o.length ≤ Config.scratchLen → e.sent = o →
    P (((s.sent o).drewRecv m).record e)
  recv : ∀ (s : State) o m r e, P s → 1 ≤ o.length → o.length ≤ Config.scratchLen →
    r.length ≤ Config.scratchLen → e.sent = o →
    P ((((s.sent o).drewRecv m).received r).record e)
  dropMirror : ∀ s, P s → P s.dropMirror
  setMirror : ∀ s r, P s → P (s.setMirror r)
  frame : ∀ (s : State) op g, P s → gpioFrameOf op s = .ok g → P { s with gpo := g }
  host : ∀ (s : State) ss rh rg hl, P s → P { s with sstate := ss, regHandle := rh, regs := rg, hostLog := hl }

/-- A property kept by every shared update of the state. -/
structure Closed (P : State → Prop) : Prop where
  move : ∀ c, MoveClosed c P
  inputs : ∀ (s : State) pt cu qs, P s → P { s with port := pt, cur := cu, quanta := qs }
  admitOp : ∀ s op, P s → P (s.admitOp op)

namespace MoveClosed

variable {c : Nat} {P : State → Prop} (hP : MoveClosed c P)
include hP

theorem setPhase {s : State} (p : Phase) (h : P s) : P (s.setPhase c p) := hP.modCtx s _ h

theorem complete {s : State} (r : Result) (h : P s) : P (complete c r s) := hP.modCtx s _ h

theorem abort {s : State} (e : Err) (h : P s) : P (abort c e s) := by
  have h0 : P { s with openTxn := s.openTxn || (decide (s.lock = .held c) && s.midWrite c) } := by
    cases decide (s.lock = .held c) && s.midWrite c with
    | true => simpa using hP.opened s h
    | false => simpa using h
  have h1 := hP.modCtx _ (Ctx.fail e) h0
  have h2 := hP.lock _ (if s.lock = .held c then .free else s.lock) h1
  exact hP.host _ (if s.runsInit c then .dead else s.sstate) s.regHandle s.regs s.hostLog h2

theorem acquire {s s' : State} (h : P s) (he : acquire c s = .ok s') : P s' := by
  rcases acquire_ok he with ⟨-, rfl⟩ | ⟨d, -, -, rfl⟩
  · exact hP.setPhase _ (hP.lock s _ h)
  · exact hP.setPhase _ h

theorem release {s s' : State} (h : P s) (he : release c s = .ok s') : P s' := by
  obtain ⟨-, rfl⟩ := release_ok he
  exact hP.lock s _ h

/-- An attempt keeps the property when every state it answers with has it. -/
def Keeps (P : State → Prop) (a : Attempt) : Prop :=
  (∀ s, a = .ok s → P s) ∧ ∀ e s, a = .fail e s → P s

theorem orAbort {a : Attempt} {s' : State} (ha : Keeps P a) (he : a.orAbort c = .ok s') : P s' := by
  rcases orAbort_ok he with h | ⟨e, s1, h, rfl⟩
  · exact ha.1 _ h
  · exact hP.abort e (ha.2 _ _ h)

theorem exchange (o : Bytes) (m : Nat) {s : State} (h : P s) : Keeps P (exchange c o m s) := by
  have h0 := hP.setPhase .xchg h
  rcases exchange_cases c o m s with ⟨he, -⟩ | he | ⟨hl, ⟨a, he⟩ | ⟨k, he, -⟩ | ⟨k, a, he⟩ | ⟨k, r, hr, he⟩⟩
  · exact ⟨fun s hs => by simp [he] at hs, fun e s hs => by simp [he] at hs⟩
  · exact ⟨fun s hs => by simp [he] at hs, fun e s hs => by simp [he] at hs⟩
  · refine ⟨fun s hs => by simp [he] at hs, fun e s hs => ?_⟩
    rw [he] at hs
    cases hs
    exact hP.sent _ _ _ h0 hl.pos hl.len rfl
  · refine ⟨fun s hs => ?_, fun e s hs => by simp [he] at hs⟩
    rw [he] at hs
    cases hs
    exact hP.setPhase _ (hP.sent _ _ _ h0 hl.pos hl.len rfl)
  · refine ⟨fun s hs => by simp [he] at hs, fun e s hs => ?_⟩
    rw [he] at hs
    cases hs
    exact hP.recvFail _ _ _ _ h0 hl.pos hl.len rfl
  · refine ⟨fun s hs => ?_, fun e s hs => by simp [he] at hs⟩
    rw [he] at hs
    cases hs
    exact hP.setPhase _ (hP.recv _ _ _ _ _ h0 hl.pos hl.len (Nat.le_trans hr hl.recv) rfl)

theorem roundTripXchg {s : State} (h : P s) : Keeps P (roundTripXchg c s) := by
  unfold Machine.roundTripXchg
  cases s.gpo.bytesAt 0 Config.gpioFrameLen with
  | none => exact ⟨fun s hs => by simp at hs, fun e s hs => by simp at hs⟩
  | some frame =>
    have hx := hP.exchange frame Config.gpioReplyLen h
    cases he : Machine.exchange c frame Config.gpioReplyLen s with
    | fault f => exact ⟨fun s hs => by simp [he] at hs, fun e s hs => by simp [he] at hs⟩
    | ok s1 =>
      refine ⟨fun s hs => ?_, fun e s hs => by simp [he] at hs⟩
      exact hx.1 _ (by simpa [he] using hs)
    | fail e s1 =>
      refine ⟨fun s hs => by simp [he] at hs, fun e' s hs => ?_⟩
      simp only [he, Attempt.fail.injEq] at hs
      obtain ⟨-, rfl⟩ := hs
      exact hP.dropMirror _ (hx.2 _ _ he)

theorem roundTripCheck (off : Nat) {s : State} (h : P s) : Keeps P (roundTripCheck c off s) := by
  unfold Machine.roundTripCheck
  cases s.reply with
  | none => exact ⟨fun s hs => by simp at hs, fun e s hs => by simp at hs⟩
  | some r =>
    by_cases hl : r.length = Config.gpioReplyLen
    · refine ⟨fun s hs => ?_, fun e s hs => by simp [hl] at hs⟩
      simp only [hl, ne_eq, not_true_eq_false, if_false, Attempt.ok.injEq] at hs
      subst hs
      exact hP.setPhase _ h
    · refine ⟨fun s hs => by simp [hl] at hs, fun e s hs => ?_⟩
      simp only [ne_eq, hl, not_false_eq_true, if_true, Attempt.fail.injEq] at hs
      obtain ⟨-, rfl⟩ := hs
      exact hP.dropMirror _ h

theorem roundTripCommit {s s' : State} (h : P s) (he : roundTripCommit s = .ok s') : P s' := by
  unfold Machine.roundTripCommit at he
  split at he
  · cases he
  · cases he
    exact hP.setMirror _ _ h

omit hP in
theorem andThen {a : Attempt} {k : State → Attempt} (ha : Keeps P a) (hk : ∀ s, P s → Keeps P (k s)) :
    Keeps P (a.andThen k) := by
  cases a with
  | fault f => exact ⟨fun s hs => by simp [Attempt.andThen] at hs, fun e s hs => by simp [Attempt.andThen] at hs⟩
  | ok s1 => exact hk s1 (ha.1 _ rfl)
  | fail e s1 =>
    refine ⟨fun s hs => by simp [Attempt.andThen] at hs, fun e s hs => ?_⟩
    simp only [Attempt.andThen, Attempt.fail.injEq] at hs
    exact hs.2 ▸ ha.2 _ _ rfl

theorem roundTrip (off : Nat) {s : State} (h : P s) : Keeps P (roundTrip c off s) := by
  unfold Machine.roundTrip
  refine andThen (andThen (hP.roundTripXchg h) fun s hs => hP.roundTripCheck off hs) fun s hs => ?_
  cases he : Machine.roundTripCommit s with
  | error f => exact ⟨fun s hs => by simp at hs, fun e s hs => by simp at hs⟩
  | ok s2 =>
    refine ⟨fun s hs => ?_, fun e s hs => by simp at hs⟩
    simp only [Attempt.ok.injEq] at hs
    exact hs ▸ hP.roundTripCommit ‹_› he

/-! ### The phases -/

theorem beginMsgs (r : Result) (j : Nat) (ms : List Msg) {s : State} (h : P s) : P (beginMsgs c r j ms s) := by
  induction ms generalizing j s with
  | nil => exact hP.complete _ h
  | cons m ms ih =>
    cases m with
    | ten rd a len p => exact hP.abort _ (hP.modCtx _ _ h)
    | write a src => exact hP.modCtx _ _ h
    | read a len =>
      unfold Machine.beginMsgs
      split
      · exact hP.modCtx _ _ h
      · exact ih _ (hP.modCtx _ _ h)

theorem i2cAdmit (x : Ctx) {s : State} (h : P s) : P (i2cAdmit c x s) := by
  unfold Machine.i2cAdmit
  split
  · exact hP.abort _ h
  · exact hP.beginMsgs _ _ _ h

theorem i2cNext (x : Ctx) {s : State} (h : P s) : P (i2cNext c x s) := by
  unfold Machine.i2cNext
  split
  · exact hP.complete _ h
  · exact hP.abort _ h
  · split
    · exact hP.beginMsgs _ _ _ h
    · exact hP.modCtx _ _ h
  · split
    · exact hP.modCtx _ _ h
    · exact hP.beginMsgs _ _ _ h

theorem i2cBuild {x : Ctx} {s s' : State} (h : P s) (he : i2cBuild c x s = .ok s') : P s' := by
  unfold Machine.i2cBuild at he
  split at he
  · cases he; exact hP.modCtx _ _ h
  · cases he

theorem i2cXchg {x : Ctx} {s s' : State} (h : P s) (he : i2cXchg c x s = .ok s') : P s' := by
  unfold Machine.i2cXchg at he
  split at he
  · exact hP.orAbort (hP.exchange _ _ h) he
  · exact hP.orAbort (hP.exchange _ _ h) he
  · cases he

theorem i2cCheck {x : Ctx} {s s' : State} (h : P s) (he : i2cCheck c x s = .ok s') : P s' := by
  unfold Machine.i2cCheck at he
  split at he
  · split at he
    · cases he; exact hP.abort _ h
    · split at he
      · cases he
      · rename_i hr
        cases he
        exact hP.modCtx _ _ (hP.release h hr)
  · split at he
    · cases he; exact hP.abort _ h
    · cases he; exact hP.setPhase _ h
  · cases he

theorem i2cCommit {x : Ctx} {s s' : State} (h : P s) (he : i2cCommit c x s = .ok s') : P s' := by
  unfold Machine.i2cCommit at he
  split at he
  · split at he
    · cases he
    · rename_i hr
      cases he
      exact hP.modCtx _ _ (hP.release h hr)
  · cases he

theorem gpioAdmit (x : Ctx) {s : State} (h : P s) : P (gpioAdmit c x s) := by
  unfold Machine.gpioAdmit
  split
  · split
    · exact hP.setPhase _ h
    · split
      · exact hP.complete _ h
      · exact hP.abort _ h
  · exact hP.setPhase _ h

theorem gpioBuild {x : Ctx} {s s' : State} (h : P s) (he : gpioBuild c x s = .ok s') : P s' := by
  unfold Machine.gpioBuild at he
  split at he
  · cases he
  · rename_i hg
    cases he
    exact hP.setPhase _ (hP.frame _ _ _ h hg)

theorem gpioXchg {s s' : State} (h : P s) (he : gpioXchg c s = .ok s') : P s' :=
  hP.orAbort (hP.roundTripXchg h) he

theorem gpioCheck {x : Ctx} {s s' : State} (h : P s) (he : gpioCheck c x s = .ok s') : P s' :=
  hP.orAbort (hP.roundTripCheck _ h) he

theorem gpioCommit {x : Ctx} {s s' : State} (h : P s) (he : gpioCommit c x s = .ok s') : P s' := by
  unfold Machine.gpioCommit at he
  split at he
  · cases he
  · rename_i hc
    split at he
    · cases he
    · split at he
      · cases he
      · rename_i hr
        cases he
        exact hP.complete _ (hP.release (hP.roundTripCommit h hc) hr)

theorem initBuild {x : Ctx} {s s' : State} (h : P s) (he : initBuild c x s = .ok s') : P s' := by
  unfold Machine.initBuild at he
  split at he
  · cases he; exact hP.modCtx _ _ h
  · exact hP.gpioBuild h he

theorem initXchg {x : Ctx} {s s' : State} (h : P s) (he : initXchg c x s = .ok s') : P s' := by
  unfold Machine.initXchg at he
  split at he
  · exact hP.orAbort (hP.exchange _ _ h) he
  · exact hP.gpioXchg h he

theorem initCheck {x : Ctx} {s s' : State} (h : P s) (he : initCheck c x s = .ok s') : P s' := by
  unfold Machine.initCheck at he
  split at he
  · split at he
    · cases he
    · rename_i hr
      cases he
      exact hP.modCtx _ _ (hP.release h hr)
  · exact hP.gpioCheck h he

theorem initCommit {s s' : State} (h : P s) (he : initCommit c s = .ok s') : P s' := by
  unfold Machine.initCommit at he
  split at he
  · cases he
  · rename_i hc
    split at he
    · cases he
    · rename_i hr
      cases he
      exact hP.modCtx _ _ (hP.release (hP.roundTripCommit h hc) hr)

theorem registerBus {s : State} (h : P s) : P (registerBus c s) := by
  have h1 := hP.host s s.sstate s.regHandle (regDraw s.regs).2
    (s.hostLog ++ [.register Config.capabilities (regDraw s.regs).1]) h
  unfold Machine.registerBus
  simp only
  split
  · rename_i hd _
    have h2 := hP.host _ .initialized (some hd) (regDraw s.regs).2
      (s.hostLog ++ [.register Config.capabilities (regDraw s.regs).1]) h1
    exact hP.complete _ h2
  · exact hP.abort _ h1

theorem initNext (x : Ctx) {s : State} (h : P s) : P (initNext c x s) := by
  unfold Machine.initNext
  split
  · exact hP.setPhase _ h
  · split
    · exact hP.setPhase _ h
    · exact hP.registerBus h

/-- The move of phase `Admit` keeps the property. -/
theorem moveAdmit (x : Ctx) {s : State} (h : P s) : P (moveAdmit c x s) := by
  unfold Machine.moveAdmit
  split
  · exact hP.i2cAdmit _ h
  · exact hP.gpioAdmit _ h
  · exact hP.setPhase _ h
  · exact h

/-- The move of phase `Next` keeps the property. -/
theorem moveNext (x : Ctx) {s : State} (h : P s) : P (moveNext c x s) := by
  unfold Machine.moveNext
  split
  · exact hP.i2cNext _ h
  · exact hP.setPhase _ h
  · exact hP.initNext _ h
  · exact h

/-- What a context does before its Acquire keeps the property. -/
theorem approach {s : State} (h : P s) : P (approach c s) := by
  unfold Machine.approach
  split
  · exact h
  · split
    · exact hP.moveAdmit _ h
    · exact hP.moveNext _ h
    · exact h

/-- One move keeps the property. -/
theorem move {s s' : State} (h : P s) (he : move c s = .ok s') : P s' := by
  unfold Machine.move at he
  split at he
  · cases he; exact h
  · split at he
    · cases he; exact hP.moveAdmit _ h
    · exact hP.acquire h he
    · unfold moveBuild at he
      split at he
      · exact hP.i2cBuild h he
      · exact hP.gpioBuild h he
      · exact hP.initBuild h he
      · cases he; exact h
    · unfold moveXchg at he
      split at he
      · exact hP.i2cXchg h he
      · exact hP.gpioXchg h he
      · exact hP.initXchg h he
      · cases he; exact h
    · unfold moveCheck at he
      split at he
      · exact hP.i2cCheck h he
      · exact hP.gpioCheck h he
      · exact hP.initCheck h he
      · cases he; exact h
    · unfold moveCommit at he
      split at he
      · exact hP.i2cCommit h he
      · exact hP.gpioCommit h he
      · exact hP.initCommit h he
      · cases he; exact h
    · cases he; exact hP.moveNext _ h
    · cases he; exact h
    · cases he; exact h

end MoveClosed

/-! ## Runs -/

/-- A property every move of `c` keeps is kept by a run of moves of `c`. -/
theorem drive_keeps {P : State → Prop} {c : Nat} (hm : ∀ s s', P s → move c s = .ok s' → P s') {fuel : Nat}
    {s s' : State} (h : P s) (he : drive fuel c s = .ok s') : P s' := by
  induction fuel generalizing s with
  | zero => simp only [drive, Except.ok.injEq] at he; exact he ▸ h
  | succ fuel ih =>
    simp only [drive] at he
    split at he
    · cases he; exact h
    · split at he
      · cases he
      · exact ih (hm _ _ h ‹_›) he

/-- A property every move of `c` keeps, and that does not depend on the schedule, is kept by a turn of `c`. -/
theorem runCtx_keeps {P : State → Prop} {c : Nat} (hm : ∀ s s', P s → move c s = .ok s' → P s')
    (hq : ∀ (s : State) qs, P s → P { s with quanta := qs }) {s s' : State} (h : P s)
    (he : runCtx c s = .ok s') : P s' := by
  unfold runCtx at he
  split at he
  · exact drive_keeps hm (hq _ _ h) he
  · split at he
    · cases he; exact h
    · exact drive_keeps hm h he

namespace Closed

variable {P : State → Prop} (hP : Closed P)
include hP

theorem runCtx {c : Nat} {s s' : State} (h : P s) (he : runCtx c s = .ok s') : P s' :=
  runCtx_keeps (fun _ _ h he => (hP.move _).move h he) (fun s qs h => hP.inputs s s.port s.cur qs h) h he

theorem submit {op : Instr} {s s' : State} (h : P s) (he : submit op s = .next s') : P s' :=
  hP.runCtx (hP.admitOp s op h) (toOutcome_next he)

theorem submitAdmitted {op : Instr} {s s' : State} (h : P s) (he : submitAdmitted op s = .next s') : P s' := by
  unfold Machine.submitAdmitted at he
  split at he
  · cases he
  · exact hP.submit h he

theorem emit {keep : Bytes → Bytes} {i : Instr} {s s' : State} (h : P s) (he : emit keep i s = .next s') : P s' := by
  obtain ⟨x, p, -, -, -, -, rfl⟩ := emit_next he
  exact (hP.move _).modCtx _ _ h

theorem closeSession {s : State} (h : P s) : P (closeSession s) := by
  unfold Machine.closeSession
  split
  · exact (hP.move 0).host s _ _ s.regs _ h
  · exact (hP.move 0).host s _ s.regHandle s.regs s.hostLog h
  · exact (hP.move 0).host s _ s.regHandle s.regs s.hostLog h

/-- Every instruction keeps the property. -/
theorem exec {i : Instr} {s s' : State} (h : P s) (he : exec i s = .next s') : P s' := by
  cases i with
  | i2cXfer msgs =>
    simp only [Machine.exec, execI2cXfer] at he
    split at he
    · cases he
    · split at he
      · cases he
      · exact hP.submit h he
  | gpioRead p => exact hP.submitAdmitted h he
  | gpioReadAll m => exact hP.submitAdmitted h he
  | gpioWrite p v => exact hP.submitAdmitted h he
  | gpioWriteMultiple m b => exact hP.submitAdmitted h he
  | gpioDirInput p => exact hP.submitAdmitted h he
  | gpioDirOutput p v => exact hP.submitAdmitted h he
  | gpioDirGet p => exact hP.submitAdmitted h he
  | init =>
    simp only [Machine.exec, execInit] at he
    split at he
    · cases he
    · split at he
      · cases he
      · exact hP.submit h he
  | teardown =>
    obtain ⟨-, -, -, rfl⟩ := teardown_next he
    exact (hP.move _).complete _ (hP.admitOp _ _ (hP.closeSession h))
  | i2cWrite a src => exact hP.submitAdmitted h he
  | i2cRead a len => exact hP.submitAdmitted h he
  | i2cMsgTen rd a len p => exact hP.submitAdmitted h he
  | stream => exact hP.emit (keep := fun _ => []) (i := .stream) h he
  | start => exact hP.emit (keep := id) (i := .start) h he
  | stop => exact hP.emit (keep := id) (i := .stop) h he
  | setSpeed sp => exact hP.emit (keep := id) (i := .setSpeed sp) h he
  | endPkt => exact hP.emit (keep := id) (i := .endPkt) h he
  | outSub d => exact hP.emit (keep := id) (i := .outSub d) h he
  | inSub n => exact hP.emit (keep := id) (i := .inSub n) h he
  | gpioFrame pins =>
    obtain ⟨x, g, -, -, hg, -, rfl⟩ := gpioFrame_next he
    exact (hP.move 0).frame _ _ _ h hg
  | exchange o m => exact (hP.move _).orAbort ((hP.move _).exchange _ _ h) (toOutcome_next he)
  | acquire =>
    obtain ⟨-, ⟨-, rfl⟩ | ⟨-, ha⟩⟩ := acquireCmd_next he
    · exact (hP.move _).approach h
    · exact (hP.move _).acquire ((hP.move _).approach h) ha
  | release =>
    simp only [Machine.exec, execRelease] at he
    split at he
    · cases he
    · cases he
      exact (hP.move _).setPhase _ ((hP.move _).release h ‹_›)
  | gpioRt => exact (hP.move _).orAbort ((hP.move _).roundTrip _ h) (toOutcome_next he)

/-- Every step keeps the property. -/
theorem step {s s' : State} (h : P s) (he : step s = .next s') : P s' := by
  unfold Machine.step at he
  split at he
  · cases he; exact h
  · rename_i cmd rest _
    have h1 : P (takeCommand cmd rest s) := hP.inputs s _ _ s.quanta h
    unfold stepCommand at he
    split at he
    · exact hP.runCtx h1 (toOutcome_next he)
    · split at he
      · cases he
      · exact hP.exec h1 he

end Closed

end Sys2Proof.Machine
end

