-- ==== Sys2Proof/Laws/Codec.lean ====
section
/-! SUPPORT. The encodings: what the encoder writes the decoders read back, and what a decoder reads is what the
encoder writes. -/

namespace Sys2Proof

/-! ## Bytes -/

theorem byte_ext {a b : Byte} (h : a.toNat = b.toNat) : a = b := BitVec.eq_of_toNat_eq h

/-- A 16-bit length reads back (30_encoding.md R81). -/
theorem decodeLen_encodeLen {len : Nat} (h : len ≤ 65535) :
    decodeLen (BitVec.ofNat 8 len) (BitVec.ofNat 8 (len / 256)) = len := by
  simp only [decodeLen, BitVec.toNat_ofNat]
  omega

/-- The two bytes of a length are the bytes of what they say. -/
theorem encodeLen_decodeLen (lo hi : Byte) : encodeLen (decodeLen lo hi) = [lo, hi] := by
  have h1 := lo.isLt
  have h2 := hi.isLt
  simp only [encodeLen, decodeLen, List.cons.injEq, and_true]
  constructor <;> (apply byte_ext; simp only [BitVec.toNat_ofNat]; omega)

theorem decodeLen_le (lo hi : Byte) : decodeLen lo hi ≤ 65535 := by
  have h1 := lo.isLt
  have h2 := hi.isLt
  simp only [decodeLen]
  omega

theorem addr_msb (a : BitVec 7) : (a.setWidth 8).msb = false := by
  revert a; decide

theorem addr_back (a : BitVec 7) : (a.setWidth 8).setWidth 7 = a := by
  revert a; decide

theorem addr_forth {b : Byte} (h : b.msb = false) : (b.setWidth 7).setWidth 8 = b := by
  revert b; decide

theorem decodeVal_bitByte (v : Bool) : decodeVal (bitByte v) = some v := by cases v <;> rfl

theorem decodeVal_some {b : Byte} {v : Bool} (h : decodeVal b = some v) : b = bitByte v := by
  unfold decodeVal at h
  split at h
  · cases h; assumption
  · split at h
    · cases h; assumption
    · cases h

/-! ## Message records -/

/-- A well-formed message record reads back, whatever follows it. -/
theorem decodeMsg_encodeMsg {m : Msg} (h : m.wf = true) (rest : Bytes) :
    decodeMsg (encodeMsg m ++ rest) = some (m, rest) := by
  cases m with
  | write a src =>
    have hl : src.length ≤ 65535 := of_decide_eq_true (p := _ ≤ Config.maxXferLen) h
    simp only [encodeMsg, encodeLen, List.cons_append, List.nil_append, decodeMsg,
      decodeLen_encodeLen hl, addr_msb, addr_back]
    rw [if_neg (show ¬ Config.maxXferLen < _ from Nat.not_lt.mpr hl)]
    simp
  | read a len =>
    have hl : len ≤ 65535 := of_decide_eq_true (p := _ ≤ Config.maxXferLen) h
    simp only [encodeMsg, encodeLen, List.cons_append, List.nil_append, decodeMsg, decodeLen_encodeLen hl, addr_msb,
      addr_back]
    rw [if_neg (show ¬ Config.maxXferLen < _ from Nat.not_lt.mpr hl)]
    simp
  | ten rd a len p =>
    simp only [Msg.wf, Bool.and_eq_true, decide_eq_true_eq] at h
    obtain ⟨hl, hp⟩ := h
    have hl : len ≤ 65535 := hl
    cases rd with
    | false =>
      simp only [Bool.false_eq_true, if_false] at hp
      simp only [encodeMsg, encodeLen, List.cons_append, List.nil_append, decodeMsg,
        decodeLen_encodeLen hl]
      rw [if_neg (show ¬ Config.maxXferLen < _ from Nat.not_lt.mpr hl), if_neg (by decide), if_neg (by decide), if_pos (by decide),
        if_neg (by simp; omega), ← hp]
      simp
    | true =>
      simp only [if_true, List.length_eq_zero_iff] at hp
      subst hp
      simp only [encodeMsg, encodeLen, List.cons_append, List.nil_append, decodeMsg, decodeLen_encodeLen hl]
      rw [if_neg (show ¬ Config.maxXferLen < _ from Nat.not_lt.mpr hl), if_neg (by decide), if_neg (by decide), if_neg (by decide),
        if_pos (by decide)]

/-- What the message decoder reads is what the encoder writes. -/
theorem encodeMsg_decodeMsg {bs rest : Bytes} {m : Msg} (h : decodeMsg bs = some (m, rest)) :
    bs = encodeMsg m ++ rest ∧ m.wf = true := by
  unfold decodeMsg at h
  split at h
  · rename_i flags addr lo hi tl
    have hle := decodeLen_le lo hi
    have henc := encodeLen_decodeLen lo hi
    have hle' : decide (decodeLen lo hi ≤ Config.maxXferLen) = true := decide_eq_true hle
    simp only at h
    split at h
    · cases h
    · split at h
      · rename_i hf
        subst hf
        split at h
        · cases h
        · rename_i hmsb
          split at h
          · cases h
          · rename_i hlen
            simp only [Option.some.injEq, Prod.mk.injEq] at h
            obtain ⟨rfl, rfl⟩ := h
            have htl : (tl.take (decodeLen lo hi)).length = decodeLen lo hi := by simp; omega
            refine ⟨?_, by simp [Msg.wf, htl, hle']⟩
            simp [encodeMsg, htl, henc, addr_forth (by simpa using hmsb : addr.msb = false)]
      · split at h
        · rename_i hf
          subst hf
          split at h
          · cases h
          · rename_i hmsb
            simp only [Option.some.injEq, Prod.mk.injEq] at h
            obtain ⟨rfl, rfl⟩ := h
            refine ⟨?_, by simp [Msg.wf, hle']⟩
            simp [encodeMsg, henc, addr_forth (by simpa using hmsb : addr.msb = false)]
        · split at h
          · rename_i hf
            subst hf
            split at h
            · cases h
            · rename_i hlen
              simp only [Option.some.injEq, Prod.mk.injEq] at h
              obtain ⟨rfl, rfl⟩ := h
              have htl : (tl.take (decodeLen lo hi)).length = decodeLen lo hi := by simp; omega
              refine ⟨?_, by simp [Msg.wf, htl, hle']⟩
              simp [encodeMsg, henc, bitByte]
          · split at h
            · rename_i hf
              subst hf
              simp only [Option.some.injEq, Prod.mk.injEq] at h
              obtain ⟨rfl, rfl⟩ := h
              refine ⟨?_, by simp [Msg.wf, hle']⟩
              simp [encodeMsg, henc, bitByte]
            · cases h
  · cases h

theorem decodeMsgs_encode {ms : List Msg} (h : ms.all Msg.wf = true) (rest : Bytes) :
    decodeMsgs ms.length (ms.flatMap encodeMsg ++ rest) = some (ms, rest) := by
  induction ms with
  | nil => rfl
  | cons m ms ih =>
    simp only [List.all_cons, Bool.and_eq_true] at h
    simp only [List.flatMap_cons, List.append_assoc, List.length_cons, decodeMsgs, decodeMsg_encodeMsg h.1, ih h.2,
      Option.map_some]

theorem encode_decodeMsgs {k : Nat} {bs rest : Bytes} {ms : List Msg} (h : decodeMsgs k bs = some (ms, rest)) :
    ms.length = k ∧ bs = ms.flatMap encodeMsg ++ rest ∧ ms.all Msg.wf = true := by
  induction k generalizing bs ms with
  | zero => simp only [decodeMsgs, Option.some.injEq, Prod.mk.injEq] at h; obtain ⟨rfl, rfl⟩ := h; simp
  | succ k ih =>
    simp only [decodeMsgs] at h
    split at h
    · cases h
    · rename_i m r hm
      cases hr : decodeMsgs k r with
      | none => simp [hr] at h
      | some p =>
        obtain ⟨ms', rest'⟩ := p
        simp only [hr, Option.map_some, Option.some.injEq, Prod.mk.injEq] at h
        obtain ⟨rfl, rfl⟩ := h
        obtain ⟨h1, h2, h3⟩ := ih hr
        obtain ⟨h4, h5⟩ := encodeMsg_decodeMsg hm
        exact ⟨by simp [h1], by simp [h4, h2], by simp [h3, h5]⟩

/-! ## Requests -/

/-- A well-formed request reads back, whatever follows it. -/
theorem decodeRequestPrefix_encode {i : Instr} (h : i.wf = true) (hf : i.format = .req) (rest : Bytes) :
    decodeRequestPrefix (encode i ++ rest) = some (i, rest) := by
  cases i <;> simp only [Instr.format, reduceCtorEq] at hf
  case i2cXfer ms =>
    simp only [Instr.wf, Bool.and_eq_true, decide_eq_true_eq] at h
    obtain ⟨⟨h1, h2⟩, h3⟩ := h
    have hk : (BitVec.ofNat 8 ms.length).toNat = ms.length := by simp [BitVec.toNat_ofNat]; omega
    have hk0 : ¬ BitVec.ofNat 8 ms.length = 0 := fun h => by rw [h] at hk; simp at hk; omega
    simp only [encode, List.cons_append, List.nil_append, decodeRequestPrefix, if_true]
    rw [if_neg hk0, hk, decodeMsgs_encode h3]
    rfl
  all_goals simp [encode, decodeRequestPrefix, decodeVal_bitByte]

/-- What the request decoder reads is what the encoder writes. -/
theorem encode_decodeRequestPrefix {bs rest : Bytes} {i : Instr} (h : decodeRequestPrefix bs = some (i, rest)) :
    bs = encode i ++ rest ∧ i.wf = true ∧ i.format = .req := by
  cases bs with
  | nil => simp [decodeRequestPrefix] at h
  | cons op tl =>
    simp only [decodeRequestPrefix] at h
    split at h
    · rename_i ho
      subst ho
      cases tl with
      | nil => simp at h
      | cons k tl =>
        simp only at h
        split at h
        · cases h
        · rename_i hk
          cases hm : decodeMsgs k.toNat tl with
          | none => simp [hm] at h
          | some p =>
            obtain ⟨ms, r⟩ := p
            simp only [hm, Option.map_some, Option.some.injEq, Prod.mk.injEq] at h
            obtain ⟨rfl, rfl⟩ := h
            obtain ⟨h1, h2, h3⟩ := encode_decodeMsgs hm
            have hlt := k.isLt
            have hk1 : 1 ≤ k.toNat := by
              rcases Nat.eq_zero_or_pos k.toNat with h | h
              · exact absurd (byte_ext (by simpa using h)) hk
              · exact h
            refine ⟨?_, ?_, rfl⟩
            · simp [encode, h1, h2]
            · simp only [Instr.wf, h1, h3, Bool.and_true, Bool.and_eq_true, decide_eq_true_eq]
              omega
    · repeat' split at h
      all_goals first
        | (simp only [reduceCtorEq] at h)
        | (simp only [Option.some.injEq, Prod.mk.injEq] at h
           obtain ⟨rfl, rfl⟩ := h
           simp_all [encode, Instr.wf, Instr.format])
        | (rename_i ho _
           simp only [Option.map_eq_some_iff, Prod.mk.injEq] at h
           obtain ⟨v, hv, rfl, rfl⟩ := h
           have := decodeVal_some hv
           simp_all [encode, Instr.wf, Instr.format])

/-! ## The wire -/

theorem outByte_toNat {n : Nat} (h : n ≤ 63) : (outByte n).toNat = 128 + n := by
  have : ∀ k : Fin 64, (outByte k.val).toNat = 128 + k.val := by decide
  exact this ⟨n, by omega⟩

theorem inByte_toNat {n : Nat} (h : n ≤ 63) : (inByte n).toNat = 192 + n := by
  have : ∀ k : Fin 64, (inByte k.val).toNat = 192 + k.val := by decide
  exact this ⟨n, by omega⟩

/-- OUT with its data reads back, whatever follows it (30_encoding.md R64, R75). -/
theorem decodeSub_out {data : Bytes} (h : data.length ≤ 63) (rest : Bytes) :
    decodeSub (outByte data.length :: (data ++ rest)) = some (.outSub data, rest) := by
  have hn := outByte_toNat h
  have hd : (outByte data.length).toNat / 64 = 2 := by omega
  have hm : (outByte data.length).toNat % 64 = data.length := by omega
  simp only [decodeSub, decodeWireL, hd, hm, if_true]
  rw [if_pos (by simp)]
  simp

/-- IN reads back (30_encoding.md R64, R65). -/
theorem decodeSub_in {n : Nat} (h : n ≤ 63) (rest : Bytes) :
    decodeSub (inByte n :: rest) = some (.inSub (BitVec.ofNat 6 n), rest) := by
  have hn := inByte_toNat h
  have hd : (inByte n).toNat / 64 = 3 := by omega
  have hm : (inByte n).toNat % 64 = n := by omega
  simp only [decodeSub, decodeWireL, hd, hm]
  simp

theorem decodeSub_start (rest : Bytes) : decodeSub (startByte :: rest) = some (.start, rest) := by
  simp [decodeSub, decodeWireL, decodeWireB, startByte, endByte]

theorem decodeSub_stop (rest : Bytes) : decodeSub (stopByte :: rest) = some (.stop, rest) := by
  simp [decodeSub, decodeWireL, decodeWireB, startByte, stopByte, endByte]

theorem decodeSub_end (rest : Bytes) : decodeSub (endByte :: rest) = some (.endPkt, rest) := by
  simp [decodeSub, decodeWireL, decodeWireB, endByte]

theorem setSpeedByte_facts {sp : BitVec 5} (h : sp.toNat ≤ 0x13) :
    (setSpeedByte sp).toNat / 64 = 1 ∧ decodeWireB (setSpeedByte sp) = some (.setSpeed sp) := by
  revert sp; decide

theorem decodeSub_setSpeed {sp : BitVec 5} (h : sp.toNat ≤ 0x13) (rest : Bytes) :
    decodeSub (setSpeedByte sp :: rest) = some (.setSpeed sp, rest) := by
  obtain ⟨h1, h2⟩ := setSpeedByte_facts h
  simp [decodeSub, decodeWireL, h1, h2]

theorem pinCtl_back (p : PinCtl) : PinCtl.ofByte p.byte = some p := by
  rcases p with _ | ⟨d, v⟩
  · rfl
  · cases d <;> cases v <;> rfl

theorem pinCtl_forth {b : Byte} {p : PinCtl} (h : PinCtl.ofByte b = some p) : p.byte = b := by
  unfold PinCtl.ofByte at h
  repeat' split at h
  all_goals first
    | (cases h; subst_vars; rfl)
    | cases h

theorem decodePins_byte (pins : List PinCtl) : decodePins (pins.map PinCtl.byte) = some pins := by
  induction pins with
  | nil => rfl
  | cons p pins ih => simp only [List.map_cons, decodePins, pinCtl_back, ih]

/-- The GPIO frame reads back (30_encoding.md R78). -/
theorem decodeWireG_frame {pins : List PinCtl} (h : pins.length = 8) :
    decodeWireG (gpioHeader ++ pins.map PinCtl.byte) = some (.gpioFrame pins) := by
  have h1 : (gpioHeader ++ pins.map PinCtl.byte).take 3 = gpioHeader := by simp [gpioHeader]
  have h2 : (gpioHeader ++ pins.map PinCtl.byte).drop 3 = pins.map PinCtl.byte := by simp [gpioHeader]
  have h3 : (gpioHeader ++ pins.map PinCtl.byte).length = Config.gpioFrameLen := by
    simp [gpioHeader, h, Config.gpioFrameLen]
  rw [decodeWireG, if_pos ⟨h1, h3⟩, h2, decodePins_byte]
  rfl

/-! ## Packets -/

/-- One sub-command that is neither END nor SET-SPEED, then the rest of the body. -/
theorem decodeBody_sub {speed : Fin 20} {fuel : Nat} {bs rest : Bytes} {i : Instr} (h : decodeSub bs = some (i, rest))
    (h1 : i ≠ .endPkt) (h2 : ∀ s, i ≠ .setSpeed s) :
    decodeBody speed (fuel + 1) bs = (decodeBody speed fuel rest).map (i :: ·) := by
  simp only [decodeBody, h]

/-- The END that is the last byte. -/
theorem decodeBody_end (speed : Fin 20) (fuel : Nat) : decodeBody speed (fuel + 1) [endByte] = some [] := by
  simp only [decodeBody, decodeSub_end, if_true]

end Sys2Proof
end

