-- ==== Sys2Proof/Laws/Mutex.lean ====
section
/-! SUPPORT. The lock and the phases: every move keeps them in agreement, touches one context only, and leaves the lock
of another context alone. -/

namespace Sys2Proof.Machine

/-! ## Reading a changed context list -/

theorem getElem?_modify_self {l : List Ctx} {c : Nat} {f : Ctx → Ctx} {x' : Ctx}
    (h : (l.modify c f)[c]? = some x') : ∃ x, l[c]? = some x ∧ x' = f x := by
  cases hx : l[c]? with
  | none => simp [hx] at h
  | some x => exact ⟨x, rfl, by simpa [List.getElem?_modify, hx] using h.symm⟩

theorem getElem?_modify_ne {l : List Ctx} {c d : Nat} (f : Ctx → Ctx) (h : d ≠ c) :
    (l.modify c f)[d]? = l[d]? := by
  simp [Ne.symm h]

namespace State.MutexInv

variable {s : State}

/-- A context in a phase that holds the lock holds it. -/
theorem held (hm : s.MutexInv) {c : Nat} {x : Ctx} (hx : s.ctxs[c]? = some x) (h : x.phase.holdsLock = true) :
    s.lock = .held c := (hm.holder c x hx).mp h

/-- A context in any other phase does not. -/
theorem notHeld (hm : s.MutexInv) {c : Nat} {x : Ctx} (hx : s.ctxs[c]? = some x) (h : x.phase.holdsLock = false) :
    s.lock ≠ .held c := fun hl => by simp [(hm.holder c x hx).mpr hl] at h

/-- Only the contexts and the lock matter. -/
theorem congr {s' : State} (hm : s.MutexInv) (hc : s'.ctxs = s.ctxs) (hl : s'.lock = s.lock) : s'.MutexInv :=
  ⟨fun c x => by rw [hc, hl]; exact hm.holder c x, fun c => by rw [hc, hl]; exact hm.exists_ c⟩

/-- A change of one context that agrees with the lock. -/
theorem modCtx (hm : s.MutexInv) {c : Nat} {f : Ctx → Ctx}
    (h : ∀ x, s.ctxs[c]? = some x → ((f x).phase.holdsLock = true ↔ s.lock = .held c)) : (s.modCtx c f).MutexInv := by
  constructor
  · intro d y hy
    by_cases hd : d = c
    · subst hd
      obtain ⟨x, hx, rfl⟩ := getElem?_modify_self hy
      exact h x hx
    · rw [State.modCtx_ctxs, getElem?_modify_ne _ hd] at hy
      exact hm.holder d y hy
  · intro d hd
    simpa using hm.exists_ d hd

/-- Context `c`, which does not hold the lock, moves to another phase that does not. -/
theorem modUnlocked (hm : s.MutexInv) {c : Nat} {f : Ctx → Ctx} (hl : s.lock ≠ .held c)
    (h : ∀ x, (f x).phase.holdsLock = false) : (s.modCtx c f).MutexInv :=
  hm.modCtx fun x _ => by simp [h x, hl]

/-- Context `c`, which holds the lock, moves to another phase that does. -/
theorem modLocked (hm : s.MutexInv) {c : Nat} {f : Ctx → Ctx} (hl : s.lock = .held c)
    (h : ∀ x, (f x).phase.holdsLock = true) : (s.modCtx c f).MutexInv :=
  hm.modCtx fun x _ => by simp [h x, hl]

/-- Context `c` gives the lock back and leaves for a phase that does not hold it. -/
theorem modReleased (hm : s.MutexInv) {c : Nat} {f : Ctx → Ctx} (hl : s.lock = .held c)
    (h : ∀ x, (f x).phase.holdsLock = false) : (({ s with lock := .free } : State).modCtx c f).MutexInv := by
  constructor
  · intro d y hy
    simp only [State.modCtx_lock, reduceCtorEq, iff_false, Bool.not_eq_true]
    by_cases hd : d = c
    · subst hd
      obtain ⟨x, _, rfl⟩ := getElem?_modify_self hy
      exact h x
    · rw [State.modCtx_ctxs, getElem?_modify_ne _ hd] at hy
      have := hm.holder d y hy
      rw [hl] at this
      have hne : (Lock.held c = Lock.held d) = False := by simp [Ne.symm hd]
      simpa [hne] using this
  · intro d hd
    simp at hd

/-- A change of one context that leaves its phase. -/
theorem modKept (hm : s.MutexInv) {c : Nat} {f : Ctx → Ctx} (h : ∀ x, (f x).phase = x.phase) : (s.modCtx c f).MutexInv :=
  hm.modCtx fun x hx => by rw [h x]; exact hm.holder c x hx

theorem abort (hm : s.MutexInv) (c : Nat) (e : Err) : (abort c e s).MutexInv := by
  by_cases hl : s.lock = .held c
  · refine (hm.modReleased (f := Ctx.fail e) hl fun x => rfl).congr rfl ?_
    simp [hl]
  · refine (hm.modUnlocked (f := Ctx.fail e) hl fun x => rfl).congr rfl ?_
    simp [hl]

theorem acquire (hm : s.MutexInv) {c : Nat} {s' : State} {x : Ctx} (hx : s.ctxs[c]? = some x)
    (he : acquire c s = .ok s') : s'.MutexInv := by
  rcases acquire_ok he with ⟨hf, rfl⟩ | ⟨d, hd, hl, rfl⟩
  · constructor
    · intro d y hy
      by_cases hd : d = c
      · subst hd
        obtain ⟨z, _, rfl⟩ := getElem?_modify_self hy
        simp [Phase.holdsLock]
      · rw [State.setPhase_ctxs, getElem?_modify_ne _ hd] at hy
        have := hm.holder d y hy
        rw [hf] at this
        simpa [Ne.symm hd] using this
    · intro d hd
      simp only [State.setPhase_lock, Lock.held.injEq] at hd
      subst hd
      have := (List.getElem?_eq_some_iff.mp hx).1
      simpa using this
  · exact hm.modUnlocked (by rw [hl]; simpa using hd) fun x => rfl

/-- What an attempt of context `c` answers with agrees with the lock, and a state to go on from still has it held. -/
structure Keeps (c : Nat) (a : Attempt) : Prop where
  ok : ∀ s, a = .ok s → s.MutexInv ∧ s.lock = .held c
  fail : ∀ e s, a = .fail e s → s.MutexInv

theorem orAbort {c : Nat} {a : Attempt} {s' : State} (ha : Keeps c a) (he : a.orAbort c = .ok s') : s'.MutexInv := by
  rcases orAbort_ok he with h | ⟨e, s1, h, rfl⟩
  · exact (ha.ok _ h).1
  · exact (ha.fail _ _ h).abort c e

theorem exchange (hm : s.MutexInv) (c : Nat) (o : Bytes) (m : Nat) : Keeps c (exchange c o m s) := by
  rcases exchange_cases c o m s with ⟨he, -⟩ | he | ⟨hl, ⟨a, he⟩ | ⟨k, he, -⟩ | ⟨k, a, he⟩ | ⟨k, r, hr, he⟩⟩
  · exact ⟨fun s hs => by simp [he] at hs, fun e s hs => by simp [he] at hs⟩
  · exact ⟨fun s hs => by simp [he] at hs, fun e s hs => by simp [he] at hs⟩
  · refine ⟨fun s hs => by simp [he] at hs, fun e s hs => ?_⟩
    rw [he] at hs
    cases hs
    exact (hm.modLocked (f := fun x => { x with phase := .xchg }) hl.lock fun x => rfl).congr rfl rfl
  · refine ⟨fun s hs => ?_, fun e s hs => by simp [he] at hs⟩
    rw [he] at hs
    cases hs
    refine ⟨?_, hl.lock⟩
    have h1 := hm.modLocked (f := fun x => { x with phase := .xchg }) hl.lock fun x => rfl
    exact (h1.modLocked (f := fun x => { x with phase := .check }) hl.lock fun x => rfl).congr rfl rfl
  · refine ⟨fun s hs => by simp [he] at hs, fun e s hs => ?_⟩
    rw [he] at hs
    cases hs
    exact (hm.modLocked (f := fun x => { x with phase := .xchg }) hl.lock fun x => rfl).congr rfl rfl
  · refine ⟨fun s hs => ?_, fun e s hs => by simp [he] at hs⟩
    rw [he] at hs
    cases hs
    refine ⟨?_, hl.lock⟩
    have h1 := hm.modLocked (f := fun x => { x with phase := .xchg }) hl.lock fun x => rfl
    exact (h1.modLocked (f := fun x => { x with phase := .check }) hl.lock fun x => rfl).congr rfl rfl

theorem roundTripXchg (hm : s.MutexInv) (c : Nat) : Keeps c (roundTripXchg c s) := by
  unfold Machine.roundTripXchg
  cases s.gpo.bytesAt 0 Config.gpioFrameLen with
  | none => exact ⟨fun s hs => by simp at hs, fun e s hs => by simp at hs⟩
  | some frame =>
    have hx := hm.exchange c frame Config.gpioReplyLen
    cases he : Machine.exchange c frame Config.gpioReplyLen s with
    | fault f => exact ⟨fun s hs => by simp [he] at hs, fun e s hs => by simp [he] at hs⟩
    | ok s1 =>
      refine ⟨fun s hs => ?_, fun e s hs => by simp [he] at hs⟩
      exact hx.ok _ (by simpa [he] using hs)
    | fail e s1 =>
      refine ⟨fun s hs => by simp [he] at hs, fun e' s hs => ?_⟩
      simp only [he, Attempt.fail.injEq] at hs
      obtain ⟨-, rfl⟩ := hs
      exact (hx.fail _ _ he).congr rfl rfl

theorem roundTripCheck (hm : s.MutexInv) {c : Nat} (off : Nat) (hl : s.lock = .held c) :
    Keeps c (roundTripCheck c off s) := by
  unfold Machine.roundTripCheck
  cases s.reply with
  | none => exact ⟨fun s hs => by simp at hs, fun e s hs => by simp at hs⟩
  | some r =>
    by_cases hr : r.length = Config.gpioReplyLen
    · refine ⟨fun s hs => ?_, fun e s hs => by simp [hr] at hs⟩
      simp only [hr, ne_eq, not_true_eq_false, if_false, Attempt.ok.injEq] at hs
      subst hs
      exact ⟨hm.modLocked hl fun x => rfl, hl⟩
    · refine ⟨fun s hs => by simp [hr] at hs, fun e s hs => ?_⟩
      simp only [ne_eq, hr, not_false_eq_true, if_true, Attempt.fail.injEq] at hs
      obtain ⟨-, rfl⟩ := hs
      exact hm.congr rfl rfl

end State.MutexInv

/-- A good commit only changes the mirror. -/
theorem roundTripCommit_ok {s s' : State} (he : roundTripCommit s = .ok s') :
    ∃ r, s.reply = some r ∧ s' = s.setMirror r := by
  unfold roundTripCommit at he
  cases h : s.reply with
  | none => simp [h] at he
  | some r => exact ⟨r, rfl, by simpa [h] using he.symm⟩

theorem roundTrip_mutex {s : State} (hm : s.MutexInv) (c off : Nat) :
    State.MutexInv.Keeps c (roundTrip c off s) := by
  have h1 := hm.roundTripXchg c
  unfold roundTrip
  cases hx : roundTripXchg c s with
  | fault f =>
    exact ⟨fun s hs => by simp [Attempt.andThen] at hs, fun e s hs => by simp [Attempt.andThen] at hs⟩
  | fail e s1 =>
    refine ⟨fun s hs => by simp [Attempt.andThen] at hs, fun e' s hs => ?_⟩
    simp only [Attempt.andThen, Attempt.fail.injEq] at hs
    exact hs.2 ▸ h1.fail _ _ hx
  | ok s1 =>
    obtain ⟨hm1, hl1⟩ := h1.ok _ hx
    have h2 := hm1.roundTripCheck off hl1
    simp only [Attempt.andThen]
    cases hc : roundTripCheck c off s1 with
    | fault f => exact ⟨fun s hs => by simp at hs, fun e s hs => by simp at hs⟩
    | fail e s2 =>
      refine ⟨fun s hs => by simp at hs, fun e' s hs => ?_⟩
      simp only [Attempt.fail.injEq] at hs
      exact hs.2 ▸ h2.fail _ _ hc
    | ok s2 =>
      obtain ⟨hm2, hl2⟩ := h2.ok _ hc
      refine ⟨fun s hs => ?_, fun e' s hs => by simp only at hs; split at hs <;> simp at hs⟩
      simp only at hs
      split at hs
      · cases hs
      · rename_i s3 h3
        cases hs
        obtain ⟨r, -, rfl⟩ := roundTripCommit_ok h3
        exact ⟨hm2.congr rfl rfl, hl2⟩

/-! ## The moves -/

section Moves

variable {c : Nat} {x : Ctx} {s s' : State}

theorem registerBus_mutex (hm : s.MutexInv) (hl : s.lock ≠ .held c) : (registerBus c s).MutexInv := by
  unfold registerBus
  simp only
  split
  · rename_i h _
    have h1 : ({ s with
        regHandle := some h
        sstate := .initialized
        regs := (regDraw s.regs).2
        hostLog := s.hostLog ++ [.register Config.capabilities (regDraw s.regs).1] } : State).MutexInv :=
      hm.congr rfl rfl
    exact h1.modUnlocked (f := Ctx.finish .ok) hl fun x => rfl
  · have h1 : ({ s with
        regs := (regDraw s.regs).2
        hostLog := s.hostLog ++ [.register Config.capabilities (regDraw s.regs).1] } : State).MutexInv :=
      hm.congr rfl rfl
    exact h1.abort c _

theorem gpioBuild_mutex (hm : s.MutexInv) (hl : s.lock = .held c) (he : gpioBuild c x s = .ok s') : s'.MutexInv := by
  unfold gpioBuild at he
  split at he
  · cases he
  · cases he
    rename_i g _
    have h1 : ({ s with gpo := g } : State).MutexInv := hm.congr rfl rfl
    exact h1.modLocked (f := fun x => { x with phase := .xchg }) hl fun x => rfl

theorem gpioCheck_mutex (hm : s.MutexInv) (hl : s.lock = .held c) (he : gpioCheck c x s = .ok s') : s'.MutexInv :=
  State.MutexInv.orAbort (hm.roundTripCheck _ hl) he

theorem gpioXchg_mutex (hm : s.MutexInv) (he : gpioXchg c s = .ok s') : s'.MutexInv :=
  State.MutexInv.orAbort (hm.roundTripXchg c) he

/-- A release and a change to a phase that does not hold the lock. -/
theorem released_mutex {s1 : State} {f : Ctx → Ctx} (hm : s.MutexInv) (hr : release c s = .ok s1)
    (h : ∀ x, (f x).phase.holdsLock = false) : (s1.modCtx c f).MutexInv := by
  obtain ⟨hl, rfl⟩ := release_ok hr
  exact hm.modReleased hl h

theorem beginMsgs_mutex (hm : s.MutexInv) (hl : s.lock ≠ .held c) (r : Result) (j : Nat) (ms : List Msg) :
    (beginMsgs c r j ms s).MutexInv := by
  induction ms generalizing j s with
  | nil => exact hm.modUnlocked (f := Ctx.finish r) hl fun x => rfl
  | cons m ms ih =>
    have he := hm.modKept (c := c) (f := Ctx.enter j) fun x => rfl
    cases m with
    | ten rd a len p => exact he.abort _ _
    | write a src =>
      exact hm.modUnlocked (f := fun x => ({ x.enter j with first := true }).chooseWrite s.cfg src) hl fun x => rfl
    | read a len =>
      unfold beginMsgs
      split
      · exact hm.modUnlocked (f := fun x => (x.enter j).chooseRead s.cfg len) hl fun x => rfl
      · exact ih he hl _

/-- Every move keeps the lock and the phases in agreement. -/
theorem move_mutex (hm : s.MutexInv) (he : move c s = .ok s') : s'.MutexInv := by
  unfold move at he
  cases hx : s.ctxs[c]? with
  | none => simp only [hx] at he; cases he; exact hm
  | some x =>
    simp only [hx] at he
    cases hp : x.phase with
    | admitting =>
      have hl := hm.notHeld hx (by rw [hp]; rfl)
      simp only [hp] at he
      cases he
      unfold moveAdmit
      split
      · unfold i2cAdmit
        split
        · exact hm.abort _ _
        · exact beginMsgs_mutex hm hl _ _ _
      · unfold gpioAdmit
        split
        · split
          · exact hm.modUnlocked hl fun x => rfl
          · split
            · exact hm.modUnlocked hl fun x => rfl
            · exact hm.abort _ _
        · exact hm.modUnlocked hl fun x => rfl
      · exact hm.modUnlocked hl fun x => rfl
      · exact hm
    | waitLock => simp only [hp] at he; exact hm.acquire hx he
    | build =>
      have hl := hm.held hx (by rw [hp]; rfl)
      simp only [hp] at he
      unfold moveBuild at he
      split at he
      · unfold i2cBuild at he
        split at he
        · cases he; exact hm.modLocked hl fun x => rfl
        · cases he
      · exact gpioBuild_mutex hm hl he
      · unfold initBuild at he
        split at he
        · cases he; exact hm.modLocked hl fun x => rfl
        · exact gpioBuild_mutex hm hl he
      · cases he; exact hm
    | xchg =>
      simp only [hp] at he
      unfold moveXchg at he
      split at he
      · unfold i2cXchg at he
        split at he
        · exact State.MutexInv.orAbort (hm.exchange _ _ _) he
        · exact State.MutexInv.orAbort (hm.exchange _ _ _) he
        · cases he
      · exact gpioXchg_mutex hm he
      · unfold initXchg at he
        split at he
        · exact State.MutexInv.orAbort (hm.exchange _ _ _) he
        · exact gpioXchg_mutex hm he
      · cases he; exact hm
    | check =>
      have hl := hm.held hx (by rw [hp]; rfl)
      simp only [hp] at he
      unfold moveCheck at he
      split at he
      · unfold i2cCheck at he
        split at he
        · split at he
          · cases he; exact hm.abort _ _
          · split at he
            · cases he
            · rename_i hr
              cases he
              exact released_mutex hm hr fun x => rfl
        · split at he
          · cases he; exact hm.abort _ _
          · cases he; exact hm.modLocked hl fun x => rfl
        · cases he
      · exact gpioCheck_mutex hm hl he
      · unfold initCheck at he
        split at he
        · split at he
          · cases he
          · rename_i hr
            cases he
            exact released_mutex hm hr fun x => rfl
        · exact gpioCheck_mutex hm hl he
      · cases he; exact hm
    | commit =>
      simp only [hp] at he
      unfold moveCommit at he
      split at he
      · unfold i2cCommit at he
        split at he
        · split at he
          · cases he
          · rename_i hr
            cases he
            exact released_mutex hm hr fun x => rfl
        · cases he
      · unfold gpioCommit at he
        split at he
        · cases he
        · rename_i s1 h1
          obtain ⟨r, -, rfl⟩ := roundTripCommit_ok h1
          split at he
          · cases he
          · split at he
            · cases he
            · rename_i hr
              cases he
              exact released_mutex (s := s.setMirror r) (hm.congr rfl rfl) hr fun x => rfl
      · unfold initCommit at he
        split at he
        · cases he
        · rename_i s1 h1
          obtain ⟨r, -, rfl⟩ := roundTripCommit_ok h1
          split at he
          · cases he
          · rename_i hr
            cases he
            exact released_mutex (s := s.setMirror r) (hm.congr rfl rfl) hr fun x => rfl
      · cases he; exact hm
    | next =>
      have hl := hm.notHeld hx (by rw [hp]; rfl)
      simp only [hp] at he
      cases he
      unfold moveNext
      split
      · unfold i2cNext
        split
        · exact hm.modUnlocked hl fun x => rfl
        · exact hm.abort _ _
        · split
          · exact beginMsgs_mutex hm hl _ _ _
          · exact hm.modUnlocked hl fun x => rfl
        · split
          · exact hm.modUnlocked hl fun x => rfl
          · exact beginMsgs_mutex hm hl _ _ _
      · exact hm.modUnlocked hl fun x => rfl
      · unfold initNext
        split
        · exact hm.modUnlocked hl fun x => rfl
        · split
          · exact hm.modUnlocked hl fun x => rfl
          · exact registerBus_mutex hm hl
      · exact hm
    | done r => simp only [hp] at he; cases he; exact hm
    | failed e => simp only [hp] at he; cases he; exact hm

/-- A move of context `c` leaves every other context as it is. -/
theorem move_others {d : Nat} (hd : d ≠ c) (he : move c s = .ok s') : s'.ctxs[d]? = s.ctxs[d]? := by
  have hP : MoveClosed c (fun t => t.ctxs[d]? = s.ctxs[d]?) := by
    constructor
    case modCtx => exact fun t f h => by rw [State.modCtx_ctxs, getElem?_modify_ne _ hd]; exact h
    all_goals (intros; assumption)
  exact hP.move rfl he

/-- A move makes no context and drops none. -/
theorem move_length (he : move c s = .ok s') : s'.ctxs.length = s.ctxs.length := by
  have hP : MoveClosed c (fun t => t.ctxs.length = s.ctxs.length) := by
    constructor
    case modCtx => exact fun t f h => by simpa using h
    all_goals (intros; assumption)
  exact hP.move rfl he

/-- What a context does before its Acquire keeps the lock and the phases in agreement, and leaves the lock. -/
theorem approach_mutex (hm : s.MutexInv) : (approach c s).MutexInv := by
  rcases approach_move c s with h | h
  · rw [h]; exact hm
  · exact move_mutex hm h

end Moves

end Sys2Proof.Machine
end

