-- ==== Sys2Proof/Laws/Run.lean ====
section
/-! SUPPORT. How the newest context runs: one exchange as its rule has it, rows of moves, and the moves every engine shares. -/

namespace Sys2Proof.Machine

/-- One more context, the newest. -/
def State.push (s : State) (x : Ctx) : State := { s with ctxs := s.ctxs ++ [x] }

/-- The newest context holds the lock. -/
def State.pushLocked (s : State) (x : Ctx) : State :=
  { s with lock := .held s.ctxs.length, ctxs := s.ctxs ++ [x] }

theorem modify_append_self (l : List Ctx) (x : Ctx) (f : Ctx → Ctx) :
    (l ++ [x]).modify l.length f = l ++ [f x] := by
  induction l with
  | nil => rfl
  | cons y l ih => simpa using ih

@[simp] theorem State.push_get (s : State) (x : Ctx) : (s.push x).ctxs[s.ctxs.length]? = some x := by
  simp [State.push]
@[simp] theorem State.pushLocked_get (s : State) (x : Ctx) : (s.pushLocked x).ctxs[s.ctxs.length]? = some x := by
  simp [State.pushLocked]
@[simp] theorem State.push_modCtx (s : State) (x : Ctx) (f : Ctx → Ctx) :
    (s.push x).modCtx s.ctxs.length f = s.push (f x) := by
  simp only [State.modCtx, State.push, modify_append_self]
@[simp] theorem State.pushLocked_modCtx (s : State) (x : Ctx) (f : Ctx → Ctx) :
    (s.pushLocked x).modCtx s.ctxs.length f = s.pushLocked (f x) := by
  simp only [State.modCtx, State.pushLocked, modify_append_self]

/-- What an exchange by the newest context does is what the rule says. -/
theorem exchange_pushLocked (s : State) (x : Ctx) (o : Bytes) (m : Nat) (h1 : 1 ≤ o.length)
    (h2 : o.length ≤ Config.scratchLen) (h3 : m ≤ Config.scratchLen) :
    exchange s.ctxs.length o m (s.pushLocked x) =
      match s.bulk s.ctxs.length o m with
      | (s1, .ok _) => .ok (s1.pushLocked { x with phase := .check })
      | (s1, .error e) => .fail e (s1.pushLocked { x with phase := .xchg }) := by
  have hl : (s.pushLocked x).lock = .held s.ctxs.length := rfl
  have hb : ¬ (o.length = 0 ∨ Config.scratchLen < o.length ∨ Config.scratchLen < m) := by omega
  unfold exchange State.bulk
  rw [if_neg (by simp [hl]), if_neg hb]
  have hs : (s.pushLocked x).sends = s.sends := rfl
  have hr : (s.pushLocked x).recvs = s.recvs := rfl
  simp only [State.setPhase, State.pushLocked_modCtx, hs, hr]
  cases (sendDraw o.length s.sends).1 with
  | err => simp [State.sent, State.record, State.pushLocked, State.sendFailed, sendDraw_rest]
  | timeout => simp [State.sent, State.record, State.pushLocked, State.sendFailed, sendDraw_rest]
  | ok k =>
    by_cases hm : m = 0
    · simp [hm, State.modCtx, State.sent, State.record, State.pushLocked, State.sentOnly, sendDraw_rest, modify_append_self]
    · simp only [hm, if_false]
      cases (recvDraw m s.recvs).1 with
      | err => simp [State.sent, State.drewRecv, State.record, State.pushLocked, State.recvFailed, sendDraw_rest, recvDraw_rest]
      | timeout => simp [State.sent, State.drewRecv, State.record, State.pushLocked, State.recvFailed, sendDraw_rest, recvDraw_rest]
      | ok r => simp [State.modCtx, State.sent, State.drewRecv, State.received, State.record, State.pushLocked, State.exchanged, sendDraw_rest, recvDraw_rest, modify_append_self]

/-- After a good exchange with a receive, the reply stands in INBUF. -/
theorem bulk_reply {s s1 : State} {c : Nat} {o r : Bytes} {m : Nat} (hm : m ≠ 0)
    (h : s.bulk c o m = (s1, .ok r)) : s1.reply = some r := by
  unfold State.bulk at h
  split at h
  · rw [if_neg hm] at h
    split at h
    · cases h; simp [State.reply, State.exchanged]
    · cases h
  · cases h

/-- Fields of one exchange that it leaves alone. -/
structure BulkFrame (s s1 : State) : Prop where
  cfg : s1.cfg = s.cfg
  sstate : s1.sstate = s.sstate
  regHandle : s1.regHandle = s.regHandle
  lock : s1.lock = s.lock
  gpo : s1.gpo = s.gpo
  gpi : s1.gpi = s.gpi
  gpiValid : s1.gpiValid = s.gpiValid
  ctxs : s1.ctxs = s.ctxs
  hostLog : s1.hostLog = s.hostLog
  cur : s1.cur = s.cur
  port : s1.port = s.port
  dstPort : s1.dstPort = s.dstPort
  regs : s1.regs = s.regs
  quanta : s1.quanta = s.quanta

/-- An exchange changes the buffers, the record and the bridge's answers, and nothing else. -/
theorem bulk_frame (s : State) (c : Nat) (o : Bytes) (m : Nat) : BulkFrame s (s.bulk c o m).1 := by
  unfold State.bulk
  split
  · split
    · constructor <;> rfl
    · split <;> constructor <;> rfl
  · constructor <;> rfl

/-- An exchange does not look at the DST buffers waiting. -/
theorem bulk_dstPort (s : State) (c : Nat) (o : Bytes) (m : Nat) (d : List Memory) :
    ({ s with dstPort := d } : State).bulk c o m = ({ (s.bulk c o m).1 with dstPort := d }, (s.bulk c o m).2) := by
  unfold State.bulk
  simp only
  split
  · split
    · rfl
    · split <;> rfl
  · rfl

/-! ## Runs of one context -/

/-- `k` moves of context `c` lead from `s` to `s'`. -/
def Runs (c k : Nat) (s s' : State) : Prop := ∀ fuel, drive (fuel + k) c s = drive fuel c s'

theorem Runs.refl (c : Nat) (s : State) : Runs c 0 s s := fun _ => rfl

theorem Runs.trans {c j k : Nat} {s s1 s2 : State} (h1 : Runs c j s s1) (h2 : Runs c k s1 s2) :
    Runs c (j + k) s s2 := fun fuel => by
  rw [show fuel + (j + k) = (fuel + k) + j by omega, h1, h2]

theorem Runs.step {c : Nat} {s s' : State} (hs : settled c s = false) (hm : move c s = .ok s') : Runs c 1 s s' :=
  fun fuel => by rw [drive, hs, hm]; rfl

theorem drive_settled {c : Nat} {s : State} (hs : settled c s = true) (fuel : Nat) : drive fuel c s = .ok s := by
  cases fuel with
  | zero => rfl
  | succ fuel => rw [drive, hs]; rfl

theorem Runs.drive {c k n : Nat} {s s' : State} (h : Runs c k s s') (hs : settled c s' = true) (hk : k ≤ n) :
    drive n c s = .ok s' := by
  obtain ⟨fuel, rfl⟩ := Nat.exists_eq_add_of_le hk
  rw [Nat.add_comm, h, drive_settled hs]

/-! ## The moves of the newest context -/

theorem settled_push {s : State} {x : Ctx} (h : x.phase.isFinal = false) (hl : s.lock = .free) :
    settled s.ctxs.length (s.push x) = false := by
  simp only [settled, State.push_get, h, Bool.false_or]
  simp [State.push, hl]

theorem settled_push_final {s : State} {x : Ctx} (h : x.phase.isFinal = true) :
    settled s.ctxs.length (s.push x) = true := by
  simp [settled, h]

theorem settled_pushLocked {s : State} {x : Ctx} (h : x.phase.isFinal = false) :
    settled s.ctxs.length (s.pushLocked x) = false := by
  simp only [settled, State.pushLocked_get, h, Bool.false_or]
  simp [State.pushLocked]

/-- Acquiring the free lock. -/
theorem runs_acquire {s : State} {x : Ctx} (hl : s.lock = .free) (hp : x.phase = .waitLock) :
    Runs s.ctxs.length 1 (s.push x) (s.pushLocked { x with phase := .build }) := by
  refine Runs.step (settled_push (by rw [hp]; rfl) hl) ?_
  have h : (s.push x).lock = .free := hl
  simp only [move, State.push_get, hp, acquire, h, State.setPhase]
  have := State.pushLocked_modCtx s x fun x => { x with phase := .build }
  exact congrArg _ this

/-- An abort of the newest context while it holds the lock: a write not in its last chunk leaves `OPEN_TXN = 1`. -/
theorem abort_pushLocked_txn {s : State} {x : Ctx} (e : Err) (hl : s.lock = .free) (ho : x.op ≠ .init) :
    abort s.ctxs.length e (s.pushLocked x) =
      ({ s with openTxn := s.openTxn || x.midWrite } : State).push (x.fail e) := by
  have hr : (s.pushLocked x).runsInit s.ctxs.length = false := by simp [State.runsInit, ho]
  have hm : (s.pushLocked x).midWrite s.ctxs.length = x.midWrite := by simp only [State.midWrite, State.pushLocked_get]
  unfold abort
  rw [hr, hm]
  simp [State.pushLocked, State.push, modify_append_self, hl]

/-- An abort of the newest context, while it holds the lock, anywhere else. -/
theorem abort_pushLocked {s : State} {x : Ctx} (e : Err) (hl : s.lock = .free) (ho : x.op ≠ .init)
    (hm : x.midWrite = false) : abort s.ctxs.length e (s.pushLocked x) = s.push (x.fail e) := by
  rw [abort_pushLocked_txn e hl ho, hm]
  simp

/-- Only an operation of the I2C engine stands in a write. -/
theorem midWrite_of_msgs {x : Ctx} (h : msgsOf x.op = []) : x.midWrite = false := by simp [Ctx.midWrite, Ctx.msg, h]

/-- An abort of the newest context while the lock is free. -/
theorem abort_push {s : State} {x : Ctx} (e : Err) (hl : s.lock = .free) (ho : x.op ≠ .init) :
    abort s.ctxs.length e (s.push x) = s.push (x.fail e) := by
  have hr : (s.push x).runsInit s.ctxs.length = false := by simp [State.runsInit, ho]
  unfold abort
  rw [hr]
  simp [State.push, modify_append_self, hl]

/-- The newest context gives the lock back. -/
theorem release_pushLocked {s : State} {x : Ctx} (hl : s.lock = .free) :
    release s.ctxs.length (s.pushLocked x) = .ok (s.push x) := by
  simp [release, State.pushLocked, State.push, hl]

/-- A request is admitted as the newest context. -/
theorem admit_push (s : State) (op : Instr) :
    s.admitOp op = ({ s with dstPort := [] } : State).push (newCtx op (dstFor op s.dstPort)) := rfl

end Sys2Proof.Machine
end

