-- ==== Sys2Proof/Laws/Contexts.lean ====
section
/-! SUPPORT. A property of every engine context is kept by every move as soon as it is kept by each way in which a move
changes one context: those ways, with what is known when they happen, are listed once here. -/

namespace Sys2Proof.Machine

/-- Every context has the property. -/
def AllCtx (Q : Ctx → Prop) (s : State) : Prop := ∀ (c : Nat) (x : Ctx), s.ctxs[c]? = some x → Q x

/-- An operation that checks a pin is one of the GPIO engine. -/
theorem checkedPin_gpio {op : Instr} {pin : Byte} (h : checkedPin op = some pin) : engineOf op = .gpio := by
  cases op <;> first | rfl | (simp [checkedPin] at h)

/-- A context that stands at a message runs an operation of the I2C engine, and its index is in range. -/
theorem Ctx.msg_some {x : Ctx} {msg : Msg} (h : x.msg = some msg) :
    engineOf x.op = .i2c ∧ x.idx < (msgsOf x.op).length := by
  refine ⟨?_, (List.getElem?_eq_some_iff.mp h).1⟩
  unfold Ctx.msg at h
  cases ho : x.op <;> first | rfl | (simp [ho, msgsOf] at h)

/-- The phases in which the next chunk, or the next message, is chosen (10_state.md R38). -/
def Phase.chooses (p : Phase) : Prop := p = .admitting ∨ p = .next

/-- The changes of the phase alone: none enters or leaves a final phase, none goes back to `Admit`, and what leaves
`Admit` or `Next` is as the engine of the operation has it. -/
structure PhaseStep (x : Ctx) (p : Phase) : Prop where
  source : x.phase.isFinal = false
  target : p.isFinal = false
  fresh : p ≠ .admitting
  admitting : x.phase = .admitting → engineOf x.op ≠ .i2c ∧ ∀ pin, checkedPin x.op = some pin → pinOk pin = true
  next : x.phase = .next → engineOf x.op ≠ .i2c

/-- A property of a context kept by every change that an operation makes to one. -/
structure CtxKept (cfg : Config) (Q : Ctx → Prop) : Prop where
  fail : ∀ x e, Q x → x.phase.isFinal = false → (engineOf x.op ≠ .none → errAllowed x.op e = true) → Q (Ctx.fail e x)
  finish : ∀ x r, Q x → x.phase.isFinal = false → resultAllowed x.op r = true → Q (Ctx.finish r x)
  phase : ∀ x p, Q x → PhaseStep x p → Q { x with phase := p }
  enter : ∀ x j, Q x → x.phase.chooses → j < (msgsOf x.op).length → Q (x.enter j)
  firstChunk : ∀ x a src, Q x → x.phase.chooses → x.msg = some (.write a src) → x.off = 0 →
    Q (({ x with first := true } : Ctx).chooseWrite cfg src)
  writeChunk : ∀ x a src, Q x → x.phase = .next → x.msg = some (.write a src) → Q (x.chooseWrite cfg src)
  readChunk : ∀ x a len, Q x → x.phase.chooses → x.msg = some (.read a len) → x.off < len → Q (x.chooseRead cfg len)
  pkt : ∀ x p, Q x → x.phase = .build → x.packet cfg = some p → Q { x with pkt := p, phase := .xchg }
  emit : ∀ x p q, Q x → x.phase = .build → x.packet cfg = some q → p <+: q → Q { x with pkt := p }
  writeDone : ∀ x a src n, Q x → x.phase = .check → x.msg = some (.write a src) → x.n = some n →
    Q { x with off := x.off + n, first := false, phase := .next }
  readDone : ∀ x a len n r, Q x → x.phase = .commit → x.msg = some (.read a len) → x.n = some n →
    Q { x with
      dst := x.dst.set x.idx (memWrite (x.dst.getD x.idx []) x.off ((r : Bytes).drop 1 |>.take n))
      off := x.off + n
      phase := .next }
  initIdx : ∀ x k, Q x → x.phase.isFinal = false → engineOf x.op = .initSeq → k ≤ 2 →
    Q { x with idx := k, phase := .next }

namespace AllCtx

variable {Q : Ctx → Prop} {s : State}

theorem congr {s' : State} (h : AllCtx Q s) (hc : s'.ctxs = s.ctxs) : AllCtx Q s' := fun c x hx => h c x (hc ▸ hx)

theorem modCtx (h : AllCtx Q s) {c : Nat} {f : Ctx → Ctx} (hf : ∀ x, s.ctxs[c]? = some x → Q x → Q (f x)) :
    AllCtx Q (s.modCtx c f) := by
  intro d y hy
  by_cases hd : d = c
  · subst hd
    obtain ⟨x, hx, rfl⟩ := getElem?_modify_self hy
    exact hf x hx (h d x hx)
  · rw [State.modCtx_ctxs, getElem?_modify_ne _ hd] at hy
    exact h d y hy

theorem push (h : AllCtx Q s) {x : Ctx} (hx : Q x) {s' : State} (hs : s'.ctxs = s.ctxs ++ [x]) : AllCtx Q s' := by
  intro d y hy
  rw [hs] at hy
  rcases lt_or_ge d s.ctxs.length with hd | hd
  · rw [List.getElem?_append_left hd] at hy
    exact h d y hy
  · rw [List.getElem?_append_right hd, List.getElem?_singleton] at hy
    split at hy <;> cases hy
    exact hx

end AllCtx

/-- A phase in which a context holds the lock leads to any other such phase, and to `Next`. -/
theorem PhaseStep.locked {x : Ctx} {p : Phase} (hp : x.phase.holdsLock = true) (ht : p.isFinal = false) (ha : p ≠ .admitting) :
    PhaseStep x p := by
  refine ⟨?_, ht, ha, fun h => ?_, fun h => ?_⟩
  · cases hh : x.phase <;> simp_all [Phase.holdsLock, Phase.isFinal]
  · simp [h, Phase.holdsLock] at hp
  · simp [h, Phase.holdsLock] at hp

namespace CtxKept

variable {cfg : Config} {Q : Ctx → Prop} {c : Nat} {x : Ctx} {s s' : State} (hQ : CtxKept cfg Q)
include hQ

/-- An abort of a context that is not final, with an error its operation may have. -/
theorem abort {e : Err} (h : AllCtx Q s) (hx : s.ctxs[c]? = some x) (hp : x.phase.isFinal = false)
    (he : engineOf x.op ≠ .none → errAllowed x.op e = true) : AllCtx Q (abort c e s) := by
  refine (h.modCtx (c := c) (f := Ctx.fail e) fun y hy hq => ?_).congr rfl
  cases hx.symm.trans hy
  exact hQ.fail _ _ hq hp he

theorem complete {r : Result} (h : AllCtx Q s) (hx : s.ctxs[c]? = some x) (hp : x.phase.isFinal = false)
    (hr : resultAllowed x.op r = true) : AllCtx Q (complete c r s) := by
  refine h.modCtx fun y hy hq => ?_
  cases hx.symm.trans hy
  exact hQ.finish _ _ hq hp hr

theorem setPhase {p : Phase} (h : AllCtx Q s) (hx : s.ctxs[c]? = some x) (hp : PhaseStep x p) :
    AllCtx Q (s.setPhase c p) := by
  refine h.modCtx fun y hy hq => ?_
  cases hx.symm.trans hy
  exact hQ.phase _ _ hq hp

/-- What an attempt of context `c` must answer, so that its abort or its going on keeps the property. -/
structure Keeps (Q : Ctx → Prop) (c : Nat) (x : Ctx) (a : Attempt) : Prop where
  ok : ∀ s', a = .ok s' → AllCtx Q s'
  fail : ∀ e s', a = .fail e s' → AllCtx Q s' ∧
    ∃ y, s'.ctxs[c]? = some y ∧ y.op = x.op ∧ y.phase.isFinal = false ∧ (engineOf x.op ≠ .none → errAllowed x.op e = true)

theorem orAbort {a : Attempt} (ha : Keeps Q c x a) (he : a.orAbort c = .ok s') : AllCtx Q s' := by
  rcases orAbort_ok he with h | ⟨e, s1, h, rfl⟩
  · exact ha.ok _ h
  · obtain ⟨h1, y, hy, ho, hp, hr⟩ := ha.fail _ _ h
    exact hQ.abort h1 hy hp (by rw [ho]; exact hr)

theorem exchange (h : AllCtx Q s) (hx : s.ctxs[c]? = some x) (hp : x.phase.holdsLock = true) (o : Bytes) (m : Nat) :
    Keeps Q c x (exchange c o m s) := by
  have h1 := hQ.setPhase h hx (PhaseStep.locked hp (p := .xchg) rfl (by simp))
  have hx1 : (s.setPhase c .xchg).ctxs[c]? = some { x with phase := .xchg } := by
    simp [State.setPhase, State.modCtx, hx]
  have hf : ∀ st, engineOf x.op ≠ .none → errAllowed x.op (.ioError st) = true := fun st he => by
    simpa [errAllowed] using he
  have h2 : ∀ {t : State}, t.ctxs = (s.setPhase c .xchg).ctxs → AllCtx Q (t.setPhase c .check) := fun ht =>
    hQ.setPhase (h1.congr ht) (by rw [ht]; exact hx1) (PhaseStep.locked rfl rfl (by simp))
  rcases exchange_cases c o m s with ⟨he, -⟩ | he | ⟨-, ⟨a, he⟩ | ⟨k, he, -⟩ | ⟨k, a, he⟩ | ⟨k, r, -, he⟩⟩
  · exact ⟨fun s hs => by simp [he] at hs, fun e s hs => by simp [he] at hs⟩
  · exact ⟨fun s hs => by simp [he] at hs, fun e s hs => by simp [he] at hs⟩
  · refine ⟨fun s hs => by simp [he] at hs, fun e s hs => ?_⟩
    rw [he] at hs
    cases hs
    exact ⟨h1.congr rfl, _, hx1, rfl, rfl, hf _⟩
  · refine ⟨fun s hs => ?_, fun e s hs => by simp [he] at hs⟩
    rw [he] at hs
    cases hs
    exact h2 rfl
  · refine ⟨fun s hs => by simp [he] at hs, fun e s hs => ?_⟩
    rw [he] at hs
    cases hs
    exact ⟨h1.congr rfl, _, hx1, rfl, rfl, hf _⟩
  · refine ⟨fun s hs => ?_, fun e s hs => by simp [he] at hs⟩
    rw [he] at hs
    cases hs
    exact h2 rfl

theorem roundTripXchg (h : AllCtx Q s) (hx : s.ctxs[c]? = some x) (hp : x.phase.holdsLock = true) :
    Keeps Q c x (roundTripXchg c s) := by
  unfold Machine.roundTripXchg
  cases s.gpo.bytesAt 0 Config.gpioFrameLen with
  | none => exact ⟨fun s hs => by simp at hs, fun e s hs => by simp at hs⟩
  | some frame =>
    have hk := hQ.exchange h hx hp frame Config.gpioReplyLen
    cases he : Machine.exchange c frame Config.gpioReplyLen s with
    | fault f => exact ⟨fun s hs => by simp [he] at hs, fun e s hs => by simp [he] at hs⟩
    | ok s1 =>
      refine ⟨fun s hs => ?_, fun e s hs => by simp [he] at hs⟩
      exact hk.ok _ (by simpa [he] using hs)
    | fail e s1 =>
      refine ⟨fun s hs => by simp [he] at hs, fun e' s hs => ?_⟩
      simp only [he, Attempt.fail.injEq] at hs
      obtain ⟨rfl, rfl⟩ := hs
      obtain ⟨h1, y, hy, hr⟩ := hk.fail _ _ he
      exact ⟨h1.congr rfl, y, hy, hr⟩

theorem roundTripCheck (h : AllCtx Q s) (hx : s.ctxs[c]? = some x) (hp : x.phase.holdsLock = true) (off : Nat) :
    Keeps Q c x (roundTripCheck c off s) := by
  unfold Machine.roundTripCheck
  have hfin := (PhaseStep.locked hp (p := .next) rfl (by simp)).source
  cases s.reply with
  | none => exact ⟨fun s hs => by simp at hs, fun e s hs => by simp at hs⟩
  | some r =>
    by_cases hl : r.length = Config.gpioReplyLen
    · refine ⟨fun s hs => ?_, fun e s hs => by simp [hl] at hs⟩
      simp only [hl, ne_eq, not_true_eq_false, if_false, Attempt.ok.injEq] at hs
      subst hs
      exact hQ.setPhase h hx (PhaseStep.locked hp rfl (by simp))
    · refine ⟨fun s hs => by simp [hl] at hs, fun e s hs => ?_⟩
      simp only [ne_eq, hl, not_false_eq_true, if_true, Attempt.fail.injEq] at hs
      obtain ⟨rfl, rfl⟩ := hs
      exact ⟨h.congr rfl, x, hx, rfl, hfin, fun he => by simpa [errAllowed] using he⟩

omit hQ in
/-- After a good exchange the context stands in `Check`. -/
theorem exchange_phase {o : Bytes} {m : Nat} {s s' : State} (hx : s.ctxs[c]? = some x)
    (he : Machine.exchange c o m s = .ok s') : s'.ctxs[c]? = some { x with phase := .check } := by
  rcases exchange_cases c o m s with ⟨h, -⟩ | h | ⟨-, ⟨a, h⟩ | ⟨k, h, -⟩ | ⟨k, a, h⟩ | ⟨k, r, -, h⟩⟩ <;> rw [h] at he <;>
    cases he <;> simp [State.setPhase, State.modCtx, hx]

/-- The whole round-trip of a context that holds the lock. -/
theorem roundTrip (h : AllCtx Q s) (hx : s.ctxs[c]? = some x) (hp : x.phase.holdsLock = true) (off : Nat) :
    Keeps Q c x (roundTrip c off s) := by
  have hk := hQ.roundTripXchg h hx hp
  unfold Machine.roundTrip
  cases he : Machine.roundTripXchg c s with
  | fault f => exact ⟨fun s hs => by simp [Attempt.andThen] at hs, fun e s hs => by simp [Attempt.andThen] at hs⟩
  | fail e s1 =>
    refine ⟨fun s hs => by simp [Attempt.andThen] at hs, fun e' s hs => ?_⟩
    simp only [Attempt.andThen, Attempt.fail.injEq] at hs
    obtain ⟨rfl, rfl⟩ := hs
    exact hk.fail _ _ he
  | ok s1 =>
    have h1 := hk.ok _ he
    have hx1 : s1.ctxs[c]? = some { x with phase := .check } := by
      unfold Machine.roundTripXchg at he
      split at he
      · cases he
      · split at he
        · cases he
        · exact exchange_phase hx he
    have hk2 := hQ.roundTripCheck (x := { x with phase := .check }) h1 hx1 rfl off
    simp only [Attempt.andThen]
    cases hc : Machine.roundTripCheck c off s1 with
    | fault f => exact ⟨fun s hs => by simp at hs, fun e s hs => by simp at hs⟩
    | fail e s2 =>
      refine ⟨fun s hs => by simp at hs, fun e' s hs => ?_⟩
      simp only [Attempt.fail.injEq] at hs
      obtain ⟨rfl, rfl⟩ := hs
      exact hk2.fail _ _ hc
    | ok s2 =>
      refine ⟨fun s hs => ?_, fun e' s hs => by simp only at hs; split at hs <;> simp at hs⟩
      simp only at hs
      split at hs
      · cases hs
      · rename_i s3 h3
        cases hs
        obtain ⟨r, -, rfl⟩ := roundTripCommit_ok h3
        exact (hk2.ok _ hc).congr rfl

end CtxKept

/-- The message at index `j` is the one the context stands at when it enters it. -/
theorem Ctx.enter_msg {x : Ctx} {j : Nat} {m : Msg} {ms : List Msg} (h : (msgsOf x.op).drop j = m :: ms) :
    (x.enter j).msg = some m ∧ j < (msgsOf x.op).length ∧ (msgsOf x.op).drop (j + 1) = ms := by
  have hj : j < (msgsOf x.op).length := by
    rcases Nat.lt_or_ge j (msgsOf x.op).length with h1 | h1
    · exact h1
    · simp [List.drop_eq_nil_of_le h1] at h
  rw [List.drop_eq_getElem_cons hj] at h
  refine ⟨?_, hj, (List.cons.inj h).2⟩
  show (msgsOf x.op)[j]? = some m
  rw [List.getElem?_eq_getElem hj, (List.cons.inj h).1]

/-- In its first step INIT builds the speed command. -/
theorem Ctx.packet_init {cfg : Config} {x : Ctx} (ho : x.op = .init) (hi : x.idx = 0) :
    x.packet cfg = some (speedPkt cfg) := by
  have hm : x.msg = none := by simp [Ctx.msg, ho, msgsOf]
  simp [Ctx.packet, hm, ho, hi]

/-- The choice of the next message leads to the wait for the lock, or to the end. -/
theorem beginMsgs_phase {c j : Nat} {r : Result} {ms : List Msg} {s : State} {y : Ctx}
    (hy : (beginMsgs c r j ms s).ctxs[c]? = some y) : y.phase = .waitLock ∨ y.phase.isFinal = true := by
  induction ms generalizing j s with
  | nil =>
    obtain ⟨x, -, rfl⟩ := getElem?_modify_self hy
    exact .inr rfl
  | cons m ms ih =>
    cases m with
    | ten rd a len p =>
      obtain ⟨x, -, rfl⟩ := getElem?_modify_self hy
      exact .inr rfl
    | write a src =>
      obtain ⟨x, -, rfl⟩ := getElem?_modify_self hy
      exact .inl rfl
    | read a len =>
      unfold beginMsgs at hy
      split at hy
      · obtain ⟨x, -, rfl⟩ := getElem?_modify_self hy
        exact .inl rfl
      · exact ih hy

/-- Once a context has done what comes before its Acquire, only an operation without an engine still stands in `Admit` or
`Next`. -/
theorem approach_phase {c : Nat} {s : State} {y : Ctx} (hy : (approach c s).ctxs[c]? = some y) (hp : y.phase.chooses) :
    engineOf y.op = .none := by
  have hend : y.phase = .waitLock ∨ y.phase.isFinal = true → engineOf y.op = .none := fun h => by
    rcases hp with hp | hp <;> rw [hp] at h <;> simp [Phase.isFinal] at h
  have hmod : ∀ {t : State} {f : Ctx → Ctx}, (t.modCtx c f).ctxs[c]? = some y →
      (∀ x, (f x).phase = .waitLock ∨ (f x).phase.isFinal = true) → engineOf y.op = .none := fun {t f} h hf => by
    obtain ⟨x, -, rfl⟩ := getElem?_modify_self h
    exact hend (hf x)
  have hset : ∀ {t : State}, (t.setPhase c .waitLock).ctxs[c]? = some y → engineOf y.op = .none := fun h =>
    hmod h fun x => .inl rfl
  have hfin : ∀ {t : State} {r : Result}, (complete c r t).ctxs[c]? = some y → engineOf y.op = .none := fun h =>
    hmod h fun x => .inr rfl
  have habt : ∀ {t : State} {e : Err}, (abort c e t).ctxs[c]? = some y → engineOf y.op = .none := fun {t e} h =>
    hmod (t := t) (f := Ctx.fail e) h fun x => .inr rfl
  have hbeg : ∀ {t : State} {r : Result} {j : Nat} {ms : List Msg}, (beginMsgs c r j ms t).ctxs[c]? = some y →
      engineOf y.op = .none := fun h => hend (beginMsgs_phase h)
  unfold approach at hy
  cases hx : s.ctxs[c]? with
  | none => simp [hx] at hy
  | some x =>
    simp only [hx] at hy
    split at hy
    · unfold moveAdmit at hy
      split at hy
      · unfold i2cAdmit at hy
        split at hy
        · exact habt hy
        · exact hbeg hy
      · unfold gpioAdmit at hy
        split at hy
        · split at hy
          · exact hset hy
          · split at hy
            · exact hfin hy
            · exact habt hy
        · exact hset hy
      · exact hset hy
      · cases hx.symm.trans hy; assumption
    · unfold moveNext at hy
      split at hy
      · unfold i2cNext at hy
        split at hy
        · exact hfin hy
        · exact habt hy
        · split at hy
          · exact hbeg hy
          · exact hmod hy fun x => .inl rfl
        · split at hy
          · exact hmod hy fun x => .inl rfl
          · exact hbeg hy
      · exact hset hy
      · unfold initNext at hy
        split at hy
        · exact hset hy
        · split at hy
          · exact hset hy
          · unfold registerBus at hy
            simp only at hy
            split at hy
            · exact hfin hy
            · exact habt hy
      · cases hx.symm.trans hy; assumption
    · rename_i h1 h2
      cases hx.symm.trans hy
      rcases hp with hp | hp
      · exact absurd hp h1
      · exact absurd hp h2

/-- The result a GPIO operation reads is one it may return. -/
theorem gpioResult_allowed {op : Instr} {s : State} {r : Result} (he : engineOf op = .gpio)
    (h : gpioResultOf op s = .ok r) : resultAllowed op r = true := by
  cases op <;> simp only [engineOf, reduceCtorEq] at he
  all_goals
    simp only [gpioResultOf, resultGpioRead, resultGpioReadAll, resultGpioDirGet] at h
    first
      | (cases h; rfl)
      | (split at h <;> cases h; rfl)

/-- The result of a batch is one it may return. -/
theorem xferResult_allowed {op : Instr} (he : engineOf op = .i2c) : resultAllowed op (xferResult op) = true := by
  cases op <;> simp only [engineOf, reduceCtorEq] at he <;> simp [resultAllowed, xferResult]

namespace CtxKept

variable {Q : Ctx → Prop} {c : Nat} {x : Ctx} {s s' : State}

theorem gpioBuild (hQ : CtxKept s.cfg Q) (h : AllCtx Q s) (hx : s.ctxs[c]? = some x) (hp : x.phase.holdsLock = true)
    (he : gpioBuild c x s = .ok s') : AllCtx Q s' := by
  unfold Machine.gpioBuild at he
  split at he
  · cases he
  · cases he
    rename_i g _
    have h1 : AllCtx Q { s with gpo := g } := h.congr rfl
    exact hQ.setPhase h1 hx (PhaseStep.locked hp rfl (by simp))

theorem registerBus (hQ : CtxKept s.cfg Q) (h : AllCtx Q s) (hx : s.ctxs[c]? = some x) (hp : x.phase = .next)
    (he : engineOf x.op = .initSeq) : AllCtx Q (registerBus c s) := by
  have hop : x.op = .init := by cases hh : x.op <;> simp_all [engineOf]
  have hf : x.phase.isFinal = false := by rw [hp]; rfl
  unfold Machine.registerBus
  simp only
  split
  · rename_i hd _
    have h1 : AllCtx Q { s with
        regHandle := some hd
        sstate := .initialized
        regs := (regDraw s.regs).2
        hostLog := s.hostLog ++ [.register Config.capabilities (regDraw s.regs).1] } := h.congr rfl
    exact hQ.complete h1 hx hf (by simp [hop, resultAllowed])
  · have h1 : AllCtx Q { s with
        regs := (regDraw s.regs).2
        hostLog := s.hostLog ++ [.register Config.capabilities (regDraw s.regs).1] } := h.congr rfl
    exact hQ.abort h1 hx hf fun _ => by simp [errAllowed, he]

/-- The choice of the next message and its first chunk keeps the property. -/
theorem beginMsgs (hQ : CtxKept s.cfg Q) {r : Result} {j : Nat} {ms : List Msg} (h : AllCtx Q s) (hx : s.ctxs[c]? = some x)
    (hp : x.phase.chooses) (he : engineOf x.op = .i2c) (hms : (msgsOf x.op).drop j = ms)
    (hr : resultAllowed x.op r = true) : AllCtx Q (beginMsgs c r j ms s) := by
  have hfin : ∀ {y : Ctx}, y.phase.chooses → y.phase.isFinal = false := fun hy => by
    rcases hy with hy | hy <;> rw [hy] <;> rfl
  induction ms generalizing j s x with
  | nil => exact hQ.complete h hx (hfin hp) hr
  | cons m ms ih =>
    obtain ⟨hm, hj, hrest⟩ := Ctx.enter_msg hms
    have hq := hQ.enter x j (h c x hx) hp hj
    have hx1 : (s.modCtx c (Ctx.enter j)).ctxs[c]? = some (x.enter j) := by simp [State.modCtx, hx]
    have h1 : AllCtx Q (s.modCtx c (Ctx.enter j)) := h.modCtx fun y hy _ => by cases hx.symm.trans hy; exact hq
    cases m with
    | ten rd a len p => exact hQ.abort h1 hx1 (hfin hp) fun _ => by simp [errAllowed, he]
    | write a src =>
      refine h.modCtx fun y hy _ => ?_
      cases hx.symm.trans hy
      exact hQ.firstChunk _ a src hq hp hm rfl
    | read a len =>
      unfold Machine.beginMsgs
      split
      · rename_i hl
        refine h.modCtx fun y hy _ => ?_
        cases hx.symm.trans hy
        exact hQ.readChunk _ a len hq hp hm hl
      · exact ih (s := s.modCtx c (Ctx.enter j)) hQ h1 hx1 hp he hrest hr

/-- One move keeps the property of every context. -/
theorem move (hQ : CtxKept s.cfg Q) (h : AllCtx Q s) (he : move c s = .ok s') : AllCtx Q s' := by
  unfold Machine.move at he
  cases hx : s.ctxs[c]? with
  | none => simp only [hx] at he; cases he; exact h
  | some x =>
    simp only [hx] at he
    have hmod : ∀ {f : Ctx → Ctx}, Q (f x) → AllCtx Q (s.modCtx c f) := fun hq =>
      h.modCtx fun y hy _ => by cases hx.symm.trans hy; exact hq
    have hrel : ∀ {s1 : State} {f : Ctx → Ctx}, release c s = .ok s1 → Q (f x) → AllCtx Q (s1.modCtx c f) := by
      intro s1 f hr hq
      obtain ⟨-, rfl⟩ := release_ok hr
      exact (AllCtx.congr (s' := { s with lock := .free }) h rfl).modCtx fun y hy _ => by
        cases hx.symm.trans hy; exact hq
    have hq := h c x hx
    cases hp : x.phase with
    | admitting =>
      have hf : x.phase.isFinal = false := by rw [hp]; rfl
      simp only [hp] at he
      cases he
      unfold moveAdmit
      split
      · rename_i hen
        unfold Machine.i2cAdmit
        split
        · exact hQ.abort h hx hf fun _ => by simp [errAllowed, hen]
        · exact hQ.beginMsgs h hx (.inl hp) hen (by simp) (xferResult_allowed hen)
      · rename_i hen
        unfold Machine.gpioAdmit
        split
        · rename_i pin hpin
          split
          · rename_i hok
            exact hQ.setPhase h hx ⟨hf, rfl, by simp, fun _ => ⟨by simp [hen], fun q hq => by
              rw [hpin] at hq; cases hq; exact hok⟩, fun hn => by simp [hp] at hn⟩
          · split
            · rename_i hff
              exact hQ.complete h hx hf (by simp [resultAllowed, hff])
            · rename_i hff
              exact hQ.abort h hx hf fun _ => by simp [errAllowed, hpin, hff]
        · rename_i hpin
          exact hQ.setPhase h hx ⟨hf, rfl, by simp, fun _ => ⟨by simp [hen], fun q hq => by
            rw [hpin] at hq; cases hq⟩, fun hn => by simp [hp] at hn⟩
      · rename_i hen
        have hop : x.op = .init := by cases hh : x.op <;> simp_all [engineOf]
        exact hQ.setPhase h hx ⟨hf, rfl, by simp, fun _ => ⟨by simp [hen], fun q hq => by
          simp [hop, checkedPin] at hq⟩, fun hn => by simp [hp] at hn⟩
      · exact h
    | waitLock =>
      have hst : ∀ p : Phase, p.isFinal = false → p ≠ .admitting → PhaseStep x p := fun p h1 h2 =>
        ⟨by rw [hp]; rfl, h1, h2, fun hn => by simp [hp] at hn, fun hn => by simp [hp] at hn⟩
      simp only [hp] at he
      rcases acquire_ok he with ⟨-, rfl⟩ | ⟨d, -, -, rfl⟩
      · exact hQ.setPhase (AllCtx.congr (s' := { s with lock := .held c }) h rfl) hx (hst _ rfl (by simp))
      · exact hQ.setPhase h hx (hst _ rfl (by simp))
    | build =>
      have hh : x.phase.holdsLock = true := by rw [hp]; rfl
      simp only [hp] at he
      unfold moveBuild at he
      split at he
      · unfold Machine.i2cBuild at he
        split at he
        · cases he; exact hmod (hQ.pkt _ _ hq hp ‹_›)
        · cases he
      · exact hQ.gpioBuild h hx hh he
      · rename_i hen
        unfold Machine.initBuild at he
        split at he
        · rename_i hi
          have hop : x.op = .init := by cases hh : x.op <;> simp_all [engineOf]
          cases he
          exact hmod (hQ.pkt _ _ hq hp (Ctx.packet_init hop hi))
        · exact hQ.gpioBuild h hx hh he
      · cases he; exact h
    | xchg =>
      have hh : x.phase.holdsLock = true := by rw [hp]; rfl
      simp only [hp] at he
      unfold moveXchg at he
      split at he
      · unfold Machine.i2cXchg at he
        split at he
        · exact hQ.orAbort (hQ.exchange h hx hh _ _) he
        · exact hQ.orAbort (hQ.exchange h hx hh _ _) he
        · cases he
      · exact hQ.orAbort (hQ.roundTripXchg h hx hh) he
      · unfold Machine.initXchg at he
        split at he
        · exact hQ.orAbort (hQ.exchange h hx hh _ _) he
        · exact hQ.orAbort (hQ.roundTripXchg h hx hh) he
      · cases he; exact h
    | check =>
      have hh : x.phase.holdsLock = true := by rw [hp]; rfl
      have hf : x.phase.isFinal = false := by rw [hp]; rfl
      simp only [hp] at he
      unfold moveCheck at he
      split at he
      · rename_i hen
        unfold Machine.i2cCheck at he
        split at he
        · split at he
          · rename_i e hce
            cases he
            refine hQ.abort h hx hf fun _ => ?_
            unfold checkWrite at hce
            split at hce
            · cases hce; simp [errAllowed, hen]
            · simp only [Option.map_eq_some_iff] at hce
              obtain ⟨i, -, rfl⟩ := hce
              simp [errAllowed, hen]
          · split at he
            · cases he
            · rename_i hr
              cases he
              exact hrel hr (hQ.writeDone _ _ _ _ hq hp ‹_› ‹_›)
        · split at he
          · rename_i e hce
            cases he
            refine hQ.abort h hx hf fun _ => ?_
            unfold checkRead at hce
            split at hce
            · cases hce; simp [errAllowed, hen]
            · split at hce
              · split at hce <;> cases hce
                simp [errAllowed, hen]
              · cases hce; simp [errAllowed, hen]
          · cases he; exact hQ.setPhase h hx (PhaseStep.locked hh rfl (by simp))
        · cases he
      · exact hQ.orAbort (hQ.roundTripCheck h hx hh _) he
      · rename_i hen
        unfold Machine.initCheck at he
        split at he
        · split at he
          · cases he
          · rename_i hr
            cases he
            exact hrel hr (hQ.initIdx _ _ hq hf hen (by omega))
        · exact hQ.orAbort (hQ.roundTripCheck h hx hh _) he
      · cases he; exact h
    | commit =>
      have hf : x.phase.isFinal = false := by rw [hp]; rfl
      simp only [hp] at he
      unfold moveCommit at he
      split at he
      · unfold Machine.i2cCommit at he
        split at he
        · split at he
          · cases he
          · rename_i hr
            cases he
            exact hrel hr (hQ.readDone _ _ _ _ _ hq hp ‹_› ‹_›)
        · cases he
      · rename_i hen
        unfold Machine.gpioCommit at he
        split at he
        · cases he
        · rename_i s1 h1
          obtain ⟨r, -, rfl⟩ := roundTripCommit_ok h1
          split at he
          · cases he
          · rename_i res hres
            split at he
            · cases he
            · rename_i hr
              cases he
              obtain ⟨-, rfl⟩ := release_ok hr
              exact hQ.complete (AllCtx.congr (s' := { s.setMirror r with lock := .free }) h rfl) hx hf
                (gpioResult_allowed hen hres)
      · rename_i hen
        unfold Machine.initCommit at he
        split at he
        · cases he
        · rename_i s1 h1
          obtain ⟨r, -, rfl⟩ := roundTripCommit_ok h1
          split at he
          · cases he
          · rename_i hr
            cases he
            obtain ⟨-, rfl⟩ := release_ok hr
            refine (AllCtx.congr (s' := { s.setMirror r with lock := .free }) h rfl).modCtx fun y hy _ => ?_
            cases hx.symm.trans hy
            exact hQ.initIdx _ _ hq hf hen (by omega)
      · cases he; exact h
    | next =>
      have hf : x.phase.isFinal = false := by rw [hp]; rfl
      have hst : engineOf x.op ≠ .i2c → PhaseStep x .waitLock := fun hen =>
        ⟨hf, rfl, by simp, fun hn => by simp [hp] at hn, fun _ => hen⟩
      simp only [hp] at he
      cases he
      unfold moveNext
      split
      · rename_i hen
        unfold Machine.i2cNext
        split
        · exact hQ.complete h hx hf (xferResult_allowed hen)
        · exact hQ.abort h hx hf fun _ => by simp [errAllowed, hen]
        · split
          · exact hQ.beginMsgs h hx (.inr hp) hen rfl (xferResult_allowed hen)
          · exact hmod (hQ.writeChunk _ _ _ hq hp ‹_›)
        · split
          · exact hmod (hQ.readChunk _ _ _ hq (.inr hp) ‹_› ‹_›)
          · exact hQ.beginMsgs h hx (.inr hp) hen rfl (xferResult_allowed hen)
      · rename_i hen
        exact hQ.setPhase h hx (hst (by simp [hen]))
      · rename_i hen
        unfold Machine.initNext
        split
        · exact hQ.setPhase h hx (hst (by simp [hen]))
        · split
          · exact hQ.setPhase h hx (hst (by simp [hen]))
          · exact hQ.registerBus h hx hp hen
      · exact h
    | done r => simp only [hp] at he; cases he; exact h
    | failed e => simp only [hp] at he; cases he; exact h

/-- A run of moves keeps the property of every context. -/
theorem runCtx (hQ : CtxKept s.cfg Q) (h : AllCtx Q s) (he : runCtx c s = .ok s') : AllCtx Q s' := by
  have hcfg : ∀ c, MoveClosed c (fun t => t.cfg = s.cfg) := fun c => by constructor <;> (intros; assumption)
  exact (runCtx_keeps (P := fun t => t.cfg = s.cfg ∧ AllCtx Q t)
    (fun t t' ht hm => ⟨(hcfg c).move ht.1 hm, CtxKept.move (ht.1 ▸ hQ) ht.2 hm⟩)
    (fun t qs ht => ⟨ht.1, ht.2.congr rfl⟩) ⟨rfl, h⟩ he).2

theorem submit {op : Instr} (hQ : CtxKept s.cfg Q) (h : AllCtx Q s) (hn : Q (newCtx op (dstFor op s.dstPort)))
    (he : submit op s = .next s') : AllCtx Q s' :=
  runCtx (s := s.admitOp op) hQ (h.push hn rfl) (toOutcome_next he)

theorem submitAdmitted {op : Instr} (hQ : CtxKept s.cfg Q) (h : AllCtx Q s)
    (hn : Q (newCtx op (dstFor op s.dstPort))) (he : submitAdmitted op s = .next s') : AllCtx Q s' := by
  unfold Machine.submitAdmitted at he
  split at he
  · cases he
  · exact hQ.submit h hn he

theorem emitted {keep : Bytes → Bytes} {i : Instr} (hQ : CtxKept s.cfg Q) (h : AllCtx Q s)
    (he : Machine.emit keep i s = .next s') : AllCtx Q s' := by
  obtain ⟨x, p, hb, hp, -, hpre, rfl⟩ := emit_next he
  obtain ⟨hx, hph, -⟩ := building_some hb
  refine h.modCtx fun y hy hq => ?_
  cases hx.symm.trans hy
  exact hQ.emit _ _ _ hq hph hp hpre

/-- Every instruction keeps the property of every context, if a context just admitted has it. -/
theorem exec {i : Instr} (hQ : CtxKept s.cfg Q) (hm : s.MutexInv) (h : AllCtx Q s)
    (hn : engineOf i ≠ .none → Q (newCtx i (dstFor i s.dstPort)))
    (ht : Q (Ctx.finish .noStatus (newCtx .teardown []))) (he : exec i s = .next s') : AllCtx Q s' := by
  have hheld : s.lock = .held s.cur → ∃ x, s.ctxs[s.cur]? = some x ∧ x.phase.holdsLock = true := fun hl => by
    have hlt := hm.exists_ _ hl
    exact ⟨_, List.getElem?_eq_getElem hlt, (hm.holder _ _ (List.getElem?_eq_getElem hlt)).mpr hl⟩
  cases i with
  | i2cXfer msgs =>
    simp only [Machine.exec, execI2cXfer] at he
    split at he
    · cases he
    · split at he
      · cases he
      · exact hQ.submit h (hn (by simp [engineOf])) he
  | gpioRead p => exact hQ.submitAdmitted h (hn (by simp [engineOf])) he
  | gpioReadAll m => exact hQ.submitAdmitted h (hn (by simp [engineOf])) he
  | gpioWrite p v => exact hQ.submitAdmitted h (hn (by simp [engineOf])) he
  | gpioWriteMultiple m b => exact hQ.submitAdmitted h (hn (by simp [engineOf])) he
  | gpioDirInput p => exact hQ.submitAdmitted h (hn (by simp [engineOf])) he
  | gpioDirOutput p v => exact hQ.submitAdmitted h (hn (by simp [engineOf])) he
  | gpioDirGet p => exact hQ.submitAdmitted h (hn (by simp [engineOf])) he
  | init =>
    simp only [Machine.exec, execInit] at he
    split at he
    · cases he
    · split at he
      · cases he
      · exact hQ.submit h (hn (by simp [engineOf])) he
  | teardown =>
    obtain ⟨-, -, -, rfl⟩ := teardown_next he
    have hc : (closeSession s).ctxs = s.ctxs := by unfold closeSession; split <;> rfl
    refine AllCtx.push h ht ?_
    simp only [Machine.complete, State.modCtx, State.admitOp, hc]
    rw [modify_append_self]
    rfl
  | i2cWrite a src => exact hQ.submitAdmitted h (hn (by simp [engineOf])) he
  | i2cRead a len => exact hQ.submitAdmitted h (hn (by simp [engineOf])) he
  | i2cMsgTen rd a len p => exact hQ.submitAdmitted h (hn (by simp [engineOf])) he
  | stream => exact hQ.emitted (keep := fun _ => []) (i := .stream) h he
  | start => exact hQ.emitted (keep := id) (i := .start) h he
  | stop => exact hQ.emitted (keep := id) (i := .stop) h he
  | setSpeed sp => exact hQ.emitted (keep := id) (i := .setSpeed sp) h he
  | endPkt => exact hQ.emitted (keep := id) (i := .endPkt) h he
  | outSub d => exact hQ.emitted (keep := id) (i := .outSub d) h he
  | inSub n => exact hQ.emitted (keep := id) (i := .inSub n) h he
  | gpioFrame pins =>
    obtain ⟨x, g, -, -, -, -, rfl⟩ := gpioFrame_next he
    exact h.congr rfl
  | exchange o m =>
    by_cases hl : s.lock = .held s.cur
    · obtain ⟨x, hx, hp⟩ := hheld hl
      exact hQ.orAbort (hQ.exchange h hx hp o m) (toOutcome_next he)
    · simp [Machine.exec, execExchange, exchange_lockNotHeld hl, Attempt.orAbort, toOutcome] at he
  | acquire =>
    obtain ⟨hl, hc⟩ := acquireCmd_next he
    have h1 : AllCtx Q (approach s.cur s) := by
      rcases approach_move s.cur s with ha | ha
      · rw [ha]; exact h
      · exact hQ.move h ha
    rcases hc with ⟨-, rfl⟩ | ⟨hv, ha⟩
    · exact h1
    · obtain ⟨y, hy, hf⟩ := isLive_some hv
      have hst : ∀ p : Phase, p.isFinal = false → p ≠ .admitting → PhaseStep y p := fun p h1 h2 =>
        ⟨hf, h1, h2, fun hn => ⟨by simp [approach_phase hy (.inl hn)], fun pin hp =>
          absurd (approach_phase hy (.inl hn)) (by simp [checkedPin_gpio hp])⟩, fun hn => by simp [approach_phase hy (.inr hn)]⟩
      rcases acquire_ok ha with ⟨-, rfl⟩ | ⟨d, -, -, rfl⟩
      · exact hQ.setPhase (AllCtx.congr (s' := { approach s.cur s with lock := .held s.cur }) h1 rfl) hy
          (hst _ rfl (by simp))
      · exact hQ.setPhase h1 hy (hst _ rfl (by simp))
  | release =>
    simp only [Machine.exec, execRelease] at he
    split at he
    · cases he
    · rename_i hr
      cases he
      obtain ⟨hl, rfl⟩ := release_ok hr
      obtain ⟨x, hx, hp⟩ := hheld hl
      exact hQ.setPhase (AllCtx.congr (s' := { s with lock := .free }) h rfl) hx (PhaseStep.locked hp rfl (by simp))
  | gpioRt =>
    by_cases hl : s.lock = .held s.cur
    · obtain ⟨x, hx, hp⟩ := hheld hl
      exact hQ.orAbort (hQ.roundTrip h hx hp 0) (toOutcome_next he)
    · have h1 : Machine.roundTripXchg s.cur s = .fault .unwrittenRead ∨ Machine.roundTripXchg s.cur s = .fault .lockNotHeld := by
        unfold Machine.roundTripXchg
        split
        · exact .inl rfl
        · rw [exchange_lockNotHeld hl]; exact .inr rfl
      simp only [Machine.exec, execGpioRt, Machine.roundTrip] at he
      rcases h1 with h1 | h1 <;> simp [h1, Attempt.andThen, Attempt.orAbort, toOutcome] at he

end CtxKept

/-! ## Steps -/

/-- What stands in sub-command position is no request and no message record. -/
theorem decodeSub_engine {bs : Bytes} {r : Instr × Bytes} (h : decodeSub bs = some r) : engineOf r.1 = .none := by
  unfold decodeSub at h
  split at h
  · cases h
  · split at h
    · rename_i hl
      cases h
      unfold decodeWireL at hl
      simp only at hl
      split at hl
      · split at hl <;> cases hl
        rfl
      · split at hl <;> cases hl
        rfl
    · simp only [Option.map_eq_some_iff] at h
      obtain ⟨i, hi, rfl⟩ := h
      unfold decodeWireB at hi
      repeat' split at hi
      all_goals first
        | (cases hi; rfl)
        | cases hi

/-- Wire bytes are no request and no message record. -/
theorem decodeWire_engine {b : Bool} {bs : Bytes} {r : Instr × Bytes} (h : decodeWire b bs = some r) :
    engineOf r.1 = .none := by
  unfold decodeWire at h
  split at h
  · unfold decodeStart at h
    split at h
    · cases h
    · split at h
      · cases h; rfl
      · simp only [Option.map_eq_some_iff] at h
        obtain ⟨i, hi, rfl⟩ := h
        unfold decodeWireG at hi
        split at hi
        · simp only [Option.map_eq_some_iff] at hi
          obtain ⟨ps, -, rfl⟩ := hi
          rfl
        · cases hi
  · exact decodeSub_engine h

/-- What is read whole is read with nothing left over. -/
theorem whole_some {α : Type} {r : Option (α × Bytes)} {a : α} (h : whole r = some a) : r = some (a, []) := by
  unfold whole at h
  split at h
  · cases h; rfl
  · cases h

/-- An instruction that a command brings and that an engine runs is well formed. -/
theorem fetchInstr_wf {cmd : Command} {s : State} {i : Instr} (h : fetchInstr cmd s = some i)
    (he : engineOf i ≠ .none) : i.wf = true := by
  cases cmd with
  | request desc => exact (encode_decodeRequestPrefix (whole_some h)).2.1
  | message record =>
    simp only [fetchInstr, decodeRecord, Option.map_eq_some_iff] at h
    obtain ⟨msg, hm, rfl⟩ := h
    have hw := (encodeMsg_decodeMsg (whole_some hm)).2
    cases msg <;> exact hw
  | wire c bytes => exact absurd (decodeWire_engine (whole_some h)) he
  | internal c op =>
    simp only [fetchInstr, internalOnly] at h
    split at h <;> cases h
    rename_i hf
    cases i <;> first
      | exact absurd rfl he
      | simp [Instr.format] at hf
  | turn c => simp [fetchInstr] at h

/-- A step is a context's turn, or the instruction a command brings, in a state that differs from the one before only in
the command taken. -/
theorem step_cases {s s' : State} (h : step s = .next s') :
    (s.port = [] ∧ s' = s) ∨
    (∃ c rest, s.port = .turn c :: rest ∧ runCtx c { s with port := rest } = .ok s') ∨
    (∃ cmd rest i, s.port = cmd :: rest ∧ fetchInstr cmd s = some i ∧
      exec i { s with port := rest, cur := commandCtx cmd s } = .next s') := by
  unfold step at h
  split at h
  · rename_i hp
    cases h
    exact .inl ⟨hp, rfl⟩
  · rename_i cmd rest hp
    unfold stepCommand at h
    split at h
    · exact .inr (.inl ⟨_, rest, hp, toOutcome_next h⟩)
    · split at h
      · cases h
      · rename_i i hi
        exact .inr (.inr ⟨_, rest, i, hp, hi, h⟩)

namespace CtxKept

variable {Q : Ctx → Prop} {s s' : State}

/-- Every step keeps the property of every context, if every context just admitted has it. -/
theorem step (hQ : CtxKept s.cfg Q) (hm : s.MutexInv) (h : AllCtx Q s)
    (hn : ∀ op, op.wf = true → engineOf op ≠ .none → Q (newCtx op (dstFor op s.dstPort)))
    (ht : Q (Ctx.finish .noStatus (newCtx .teardown []))) (he : step s = .next s') : AllCtx Q s' := by
  rcases step_cases he with ⟨-, rfl⟩ | ⟨c, rest, -, hr⟩ | ⟨cmd, rest, i, -, hi, hx⟩
  · exact h
  · exact CtxKept.runCtx (s := { s with port := rest }) hQ (h.congr rfl) hr
  · exact CtxKept.exec (s := { s with port := rest, cur := commandCtx cmd s }) hQ (hm.congr rfl rfl) (h.congr rfl)
      (fun hne => hn i (fetchInstr_wf hi hne) hne) ht hx

end CtxKept

end Sys2Proof.Machine
end

