-- ==== Sys2Proof/Laws/Frame.lean ====
section
/-! SUPPORT. Everything a GPIO operation can do to the frame: it clears the eight control bytes and then requests some pins,
each in range or the operand the pin check passed. -/

namespace Sys2Proof.Machine

/-- A pin requested in a frame: its number, direction and value. -/
abbrev PinRequest := Nat × Bool × Bool

/-- The frame `g` with the pins of a list requested, one after the other. -/
def applyPins (g : Memory) (reqs : List PinRequest) : Memory := reqs.foldl (fun g q => applyPin g q.1 q.2.1 q.2.2) g

/-- The loop of GPIO_WRITE_MULTIPLE requests pins of its list only. -/
theorem frameMultiple_cases {mask bits : Byte} {s : State} {ps : List Nat} {m g : Memory}
    (h : frameMultiple mask bits s ps m = .ok g) : ∃ reqs, g = applyPins m reqs ∧ ∀ q ∈ reqs, q.1 ∈ ps := by
  induction ps generalizing m with
  | nil => exact ⟨[], by simpa [frameMultiple, applyPins, eq_comm] using h, by simp⟩
  | cons p ps ih =>
    simp only [frameMultiple] at h
    split at h
    · split at h
      · cases h
      · obtain ⟨reqs, rfl, hq⟩ := ih h
        split
        · exact ⟨(p, true, maskBit bits p) :: reqs, rfl, fun q hm => by
            rcases List.mem_cons.mp hm with rfl | hm
            · simp
            · exact List.mem_cons_of_mem _ (hq q hm)⟩
        · exact ⟨reqs, rfl, fun q hm => List.mem_cons_of_mem _ (hq q hm)⟩
    · obtain ⟨reqs, rfl, hq⟩ := ih h
      exact ⟨reqs, rfl, fun q hm => List.mem_cons_of_mem _ (hq q hm)⟩

/-- Everything a frame can be (42_gpio.md R109, R110). -/
theorem gpioFrameOf_cases {op : Instr} {s : State} {g : Memory} (h : gpioFrameOf op s = .ok g) :
    ∃ reqs, g = applyPins (clearPins s.gpo) reqs ∧
      ∀ q ∈ reqs, q.1 < 8 ∨ ∃ p, checkedPin op = some p ∧ q.1 = p.toNat := by
  have one : ∀ (p : Nat) (d v : Bool), (p < 8 ∨ ∃ q, checkedPin op = some q ∧ p = q.toNat) →
      applyPin (clearPins s.gpo) p d v = g → ∃ reqs, g = applyPins (clearPins s.gpo) reqs ∧
        ∀ q ∈ reqs, q.1 < 8 ∨ ∃ p, checkedPin op = some p ∧ q.1 = p.toNat := fun p d v hp hg =>
    ⟨[(p, d, v)], hg.symm, fun q hq => by rw [List.mem_singleton.mp hq]; exact hp⟩
  have idle : frameIdlePin s = .ok g → ∃ reqs, g = applyPins (clearPins s.gpo) reqs ∧
      ∀ q ∈ reqs, q.1 < 8 ∨ ∃ p, checkedPin op = some p ∧ q.1 = p.toNat := fun h => by
    cases h
    exact one _ _ _ (.inl s.cfg.idlePin.isLt) rfl
  cases op <;> simp only [gpioFrameOf] at h
  case gpioRead p => cases h; exact ⟨[], rfl, by simp⟩
  case gpioReadAll p => cases h; exact ⟨[], rfl, by simp⟩
  case gpioDirGet p => cases h; exact ⟨[], rfl, by simp⟩
  case gpioWrite p v =>
    simp only [frameGpioWrite] at h
    split at h <;> cases h
    exact one _ _ _ (.inr ⟨p, rfl, rfl⟩) rfl
  case gpioWriteMultiple mask bits =>
    obtain ⟨reqs, rfl, hq⟩ := frameMultiple_cases h
    exact ⟨reqs, rfl, fun q hm => .inl (List.mem_range.mp (hq q hm))⟩
  case gpioDirInput p =>
    simp only [frameGpioDirInput] at h
    split at h <;> cases h
    exact one _ _ _ (.inr ⟨p, rfl, rfl⟩) rfl
  case gpioDirOutput p v =>
    simp only [frameGpioDirOutput] at h
    split at h
    · cases h; exact one _ _ _ (.inr ⟨p, rfl, rfl⟩) rfl
    · split at h <;> cases h
      exact one _ _ _ (.inr ⟨p, rfl, rfl⟩) rfl
  all_goals exact idle h

/-- Requesting pins leaves the header bytes alone. -/
theorem byteAt_applyPins_header {g : Memory} {reqs : List PinRequest} {a : Nat} (ha : a < 3) :
    (applyPins g reqs).byteAt a = g.byteAt a := by
  induction reqs generalizing g with
  | nil => rfl
  | cons q reqs ih => exact (ih (g := applyPin g q.1 q.2.1 q.2.2)).trans (Memory.byteAt_put_ne _ _ (by omega))

/-- Requesting pins keeps the canonical form. -/
theorem wf_applyPins {g : Memory} (hg : g.wf) (reqs : List PinRequest) : (applyPins g reqs).wf := by
  induction reqs generalizing g with
  | nil => exact hg
  | cons q reqs ih => exact ih (Memory.wf_put hg _ _)

/-- Requesting pins in range keeps the frame to its bytes. -/
theorem below_applyPins {g : Memory} {n : Nat} (hg : Memory.below n g) {reqs : List PinRequest}
    (h : ∀ q ∈ reqs, 3 + q.1 < n) : Memory.below n (applyPins g reqs) := by
  induction reqs generalizing g with
  | nil => exact hg
  | cons q reqs ih =>
    exact ih (Memory.below_put hg (h q (List.mem_cons_self)) _) fun r hr => h r (List.mem_cons_of_mem _ hr)

/-- Clearing the pins leaves the header bytes alone. -/
theorem byteAt_clearPins_header (g : Memory) {a : Nat} (ha : a < 3) : (clearPins g).byteAt a = g.byteAt a :=
  Memory.byteAt_putBytes_outside _ _ _ _ (by omega)

end Sys2Proof.Machine
end

