-- ==== Sys2Proof/Laws/GpioRun.lean ====
section
/-! SUPPORT. A GPIO operation that nothing interrupts does what its rule says (42_gpio.md R111 to R120). -/

namespace Sys2Proof.Machine

/-! ## A GPIO operation from beginning to end -/

theorem pinStat_congr {s t : State} (hi : t.gpi = s.gpi) (hv : t.gpiValid = s.gpiValid) (p : Nat) :
    t.pinStat p = s.pinStat p := by simp only [State.pinStat, hi, hv]

/-- A frame depends on GPO, the mirror and the parameters only. -/
theorem gpioFrameOf_congr {s t : State} (op : Instr) (hc : t.cfg = s.cfg) (ho : t.gpo = s.gpo) (hi : t.gpi = s.gpi)
    (hv : t.gpiValid = s.gpiValid) : gpioFrameOf op t = gpioFrameOf op s := by
  have hp := pinStat_congr hi hv
  have hm : ∀ (mask bits : Byte) ps (g : Memory), frameMultiple mask bits t ps g = frameMultiple mask bits s ps g := by
    intro mask bits ps
    induction ps with
    | nil => intro g; rfl
    | cons p ps ih => intro g; simp only [frameMultiple, hp, ih]
  cases op <;>
    simp only [gpioFrameOf, frameGpioRead, frameGpioReadAll, frameGpioDirGet, frameGpioWrite, frameGpioWriteMultiple,
      frameGpioDirInput, frameGpioDirOutput, frameIdlePin, hc, ho, hp, hm]

/-- The whole frame reads back: the header, then the control bytes. -/
theorem frame_bytes {g : Memory} (h : g.bytesAt 0 3 = some gpioHeader) {pins : Bytes} (hp : pins.length = 8) :
    (g.putBytes 3 pins).bytesAt 0 Config.gpioFrameLen = some (frameBytes pins) := by
  rw [Memory.bytesAt_eq_some] at h ⊢
  refine ⟨by simp [frameBytes, gpioHeader, hp, Config.gpioFrameLen], fun i hi => ?_⟩
  rw [Memory.byteAt_putBytes]
  have hlen : gpioHeader.length = 3 := rfl
  by_cases h3 : i < 3
  · rw [if_neg (by omega), h.2 i h3, frameBytes, List.getElem?_append_left (by omega)]
  · have : i < 11 := hi
    rw [if_pos (by omega), frameBytes, List.getElem?_append_right (by omega), Nat.zero_add, hlen]

/-- A run of a GPIO operation whose pin check passed does what the rule says. -/
theorem gpio_submit {s : State} {op : Instr} {pins : Bytes} {res : Bytes → Result} (hr : s.Ready) (hf : s.FrameReady)
    (he : engineOf op = .gpio) (hlen : pins.length = 8) (hpin : ∀ p, checkedPin op = some p → pinOk p = true)
    (hg : gpioFrameOf op s = .ok (s.gpo.putBytes 3 pins))
    (hres : ∀ (t : State) (r : Bytes), r.length = Config.gpioReplyLen → t.gpiValid = true →
      (∀ a, a < 11 → t.gpi.byteAt a = r[a]?) → gpioResultOf op t = .ok (res r)) :
    submit op s = .next (s.gpioRun op pins res) := by
  have hdst : dstFor op s.dstPort = [] := by
    cases op <;> simp_all [engineOf, dstFor, msgsOf]
  have hni : op ≠ .init := fun h => by simp [h, engineOf] at he
  have hms : msgsOf op = [] := by cases op <;> simp_all [engineOf, msgsOf]
  have hlock := hr.lock
  -- the state without the DST buffers, with the context apart
  obtain ⟨s0, hs0⟩ : ∃ s0 : State, s0 = { s with dstPort := [] } := ⟨_, rfl⟩
  obtain ⟨s1, hs1⟩ : ∃ s1 : State, s1 = { s0 with gpo := s.gpo.putBytes 3 pins } := ⟨_, rfl⟩
  have hc0 : s0.ctxs.length = s.ctxs.length := by rw [hs0]
  have hc1 : s1.ctxs.length = s.ctxs.length := by rw [hs1, hs0]
  have hl0 : s0.lock = .free := by rw [hs0]; exact hlock
  have hl1 : s1.lock = .free := by rw [hs1]; exact hl0
  -- Admit
  have r1 : Runs s.ctxs.length 1 (s0.push (newCtx op [])) (s0.push { newCtx op [] with phase := .waitLock }) := by
    have hmv : move s0.ctxs.length (s0.push (newCtx op [])) = .ok (s0.push { newCtx op [] with phase := .waitLock }) := by
      simp only [move, State.push_get, newCtx, moveAdmit, he, gpioAdmit, State.setPhase, State.push_modCtx]
      cases hk : checkedPin op with
      | none => rfl
      | some p => simp [hpin p hk]
    rw [← hc0]
    exact Runs.step (settled_push rfl hl0) hmv
  -- WaitLock
  have r2 := runs_acquire (s := s0) (x := { newCtx op [] with phase := .waitLock }) hl0 rfl
  rw [hc0] at r2
  -- Build
  have r3 : Runs s.ctxs.length 1 (s0.pushLocked { newCtx op [] with phase := .build })
      (s1.pushLocked { newCtx op [] with phase := .xchg }) := by
    have hfr : gpioFrameOf op (s0.pushLocked { newCtx op [] with phase := .build }) = .ok (s.gpo.putBytes 3 pins) := by
      rw [← hg]
      exact gpioFrameOf_congr op (by rw [hs0]; rfl) (by rw [hs0]; rfl) (by rw [hs0]; rfl) (by rw [hs0]; rfl)
    have hmv : move s0.ctxs.length (s0.pushLocked { newCtx op [] with phase := .build }) =
        .ok (s1.pushLocked { newCtx op [] with phase := .xchg }) := by
      have he' : engineOf ({ newCtx op [] with phase := .build } : Ctx).op = .gpio := he
      have hfr' : gpioFrameOf ({ newCtx op [] with phase := .build } : Ctx).op
        (s0.pushLocked { newCtx op [] with phase := .build }) = .ok (s.gpo.putBytes 3 pins) := hfr
      simp only [move, State.pushLocked_get, moveBuild, he', gpioBuild, hfr', State.setPhase]
      have := State.pushLocked_modCtx s1 { newCtx op [] with phase := .build } fun x => { x with phase := .xchg }
      rw [hc1, ← hc0] at this
      rw [← this]
      simp only [hs1, hs0, State.pushLocked]
    rw [← hc0]
    exact Runs.step (settled_pushLocked rfl) hmv
  have r123 := (r1.trans r2).trans r3
  -- Xchg
  have hfb : s1.gpo.bytesAt 0 Config.gpioFrameLen = some (frameBytes pins) := by
    rw [hs1]; exact frame_bytes hf.header hlen
  have hol : (frameBytes pins).length = 11 := by simp [frameBytes, gpioHeader, hlen]
  have hx := exchange_pushLocked s1 { newCtx op [] with phase := .xchg } (frameBytes pins) Config.gpioReplyLen
    (by omega) (by rw [hol]; decide) (by decide)
  have hbd := bulk_dstPort ({ s with gpo := s.gpo.putBytes 3 pins }) s.ctxs.length (frameBytes pins)
    Config.gpioReplyLen []
  have hs1' : s1 = { ({ s with gpo := s.gpo.putBytes 3 pins } : State) with dstPort := [] } := by rw [hs1, hs0]
  have hrun : runCtx s.ctxs.length (s.admitOp op) = drive (moveBound op) s.ctxs.length (s0.push (newCtx op [])) := by
    have hq : (s.admitOp op).quanta = [] := hr.quanta
    have hq' : s0.quanta = [] := by rw [hs0]; exact hr.quanta
    rw [admit_push, hdst, ← hs0, ← hc0]
    unfold runCtx
    have : (s0.push (newCtx op [])).quanta = [] := hq'
    rw [this]
    simp only [State.push_get]
    rfl
  have hmb : 20 ≤ moveBound op := Nat.le_add_right _ _
  unfold submit
  rw [hrun]
  rw [hc1] at hx
  rw [← hs1'] at hbd
  have hset : settled s.ctxs.length (s1.pushLocked { newCtx op [] with phase := .xchg }) = false := by
    rw [← hc1]; exact settled_pushLocked rfl
  have hgpo : (s1.pushLocked { newCtx op [] with phase := .xchg }).gpo = s1.gpo := rfl
  have hmove : move s.ctxs.length (s1.pushLocked { newCtx op [] with phase := .xchg }) =
      (roundTripXchg s.ctxs.length (s1.pushLocked { newCtx op [] with phase := .xchg })).orAbort s.ctxs.length := by
    have he' : engineOf ({ newCtx op [] with phase := .xchg } : Ctx).op = .gpio := he
    have := State.pushLocked_get s1 { newCtx op [] with phase := .xchg }
    rw [hc1] at this
    simp only [move, this, moveXchg, he', gpioXchg]
  unfold State.gpioRun State.gpioTrip
  obtain ⟨s2, hs2⟩ : ∃ s2 : State, s2 = (s1.bulk s.ctxs.length (frameBytes pins) Config.gpioReplyLen).1 := ⟨_, rfl⟩
  have fr := bulk_frame s1 s.ctxs.length (frameBytes pins) Config.gpioReplyLen
  rw [← hs2] at fr
  cases hb : ({ s with gpo := s.gpo.putBytes 3 pins } : State).bulk s.ctxs.length (frameBytes pins)
      Config.gpioReplyLen with
  | mk b ans =>
  rw [hb] at hbd
  have hc2 : s2.ctxs.length = s.ctxs.length := by rw [fr.ctxs, hc1]
  have hl2 : s2.lock = .free := by rw [fr.lock, hl1]
  have hsb : s2 = { b with dstPort := [] } := by rw [hs2, hbd]
  cases ans with
  | error e =>
    rw [hbd, ← hsb] at hx
    have hab := abort_pushLocked (s := s2.dropMirror) (x := { newCtx op [] with phase := .xchg }) e hl2 hni
      (midWrite_of_msgs hms)
    have hc3 : s2.dropMirror.ctxs.length = s.ctxs.length := hc2
    rw [hc3] at hab
    have r4 : Runs s.ctxs.length 1 (s1.pushLocked { newCtx op [] with phase := .xchg })
        (s2.dropMirror.push ((newCtx op []).fail e)) := by
      refine Runs.step hset ?_
      rw [hmove]
      simp only [roundTripXchg, hgpo, hfb, hx, Attempt.orAbort]
      exact congrArg Except.ok hab
    have := (r123.trans r4).drive (by rw [← hc3]; exact settled_push_final rfl) (show 4 ≤ moveBound op by omega)
    rw [this]
    simp only [toOutcome, State.withCtx, State.push, State.dropMirror, hsb]
  | ok r =>
    rw [hbd, ← hsb] at hx
    have hrep : s2.reply = some r := by
      rw [hsb]
      exact bulk_reply (m := Config.gpioReplyLen) (by decide) hbd
    have r4 : Runs s.ctxs.length 1 (s1.pushLocked { newCtx op [] with phase := .xchg })
        (s2.pushLocked { newCtx op [] with phase := .check }) := by
      refine Runs.step hset ?_
      rw [hmove]
      simp only [roundTripXchg, hgpo, hfb, hx, Attempt.orAbort]
    have he' : engineOf ({ newCtx op [] with phase := .check } : Ctx).op = .gpio := he
    have hrep' : (s2.pushLocked { newCtx op [] with phase := .check }).reply = some r := hrep
    by_cases hrl : r.length = Config.gpioReplyLen
    · -- Check
      have r5 : Runs s.ctxs.length 1 (s2.pushLocked { newCtx op [] with phase := .check })
          (s2.pushLocked { newCtx op [] with phase := .commit }) := by
        rw [← hc2]
        refine Runs.step (settled_pushLocked rfl) ?_
        simp only [move, State.pushLocked_get, moveCheck, he', gpioCheck, roundTripCheck, hrep', hrl, ne_eq,
          not_true_eq_false, if_false, Attempt.orAbort, State.setPhase, State.pushLocked_modCtx]
      -- Commit
      have hres' := hres (s2.setMirror r) r hrl rfl fun a ha => by
        have : r.length = 11 := hrl
        simp only [State.setMirror]
        rw [Memory.byteAt_putBytes, if_pos (by omega), Nat.sub_zero]
      have hresp : gpioResultOf (newCtx op []).op ((s2.pushLocked { newCtx op [] with phase := .commit }).setMirror r) = .ok (res r) :=
        hres _ r hrl rfl fun a ha => by
          have : r.length = 11 := hrl
          simp only [State.setMirror]
          rw [Memory.byteAt_putBytes, if_pos (by omega), Nat.sub_zero]
      have r6 : Runs s.ctxs.length 1 (s2.pushLocked { newCtx op [] with phase := .commit })
          ((s2.setMirror r).push ((newCtx op []).finish (res r))) := by
        have hc3 : (s2.setMirror r).ctxs.length = s2.ctxs.length := rfl
        have he' : engineOf ({ newCtx op [] with phase := .commit } : Ctx).op = .gpio := he
        have hrep' : (s2.pushLocked { newCtx op [] with phase := .commit }).reply = some r := hrep
        have hrel := release_pushLocked (s := s2.setMirror r) (x := { newCtx op [] with phase := .commit }) hl2
        rw [hc3] at hrel
        have hsm : (s2.pushLocked { newCtx op [] with phase := .commit }).setMirror r =
          (s2.setMirror r).pushLocked { newCtx op [] with phase := .commit } := rfl
        have hmod := State.push_modCtx (s2.setMirror r) { newCtx op [] with phase := .commit } (Ctx.finish (res r))
        rw [hc3] at hmod
        rw [← hc2]
        refine Runs.step (settled_pushLocked rfl) ?_
        simp only [move, State.pushLocked_get, moveCommit, he', gpioCommit, roundTripCommit, hrep', hresp]
        simp only [hsm, hrel, complete, hmod]
        rfl
      have hfin : settled s.ctxs.length ((s2.setMirror r).push ((newCtx op []).finish (res r))) = true := by
        rw [← hc2]; exact settled_push_final (s := s2.setMirror r) rfl
      have := (((r123.trans r4).trans r5).trans r6).drive hfin (show 6 ≤ moveBound op by omega)
      rw [this]
      simp only [hrl, ne_eq, not_true_eq_false, if_false]
      simp only [toOutcome, State.withCtx, State.push, State.setMirror, hsb]
    · have r5 : Runs s.ctxs.length 1 (s2.pushLocked { newCtx op [] with phase := .check })
          (s2.dropMirror.push ((newCtx op []).fail (.protocolError 0 Config.gpioReplyLen r.length))) := by
        have hab := abort_pushLocked (s := s2.dropMirror) (x := { newCtx op [] with phase := .check })
          (.protocolError 0 Config.gpioReplyLen r.length) hl2 hni (midWrite_of_msgs hms)
        have hc3 : s2.dropMirror.ctxs.length = s2.ctxs.length := rfl
        rw [hc3] at hab
        rw [← hc2]
        refine Runs.step (settled_pushLocked rfl) ?_
        simp only [move, State.pushLocked_get, moveCheck, he', gpioCheck, roundTripCheck, hrep', ne_eq, hrl,
          not_false_eq_true, if_true, Attempt.orAbort]
        exact congrArg Except.ok hab
      have hfin : settled s.ctxs.length
          (s2.dropMirror.push ((newCtx op []).fail (.protocolError 0 Config.gpioReplyLen r.length))) = true := by
        rw [← hc2]; exact settled_push_final (s := s2.dropMirror) rfl
      have := ((r123.trans r4).trans r5).drive hfin (show 5 ≤ moveBound op by omega)
      rw [this]
      simp only [hrl, ne_eq, not_false_eq_true, if_true]
      simp only [toOutcome, State.withCtx, State.push, State.dropMirror, hsb]

end Sys2Proof.Machine
end

