-- ==== Sys2Proof/Laws/Operands.lean ====
section
/-! SUPPORT. The chunk plans of 41_i2c.md R95 and R100, one step at a time. -/

namespace Sys2Proof.Machine

/-- The ceiling of the write chunk that is, or is not, the first. -/
def wceil (cfg : Config) (first : Bool) : Nat := if first then cfg.wchunkFirst else cfg.wchunkCont

/-- The chunk that reaches the end of the message ends the plan. -/
theorem wchunksFrom_last {cfg : Config} {len fuel off : Nat} {first : Bool} (ho : off ≤ len)
    (h : len - off ≤ wceil cfg first) :
    wchunksFrom cfg len (fuel + 1) off first = [⟨off, len - off, first, true⟩] := by
  have h1 : wchunkAt cfg len off first = ⟨off, len - off, first, true⟩ := by
    simp only [wchunkAt, ← wceil.eq_1, Nat.min_eq_left h, lastFlag, Chunk.mk.injEq, true_and, decide_eq_true_eq]
    omega
  simp [wchunksFrom, h1]

/-- A chunk that does not reach it takes its ceiling, and a continuation follows. -/
theorem wchunksFrom_more {cfg : Config} {len fuel off : Nat} {first : Bool} (h : wceil cfg first < len - off) :
    wchunksFrom cfg len (fuel + 1) off first =
      ⟨off, wceil cfg first, first, false⟩ :: wchunksFrom cfg len fuel (off + wceil cfg first) false := by
  have h1 : wchunkAt cfg len off first = ⟨off, wceil cfg first, first, false⟩ := by
    simp only [wchunkAt, ← wceil.eq_1, Nat.min_eq_right (Nat.le_of_lt h), lastFlag, Chunk.mk.injEq, true_and,
      decide_eq_false_iff_not]
    omega
  simp [wchunksFrom, h1]

/-- A read chunk takes what is left, up to its ceiling. -/
theorem rchunksFrom_more {cfg : Config} {len fuel off : Nat} (h : off < len) :
    rchunksFrom cfg len (fuel + 1) off =
      (off, min (len - off) cfg.rchunk) :: rchunksFrom cfg len fuel (off + min (len - off) cfg.rchunk) := by
  simp [rchunksFrom, h, rchunkLen]

/-- At the end of the message the read plan ends. -/
theorem rchunksFrom_end {cfg : Config} {len off : Nat} (fuel : Nat) (h : len ≤ off) : rchunksFrom cfg len fuel off = [] := by
  cases fuel with
  | zero => rfl
  | succ fuel => simp [rchunksFrom, Nat.not_lt.mpr h]

end Sys2Proof.Machine
end

