-- ==== Sys2Proof/Laws/I2cProperties.lean ====
section
/-! SUPPORT. What 41_i2c.md R108 asks of the I2C engine, at its own moves: the bounds of a chunk, the copy of a chunk's payload,
the NACK that copies nothing, the 10-bit batch that sends nothing. The same of whole operations are statements for the
provers. -/

namespace Sys2Proof.Machine

/-- R108 item 1: under legal parameters the first chunk of a write has at most 62 bytes, a continuation at most 63. -/
theorem wchunks_bound {cfg : Config} (hw : cfg.wf = true) {len : Nat} {ch : Chunk} (h : ch ∈ wchunks cfg len) :
    ch.n ≤ if ch.first then 62 else 63 := by
  have hmax : cfg.wchunkFirst ≤ 62 ∧ cfg.wchunkCont ≤ 63 := by
    simp only [Config.wf, Bool.and_eq_true, decide_eq_true_eq] at hw
    have h63 : Config.maxSubLen = 63 := rfl
    omega
  have hat : ∀ off first, (wchunkAt cfg len off first).n ≤ if (wchunkAt cfg len off first).first then 62 else 63 := by
    intro off first
    cases first <;> simp only [wchunkAt, if_true, Bool.false_eq_true, if_false] <;> omega
  have hfrom : ∀ fuel off first, ch ∈ wchunksFrom cfg len fuel off first → ch.n ≤ if ch.first then 62 else 63 := by
    intro fuel
    induction fuel with
    | zero => intro off first h; simp [wchunksFrom] at h
    | succ fuel ih =>
      intro off first h
      simp only [wchunksFrom] at h
      split at h
      · rw [List.mem_singleton.mp h]; exact hat off first
      · rcases List.mem_cons.mp h with rfl | h
        · exact hat off first
        · exact ih _ _ h
  exact hfrom _ _ _ h

/-- R108 item 2: a read chunk's commit copies exactly its payload to DST at `OFF`, and `OFF` moves on past it. -/
theorem i2cCommit_copies {c : Nat} {x : Ctx} {s s' : State} {a : BitVec 7} {len n : Nat} {r : Bytes}
    (hm : x.msg = some (.read a len)) (hn : x.n = some n) (hr : s.reply = some r) (hx : s.ctxs[c]? = some x)
    (h : i2cCommit c x s = .ok s') :
    s'.ctxs[c]? = some { x with
      dst := x.dst.set x.idx (memWrite (x.dst.getD x.idx []) x.off ((r.drop 1).take n))
      off := x.off + n
      phase := .next } := by
  simp only [i2cCommit, hm, hn, hr] at h
  split at h
  · cases h
  · rename_i s1 h1
    obtain ⟨-, rfl⟩ := release_ok h1
    cases h
    simp [State.modCtx, hx]

/-- R108 item 3: a reply of the right length whose byte 0 is not the ACK marker gives NackError at `OFF`. -/
theorem checkRead_nack {off n : Nat} {r : Bytes} (hl : r.length = n + 1) (h : r.head? ≠ some Config.ack) :
    checkRead off n r = some (.nackError off 0) := by
  unfold checkRead
  rw [if_neg (by simpa using hl)]
  cases r with
  | nil => rfl
  | cons b bs =>
    have hb : isAck b = false := by simpa [isAck] using h
    simp [hb]

/-- R108 item 3: that chunk's check ends the operation, and DST is as before. -/
theorem i2cCheck_nack {c : Nat} {x : Ctx} {s : State} {a : BitVec 7} {len n : Nat} {r : Bytes}
    (hm : x.msg = some (.read a len)) (hn : x.n = some n) (hr : s.reply = some r) (hx : s.ctxs[c]? = some x)
    (hl : r.length = n + 1) (h : r.head? ≠ some Config.ack) :
    ∃ s' y, i2cCheck c x s = .ok s' ∧ s'.ctxs[c]? = some y ∧ y.phase = .failed (.nackError x.off 0) ∧ y.dst = x.dst := by
  refine ⟨abort c (.nackError x.off 0) s, x.fail (.nackError x.off 0), ?_, ?_, rfl, rfl⟩
  · simp only [i2cCheck, hm, hn, hr, checkRead_nack hl h]
  · simp [abort, hx]

/-- R108 item 4: with `prescan` a batch with a 10-bit message ends with InvalidArgument and sends nothing. -/
theorem i2cAdmit_ten {c j : Nat} {x : Ctx} {s : State} (hx : s.ctxs[c]? = some x) (ht : s.cfg.tenBitCheck = .prescan)
    (hj : firstTen (msgsOf x.op) = some j) :
    (i2cAdmit c x s).ctxs[c]? = some (x.fail (.invalidArgument (.tenBitAddress j))) ∧ (i2cAdmit c x s).hist = s.hist := by
  simp only [i2cAdmit, ht, hj]
  exact ⟨by simp [abort, hx], rfl⟩

end Sys2Proof.Machine
end

