-- ==== Sys2Proof/Laws/I2cRun.lean ====
section
/-! SUPPORT. An I2C operation that nothing interrupts does what its rule says (41_i2c.md R95 to R105). -/

namespace Sys2Proof.Machine

/-! ## I2C operations from beginning to end -/

/-- The packet of a write chunk fits the scratch buffer (41_i2c.md R106). -/
theorem wpkt_length (a : BitVec 7) (src : Bytes) (off n : Nat) (first last : Bool) (h : off + n ≤ src.length) :
    (wpkt a src off n first last).length = n + 3 + (if first then 2 else 0) + (if last then 1 else 0) := by
  have hm : (memRead src off n).length = n := by simp [memRead]; omega
  cases first <;> cases last <;> simp [wpkt, hm]

/-- The packet of a read chunk has 7 or 8 bytes (41_i2c.md R106). -/
theorem rpkt_length (cfg : Config) (a : BitVec 7) (n : Nat) : (rpkt cfg a n).length = if 1 < n then 8 else 7 := by
  by_cases h : 1 < n <;> simp [rpkt, h]

/-- What legal parameters give (00_scope.md R10). -/
structure LegalConfig (c : Config) : Prop where
  firstPos : 1 ≤ c.wchunkFirst
  firstMax : c.wchunkFirst ≤ 62
  contPos : 1 ≤ c.wchunkCont
  contMax : c.wchunkCont ≤ 63
  readPos : 1 ≤ c.rchunk
  readMax : c.rchunk ≤ 63
  seg : c.rchunk + 1 ≤ c.maxSeg
  segMax : c.maxSeg ≤ 512
  finalIn : c.finalIn = 0xC0 ∨ c.finalIn = 0xC1

theorem legalConfig {c : Config} (h : c.wf = true) : LegalConfig c := by
  simp only [Config.wf, Bool.and_eq_true, decide_eq_true_eq, Bool.or_eq_true, beq_iff_eq] at h
  have h1 : Config.maxSubLen = 63 := rfl
  have h2 : Config.scratchLen = 512 := rfl
  exact ⟨by omega, by omega, by omega, by omega, by omega, by omega, by omega, by omega, h.2⟩

/-- A write chunk: what it leads to once it is chosen. -/
theorem runs_writeChunk {s : State} {x : Ctx} {a : BitVec 7} {src : Bytes} (hl : s.lock = .free)
    (hw : s.cfg.wf = true) (he : engineOf x.op = .i2c) (hm : x.msg = some (.write a src)) {ch : Chunk}
    (hch : ch = wchunkAt s.cfg src.length x.off x.first) (hoff : ch.off ≤ src.length)
    (hpos : ch.first = true ∨ 1 ≤ ch.n) {b : State} {ans : Except Err Bytes}
    (hb : s.bulk s.ctxs.length (wpkt a src ch.off ch.n ch.first ch.last) (writeReplyLen ch.n ch.first) = (b, ans)) :
    match ans with
    | .error e => ∃ y, Runs s.ctxs.length 3 (s.push (x.chooseWrite s.cfg src)) ((b.abortedIn ch).push (Ctx.fail e y)) ∧
        y.op = x.op ∧ y.dst = x.dst
    | .ok r =>
      match checkWrite ch.off (writeReplyLen ch.n ch.first) r with
      | some e => ∃ y, Runs s.ctxs.length 4 (s.push (x.chooseWrite s.cfg src)) ((b.abortedIn ch).push (Ctx.fail e y)) ∧
          y.op = x.op ∧ y.dst = x.dst
      | none => Runs s.ctxs.length 4 (s.push (x.chooseWrite s.cfg src)) (b.push { x with
          off := x.off + ch.n, n := some ch.n, last := some ch.last, first := false,
          pkt := wpkt a src ch.off ch.n ch.first ch.last, phase := .next }) := by
  have hleg := legalConfig hw
  have hni : x.op ≠ .init := fun h => by simp [h, engineOf] at he
  have hfirst : ch.first = x.first := by rw [hch]; rfl
  have hmi : (msgsOf x.op)[x.idx]? = some (.write a src) := hm
  have hn : ch.off + ch.n ≤ src.length := by
    subst hch
    simp only [wchunkAt] at hoff ⊢
    omega
  have hcap : ch.n ≤ 63 ∧ (ch.first = true → ch.n ≤ 62) := by
    subst hch
    have h1 := hleg.firstMax
    have h2 := hleg.contMax
    simp only [wchunkAt]
    cases x.first <;> simp only [Bool.false_eq_true, if_true, if_false, false_implies, and_true] <;> omega
  have hco : ch.off = x.off := by rw [hch]; rfl
  obtain ⟨x1, hx1⟩ : ∃ x1 : Ctx, x1 = { x with n := some ch.n, last := some ch.last, phase := .waitLock } := ⟨_, rfl⟩
  have hx1' : x.chooseWrite s.cfg src = x1 := by rw [hx1, hch]; rfl
  rw [hx1']
  -- WaitLock
  have r2 := runs_acquire (s := s) (x := x1) hl (by rw [hx1])
  -- Build
  obtain ⟨x2, hx2⟩ : ∃ x2 : Ctx, x2 = { x1 with phase := .build } := ⟨_, rfl⟩
  rw [← hx2] at r2
  obtain ⟨x3, hx3⟩ : ∃ x3 : Ctx, x3 = { x2 with pkt := wpkt a src ch.off ch.n ch.first ch.last, phase := .xchg } :=
    ⟨_, rfl⟩
  have h2p : x2.phase = .build := by rw [hx2]
  have h2m : x2.msg = some (.write a src) := by rw [hx2, hx1]; exact hm
  have h2n : x2.n = some ch.n := by rw [hx2, hx1]
  have h2e : engineOf x2.op = .i2c := by rw [hx2, hx1]; exact he
  have h2o : x2.off = ch.off := by rw [hx2, hx1, hco]
  have h2l : x2.last = some ch.last := by rw [hx2, hx1]
  have h2f : x2.first = ch.first := by rw [hx2, hx1]; exact hfirst.symm
  have r3 : Runs s.ctxs.length 1 (s.pushLocked x2) (s.pushLocked x3) := by
    refine Runs.step (settled_pushLocked (by rw [h2p]; rfl)) ?_
    have hpk : x2.packet (s.pushLocked x2).cfg = some (wpkt a src ch.off ch.n ch.first ch.last) := by
      simp only [Ctx.packet, h2m, h2n, h2o, h2f, h2l, Option.getD_some]
    simp only [move, State.pushLocked_get, h2p, moveBuild, h2e, i2cBuild, hpk, State.pushLocked_modCtx, hx3]
  have r123 := r2.trans r3
  -- Xchg
  have h3p : x3.phase = .xchg := by rw [hx3]
  have h3m : x3.msg = some (.write a src) := by rw [hx3]; exact h2m
  have h3n : x3.n = some ch.n := by rw [hx3]; exact h2n
  have h3e : engineOf x3.op = .i2c := by rw [hx3]; exact h2e
  have h3f : x3.first = ch.first := by rw [hx3]; exact h2f
  have h3k : x3.pkt = wpkt a src ch.off ch.n ch.first ch.last := by rw [hx3]
  have h3l : x3.last = some ch.last := by rw [hx3]; exact h2l
  have hmid : ∀ {y : Ctx}, y.msg = some (.write a src) → y.last = some ch.last → y.midWrite = !ch.last := fun h1 h2 => by
    cases hcl : ch.last <;> simp [Ctx.midWrite, h1, h2, hcl]
  have h3o : x3.op = x.op := by rw [hx3, hx2, hx1]
  have h3d : x3.dst = x.dst := by rw [hx3, hx2, hx1]
  have hlen := wpkt_length a src ch.off ch.n ch.first ch.last hn
  have hx := exchange_pushLocked s x3 (wpkt a src ch.off ch.n ch.first ch.last) (writeReplyLen ch.n ch.first)
    (by rw [hlen]; omega) (by rw [hlen, Config.scratchLen]; split <;> split <;> omega)
    (by rw [Config.scratchLen, writeReplyLen]; split <;> omega)
  rw [hb] at hx
  have hmv : move s.ctxs.length (s.pushLocked x3) = (exchange s.ctxs.length (wpkt a src ch.off ch.n ch.first ch.last)
      (writeReplyLen ch.n ch.first) (s.pushLocked x3)).orAbort s.ctxs.length := by
    simp only [move, State.pushLocked_get, h3p, moveXchg, h3e, i2cXchg, h3m, h3n, h3k, h3f]
  have fr := bulk_frame s s.ctxs.length (wpkt a src ch.off ch.n ch.first ch.last) (writeReplyLen ch.n ch.first)
  rw [hb] at fr
  have hcb : b.ctxs.length = s.ctxs.length := by rw [show b.ctxs = s.ctxs from fr.ctxs]
  have hlb : b.lock = .free := (show b.lock = s.lock from fr.lock).trans hl
  have hset := settled_pushLocked (s := s) (x := x3) (by rw [h3p]; rfl)
  cases ans with
  | error e =>
    have hab := abort_pushLocked_txn (s := b) (x := { x3 with phase := .xchg }) e hlb (by rw [← h3o] at hni; exact hni)
    rw [hcb, show Ctx.midWrite { x3 with phase := .xchg } = !ch.last from hmid h3m h3l] at hab
    refine ⟨{ x3 with phase := .xchg }, r123.trans (k := 1) (Runs.step hset ?_), h3o, h3d⟩
    rw [hmv, hx]
    exact congrArg Except.ok hab
  | ok r =>
    obtain ⟨x4, hx4⟩ : ∃ x4 : Ctx, x4 = { x3 with phase := .check } := ⟨_, rfl⟩
    have r4 : Runs s.ctxs.length 1 (s.pushLocked x3) (b.pushLocked x4) := by
      refine Runs.step hset ?_
      rw [hmv, hx, hx4]
      rfl
    have h4p : x4.phase = .check := by rw [hx4]
    have h4m : x4.msg = some (.write a src) := by rw [hx4]; exact h3m
    have h4n : x4.n = some ch.n := by rw [hx4]; exact h3n
    have h4e : engineOf x4.op = .i2c := by rw [hx4]; exact h3e
    have h4l : x4.last = some ch.last := by rw [hx4]; exact h3l
    have h4f : x4.first = ch.first := by rw [hx4]; exact h3f
    have h4o : x4.op = x.op := by rw [hx4]; exact h3o
    have h4d : x4.dst = x.dst := by rw [hx4]; exact h3d
    have h4off : x4.off = ch.off := by rw [hx4, hx3]; exact h2o
    have r1234 := r123.trans r4
    have hset4 := settled_pushLocked (s := b) (x := x4) (by rw [h4p]; rfl)
    rw [hcb] at hset4
    have hget := State.pushLocked_get b x4
    rw [hcb] at hget
    by_cases hm0 : (writeReplyLen ch.n ch.first) = 0
    · -- no receive: a continuation of no bytes never arises
      exfalso
      rw [writeReplyLen] at hm0
      rcases hpos with h | h
      · rw [h] at hm0; simp at hm0
      · split at hm0 <;> omega
    · have hrep : (b.pushLocked x4).reply = some r := bulk_reply (s1 := b) hm0 hb
      have hmv4 : move s.ctxs.length (b.pushLocked x4) =
          match checkWrite ch.off (writeReplyLen ch.n ch.first) r with
          | some e => .ok (abort s.ctxs.length e (b.pushLocked x4))
          | none =>
            match release s.ctxs.length (b.pushLocked x4) with
            | .error f => .error f
            | .ok s1 => .ok (s1.modCtx s.ctxs.length fun x => { x with off := x.off + ch.n, first := false, phase := .next }) := by
        simp only [move, hget, h4p, moveCheck, h4e, i2cCheck, h4m, h4n, hrep, h4off, h4f]
        all_goals rfl
      cases hck : checkWrite ch.off (writeReplyLen ch.n ch.first) r with
      | some e =>
        simp only [hck] at hmv4
        have hab := abort_pushLocked_txn (s := b) (x := x4) e hlb (by rw [h4o]; exact hni)
        rw [hcb, hmid h4m h4l] at hab
        simp only [hck]
        exact ⟨x4, r1234.trans (k := 1) (Runs.step hset4 (by rw [hmv4, hab]; rfl)), h4o, h4d⟩
      | none =>
        simp only [hck] at hmv4
        have hrel := release_pushLocked (s := b) (x := x4) hlb
        rw [hcb] at hrel
        have hmod := State.push_modCtx b x4 fun x => { x with off := x.off + ch.n, first := false, phase := .next }
        rw [hcb] at hmod
        simp only [hck]
        refine r1234.trans (k := 1) (Runs.step hset4 ?_)
        rw [hmv4, hrel]
        simp only [hmod]
        rw [hx4, hx3, hx2, hx1]

/-- A read chunk: what it leads to once it is chosen. -/
theorem runs_readChunk {s : State} {x : Ctx} {a : BitVec 7} {len n : Nat} (hl : s.lock = .free)
    (hw : s.cfg.wf = true) (he : engineOf x.op = .i2c) (hm : x.msg = some (.read a len))
    (hn : n = rchunkLen s.cfg len x.off) {b : State} {ans : Except Err Bytes}
    (hb : s.bulk s.ctxs.length (rpkt s.cfg a n) s.cfg.maxSeg = (b, ans)) :
    match ans with
    | .error e => ∃ y, Runs s.ctxs.length 3 (s.push (x.chooseRead s.cfg len)) (b.push (Ctx.fail e y)) ∧ y.op = x.op ∧
        y.dst = x.dst
    | .ok r =>
      match checkRead x.off n r with
      | some e => ∃ y, Runs s.ctxs.length 4 (s.push (x.chooseRead s.cfg len)) (b.push (Ctx.fail e y)) ∧ y.op = x.op ∧
          y.dst = x.dst
      | none => Runs s.ctxs.length 5 (s.push (x.chooseRead s.cfg len)) (b.push { x with
          off := x.off + n, n := some n, pkt := rpkt s.cfg a n, phase := .next,
          dst := x.dst.set x.idx (memWrite (x.dst.getD x.idx []) x.off ((r.drop 1).take n)) }) := by
  have hleg := legalConfig hw
  have hni : x.op ≠ .init := fun h => by simp [h, engineOf] at he
  have hcap : n ≤ 63 := by
    have := hleg.readMax
    rw [hn, rchunkLen]
    omega
  have hsegMax := hleg.segMax
  have hseg := hleg.seg
  obtain ⟨x1, hx1⟩ : ∃ x1 : Ctx, x1 = { x with n := some n, phase := .waitLock } := ⟨_, rfl⟩
  have hx1' : x.chooseRead s.cfg len = x1 := by rw [hx1, hn]; rfl
  rw [hx1']
  -- WaitLock
  have r2 := runs_acquire (s := s) (x := x1) hl (by rw [hx1])
  -- Build
  obtain ⟨x2, hx2⟩ : ∃ x2 : Ctx, x2 = { x1 with phase := .build } := ⟨_, rfl⟩
  rw [← hx2] at r2
  obtain ⟨x3, hx3⟩ : ∃ x3 : Ctx, x3 = { x2 with pkt := rpkt s.cfg a n, phase := .xchg } := ⟨_, rfl⟩
  have h2p : x2.phase = .build := by rw [hx2]
  have h2m : x2.msg = some (.read a len) := by rw [hx2, hx1]; exact hm
  have h2n : x2.n = some n := by rw [hx2, hx1]
  have h2e : engineOf x2.op = .i2c := by rw [hx2, hx1]; exact he
  have r3 : Runs s.ctxs.length 1 (s.pushLocked x2) (s.pushLocked x3) := by
    refine Runs.step (settled_pushLocked (by rw [h2p]; rfl)) ?_
    have hpk : x2.packet (s.pushLocked x2).cfg = some (rpkt s.cfg a n) := by
      simp only [Ctx.packet, h2m, h2n]
      rfl
    simp only [move, State.pushLocked_get, h2p, moveBuild, h2e, i2cBuild, hpk, State.pushLocked_modCtx, hx3]
  have r123 := r2.trans r3
  -- Xchg
  have h3p : x3.phase = .xchg := by rw [hx3]
  have h3m : x3.msg = some (.read a len) := by rw [hx3]; exact h2m
  have h3n : x3.n = some n := by rw [hx3]; exact h2n
  have h3e : engineOf x3.op = .i2c := by rw [hx3]; exact h2e
  have h3k : x3.pkt = rpkt s.cfg a n := by rw [hx3]
  have hmid : ∀ {y : Ctx}, y.msg = some (.read a len) → y.midWrite = false := fun h1 => by simp [Ctx.midWrite, h1]
  have h3o : x3.op = x.op := by rw [hx3, hx2, hx1]
  have h3d : x3.dst = x.dst := by rw [hx3, hx2, hx1]
  have hlen := rpkt_length s.cfg a n
  have hx := exchange_pushLocked s x3 (rpkt s.cfg a n) s.cfg.maxSeg (by rw [hlen]; split <;> omega)
    (by rw [hlen, Config.scratchLen]; split <;> omega) (by rw [Config.scratchLen]; omega)
  rw [hb] at hx
  have hmv : move s.ctxs.length (s.pushLocked x3) =
      (exchange s.ctxs.length (rpkt s.cfg a n) s.cfg.maxSeg (s.pushLocked x3)).orAbort s.ctxs.length := by
    have hc : (s.pushLocked x3).cfg = s.cfg := rfl
    simp only [move, State.pushLocked_get, h3p, moveXchg, h3e, i2cXchg, h3m, h3n, h3k, hc]
  have fr := bulk_frame s s.ctxs.length (rpkt s.cfg a n) s.cfg.maxSeg
  rw [hb] at fr
  have hcb : b.ctxs.length = s.ctxs.length := by rw [show b.ctxs = s.ctxs from fr.ctxs]
  have hlb : b.lock = .free := (show b.lock = s.lock from fr.lock).trans hl
  have hset := settled_pushLocked (s := s) (x := x3) (by rw [h3p]; rfl)
  cases ans with
  | error e =>
    have hab := abort_pushLocked (s := b) (x := { x3 with phase := .xchg }) e hlb (by rw [← h3o] at hni; exact hni)
      (hmid h3m)
    rw [hcb] at hab
    refine ⟨{ x3 with phase := .xchg }, r123.trans (k := 1) (Runs.step hset ?_), h3o, h3d⟩
    rw [hmv, hx]
    exact congrArg Except.ok hab
  | ok r =>
    obtain ⟨x4, hx4⟩ : ∃ x4 : Ctx, x4 = { x3 with phase := .check } := ⟨_, rfl⟩
    have r4 : Runs s.ctxs.length 1 (s.pushLocked x3) (b.pushLocked x4) := by
      refine Runs.step hset ?_
      rw [hmv, hx, hx4]
      rfl
    have h4p : x4.phase = .check := by rw [hx4]
    have h4m : x4.msg = some (.read a len) := by rw [hx4]; exact h3m
    have h4n : x4.n = some n := by rw [hx4]; exact h3n
    have h4e : engineOf x4.op = .i2c := by rw [hx4]; exact h3e
    have h4o : x4.op = x.op := by rw [hx4]; exact h3o
    have h4d : x4.dst = x.dst := by rw [hx4]; exact h3d
    have h4off : x4.off = x.off := by rw [hx4, hx3, hx2, hx1]
    have r1234 := r123.trans r4
    have hset4 := settled_pushLocked (s := b) (x := x4) (by rw [h4p]; rfl)
    rw [hcb] at hset4
    have hget := State.pushLocked_get b x4
    rw [hcb] at hget
    have hrep : (b.pushLocked x4).reply = some r := bulk_reply (s1 := b) (by omega) hb
    have hmv4 : move s.ctxs.length (b.pushLocked x4) =
        match checkRead x.off n r with
        | some e => .ok (abort s.ctxs.length e (b.pushLocked x4))
        | none => .ok ((b.pushLocked x4).setPhase s.ctxs.length .commit) := by
      simp only [move, hget, h4p, moveCheck, h4e, i2cCheck, h4m, h4n, hrep, h4off]
      all_goals rfl
    cases hck : checkRead x.off n r with
    | some e =>
      simp only [hck] at hmv4
      have hab := abort_pushLocked (s := b) (x := x4) e hlb (by rw [h4o]; exact hni) (hmid h4m)
      rw [hcb] at hab
      simp only [hck]
      exact ⟨x4, r1234.trans (k := 1) (Runs.step hset4 (by rw [hmv4, hab])), h4o, h4d⟩
    | none =>
      simp only [hck] at hmv4
      obtain ⟨x5, hx5⟩ : ∃ x5 : Ctx, x5 = { x4 with phase := .commit } := ⟨_, rfl⟩
      have r5 : Runs s.ctxs.length 1 (b.pushLocked x4) (b.pushLocked x5) := by
        refine Runs.step hset4 ?_
        have hmod := State.pushLocked_modCtx b x4 fun x => { x with phase := .commit }
        rw [hcb] at hmod
        rw [hmv4, hx5]
        exact congrArg Except.ok hmod
      have h5p : x5.phase = .commit := by rw [hx5]
      have h5m : x5.msg = some (.read a len) := by rw [hx5]; exact h4m
      have h5n : x5.n = some n := by rw [hx5]; exact h4n
      have h5e : engineOf x5.op = .i2c := by rw [hx5]; exact h4e
      have hget5 := State.pushLocked_get b x5
      rw [hcb] at hget5
      have hrep5 : (b.pushLocked x5).reply = some r := hrep
      have hrel := release_pushLocked (s := b) (x := x5) hlb
      rw [hcb] at hrel
      have hmod := State.push_modCtx b x5 fun x =>
        { x with
          dst := x.dst.set x.idx (memWrite (x.dst.getD x.idx []) x.off ((r.drop 1).take n))
          off := x.off + n
          phase := .next }
      rw [hcb] at hmod
      have hset5 := settled_pushLocked (s := b) (x := x5) (by rw [h5p]; rfl)
      rw [hcb] at hset5
      simp only [hck]
      refine (r1234.trans r5).trans (k := 1) (Runs.step hset5 ?_)
      simp only [move, hget5, h5p, moveCommit, h5e, i2cCommit, h5m, h5n, hrep5, hrel, hmod]
      rw [hx5, hx4, hx3, hx2, hx1]

/-- What the loops leave alone: the contexts, the lock, the parameters, and everything outside the exchanges. -/
theorem BulkFrame.refl (s : State) : BulkFrame s s := by constructor <;> rfl

theorem BulkFrame.trans {s t u : State} (h1 : BulkFrame s t) (h2 : BulkFrame t u) : BulkFrame s u :=
  ⟨h2.cfg.trans h1.cfg, h2.sstate.trans h1.sstate, h2.regHandle.trans h1.regHandle, h2.lock.trans h1.lock,
    h2.gpo.trans h1.gpo, h2.gpi.trans h1.gpi, h2.gpiValid.trans h1.gpiValid, h2.ctxs.trans h1.ctxs,
    h2.hostLog.trans h1.hostLog, h2.cur.trans h1.cur, h2.port.trans h1.port, h2.dstPort.trans h1.dstPort,
    h2.regs.trans h1.regs, h2.quanta.trans h1.quanta⟩

theorem bulk_frame' {s b : State} {c : Nat} {o : Bytes} {m : Nat} {ans : Except Err Bytes} (h : s.bulk c o m = (b, ans)) :
    BulkFrame s b := by
  have := bulk_frame s c o m
  rw [h] at this
  exact this

theorem BulkFrame.abortedIn {s b : State} (h : BulkFrame s b) (ch : Chunk) : BulkFrame s (b.abortedIn ch) :=
  h.trans (by constructor <;> rfl)

theorem writeLoop_frame (c : Nat) (a : BitVec 7) (src : Bytes) (chs : List Chunk) (s : State) :
    BulkFrame s (writeLoop c a src chs s).1 := by
  induction chs generalizing s with
  | nil => exact BulkFrame.refl s
  | cons ch chs ih =>
    simp only [writeLoop]
    split
    · exact (bulk_frame' ‹_›).abortedIn ch
    · split
      · exact (bulk_frame' ‹_›).abortedIn ch
      · split
        · exact (bulk_frame' ‹_›).abortedIn ch
        · exact (bulk_frame' ‹_›).trans (ih _)

theorem readLoop_frame (c : Nat) (a : BitVec 7) (chs : List (Nat × Nat)) (dst : Memory) (s : State) :
    BulkFrame s (readLoop c a chs dst s).1.1 := by
  induction chs generalizing s dst with
  | nil => exact BulkFrame.refl s
  | cons ch chs ih =>
    simp only [readLoop]
    split
    · exact bulk_frame' ‹_›
    · split
      · exact bulk_frame' ‹_›
      · split
        · exact bulk_frame' ‹_›
        · exact (bulk_frame' ‹_›).trans (ih _ _)

theorem msgRule_frame (c idx : Nat) (m : Msg) (dst : Memory) (s : State) : BulkFrame s (msgRule c idx m dst s).1.1 := by
  cases m with
  | write a src => exact writeLoop_frame c a src _ s
  | read a len => exact readLoop_frame c a _ dst s
  | ten rd a len p => exact BulkFrame.refl s

/-- A context that failed with `e`, or stands in `Next` to go on. -/
def Ctx.Stands (y x : Ctx) (e : Option Err) : Prop :=
  y.op = x.op ∧
    match e with
    | some e => y.phase = .failed e ∧ y.res = some (abortResult x.op e)
    | none => y.phase = .next ∧ y.idx = x.idx ∧ y.res = x.res

theorem Ctx.stands_fail {y x : Ctx} (e : Err) (h : y.op = x.op) : (Ctx.fail e y).Stands x (some e) :=
  ⟨h, rfl, by simp [Ctx.fail, h]⟩

/-- The write loop from any chunk on, once it is chosen. -/
theorem runs_writeLoop {a : BitVec 7} {src : Bytes} : ∀ (fuel : Nat) (s : State) (x : Ctx), s.lock = .free →
    s.cfg.wf = true → engineOf x.op = .i2c → x.msg = some (.write a src) → x.off ≤ src.length →
    src.length - x.off < fuel → (x.first = true ∨ x.off < src.length) →
    ∃ k y, k ≤ 5 * max 1 (src.length - x.off) ∧
      Runs s.ctxs.length k (s.push (x.chooseWrite s.cfg src))
        ((writeLoop s.ctxs.length a src (wchunksFrom s.cfg src.length fuel x.off x.first) s).1.push y) ∧
      y.dst = x.dst ∧
      y.Stands x (writeLoop s.ctxs.length a src (wchunksFrom s.cfg src.length fuel x.off x.first) s).2 ∧
      (y.phase = .next → y.first = false ∧ y.off = src.length) := by
  intro fuel
  induction fuel with
  | zero => intro s x _ _ _ _ _ h; omega
  | succ fuel ih =>
    intro s x hl hw he hm hoff hfuel hne
    have hleg := legalConfig hw
    obtain ⟨ch, hch⟩ : ∃ ch, ch = wchunkAt s.cfg src.length x.off x.first := ⟨_, rfl⟩
    have hch' : wchunkAt s.cfg src.length (x.off) x.first = ch := hch.symm
    have hcoff : ch.off = x.off := by rw [hch]; rfl
    have hcfirst : ch.first = x.first := by rw [hch]; rfl
    have hcn : ch.n = min (src.length - (x.off)) (if x.first then s.cfg.wchunkFirst else s.cfg.wchunkCont) := by
      rw [hch]; rfl
    have hclast : ch.last = decide (ch.off + ch.n = src.length) := by rw [hch]; rfl
    have hpos : ch.first = true ∨ 1 ≤ ch.n := by
      rw [hcfirst]
      rcases hne with h | h
      · exact .inl h
      · right
        rw [hcn]
        have h1 := hleg.firstPos
        have h2 := hleg.contPos
        split <;> omega
    have hn1 : x.off < src.length → 1 ≤ ch.n := by
      intro h
      rw [hcn]
      have h1 := hleg.firstPos
      have h2 := hleg.contPos
      split <;> omega
    obtain ⟨m, hmm⟩ : ∃ m, m = writeReplyLen ch.n ch.first := ⟨_, rfl⟩
    simp only [wchunksFrom, hch']
    have hlist : ∃ rest, (if ch.last then [ch] else ch :: wchunksFrom s.cfg src.length fuel (x.off + ch.n) false)
        = ch :: rest ∧ (ch.last = true → rest = []) ∧
          (ch.last = false → rest = wchunksFrom s.cfg src.length fuel (x.off + ch.n) false) := by
      cases ch.last with
      | true => exact ⟨[], by simp⟩
      | false => exact ⟨_, rfl, by simp, fun _ => rfl⟩
    obtain ⟨rest, hrest, hrl, hrf⟩ := hlist
    rw [hrest]
    have hnle : x.off + ch.n ≤ src.length := by rw [hcn]; omega
    cases hb : s.bulk s.ctxs.length (wpkt a src ch.off ch.n ch.first ch.last) (writeReplyLen ch.n ch.first) with
    | mk b ans =>
    have hchunk := runs_writeChunk hl hw he hm hch (by omega) hpos hb
    have fr := bulk_frame' hb
    cases ans with
    | error e =>
      obtain ⟨y, hr, hyo, hyd⟩ := hchunk
      refine ⟨3, Ctx.fail e y, by omega, ?_, hyd, ?_, fun h => by simp [Ctx.fail] at h⟩
      · simpa only [writeLoop, hb] using hr
      · simpa only [writeLoop, hb] using Ctx.stands_fail e hyo
    | ok r =>
      simp only at hchunk
      by_cases hlen : r.length = (writeReplyLen ch.n ch.first)
      · have hck : checkWrite ch.off (writeReplyLen ch.n ch.first) r = (firstNack r).map fun i => .nackError ch.off i := by
          unfold checkWrite
          rw [if_neg (by simpa using hlen)]
        rw [hck] at hchunk
        cases hnack : firstNack r with
        | some i =>
          rw [hnack] at hchunk
          obtain ⟨y, hr, hyo, hyd⟩ := hchunk
          refine ⟨4, Ctx.fail (.nackError ch.off i) y, by omega, ?_, hyd, ?_, fun h => by simp [Ctx.fail] at h⟩
          · simpa only [writeLoop, hb, hlen, ne_eq, not_true_eq_false, if_false, hnack] using hr
          · simpa only [writeLoop, hb, hlen, ne_eq, not_true_eq_false, if_false, hnack] using Ctx.stands_fail _ hyo
        | none =>
          rw [hnack] at hchunk
          simp only [Option.map_none] at hchunk
          simp only [writeLoop, hb, hlen, ne_eq, not_true_eq_false, if_false, hnack]
          cases hcl : ch.last with
          | true =>
            rw [hrl hcl]
            refine ⟨4, _, by omega, hchunk, rfl, ⟨rfl, rfl, rfl, rfl⟩, fun _ => ⟨rfl, ?_⟩⟩
            rw [hcl, eq_comm, decide_eq_true_eq] at hclast
            rw [← hcoff]
            exact hclast
          | false =>
            rw [hrf hcl]
            have hnlast : ch.off + ch.n ≠ src.length := by
              intro h
              rw [hclast, h] at hcl
              simp at hcl
            obtain ⟨x', hx'⟩ : ∃ x' : Ctx, x' = { x with
              off := x.off + ch.n, n := some ch.n, last := some ch.last, first := false,
              pkt := wpkt a src ch.off ch.n ch.first ch.last, phase := .next } := ⟨_, rfl⟩
            rw [← hx'] at hchunk
            have hxo : x'.off = x.off + ch.n := by rw [hx']
            have hxf : x'.first = false := by rw [hx']
            have hxm : x'.msg = some (.write a src) := by rw [hx']; exact hm
            have hxe : engineOf x'.op = .i2c := by rw [hx']; exact he
            have hne' : ¬ (x'.first = false ∧ x'.off = src.length) := by rw [hxo]; omega
            have hlb : b.lock = .free := fr.lock.trans hl
            have hchoose : Runs b.ctxs.length 1 (b.push x') (b.push (x'.chooseWrite b.cfg src)) := by
              refine Runs.step (settled_push (by rw [hx']; rfl) hlb) ?_
              have hc : (b.push x').cfg = b.cfg := rfl
              have hxp : x'.phase = .next := by rw [hx']
              simp only [move, State.push_get, hxp, moveNext, hxe, i2cNext, hxm, hne', if_false, State.push_modCtx, hc]
            have := ih b x' hlb (by rw [fr.cfg]; exact hw) hxe hxm (by rw [hxo]; exact hnle)
              (by rw [hxo]; omega) (.inr (by rw [hxo]; omega))
            rw [hxo, hxf, fr.cfg, fr.ctxs] at this
            rw [fr.ctxs, fr.cfg] at hchoose
            obtain ⟨k, y, hk, hr, hyd, hst, hyl⟩ := this
            refine ⟨4 + 1 + k, y, ?_, (hchunk.trans hchoose).trans hr, by rw [hyd, hx'], ?_, hyl⟩
            · by_cases h0 : x.off < src.length
              · have := hn1 h0
                omega
              · omega
            · rw [hx'] at hst
              exact hst
      · have hck : checkWrite ch.off (writeReplyLen ch.n ch.first) r =
            some (.protocolError ch.off (writeReplyLen ch.n ch.first) r.length) := by
          unfold checkWrite
          rw [if_pos (by simpa using hlen)]
        rw [hck] at hchunk
        obtain ⟨y, hr, hyo, hyd⟩ := hchunk
        refine ⟨4, Ctx.fail (.protocolError ch.off (writeReplyLen ch.n ch.first) r.length) y, by omega, ?_, hyd, ?_,
          fun h => by simp [Ctx.fail] at h⟩
        · simpa only [writeLoop, hb, ne_eq, hlen, not_false_eq_true, if_true] using hr
        · simpa only [writeLoop, hb, ne_eq, hlen, not_false_eq_true, if_true] using Ctx.stands_fail _ hyo

theorem checkRead_eq {off n : Nat} {r : Bytes} (h : r.length = n + 1) :
    checkRead off n r = if r.head? = some Config.ack then none else some (.nackError off 0) := by
  unfold checkRead
  rw [if_neg (by simpa using h)]
  cases r with
  | nil => simp at h
  | cons b r => by_cases hb : b = Config.ack <;> simp [isAck, hb]

/-- The read loop from any chunk on, once it is chosen. -/
theorem runs_readLoop {a : BitVec 7} {len : Nat} : ∀ (fuel : Nat) (s : State) (x : Ctx) (dpre : List Memory) (d : Memory)
    (dpost : List Memory), s.lock = .free → s.cfg.wf = true → engineOf x.op = .i2c → x.msg = some (.read a len) →
    x.off < len → len - x.off < fuel → x.dst = dpre ++ d :: dpost → x.idx = dpre.length →
    ∃ k y, k ≤ 6 * (len - x.off) ∧
      Runs s.ctxs.length k (s.push (x.chooseRead s.cfg len))
        ((readLoop s.ctxs.length a (rchunksFrom s.cfg len fuel x.off) d s).1.1.push y) ∧
      y.dst = dpre ++ (readLoop s.ctxs.length a (rchunksFrom s.cfg len fuel x.off) d s).1.2 :: dpost ∧
      y.Stands x (readLoop s.ctxs.length a (rchunksFrom s.cfg len fuel x.off) d s).2 ∧
      (y.phase = .next → ¬ y.off < len) := by
  intro fuel
  induction fuel with
  | zero => intro s x _ _ _ _ _ _ _ _ h; omega
  | succ fuel ih =>
    intro s x dpre d dpost hl hw he hm hlt hfuel hdst hidx
    have hleg := legalConfig hw
    · obtain ⟨n, hn⟩ : ∃ n, n = rchunkLen s.cfg len x.off := ⟨_, rfl⟩
      simp only [rchunksFrom, hlt, if_true, ← hn]
      have hn1 : 1 ≤ n := by
        have := hleg.readPos
        rw [hn, rchunkLen]
        omega
      have hnle : x.off + n ≤ len := by rw [hn, rchunkLen]; omega
      cases hb : s.bulk s.ctxs.length (rpkt s.cfg a n) s.cfg.maxSeg with
      | mk b ans =>
      have hchunk := runs_readChunk hl hw he hm hn hb
      have fr := bulk_frame' hb
      cases ans with
      | error e =>
        obtain ⟨y, hr, hyo, hyd⟩ := hchunk
        refine ⟨3, Ctx.fail e y, by omega, ?_, ?_, ?_, fun h => by simp [Ctx.fail] at h⟩
        · simpa only [readLoop, hb] using hr
        · show y.dst = _
          simpa only [readLoop, hb, hdst] using hyd
        · simpa only [readLoop, hb] using Ctx.stands_fail e hyo
      | ok r =>
        simp only at hchunk
        by_cases hlen : r.length = n + 1
        · rw [checkRead_eq hlen] at hchunk
          by_cases hack : r.head? = some Config.ack
          · rw [if_pos hack] at hchunk
            simp only at hchunk
            have htake : (r.drop 1).take n = r.drop 1 := List.take_of_length_le (by simp [hlen])
            have hset : x.dst.set x.idx (memWrite (x.dst.getD x.idx []) x.off ((r.drop 1).take n)) =
                dpre ++ memWrite d x.off (r.drop 1) :: dpost := by
              rw [hdst, hidx, htake]
              simp
            rw [hset] at hchunk
            obtain ⟨x', hx'⟩ : ∃ x' : Ctx, x' = { x with
              off := x.off + n, n := some n, pkt := rpkt s.cfg a n, phase := .next,
              dst := dpre ++ memWrite d x.off (r.drop 1) :: dpost } := ⟨_, rfl⟩
            rw [← hx'] at hchunk
            have hxo : x'.off = x.off + n := by rw [hx']
            have hlb : b.lock = .free := fr.lock.trans hl
            have hxm : x'.msg = some (.read a len) := by rw [hx']; exact hm
            have hxe : engineOf x'.op = .i2c := by rw [hx']; exact he
            have hxd : x'.dst = dpre ++ memWrite d x.off (r.drop 1) :: dpost := by rw [hx']
            simp only [readLoop, hb, hlen, ne_eq, not_true_eq_false, if_false, hack]
            by_cases hmore : x.off + n < len
            · have hchoose : Runs b.ctxs.length 1 (b.push x') (b.push (x'.chooseRead b.cfg len)) := by
                refine Runs.step (settled_push (by rw [hx']; rfl) hlb) ?_
                have hc : (b.push x').cfg = b.cfg := rfl
                have hxp : x'.phase = .next := by rw [hx']
                have hlt' : x'.off < len := by rw [hxo]; exact hmore
                simp only [move, State.push_get, hxp, moveNext, hxe, i2cNext, hxm, hlt', if_true, State.push_modCtx, hc]
              have := ih b x' dpre (memWrite d x.off (r.drop 1)) dpost hlb (by rw [fr.cfg]; exact hw) hxe hxm
                (by rw [hxo]; exact hmore) (by rw [hxo]; omega) hxd (by rw [hx']; exact hidx)
              rw [hxo, fr.cfg, fr.ctxs] at this
              rw [fr.cfg, fr.ctxs] at hchoose
              obtain ⟨k, y, hk, hr, hyd, hst, hyl⟩ := this
              refine ⟨5 + 1 + k, y, by omega, (hchunk.trans hchoose).trans hr, hyd, ?_, hyl⟩
              rw [hx'] at hst
              exact hst
            · rw [rchunksFrom_end fuel (show len ≤ x.off + n by omega)]
              refine ⟨5, x', by omega, hchunk, hxd, ?_, fun _ => by rw [hxo]; exact hmore⟩
              rw [hx']
              exact ⟨rfl, rfl, rfl, rfl⟩
          · rw [if_neg hack] at hchunk
            obtain ⟨y, hr, hyo, hyd⟩ := hchunk
            refine ⟨4, Ctx.fail (.nackError x.off 0) y, by omega, ?_, ?_, ?_, fun h => by simp [Ctx.fail] at h⟩
            · simpa only [readLoop, hb, hlen, ne_eq, not_true_eq_false, if_false, hack, not_false_eq_true, if_true] using hr
            · show y.dst = _
              simpa only [readLoop, hb, hlen, ne_eq, not_true_eq_false, if_false, hack, not_false_eq_true, if_true, hdst]
                using hyd
            · simpa only [readLoop, hb, hlen, ne_eq, not_true_eq_false, if_false, hack, not_false_eq_true, if_true]
                using Ctx.stands_fail _ hyo
        · have hck : checkRead x.off n r = some (.protocolError x.off (n + 1) r.length) := by
            unfold checkRead
            rw [if_pos (by simpa using hlen)]
          rw [hck] at hchunk
          obtain ⟨y, hr, hyo, hyd⟩ := hchunk
          refine ⟨4, Ctx.fail (.protocolError x.off (n + 1) r.length) y, by omega, ?_, ?_, ?_,
            fun h => by simp [Ctx.fail] at h⟩
          · simpa only [readLoop, hb, ne_eq, hlen, not_false_eq_true, if_true] using hr
          · show y.dst = _
            simpa only [readLoop, hb, ne_eq, hlen, not_false_eq_true, if_true, hdst] using hyd
          · simpa only [readLoop, hb, ne_eq, hlen, not_false_eq_true, if_true] using Ctx.stands_fail _ hyo

/-- The batch loop from any message on (41_i2c.md R104): it ends with the result, or with the error of the first message
that failed. -/
theorem runs_batchLoop {op : Instr} (he : engineOf op = .i2c) : ∀ (ms pre : List Msg) (s : State) (x : Ctx)
    (dpre ds : List Memory), msgsOf op = pre ++ ms → s.lock = .free → s.cfg.wf = true → x.op = op → x.dst = dpre ++ ds →
    dpre.length = pre.length → ds.length = ms.length →
    ∃ k y, k ≤ (ms.map msgBound).sum ∧
      Runs s.ctxs.length k (beginMsgs s.ctxs.length (xferResult op) pre.length ms (s.push x))
        ((batchLoop s.ctxs.length pre.length ms ds s).1.1.push y) ∧
      y.dst = dpre ++ (batchLoop s.ctxs.length pre.length ms ds s).1.2 ∧
      y.EndedWith op (xferResult op) (batchLoop s.ctxs.length pre.length ms ds s).2 := by
  intro ms
  induction ms with
  | nil =>
    intro pre s x dpre ds hms hl hw hxo hxd hdp hds
    refine ⟨0, x.finish (xferResult op), by simp, ?_, hxd, ⟨hxo, rfl, rfl⟩⟩
    simp only [beginMsgs, complete, State.push_modCtx, batchLoop]
    exact Runs.refl _ _
  | cons m ms ih =>
    intro pre s x dpre ds hms hl hw hxo hxd hdp hds
    cases ds with
    | nil => simp at hds
    | cons d ds =>
    obtain ⟨x0, hx0⟩ : ∃ x0, x0 = x.enter pre.length := ⟨_, rfl⟩
    have h0o : x0.op = op := by rw [hx0]; exact hxo
    have h0i : x0.idx = pre.length := by rw [hx0]; rfl
    have h0f : x0.off = 0 := by rw [hx0]; rfl
    have h0d : x0.dst = dpre ++ d :: ds := by rw [hx0]; exact hxd
    have hni : op ≠ .init := fun h => by simp [h, engineOf] at he
    have hm : ∀ {y : Ctx}, y.op = op → y.idx = pre.length → y.msg = some m := fun h1 h2 => by
      rw [Ctx.msg, h1, h2, hms]
      simp
    -- a message that went well, and the rest of the batch
    have hgo : ∀ (s1 : State) (y : Ctx) (d1 : Memory) (k : Nat), BulkFrame s s1 → y.op = op →
        y.dst = dpre ++ d1 :: ds → k ≤ msgBound m →
        Runs s.ctxs.length k (beginMsgs s.ctxs.length (xferResult op) pre.length (m :: ms) (s.push x))
          (beginMsgs s.ctxs.length (xferResult op) (pre.length + 1) ms (s1.push y)) →
        msgRule s.ctxs.length pre.length m d s = ((s1, d1), none) →
        ∃ k y, k ≤ ((m :: ms).map msgBound).sum ∧
          Runs s.ctxs.length k (beginMsgs s.ctxs.length (xferResult op) pre.length (m :: ms) (s.push x))
            ((batchLoop s.ctxs.length pre.length (m :: ms) (d :: ds) s).1.1.push y) ∧
          y.dst = dpre ++ (batchLoop s.ctxs.length pre.length (m :: ms) (d :: ds) s).1.2 ∧
          y.EndedWith op (xferResult op) (batchLoop s.ctxs.length pre.length (m :: ms) (d :: ds) s).2 := by
      intro s1 y d1 k fr hyo hyd hk hrun hrule
      have := ih (pre ++ [m]) s1 y (dpre ++ [d1]) ds (by rw [hms]; simp) (fr.lock.trans hl) (by rw [fr.cfg]; exact hw) hyo
        (by rw [hyd]; simp) (by simp [hdp]) (by simpa using hds)
      rw [fr.ctxs] at this
      simp only [List.length_append, List.length_cons, List.length_nil, Nat.zero_add] at this
      obtain ⟨j, z, hj, hrz, hzd, hze⟩ := this
      simp only [batchLoop, List.headD_cons, List.tail_cons, hrule, List.map_cons, List.sum_cons]
      exact ⟨k + j, z, by omega, hrun.trans hrz, by rw [hzd]; simp, hze⟩
    -- a message that failed ends the batch
    have hstop : ∀ (s1 : State) (y : Ctx) (d1 : Memory) (k : Nat) (e : Err), y.EndedWith op (xferResult op) (some e) →
        y.dst = dpre ++ d1 :: ds → k ≤ msgBound m →
        Runs s.ctxs.length k (beginMsgs s.ctxs.length (xferResult op) pre.length (m :: ms) (s.push x)) (s1.push y) →
        msgRule s.ctxs.length pre.length m d s = ((s1, d1), some e) →
        ∃ k y, k ≤ ((m :: ms).map msgBound).sum ∧
          Runs s.ctxs.length k (beginMsgs s.ctxs.length (xferResult op) pre.length (m :: ms) (s.push x))
            ((batchLoop s.ctxs.length pre.length (m :: ms) (d :: ds) s).1.1.push y) ∧
          y.dst = dpre ++ (batchLoop s.ctxs.length pre.length (m :: ms) (d :: ds) s).1.2 ∧
          y.EndedWith op (xferResult op) (batchLoop s.ctxs.length pre.length (m :: ms) (d :: ds) s).2 := by
      intro s1 y d1 k e hye hyd hk hrun hrule
      simp only [batchLoop, List.headD_cons, List.tail_cons, hrule, List.map_cons, List.sum_cons]
      exact ⟨k, y, by omega, hrun, hyd, hye⟩
    -- the move that goes on to the next message
    have hnext : ∀ (s1 : State) (y : Ctx), BulkFrame s s1 → y.op = op → y.idx = pre.length → y.phase = .next →
        i2cNext s.ctxs.length y (s1.push y) = i2cNextMsg s.ctxs.length y (s1.push y) →
        Runs s.ctxs.length 1 (s1.push y) (beginMsgs s.ctxs.length (xferResult op) (pre.length + 1) ms (s1.push y)) := by
      intro s1 y fr hyo hyi hyp hnx
      have hset := settled_push (s := s1) (x := y) (by rw [hyp]; rfl) (fr.lock.trans hl)
      have hg := State.push_get s1 y
      rw [fr.ctxs] at hset hg
      refine Runs.step hset ?_
      have hdrop : (msgsOf op).drop (pre.length + 1) = ms := by rw [hms]; simp
      simp only [move, hg, hyp, moveNext, hyo, he, hnx, i2cNextMsg, hyi, hdrop]
    have hmod := fun f => State.push_modCtx s x f
    cases m with
    | ten rd a len p =>
      refine hstop s ((x0).fail (.invalidArgument (.tenBitAddress pre.length))) d 0 _ ⟨h0o, rfl, ?_⟩ h0d (by omega) ?_ rfl
      · show some (abortResult x0.op _) = _
        rw [h0o]
      · simp only [beginMsgs, hmod, ← hx0]
        rw [abort_push _ hl (by rw [h0o]; exact hni)]
        exact Runs.refl _ _
    | write a src =>
      obtain ⟨x1, hx1⟩ : ∃ x1 : Ctx, x1 = { x0 with first := true } := ⟨_, rfl⟩
      have h1o : x1.op = op := by rw [hx1]; exact h0o
      have h1i : x1.idx = pre.length := by rw [hx1]; exact h0i
      have h1f : x1.off = 0 := by rw [hx1]; exact h0f
      have h1t : x1.first = true := by rw [hx1]
      obtain ⟨k, y, hk, hr, hyd, hst, hyl⟩ := runs_writeLoop (src.length + 1) s x1 hl hw (by rw [h1o]; exact he) (hm h1o h1i)
        (by rw [h1f]; omega) (by rw [h1f]; omega) (.inl h1t)
      have hbeg : beginMsgs s.ctxs.length (xferResult op) pre.length (.write a src :: ms) (s.push x) =
          s.push (x1.chooseWrite s.cfg src) := by
        rw [hx1, hx0]
        exact hmod _
      rw [h1f] at hk
      rw [h1f, h1t] at hr hst
      rw [← hbeg] at hr
      have hyd' : y.dst = dpre ++ d :: ds := by rw [hyd, hx1]; exact h0d
      have hb : k + 1 ≤ msgBound (.write a src) := by simp only [msgBound, Msg.length]; omega
      obtain ⟨s1, hs1⟩ : ∃ s1, s1 = (writeLoop s.ctxs.length a src (wchunksFrom s.cfg src.length (src.length + 1) 0 true) s).1 :=
        ⟨_, rfl⟩
      have fr := writeLoop_frame s.ctxs.length a src (wchunksFrom s.cfg src.length (src.length + 1) 0 true) s
      rw [← hs1] at hr fr
      cases hw2 : (writeLoop s.ctxs.length a src (wchunksFrom s.cfg src.length (src.length + 1) 0 true) s).2 with
      | some e =>
        rw [hw2] at hst
        refine hstop s1 y d k e ⟨hst.1.trans h1o, hst.2.1, hst.2.2.trans (congrArg (fun o => some (abortResult o e)) h1o)⟩ hyd' (by omega) hr ?_
        show ((_, _), _) = _
        rw [hs1, ← hw2]
        rfl
      | none =>
        rw [hw2] at hst
        have hyo := hst.1.trans h1o
        have hyi := hst.2.2.1.trans h1i
        refine hgo s1 y d (k + 1) fr hyo hyd' hb (hr.trans (hnext s1 y fr hyo hyi hst.2.1 ?_)) ?_
        · simp only [i2cNext, hm hyo hyi, hyl hst.2.1, and_self, if_true]
        · show ((_, _), _) = _
          rw [hs1, ← hw2]
          rfl
    | read a len =>
      by_cases hlen : 0 < len
      · obtain ⟨k, y, hk, hr, hyd, hst, hyl⟩ := runs_readLoop (len + 1) s x0 dpre d ds hl hw (by rw [h0o]; exact he)
          (hm h0o h0i) (by rw [h0f]; exact hlen) (by rw [h0f]; omega) h0d (by rw [h0i, hdp])
        have hbeg : beginMsgs s.ctxs.length (xferResult op) pre.length (.read a len :: ms) (s.push x) =
            s.push (x0.chooseRead s.cfg len) := by
          simp only [beginMsgs, hlen, if_true]
          rw [hx0]
          exact hmod _
        rw [h0f] at hk hr hst hyd
        rw [← hbeg] at hr
        have hb : k + 1 ≤ msgBound (.read a len) := by simp only [msgBound, Msg.length]; omega
        obtain ⟨q, hq⟩ : ∃ q, q = readLoop s.ctxs.length a (rchunksFrom s.cfg len (len + 1) 0) d s := ⟨_, rfl⟩
        have fr := readLoop_frame s.ctxs.length a (rchunksFrom s.cfg len (len + 1) 0) d s
        have hrule : msgRule s.ctxs.length pre.length (.read a len) d s = q := hq.symm
        rw [← hq] at hr hst hyd fr
        obtain ⟨⟨s1, d1⟩, e⟩ := q
        cases e with
        | some e =>
          exact hstop s1 y d1 k e ⟨hst.1.trans h0o, hst.2.1, hst.2.2.trans (congrArg (fun o => some (abortResult o e)) h0o)⟩ hyd (by omega) hr hrule
        | none =>
          have hyo := hst.1.trans h0o
          have hyi := hst.2.2.1.trans h0i
          refine hgo s1 y d1 (k + 1) fr hyo hyd hb (hr.trans (hnext s1 y fr hyo hyi hst.2.1 ?_)) hrule
          simp only [i2cNext, hm hyo hyi, hyl hst.2.1, if_false]
      · have hz : len = 0 := by omega
        have hbeg : beginMsgs s.ctxs.length (xferResult op) pre.length (.read a len :: ms) (s.push x) =
            beginMsgs s.ctxs.length (xferResult op) (pre.length + 1) ms (s.push x0) := by
          simp only [beginMsgs, hlen, if_false]
          rw [hx0]
          exact congrArg _ (hmod _)
        refine hgo s x0 d 0 (BulkFrame.refl s) h0o h0d (by omega) ?_ ?_
        · rw [hbeg]
          exact Runs.refl _ _
        · rw [hz]
          rfl

theorem batchLoop_frame (c idx : Nat) (ms : List Msg) (ds : List Memory) (s : State) :
    BulkFrame s (batchLoop c idx ms ds s).1.1 := by
  induction ms generalizing idx ds s with
  | nil => exact BulkFrame.refl s
  | cons m ms ih =>
    have fr := msgRule_frame c idx m (ds.headD []) s
    simp only [batchLoop]
    split
    · rename_i h; rw [h] at fr; exact fr
    · rename_i h; rw [h] at fr; exact fr.trans (ih _ _ _)

/-- An exchange does not look at the DST buffers waiting, nor do the loops. -/
theorem batchLoop_dstPort (c : Nat) (dp : List Memory) : ∀ (ms : List Msg) (idx : Nat) (ds : List Memory) (s : State),
    batchLoop c idx ms ds { s with dstPort := dp } =
      (({ (batchLoop c idx ms ds s).1.1 with dstPort := dp }, (batchLoop c idx ms ds s).1.2), (batchLoop c idx ms ds s).2) := by
  have hw : ∀ a src chs (s : State), writeLoop c a src chs { s with dstPort := dp } =
      ({ (writeLoop c a src chs s).1 with dstPort := dp }, (writeLoop c a src chs s).2) := by
    intro a src chs
    induction chs with
    | nil => intro s; rfl
    | cons ch chs ih =>
      intro s
      simp only [writeLoop, bulk_dstPort]
      cases s.bulk c (wpkt a src ch.off ch.n ch.first ch.last) (writeReplyLen ch.n ch.first) with
      | mk b ans =>
        cases ans with
        | error e => rfl
        | ok r =>
          simp only
          split
          · rfl
          · split
            · rfl
            · exact ih b
  have hr : ∀ a chs d (s : State), readLoop c a chs d { s with dstPort := dp } =
      (({ (readLoop c a chs d s).1.1 with dstPort := dp }, (readLoop c a chs d s).1.2), (readLoop c a chs d s).2) := by
    intro a chs
    induction chs with
    | nil => intro d s; rfl
    | cons ch chs ih =>
      intro d s
      simp only [readLoop, bulk_dstPort]
      cases s.bulk c (rpkt s.cfg a ch.2) s.cfg.maxSeg with
      | mk b ans =>
        cases ans with
        | error e => rfl
        | ok r =>
          simp only
          split
          · rfl
          · split
            · rfl
            · exact ih _ b
  have hm : ∀ idx m d (s : State), msgRule c idx m d { s with dstPort := dp } =
      (({ (msgRule c idx m d s).1.1 with dstPort := dp }, (msgRule c idx m d s).1.2), (msgRule c idx m d s).2) := by
    intro idx m d s
    cases m with
    | write a src => simp only [msgRule, hw]
    | read a len => exact hr a _ d s
    | ten rd a len p => rfl
  intro ms
  induction ms with
  | nil => intro idx ds s; rfl
  | cons m ms ih =>
    intro idx ds s
    simp only [batchLoop, hm]
    cases msgRule c idx m (ds.headD []) s with
    | mk sd e =>
      obtain ⟨s1, d1⟩ := sd
      cases e with
      | some e => rfl
      | none => simp only [ih]

/-- An I2C operation, run through, does what its rule says. -/
theorem i2c_submit {s : State} {op : Instr} (hr : s.Ready) (he : engineOf op = .i2c) :
    ∃ x, submit op s = .next ((i2cRule op s).1.1.withCtx x) ∧ x.EndedWith op (xferResult op) (i2cRule op s).2 ∧
      x.dst = (i2cRule op s).1.2 := by
  have hni : op ≠ .init := fun h => by simp [h, engineOf] at he
  have hff : isFireAndForget op = false := by cases op <;> simp_all [engineOf, isFireAndForget]
  obtain ⟨s0, hs0⟩ : ∃ s0 : State, s0 = { s with dstPort := [] } := ⟨_, rfl⟩
  have hc0 : s0.ctxs.length = s.ctxs.length := by rw [hs0]
  have hl0 : s0.lock = .free := by rw [hs0]; exact hr.lock
  have hcfg0 : s0.cfg = s.cfg := by rw [hs0]
  obtain ⟨x0, hx0⟩ : ∃ x0, x0 = newCtx op (dstFor op s.dstPort) := ⟨_, rfl⟩
  have hxp : x0.phase = .admitting := by rw [hx0]; rfl
  have hxo : x0.op = op := by rw [hx0]; rfl
  have hrun : runCtx s.ctxs.length (s.admitOp op) = drive (moveBound op) s.ctxs.length (s0.push x0) := by
    have hq' : (s0.push x0).quanta = [] := by rw [hs0]; exact hr.quanta
    have hadm : s.admitOp op = s0.push x0 := by rw [hs0, hx0]; rfl
    rw [hadm, ← hc0]
    unfold runCtx
    rw [hq']
    simp only [State.push_get, hxo]
  have hlen : (dstFor op s.dstPort).length = (msgsOf op).length := by simp [dstFor]
  have hmb : moveBound op = 20 + ((msgsOf op).map msgBound).sum := rfl
  have hadm : move s.ctxs.length (s0.push x0) = .ok (i2cAdmit s.ctxs.length x0 (s0.push x0)) := by
    rw [← hc0]
    simp only [move, State.push_get, hxp, moveAdmit, hxo, he]
  have hset0 := settled_push (s := s0) (x := x0) (by rw [hxp]; rfl) hl0
  rw [hc0] at hset0
  have hab := fun e => abort_push (s := s0) (x := x0) e hl0 (by rw [hxo]; exact hni)
  rw [hc0] at hab
  unfold submit
  rw [hrun]
  by_cases hpre : s.cfg.tenBitCheck = .prescan ∧ ∃ j, firstTen (msgsOf op) = some j
  · obtain ⟨ht, j, hj⟩ := hpre
    have hdo : i2cAdmit s.ctxs.length x0 (s0.push x0) = s0.push (x0.fail (.invalidArgument (.tenBitAddress j))) := by
      have hc : (s0.push x0).cfg = s.cfg := hcfg0
      unfold i2cAdmit
      rw [hc, ht, hxo, hj]
      exact hab _
    have hd := (Runs.step hset0 (hadm.trans (congrArg Except.ok hdo))).drive
      (by rw [← hc0]; exact settled_push_final rfl) (show 1 ≤ moveBound op by omega)
    simp only [i2cRule, ht, hj]
    refine ⟨x0.fail (.invalidArgument (.tenBitAddress j)), ?_, ⟨hxo, rfl, ?_⟩, by rw [hx0]; rfl⟩
    · rw [hd, hs0]; rfl
    · show some (abortResult x0.op _) = _
      rw [hxo]
  · have hdo : i2cAdmit s.ctxs.length x0 (s0.push x0) =
        beginMsgs s.ctxs.length (xferResult op) 0 (msgsOf op) (s0.push x0) := by
      have hc : (s0.push x0).cfg = s.cfg := hcfg0
      unfold i2cAdmit
      rw [hc, hxo]
      cases ht : s.cfg.tenBitCheck with
      | inorder => rfl
      | prescan =>
        cases hj : firstTen (msgsOf op) with
        | none => rfl
        | some j => exact absurd ⟨ht, j, hj⟩ hpre
    have hrule : i2cRule op s = batchLoop s.ctxs.length 0 (msgsOf op) (dstFor op s.dstPort) s := by
      unfold i2cRule
      cases ht : s.cfg.tenBitCheck with
      | inorder => rfl
      | prescan =>
        cases hj : firstTen (msgsOf op) with
        | none => rfl
        | some j => exact absurd ⟨ht, j, hj⟩ hpre
    rw [hrule]
    have r1 := Runs.step hset0 (hadm.trans (congrArg Except.ok hdo))
    obtain ⟨k, y, hk, hry, hyd, hye⟩ := runs_batchLoop he (msgsOf op) [] s0 x0 [] (dstFor op s.dstPort) rfl hl0
      (by rw [hcfg0]; exact hr.cfg) hxo (by rw [hx0]; rfl) rfl hlen
    have hdp := batchLoop_dstPort s.ctxs.length [] (msgsOf op) 0 (dstFor op s.dstPort) s
    rw [← hs0] at hdp
    rw [hc0] at hry hyd hye
    simp only [List.length_nil, List.nil_append] at hry hyd hye
    rw [hdp] at hry hyd hye
    simp only at hry hyd hye
    have fr := batchLoop_frame s.ctxs.length 0 (msgsOf op) (dstFor op s.dstPort) s
    have hfin : y.phase.isFinal = true := by
      have h := hye.phase
      split at h <;> rw [h] <;> rfl
    obtain ⟨b, hb⟩ : ∃ b : State, b = { (batchLoop s.ctxs.length 0 (msgsOf op) (dstFor op s.dstPort) s).1.1 with
      dstPort := [] } := ⟨_, rfl⟩
    have hset := settled_push_final (s := b) hfin
    have hcb : b.ctxs.length = s.ctxs.length := by rw [hb]; exact congrArg List.length fr.ctxs
    rw [hcb] at hset
    rw [← hb] at hry
    have hd := (r1.trans hry).drive hset (show 1 + k ≤ moveBound op by omega)
    refine ⟨y, ?_, hye, hyd⟩
    rw [hd, hb]
    rfl

end Sys2Proof.Machine
end

