-- ==== Sys2Proof/Laws/InitRun.lean ====
section
/-! SUPPORT. INIT, when nothing interrupts it, does what its rule says (43_init.md R124). -/

namespace Sys2Proof.Machine

/-! ## INIT from beginning to end -/

/-- An abort of INIT, the newest context, makes the session Dead. -/
theorem abort_init_pushLocked {s : State} {x : Ctx} (e : Err) (hl : s.lock = .free) (ho : x.op = .init) :
    abort s.ctxs.length e (s.pushLocked x) = { s.push (x.fail e) with sstate := .dead } := by
  have hr : (s.pushLocked x).runsInit s.ctxs.length = true := by simp [State.runsInit, ho]
  have hm : (s.pushLocked x).midWrite s.ctxs.length = false := by
    rw [State.midWrite, State.pushLocked_get]
    exact midWrite_of_msgs (by rw [ho]; rfl)
  unfold abort
  rw [hr, hm]
  simp [State.pushLocked, State.push, modify_append_self, hl]

theorem abort_init_push {s : State} {x : Ctx} (e : Err) (hl : s.lock = .free) (ho : x.op = .init) :
    abort s.ctxs.length e (s.push x) = { s.push (x.fail e) with sstate := .dead } := by
  have hr : (s.push x).runsInit s.ctxs.length = true := by simp [State.runsInit, ho]
  unfold abort
  rw [hr]
  simp [State.push, modify_append_self, hl]

theorem regDraw_rest (l : List (Option Nat)) : (regDraw l).2 = l.drop 1 := by
  cases l <;> rfl

/-- Step 3 of INIT. -/
theorem runs_register {s : State} {idx : Nat} (hl : s.lock = .free) (hi : idx = 1 ∧ s.cfg.variant ≠ s.cfg.variantId ∨ idx = 2) :
    Runs s.ctxs.length 1 (s.push { initCtx s.cfg idx with phase := .next })
      { s.initRegister idx with dstPort := s.dstPort } := by
  refine Runs.step (settled_push rfl hl) ?_
  have he : engineOf (initCtx s.cfg idx).op = .initSeq := rfl
  have h0 : (initCtx s.cfg idx).idx = idx := rfl
  have hv : (s.push { initCtx s.cfg idx with phase := .next }).cfg = s.cfg := rfl
  have hn : initNext s.ctxs.length { initCtx s.cfg idx with phase := .next } (s.push { initCtx s.cfg idx with phase := .next })
      = registerBus s.ctxs.length (s.push { initCtx s.cfg idx with phase := .next }) := by
    unfold initNext
    rw [if_neg (by show ¬ idx = 0; omega), if_neg]
    show ¬ (idx = 1 ∧ _)
    rw [hv]
    rcases hi with ⟨h1, h2⟩ | h2
    · exact fun h => h2 h.2
    · omega
  simp only [move, State.push_get, moveNext, he, hn]
  congr 1
  have hr : (s.push { initCtx s.cfg idx with phase := .next }).regs = s.regs := rfl
  unfold registerBus State.initRegister
  simp only [hr]
  cases hd : (regDraw s.regs).1 with
  | some h =>
    simp only [complete, State.modCtx, State.push, modify_append_self, State.withCtx, regDraw_rest]
    rfl
  | none =>
    have := abort_init_push (s := { s with regs := (regDraw s.regs).2, hostLog := s.hostLog ++ [.register Config.capabilities none] })
      (x := { initCtx s.cfg idx with phase := .next }) (.ioError .registration) hl rfl
    refine this.trans ?_
    simp only [State.push, State.initFailed, State.withCtx, regDraw_rest]
    rfl

/-- `Exchange` with no receive answers no reply, whatever was in INBUF. -/
theorem bulk_zero_ok {s s1 : State} {c : Nat} {o r : Bytes} (h : s.bulk c o 0 = (s1, .ok r)) : r = [] := by
  unfold State.bulk at h
  split at h
  · simpa using (Prod.mk.inj h).2.symm
  · cases h

/-- Step 1 of INIT, the speed command: what it leads to. -/
theorem runs_speed {s : State} (hl : s.lock = .free) :
    (∀ b e, s.bulk s.ctxs.length (speedPkt s.cfg) 0 = (b, .error e) →
      Runs s.ctxs.length 4 (s.push (newCtx .init [])) { b.initFailed 0 e with dstPort := s.dstPort }) ∧
    (∀ b r, s.bulk s.ctxs.length (speedPkt s.cfg) 0 = (b, .ok r) →
      Runs s.ctxs.length 5 (s.push (newCtx .init [])) (b.push { initCtx s.cfg 1 with phase := .next })) := by
  have r1 : Runs s.ctxs.length 1 (s.push (newCtx .init [])) (s.push { newCtx .init [] with phase := .waitLock }) := by
    refine Runs.step (settled_push rfl hl) ?_
    have he : engineOf (newCtx .init []).op = .initSeq := rfl
    have hp : (newCtx .init []).phase = .admitting := rfl
    simp only [move, State.push_get, hp, moveAdmit, he, initAdmit, State.setPhase, State.push_modCtx]
  have r2 := runs_acquire (s := s) (x := { newCtx .init [] with phase := .waitLock }) hl rfl
  have r3 : Runs s.ctxs.length 1 (s.pushLocked { newCtx .init [] with phase := .build })
      (s.pushLocked { initCtx s.cfg 0 with phase := .xchg }) := by
    refine Runs.step (settled_pushLocked rfl) ?_
    have he : engineOf (newCtx .init []).op = .initSeq := rfl
    have hi : (newCtx .init []).idx = 0 := rfl
    simp only [move, State.pushLocked_get, moveBuild, he, initBuild, hi, if_true, State.pushLocked_modCtx]
    rfl
  have r123 := (r1.trans r2).trans r3
  have hx := exchange_pushLocked s { initCtx s.cfg 0 with phase := .xchg } (speedPkt s.cfg) 0 (by simp [speedPkt])
    (by simp [speedPkt, Config.scratchLen]) (by decide)
  have hmv : move s.ctxs.length (s.pushLocked { initCtx s.cfg 0 with phase := .xchg }) =
      (exchange s.ctxs.length (speedPkt s.cfg) 0 (s.pushLocked { initCtx s.cfg 0 with phase := .xchg })).orAbort
        s.ctxs.length := by
    have he : engineOf (initCtx s.cfg 0).op = .initSeq := rfl
    have hi : (initCtx s.cfg 0).idx = 0 := rfl
    have hp : (initCtx s.cfg 0).pkt = speedPkt s.cfg := rfl
    simp only [move, State.pushLocked_get, moveXchg, he, initXchg, hi, if_true, hp]
  have fr := bulk_frame s s.ctxs.length (speedPkt s.cfg) 0
  refine ⟨fun b e hb => ?_, fun b r hb => ?_⟩
  · rw [hb] at hx fr
    refine r123.trans (k := 1) (Runs.step (settled_pushLocked rfl) ?_)
    rw [hmv, hx]
    have hlen : b.ctxs.length = s.ctxs.length := by rw [fr.ctxs]
    have := abort_init_pushLocked (s := b) (x := { initCtx s.cfg 0 with phase := .xchg }) e (by rw [fr.lock, hl]) rfl
    rw [hlen] at this
    simp only [Attempt.orAbort, this]
    have hcfg : b.cfg = s.cfg := fr.cfg
    have hd : b.dstPort = s.dstPort := fr.dstPort
    simp only [State.push, State.initFailed, State.withCtx, ← hd, ← hcfg]
    rfl
  · rw [hb] at hx fr
    have hlen : b.ctxs.length = s.ctxs.length := by rw [fr.ctxs]
    have r4 : Runs s.ctxs.length 1 (s.pushLocked { initCtx s.cfg 0 with phase := .xchg })
        (b.pushLocked { initCtx s.cfg 0 with phase := .check }) := by
      refine Runs.step (settled_pushLocked rfl) ?_
      rw [hmv, hx]
      rfl
    have r5 : Runs s.ctxs.length 1 (b.pushLocked { initCtx s.cfg 0 with phase := .check })
        (b.push { initCtx s.cfg 1 with phase := .next }) := by
      rw [← hlen]
      refine Runs.step (settled_pushLocked rfl) ?_
      have he : engineOf (initCtx s.cfg 0).op = .initSeq := rfl
      have hi : (initCtx s.cfg 0).idx = 0 := rfl
      have hrel := release_pushLocked (s := b) (x := { initCtx s.cfg 0 with phase := .check, idx := 0 }) (by rw [fr.lock, hl])
      simp only [move, State.pushLocked_get, moveCheck, he, initCheck, hi, if_true, hrel, State.push_modCtx]
      rfl
    exact (r123.trans r4).trans r5

/-- Step 2 of INIT, the idle-pin frame. -/
theorem runs_idle {s : State} (hl : s.lock = .free) (hw : s.gpo.wf) (hh : s.gpo.bytesAt 0 3 = some gpioHeader)
    (hv : s.cfg.variant = s.cfg.variantId) :
    (∀ b e, ({ s with gpo := s.gpo.putBytes 3 (noPins.set s.cfg.idlePin.val 0xB8) } : State).gpioTrip s.ctxs.length
        (frameBytes (noPins.set s.cfg.idlePin.val 0xB8)) = (b, .error e) →
      ∃ k, k ≤ 6 ∧ Runs s.ctxs.length k (s.push { initCtx s.cfg 1 with phase := .next })
        { b.initFailed 1 e with dstPort := s.dstPort }) ∧
    (∀ b r, ({ s with gpo := s.gpo.putBytes 3 (noPins.set s.cfg.idlePin.val 0xB8) } : State).gpioTrip s.ctxs.length
        (frameBytes (noPins.set s.cfg.idlePin.val 0xB8)) = (b, .ok r) →
      Runs s.ctxs.length 6 (s.push { initCtx s.cfg 1 with phase := .next })
        (b.push { initCtx s.cfg 2 with phase := .next })) := by
  obtain ⟨pins, hpins⟩ : ∃ pins, pins = noPins.set s.cfg.idlePin.val 0xB8 := ⟨_, rfl⟩
  obtain ⟨g, hg⟩ : ∃ g : State, g = { s with gpo := s.gpo.putBytes 3 pins } := ⟨_, rfl⟩
  rw [← hpins, ← hg]
  have hlenp : pins.length = 8 := by rw [hpins]; simp [noPins]
  have hgc : g.ctxs.length = s.ctxs.length := by rw [hg]
  have hgl : g.lock = .free := by rw [hg]; exact hl
  have he : engineOf (initCtx s.cfg 1).op = .initSeq := rfl
  have r1 : Runs s.ctxs.length 1 (s.push { initCtx s.cfg 1 with phase := .next, idx := 1 })
      (s.push { initCtx s.cfg 1 with phase := .waitLock, idx := 1 }) := by
    refine Runs.step (settled_push rfl hl) ?_
    have hc : (s.push { initCtx s.cfg 1 with phase := .next, idx := 1 }).cfg = s.cfg := rfl
    simp only [move, State.push_get, moveNext, he, initNext, hc, hv, Nat.one_ne_zero, if_false, and_self, if_true,
      State.setPhase, State.push_modCtx]
  have r2 := runs_acquire (s := s) (x := { initCtx s.cfg 1 with phase := .waitLock, idx := 1 }) hl rfl
  have r3 : Runs s.ctxs.length 1 (s.pushLocked { initCtx s.cfg 1 with phase := .build, idx := 1 })
      (g.pushLocked { initCtx s.cfg 1 with phase := .xchg, idx := 1 }) := by
    refine Runs.step (settled_pushLocked rfl) ?_
    have hf : gpioFrameOf (initCtx s.cfg 1).op (s.pushLocked { initCtx s.cfg 1 with phase := .build, idx := 1 }) =
        .ok (s.gpo.putBytes 3 pins) := by
      show Except.ok (applyPin (clearPins s.gpo) s.cfg.idlePin.val true true) = _
      congr 1
      refine Memory.ext_of_wf (Memory.wf_put (Memory.wf_putBytes hw _ _) _ _) (Memory.wf_putBytes hw _ _) fun a => ?_
      have hi8 := s.cfg.idlePin.isLt
      simp only [applyPin, clearPins, Memory.byteAt_put, Memory.byteAt_putBytes, hlenp, List.length_replicate]
      by_cases ha : 3 + s.cfg.idlePin.val = a
      · rw [if_pos ha, if_pos (by omega), hpins, ← ha, Nat.add_sub_cancel_left, List.getElem?_set_self (by simp [noPins, hi8])]
        rfl
      · rw [if_neg ha]
        by_cases hr : 3 ≤ a ∧ a < 3 + 8
        · rw [if_pos hr, if_pos hr, hpins, List.getElem?_set_ne (by omega)]; rfl
        · rw [if_neg hr, if_neg hr]
    have hmod := State.pushLocked_modCtx g { initCtx s.cfg 1 with phase := .build, idx := 1 } fun x => { x with phase := .xchg }
    rw [hgc] at hmod
    simp only [move, State.pushLocked_get, moveBuild, he, initBuild, Nat.one_ne_zero, if_false, gpioBuild, hf,
      State.setPhase]
    rw [← hmod, hg]
    rfl
  have r123 := (r1.trans r2).trans r3
  have hfb : g.gpo.bytesAt 0 Config.gpioFrameLen = some (frameBytes pins) := by rw [hg]; exact frame_bytes hh hlenp
  have hol : (frameBytes pins).length = 11 := by simp [frameBytes, gpioHeader, hlenp]
  have hx := exchange_pushLocked g { initCtx s.cfg 1 with phase := .xchg, idx := 1 } (frameBytes pins) Config.gpioReplyLen
    (by omega) (by rw [hol]; decide) (by decide)
  have hmv : move g.ctxs.length (g.pushLocked { initCtx s.cfg 1 with phase := .xchg, idx := 1 }) =
      (roundTripXchg g.ctxs.length (g.pushLocked { initCtx s.cfg 1 with phase := .xchg, idx := 1 })).orAbort g.ctxs.length := by
    simp only [move, State.pushLocked_get, moveXchg, he, initXchg, Nat.one_ne_zero, if_false, gpioXchg]
  have hgpo : (g.pushLocked { initCtx s.cfg 1 with phase := .xchg, idx := 1 }).gpo = g.gpo := rfl
  have hset := settled_pushLocked (s := g) (x := { initCtx s.cfg 1 with phase := .xchg, idx := 1 }) rfl
  rw [hgc] at hx hmv hset
  obtain ⟨s2, hs2⟩ : ∃ s2 : State, s2 = (g.bulk s.ctxs.length (frameBytes pins) Config.gpioReplyLen).1 := ⟨_, rfl⟩
  have fr := bulk_frame g s.ctxs.length (frameBytes pins) Config.gpioReplyLen
  rw [← hs2] at fr
  have hc2 : s2.ctxs.length = s.ctxs.length := by rw [fr.ctxs, hgc]
  have hl2 : s2.lock = .free := by rw [fr.lock, hgl]
  have hd2 : s2.dstPort = s.dstPort := by rw [fr.dstPort, hg]
  have hcfg2 : s2.cfg = s.cfg := by rw [fr.cfg, hg]
  unfold State.gpioTrip
  cases hb : g.bulk s.ctxs.length (frameBytes pins) Config.gpioReplyLen with
  | mk b ans =>
  have hsb : s2 = b := by rw [hs2, hb]
  rw [hb, ← hsb] at hx
  rw [← hsb]
  cases ans with
  | error e =>
    refine ⟨fun b' e' h => ?_, fun b' r h => by simp at h⟩
    simp only [Prod.mk.injEq, Except.error.injEq] at h
    obtain ⟨rfl, rfl⟩ := h
    refine ⟨4, by omega, r123.trans (k := 1) (Runs.step hset ?_)⟩
    have hab := abort_init_pushLocked (s := s2.dropMirror) (x := { initCtx s.cfg 1 with phase := .xchg, idx := 1 }) e hl2 rfl
    have hc3 : s2.dropMirror.ctxs.length = s.ctxs.length := hc2
    rw [hc3] at hab
    rw [hmv]
    simp only [roundTripXchg, hgpo, hfb, hx, Attempt.orAbort]
    refine (congrArg Except.ok hab).trans ?_
    simp only [State.push, State.initFailed, State.withCtx, State.dropMirror, ← hd2, ← hcfg2]
    rfl
  | ok r =>
    have hrep : s2.reply = some r := by rw [hsb]; exact bulk_reply (m := Config.gpioReplyLen) (by decide) hb
    have hrep' : (s2.pushLocked { initCtx s.cfg 1 with phase := .check, idx := 1 }).reply = some r := hrep
    have r4 : Runs s.ctxs.length 1 (g.pushLocked { initCtx s.cfg 1 with phase := .xchg, idx := 1 })
        (s2.pushLocked { initCtx s.cfg 1 with phase := .check, idx := 1 }) := by
      refine Runs.step hset ?_
      rw [hmv]
      simp only [roundTripXchg, hgpo, hfb, hx, Attempt.orAbort]
    by_cases hrl : r.length = Config.gpioReplyLen
    · refine ⟨fun b' e' h => by simp [hrl] at h, fun b' r' h => ?_⟩
      simp only [hrl, ne_eq, not_true_eq_false, if_false, Prod.mk.injEq, Except.ok.injEq] at h
      obtain ⟨rfl, rfl⟩ := h
      have r5 : Runs s.ctxs.length 1 (s2.pushLocked { initCtx s.cfg 1 with phase := .check, idx := 1 })
          (s2.pushLocked { initCtx s.cfg 1 with phase := .commit, idx := 1 }) := by
        rw [← hc2]
        refine Runs.step (settled_pushLocked rfl) ?_
        simp only [move, State.pushLocked_get, moveCheck, he, initCheck, Nat.one_ne_zero, gpioCheck, roundTripCheck,
          hrep', hrl, ne_eq, not_true_eq_false, if_false, Attempt.orAbort, State.setPhase, State.pushLocked_modCtx]
      have r6 : Runs s.ctxs.length 1 (s2.pushLocked { initCtx s.cfg 1 with phase := .commit, idx := 1 })
          ((s2.setMirror r).push { initCtx s.cfg 2 with phase := .next }) := by
        have hc3 : (s2.setMirror r).ctxs.length = s2.ctxs.length := rfl
        have hrep' : (s2.pushLocked { initCtx s.cfg 1 with phase := .commit, idx := 1 }).reply = some r := hrep
        have hrel := release_pushLocked (s := s2.setMirror r) (x := { initCtx s.cfg 1 with phase := .commit, idx := 1 }) hl2
        rw [hc3] at hrel
        have hsm : (s2.pushLocked { initCtx s.cfg 1 with phase := .commit, idx := 1 }).setMirror r =
          (s2.setMirror r).pushLocked { initCtx s.cfg 1 with phase := .commit, idx := 1 } := rfl
        have hmod := State.push_modCtx (s2.setMirror r) { initCtx s.cfg 1 with phase := .commit, idx := 1 }
          (fun x => { x with idx := 2, phase := .next })
        rw [hc3] at hmod
        rw [← hc2]
        refine Runs.step (settled_pushLocked rfl) ?_
        simp only [move, State.pushLocked_get, moveCommit, he, initCommit, roundTripCommit, hrep']
        simp only [hsm, hrel, hmod]
        rfl
      exact ((r123.trans r4).trans r5).trans r6
    · refine ⟨fun b' e' h => ?_, fun b' r' h => by simp [hrl] at h⟩
      simp only [hrl, ne_eq, not_false_eq_true, if_true, Prod.mk.injEq, Except.error.injEq] at h
      obtain ⟨rfl, rfl⟩ := h
      have hab := abort_init_pushLocked (s := s2.dropMirror) (x := { initCtx s.cfg 1 with phase := .check, idx := 1 })
        (.protocolError 0 Config.gpioReplyLen r.length) hl2 rfl
      have hc3 : s2.dropMirror.ctxs.length = s2.ctxs.length := rfl
      rw [hc3] at hab
      refine ⟨5, by omega, (r123.trans r4).trans (k := 1) ?_⟩
      rw [← hc2]
      refine Runs.step (settled_pushLocked rfl) ?_
      simp only [move, State.pushLocked_get, moveCheck, he, initCheck, Nat.one_ne_zero, gpioCheck, roundTripCheck,
        hrep', hrl, ne_eq, not_false_eq_true, if_true, if_false, Attempt.orAbort]
      refine (congrArg Except.ok hab).trans ?_
      simp only [State.push, State.initFailed, State.withCtx, State.dropMirror, ← hd2, ← hcfg2]
      rfl

/-- A round-trip leaves the contexts, the lock, the DST buffers waiting and the parameters alone. -/
theorem gpioTrip_frame (s : State) (c : Nat) (o : Bytes) :
    (s.gpioTrip c o).1.ctxs = s.ctxs ∧ (s.gpioTrip c o).1.lock = s.lock ∧ (s.gpioTrip c o).1.dstPort = s.dstPort ∧
      (s.gpioTrip c o).1.cfg = s.cfg := by
  have fr := bulk_frame s c o Config.gpioReplyLen
  unfold State.gpioTrip
  cases hb : s.bulk c o Config.gpioReplyLen with
  | mk b ans =>
    rw [hb] at fr
    cases ans with
    | error e => exact ⟨fr.ctxs, fr.lock, fr.dstPort, fr.cfg⟩
    | ok r =>
      simp only
      split <;> exact ⟨fr.ctxs, fr.lock, fr.dstPort, fr.cfg⟩

/-- INIT does not look at the DST buffers waiting. -/
theorem initRun_dstPort (s : State) (d : List Memory) : ({ s with dstPort := d } : State).initRun = s.initRun := by
  have hreg : ∀ (t : State) i, ({ t with dstPort := d } : State).initRegister i = t.initRegister i := by
    intro t i
    unfold State.initRegister
    simp only
    split <;> rfl
  have htrip : ∀ (t : State) c o, ({ t with dstPort := d } : State).gpioTrip c o =
      ({ (t.gpioTrip c o).1 with dstPort := d }, (t.gpioTrip c o).2) := by
    intro t c o
    unfold State.gpioTrip
    rw [bulk_dstPort]
    cases t.bulk c o Config.gpioReplyLen with
    | mk b ans =>
      cases ans with
      | error e => rfl
      | ok r => simp only; split <;> rfl
  unfold State.initRun
  have h0 := bulk_dstPort s s.ctxs.length (speedPkt s.cfg) 0 d
  simp only at h0 ⊢
  rw [h0]
  cases s.bulk s.ctxs.length (speedPkt s.cfg) 0 with
  | mk b ans =>
    cases ans with
    | error e => rfl
    | ok r =>
      simp only
      split
      · have h1 := htrip { b with gpo := b.gpo.putBytes 3 (noPins.set s.cfg.idlePin.val 0xB8) } s.ctxs.length
          (frameBytes (noPins.set s.cfg.idlePin.val 0xB8))
        simp only at h1
        rw [h1]
        cases ({ b with gpo := b.gpo.putBytes 3 (noPins.set s.cfg.idlePin.val 0xB8) } : State).gpioTrip s.ctxs.length
          (frameBytes (noPins.set s.cfg.idlePin.val 0xB8)) with
        | mk b2 ans2 =>
          cases ans2 with
          | error e => rfl
          | ok r2 => exact hreg b2 2
      · exact hreg b 1

/-- INIT, run through, does what its rule says. -/
theorem init_submit {s : State} (hl : s.lock = .free) (hq : s.quanta = []) (hf : s.FrameReady) :
    submit .init s = .next s.initRun := by
  obtain ⟨s0, hs0⟩ : ∃ s0 : State, s0 = { s with dstPort := [] } := ⟨_, rfl⟩
  have hrun0 : s.initRun = s0.initRun := by rw [hs0]; exact (initRun_dstPort s []).symm
  have hc0 : s0.ctxs.length = s.ctxs.length := by rw [hs0]
  have hl0 : s0.lock = .free := by rw [hs0]; exact hl
  have hd0 : s0.dstPort = [] := by rw [hs0]
  have hg0 : s0.gpo = s.gpo := by rw [hs0]
  have hrun : runCtx s.ctxs.length (s.admitOp .init) = drive (moveBound .init) s0.ctxs.length (s0.push (newCtx .init [])) := by
    have hq' : (s0.push (newCtx .init [])).quanta = [] := by rw [hs0]; exact hq
    have hadm : s.admitOp .init = s0.push (newCtx .init []) := by rw [hs0]; rfl
    rw [hadm, ← hc0]
    unfold runCtx
    rw [hq']
    simp only [State.push_get]
    rfl
  have hmb : moveBound .init = 20 := by decide
  unfold submit
  rw [hrun, hrun0, hmb]
  obtain ⟨hs1, hs2⟩ := runs_speed hl0
  have fr := bulk_frame s0 s0.ctxs.length (speedPkt s0.cfg) 0
  have hfinal : ∀ (t : State) (x : Ctx) ss rh d, x.phase.isFinal = true →
      settled t.ctxs.length { t.withCtx x with sstate := ss, regHandle := rh, dstPort := d } = true := by
    intro t x ss rh d hx
    simp [settled, State.withCtx, hx]
  have hfail : ∀ (t : State) i e d, settled t.ctxs.length { t.initFailed i e with dstPort := d } = true :=
    fun t i e d => hfinal t _ _ t.regHandle d rfl
  have hreg : ∀ (t : State) i d, settled t.ctxs.length { t.initRegister i with dstPort := d } = true := by
    intro t i d
    unfold State.initRegister
    simp only
    split
    · exact hfinal { t with regs := t.regs.drop 1, hostLog := t.hostLog ++ [.register Config.capabilities (regDraw t.regs).1] }
        _ _ _ d rfl
    · exact hfail { t with regs := t.regs.drop 1, hostLog := t.hostLog ++ [.register Config.capabilities (regDraw t.regs).1] } i _ d
  have hdp : ∀ (t : State), t.dstPort = [] → { t with dstPort := [] } = t := fun t h => by rw [← h]
  unfold State.initRun
  cases hb : s0.bulk s0.ctxs.length (speedPkt s0.cfg) 0 with
  | mk b ans =>
  rw [hb] at fr
  have hcb : b.ctxs.length = s0.ctxs.length := by rw [show b.ctxs = s0.ctxs from fr.ctxs]
  have hlb : b.lock = .free := (show b.lock = s0.lock from fr.lock).trans hl0
  have hdb : b.dstPort = [] := (show b.dstPort = s0.dstPort from fr.dstPort).trans hd0
  have hgb : b.gpo = s.gpo := (show b.gpo = s0.gpo from fr.gpo).trans hg0
  have hcf : b.cfg = s0.cfg := fr.cfg
  cases ans with
  | error e =>
    have h1 := hs1 b e hb
    have hf0 := hfail b 0 e s0.dstPort
    rw [hcb] at hf0
    rw [h1.drive hf0 (by omega), hd0, hdp _ (by rfl)]
    rfl
  | ok r =>
    have h1 := hs2 b r hb
    rw [← hcf] at h1
    simp only
    rw [← hcf]
    by_cases hv : b.cfg.variant = b.cfg.variantId
    · rw [if_pos hv]
      obtain ⟨hi1, hi2⟩ := runs_idle hlb (by rw [hgb]; exact hf.wf) (by rw [hgb]; exact hf.header) hv
      rw [hcb] at hi1 hi2
      cases ht : ({ b with gpo := b.gpo.putBytes 3 (noPins.set b.cfg.idlePin.val 0xB8) } : State).gpioTrip s0.ctxs.length
          (frameBytes (noPins.set b.cfg.idlePin.val 0xB8)) with
      | mk b2 ans2 =>
      have fr2 := gpioTrip_frame { b with gpo := b.gpo.putBytes 3 (noPins.set b.cfg.idlePin.val 0xB8) } s0.ctxs.length
          (frameBytes (noPins.set b.cfg.idlePin.val 0xB8))
      rw [ht] at fr2
      simp only at fr2
      have hc2 : b2.ctxs.length = s0.ctxs.length := by rw [fr2.1, hcb]
      cases ans2 with
      | error e =>
        obtain ⟨k, hk, h2⟩ := hi1 b2 e ht
        have hf0 := hfail b2 1 e b.dstPort
        rw [hc2] at hf0
        rw [(h1.trans h2).drive hf0 (by omega), hdb, hdp _ (by rfl)]
        rfl
      | ok r2 =>
        have h2 := hi2 b2 r2 ht
        have h3 := runs_register (s := b2) (idx := 2) (by rw [fr2.2.1, hlb]) (.inr rfl)
        rw [hc2, fr2.2.2.2] at h3
        have hf0 := hreg b2 2 b2.dstPort
        rw [hc2] at hf0
        rw [((h1.trans h2).trans h3).drive hf0 (by omega), fr2.2.2.1, hdb, hdp]
        · rfl
        · unfold State.initRegister
          simp only
          split <;> rfl
    · rw [if_neg hv]
      have h3 := runs_register (s := b) (idx := 1) hlb (.inl ⟨rfl, hv⟩)
      rw [hcb] at h3
      have hf0 := hreg b 1 b.dstPort
      rw [hcb] at hf0
      rw [(h1.trans h3).drive hf0 (by omega), hdb, hdp]
      · rfl
      · unfold State.initRegister
        simp only
        split <;> rfl

end Sys2Proof.Machine
end

