-- ==== Sys2Proof/Laws/OpenTxn.lean ====
section
/-! SUPPORT. Everything a move can do to `OPEN_TXN` (10_state.md R41): it follows the packets the move sends, or a write was
aborted before its last chunk. -/

namespace Sys2Proof.Machine

/-- From `s` to `s'` exchanges were appended to `HIST`, and `OPEN_TXN` followed their packets. -/
def State.Follows (s s' : State) : Prop :=
  s'.cfg = s.cfg ∧ ∃ es : List Exch, s'.hist = s.hist ++ es ∧
    s'.openTxn = es.foldl (fun o e => txnAfter s.cfg.speedCode o e.sent) s.openTxn

/-- Context `c` failed in a chunk of a write that is not its last. -/
def State.AbortedWrite (s : State) (c : Nat) : Prop :=
  ∃ x e, s.ctxs[c]? = some x ∧ x.phase = .failed e ∧ x.midWrite = true

namespace State.Follows

variable {s s1 s2 : State}

theorem of_eq (hc : s1.cfg = s.cfg) (hh : s1.hist = s.hist) (ho : s1.openTxn = s.openTxn) : s.Follows s1 :=
  ⟨hc, [], by simp [hh], ho⟩

theorem trans (h1 : s.Follows s1) (h2 : s1.Follows s2) : s.Follows s2 := by
  obtain ⟨c1, es1, h1, o1⟩ := h1
  obtain ⟨c2, es2, h2, o2⟩ := h2
  exact ⟨c2.trans c1, es1 ++ es2, by rw [h2, h1, List.append_assoc], by rw [o2, o1, c1, List.foldl_append]⟩

theorem record (h : s.Follows s1) (e : Exch) : s.Follows (s1.record e) :=
  h.trans ⟨rfl, [e], rfl, rfl⟩

/-- An abort sets `OPEN_TXN` only for a write before its last chunk. -/
theorem abort (h : s.Follows s1) (c : Nat) (e : Err) :
    s.Follows (abort c e s1) ∨ (Sys2Proof.Machine.abort c e s1).AbortedWrite c := by
  cases hm : decide (s1.lock = .held c) && s1.midWrite c with
  | false => exact .inl (h.trans (of_eq rfl rfl (by simp [Sys2Proof.Machine.abort, hm])))
  | true =>
    have hw := (Bool.and_eq_true_iff.mp hm).2
    unfold State.midWrite at hw
    split at hw
    · rename_i x hx
      exact .inr ⟨x.fail e, e, by simp [Sys2Proof.Machine.abort, hx], rfl, hw⟩
    · cases hw

end State.Follows

/-- Whatever an attempt answers, `OPEN_TXN` followed the packets of `HIST`. -/
structure Attempt.Follows (s : State) (a : Attempt) : Prop where
  ok : ∀ s1, a = .ok s1 → s.Follows s1
  fail : ∀ e s1, a = .fail e s1 → s.Follows s1

namespace Attempt.Follows

variable {s s' : State} {a : Attempt}

theorem orAbort (h : a.Follows s) {c : Nat} (he : a.orAbort c = .ok s') : s.Follows s' ∨ s'.AbortedWrite c := by
  rcases orAbort_ok he with h1 | ⟨e, s1, h1, rfl⟩
  · exact .inl (h.ok _ h1)
  · exact (h.fail _ _ h1).abort c e

theorem andThen (h : a.Follows s) {k : State → Attempt} (hk : ∀ s1, s.Follows s1 → (k s1).Follows s) :
    (a.andThen k).Follows s := by
  cases a with
  | fault f => exact ⟨fun _ h => (by cases h), fun _ _ h => (by cases h)⟩
  | fail e s1 => exact ⟨fun _ h => (by cases h), fun _ _ h1 => (by cases h1; exact h.fail _ _ rfl)⟩
  | ok s1 => exact hk s1 (h.ok _ rfl)

theorem exchange (c : Nat) (o : Bytes) (m : Nat) (s : State) : (exchange c o m s).Follows s := by
  have h0 : ∀ {s1 : State} (e : Exch), s1.cfg = s.cfg → s1.hist = s.hist → s1.openTxn = s.openTxn →
      s.Follows (s1.record e) := fun e hc hh ho => (State.Follows.of_eq hc hh ho).record e
  rcases exchange_cases c o m s with ⟨he, -⟩ | he | ⟨-, ⟨a, he⟩ | ⟨k, he, -⟩ | ⟨k, a, he⟩ | ⟨k, r, -, he⟩⟩ <;> rw [he] <;>
    constructor
  all_goals first
    | (intro _ h; cases h; done)
    | (intro _ _ h; cases h; done)
    | (intro _ h; cases h; exact (h0 _ rfl rfl rfl).trans (.of_eq rfl rfl rfl))
    | (intro _ _ h; cases h; exact h0 _ rfl rfl rfl)

theorem roundTripXchg (c : Nat) (s : State) : (roundTripXchg c s).Follows s := by
  have hx := fun o => exchange c o Config.gpioReplyLen s
  unfold Machine.roundTripXchg
  split
  · exact ⟨fun _ h => (by cases h), fun _ _ h => (by cases h)⟩
  · rename_i o _
    split
    · rename_i e s1 h1
      exact ⟨fun _ h => (by cases h), fun _ _ h => (by cases h; exact ((hx o).fail _ _ h1).trans (.of_eq rfl rfl rfl))⟩
    · exact hx o

theorem roundTripCheck (c off : Nat) {s s1 : State} (hs : s.Follows s1) : (roundTripCheck c off s1).Follows s := by
  unfold Machine.roundTripCheck
  split
  · exact ⟨fun _ h => (by cases h), fun _ _ h => (by cases h)⟩
  · split
    · exact ⟨fun _ h => (by cases h), fun _ _ h => (by cases h; exact hs.trans (.of_eq rfl rfl rfl))⟩
    · exact ⟨fun _ h => (by cases h; exact hs.trans (.of_eq rfl rfl rfl)), fun _ _ h => (by cases h)⟩

theorem roundTrip (c off : Nat) (s : State) : (roundTrip c off s).Follows s := by
  refine ((roundTripXchg c s).andThen fun s1 h1 => roundTripCheck c off h1).andThen fun s1 h1 => ?_
  split
  · exact ⟨fun _ h => (by cases h), fun _ _ h => (by cases h)⟩
  · rename_i s2 h2
    obtain ⟨r, -, rfl⟩ := roundTripCommit_ok h2
    exact ⟨fun _ h => (by cases h; exact h1.trans (.of_eq rfl rfl rfl)), fun _ _ h => (by cases h)⟩

end Attempt.Follows

section Moves

variable {c : Nat} {s s' : State}

theorem beginMsgs_follows {s1 : State} (h : s.Follows s1) (r : Result) (j : Nat) (ms : List Msg) :
    s.Follows (beginMsgs c r j ms s1) ∨ (beginMsgs c r j ms s1).AbortedWrite c := by
  induction ms generalizing j s1 with
  | nil => exact .inl (h.trans (.of_eq rfl rfl rfl))
  | cons m ms ih =>
    cases m with
    | write a src => exact .inl (h.trans (.of_eq rfl rfl rfl))
    | ten rd a len p => exact (h.trans (.of_eq rfl rfl rfl) : s.Follows (s1.modCtx c (Ctx.enter j))).abort c _
    | read a len =>
      unfold beginMsgs
      split
      · exact .inl (h.trans (.of_eq rfl rfl rfl))
      · exact ih (h.trans (.of_eq rfl rfl rfl) : s.Follows (s1.modCtx c (Ctx.enter j))) _

theorem released_follows {s1 : State} (f : Ctx → Ctx) (hs : s.Follows s1) (hr : release c s1 = .ok s') :
    s.Follows (s'.modCtx c f) := by
  obtain ⟨-, rfl⟩ := release_ok hr
  exact hs.trans (.of_eq rfl rfl rfl)

/-- Everything a move can do to `OPEN_TXN`. -/
theorem move_follows (he : move c s = .ok s') : s.Follows s' ∨ s'.AbortedWrite c := by
  have same : ∀ {s1 : State}, s1.cfg = s.cfg → s1.hist = s.hist → s1.openTxn = s.openTxn →
      s.Follows s1 ∨ s1.AbortedWrite c := fun hc hh ho => .inl (.of_eq hc hh ho)
  have h0 : s.Follows s := .of_eq rfl rfl rfl
  have hab := fun e => h0.abort c e
  have hbeg := fun r j ms => beginMsgs_follows (c := c) h0 r j ms
  have hset : ∀ p, s.Follows (s.setPhase c p) ∨ (s.setPhase c p).AbortedWrite c := fun p => same rfl rfl rfl
  have hgb : ∀ {x}, gpioBuild c x s = .ok s' → s.Follows s' ∨ s'.AbortedWrite c := fun h => by
    unfold gpioBuild at h
    split at h <;> cases h
    exact same rfl rfl rfl
  have hgc : ∀ {x}, gpioCheck c x s = .ok s' → s.Follows s' ∨ s'.AbortedWrite c := fun h =>
    Attempt.Follows.orAbort (.roundTripCheck c _ h0) h
  have hgx : gpioXchg c s = .ok s' → s.Follows s' ∨ s'.AbortedWrite c := fun h =>
    Attempt.Follows.orAbort (.roundTripXchg c s) h
  have hex : ∀ {o m}, (exchange c o m s).orAbort c = .ok s' → s.Follows s' ∨ s'.AbortedWrite c := fun h =>
    Attempt.Follows.orAbort (.exchange c _ _ s) h
  have hrel : ∀ {s1 s2 : State} (f : Ctx → Ctx), s.Follows s1 → release c s1 = .ok s2 →
      s.Follows (s2.modCtx c f) ∨ (s2.modCtx c f).AbortedWrite c := fun f hs hr => .inl (released_follows f hs hr)
  unfold move at he
  cases hx : s.ctxs[c]? with
  | none => simp only [hx] at he; cases he; exact .inl h0
  | some x =>
    simp only [hx] at he
    cases hp : x.phase <;> simp only [hp] at he
    case admitting =>
      cases he
      unfold moveAdmit
      split
      · unfold i2cAdmit
        split
        · exact hab _
        · exact hbeg _ _ _
      · unfold gpioAdmit
        split
        · split
          · exact hset _
          · split
            · exact same rfl rfl rfl
            · exact hab _
        · exact hset _
      · exact hset _
      · exact .inl h0
    case waitLock =>
      rcases acquire_ok he with ⟨-, rfl⟩ | ⟨d, -, -, rfl⟩
      · exact same rfl rfl rfl
      · exact hset _
    case build =>
      unfold moveBuild at he
      split at he
      · unfold i2cBuild at he
        split at he <;> cases he
        exact same rfl rfl rfl
      · exact hgb he
      · unfold initBuild at he
        split at he
        · cases he; exact same rfl rfl rfl
        · exact hgb he
      · cases he; exact .inl h0
    case xchg =>
      unfold moveXchg at he
      split at he
      · unfold i2cXchg at he
        split at he
        · exact hex he
        · exact hex he
        · cases he
      · exact hgx he
      · unfold initXchg at he
        split at he
        · exact hex he
        · exact hgx he
      · cases he; exact .inl h0
    case check =>
      unfold moveCheck at he
      split at he
      · unfold i2cCheck at he
        split at he
        · split at he
          · cases he; exact hab _
          · split at he
            · cases he
            · rename_i hr; cases he; exact hrel _ h0 hr
        · split at he
          · cases he; exact hab _
          · cases he; exact hset _
        · cases he
      · exact hgc he
      · unfold initCheck at he
        split at he
        · split at he
          · cases he
          · rename_i hr; cases he; exact hrel _ h0 hr
        · exact hgc he
      · cases he; exact .inl h0
    case commit =>
      unfold moveCommit at he
      split at he
      · unfold i2cCommit at he
        split at he
        · split at he
          · cases he
          · rename_i hr; cases he; exact hrel _ h0 hr
        · cases he
      · unfold gpioCommit at he
        split at he
        · cases he
        · rename_i s1 h1
          obtain ⟨r, -, rfl⟩ := roundTripCommit_ok h1
          split at he
          · cases he
          · split at he
            · cases he
            · rename_i hr; cases he; exact hrel (s1 := s.setMirror r) _ (.of_eq rfl rfl rfl) hr
      · unfold initCommit at he
        split at he
        · cases he
        · rename_i s1 h1
          obtain ⟨r, -, rfl⟩ := roundTripCommit_ok h1
          split at he
          · cases he
          · rename_i hr; cases he; exact hrel (s1 := s.setMirror r) _ (.of_eq rfl rfl rfl) hr
      · cases he; exact .inl h0
    case next =>
      cases he
      unfold moveNext
      split
      · unfold i2cNext
        split
        · exact same rfl rfl rfl
        · exact hab _
        · split
          · exact hbeg _ _ _
          · exact same rfl rfl rfl
        · split
          · exact same rfl rfl rfl
          · exact hbeg _ _ _
      · exact hset _
      · unfold initNext
        split
        · exact hset _
        · split
          · exact hset _
          · unfold registerBus
            simp only
            split
            · exact same rfl rfl rfl
            · exact State.Follows.abort (.of_eq rfl rfl rfl) c _
      · exact .inl h0
    case done => cases he; exact .inl h0
    case failed => cases he; exact .inl h0

end Moves

end Sys2Proof.Machine
end

