-- ==== Sys2Proof/Laws/PerInstr.lean ====
section
/-! SUPPORT. Statements about every instruction as syntax, one lemma for each constructor. -/

/-! ## OpcodeRow: the first byte of every well-formed instruction matches its row of spec/opcode_table.json, and an
internal operation has no bytes -/

/-- The instruction's bytes match its row of the opcode table. -/
def Sys2Proof.Laws.OpcodeRow.Statement (i : Sys2Proof.Instr) : Prop :=
  i.wf = true →
    match Sys2Proof.opcodeRow i with
    | some row => ∃ b rest, Sys2Proof.encode i = b :: rest ∧ b &&& row.1 = row.2
    | none => Sys2Proof.encode i = []

namespace Sys2Proof

theorem Laws.OpcodeRow.i2cXfer (msgs : List Msg) : Laws.OpcodeRow.Statement (.i2cXfer msgs) := fun _ => ⟨_, _, rfl, by decide⟩

theorem Laws.OpcodeRow.gpioRead (pin : Byte) : Laws.OpcodeRow.Statement (.gpioRead pin) := fun _ => ⟨_, _, rfl, by decide⟩

theorem Laws.OpcodeRow.gpioReadAll (mask : Byte) : Laws.OpcodeRow.Statement (.gpioReadAll mask) := fun _ => ⟨_, _, rfl, by decide⟩

theorem Laws.OpcodeRow.gpioWrite (pin : Byte) (val : Bool) : Laws.OpcodeRow.Statement (.gpioWrite pin val) := fun _ => ⟨_, _, rfl, by decide⟩

theorem Laws.OpcodeRow.gpioWriteMultiple (mask bits : Byte) : Laws.OpcodeRow.Statement (.gpioWriteMultiple mask bits) := fun _ => ⟨_, _, rfl, by decide⟩

theorem Laws.OpcodeRow.gpioDirInput (pin : Byte) : Laws.OpcodeRow.Statement (.gpioDirInput pin) := fun _ => ⟨_, _, rfl, by decide⟩

theorem Laws.OpcodeRow.gpioDirOutput (pin : Byte) (val : Bool) : Laws.OpcodeRow.Statement (.gpioDirOutput pin val) := fun _ => ⟨_, _, rfl, by decide⟩

theorem Laws.OpcodeRow.gpioDirGet (pin : Byte) : Laws.OpcodeRow.Statement (.gpioDirGet pin) := fun _ => ⟨_, _, rfl, by decide⟩

theorem Laws.OpcodeRow.init : Laws.OpcodeRow.Statement .init := fun _ => ⟨_, _, rfl, by decide⟩

theorem Laws.OpcodeRow.teardown : Laws.OpcodeRow.Statement .teardown := fun _ => ⟨_, _, rfl, by decide⟩

theorem Laws.OpcodeRow.i2cWrite (addr : BitVec 7) (src : Bytes) : Laws.OpcodeRow.Statement (.i2cWrite addr src) := fun _ => ⟨_, _, rfl, by decide⟩

theorem Laws.OpcodeRow.i2cRead (addr : BitVec 7) (len : Nat) : Laws.OpcodeRow.Statement (.i2cRead addr len) := fun _ => ⟨_, _, rfl, by decide⟩

theorem Laws.OpcodeRow.i2cMsgTen (rd : Bool) (addr : Byte) (len : Nat) (payload : Bytes) : Laws.OpcodeRow.Statement (.i2cMsgTen rd addr len payload) := fun _ => ⟨_, _, rfl, by cases rd <;> decide⟩

theorem Laws.OpcodeRow.stream : Laws.OpcodeRow.Statement .stream := fun _ => ⟨_, _, rfl, by decide⟩

theorem Laws.OpcodeRow.start : Laws.OpcodeRow.Statement .start := fun _ => ⟨_, _, rfl, by decide⟩

theorem Laws.OpcodeRow.stop : Laws.OpcodeRow.Statement .stop := fun _ => ⟨_, _, rfl, by decide⟩

theorem Laws.OpcodeRow.setSpeed (speed : BitVec 5) : Laws.OpcodeRow.Statement (.setSpeed speed) := fun _ => ⟨_, _, rfl, by revert speed; decide⟩

theorem Laws.OpcodeRow.endPkt : Laws.OpcodeRow.Statement .endPkt := fun _ => ⟨_, _, rfl, by decide⟩

theorem Laws.OpcodeRow.outSub (data : Bytes) : Laws.OpcodeRow.Statement (.outSub data) := fun h => by
  have hl : data.length ≤ 63 := of_decide_eq_true (p := _ ≤ Config.maxSubLen) h
  have hb : ∀ k : Fin 64, outByte k.val &&& 0xC0 = 0x80 := by decide
  exact ⟨_, _, rfl, hb ⟨data.length, by omega⟩⟩

theorem Laws.OpcodeRow.inSub (n : BitVec 6) : Laws.OpcodeRow.Statement (.inSub n) := fun _ => ⟨_, _, rfl, by revert n; decide⟩

theorem Laws.OpcodeRow.gpioFrame (pins : List PinCtl) : Laws.OpcodeRow.Statement (.gpioFrame pins) := fun _ => ⟨_, _, rfl, by decide⟩

theorem Laws.OpcodeRow.exchange (out : Bytes) (m : Nat) : Laws.OpcodeRow.Statement (.exchange out m) := fun _ => rfl

theorem Laws.OpcodeRow.acquire : Laws.OpcodeRow.Statement .acquire := fun _ => rfl

theorem Laws.OpcodeRow.release : Laws.OpcodeRow.Statement .release := fun _ => rfl

theorem Laws.OpcodeRow.gpioRt : Laws.OpcodeRow.Statement .gpioRt := fun _ => rfl

end Sys2Proof
end

