-- ==== Sys2Proof/Laws/WellFormed.lean ====
section
/-! SUPPORT. What well-formedness says of each instruction whose types do not already say it, in numbers. -/

namespace Sys2Proof

theorem Msg.wf_write {a : BitVec 7} {src : Bytes} : (Msg.write a src).wf = true ↔ src.length ≤ 65535 :=
  decide_eq_true_iff (p := _ ≤ Config.maxXferLen)

theorem Msg.wf_read {a : BitVec 7} {len : Nat} : (Msg.read a len).wf = true ↔ len ≤ 65535 :=
  decide_eq_true_iff (p := _ ≤ Config.maxXferLen)

theorem Msg.wf_ten {rd : Bool} {a : Byte} {len : Nat} {p : Bytes} :
    (Msg.ten rd a len p).wf = true ↔ len ≤ 65535 ∧ p.length = if rd then 0 else len := by
  simp only [Msg.wf, Bool.and_eq_true]
  exact and_congr (decide_eq_true_iff (p := _ ≤ Config.maxXferLen)) decide_eq_true_iff

theorem Instr.wf_i2cXfer {msgs : List Msg} :
    (Instr.i2cXfer msgs).wf = true ↔ 1 ≤ msgs.length ∧ msgs.length ≤ 255 ∧ ∀ m ∈ msgs, m.wf = true := by
  simp only [Instr.wf, Bool.and_eq_true, decide_eq_true_eq, List.all_eq_true, and_assoc]

theorem Instr.wf_setSpeed {sp : BitVec 5} : (Instr.setSpeed sp).wf = true ↔ sp.toNat ≤ 19 := by
  simp only [Instr.wf, decide_eq_true_eq]

theorem Instr.wf_outSub {data : Bytes} : (Instr.outSub data).wf = true ↔ data.length ≤ 63 :=
  decide_eq_true_iff (p := _ ≤ Config.maxSubLen)

theorem Instr.wf_gpioFrame {pins : List PinCtl} : (Instr.gpioFrame pins).wf = true ↔ pins.length = 8 :=
  decide_eq_true_iff (p := _ = Config.gpioPins)

theorem Instr.wf_exchange {o : Bytes} {m : Nat} :
    (Instr.exchange o m).wf = true ↔ 1 ≤ o.length ∧ o.length ≤ 512 ∧ m ≤ 512 := by
  simp only [Instr.wf, Bool.and_eq_true, and_assoc]
  exact and_congr decide_eq_true_iff (and_congr (decide_eq_true_iff (p := _ ≤ Config.scratchLen))
    (decide_eq_true_iff (p := _ ≤ Config.scratchLen)))

end Sys2Proof
end

