-- ==== Sys2Proof/Tests/Slice0.lean ====
section
/-! SUPPORT. The model's own tests. Every expected value comes from 95_test_vectors.md (its vector is named) or is worked out
by hand from the rule named. Below them, one witness for every statement with hypotheses. -/

namespace Sys2Proof.Tests

open Sys2Proof.Machine

/-! Each test asks the kernel, which waits for everything above it: one at a time, so that no test waits in a thread of its
own. -/
set_option Elab.async false

/-! ## Well-formedness: an ill-formed term for each check -/

theorem test_wf_xferNoMessage : (Instr.i2cXfer []).wf = false := by decide
theorem test_wf_xferTooManyMessages : (Instr.i2cXfer (List.replicate 256 (.read 0 0))).wf = false := by decide +kernel
theorem test_wf_xferBadMessage : (Instr.i2cXfer [.read 0x50 65536]).wf = false := by decide +kernel
theorem test_wf_writeTooLong : (Instr.i2cWrite 0x50 (List.replicate 65536 0)).wf = false := by
  rw [← Bool.not_eq_true, Instr.wf, Msg.wf, List.length_replicate]
  decide
theorem test_wf_readTooLong : (Instr.i2cRead 0x50 65536).wf = false := by decide +kernel
theorem test_wf_tenTooLong : (Instr.i2cMsgTen true 0x50 65536 []).wf = false := by decide +kernel
theorem test_wf_tenWritePayload : (Instr.i2cMsgTen false 0x50 2 [0x00]).wf = false := by decide +kernel
theorem test_wf_tenReadPayload : (Instr.i2cMsgTen true 0x50 1 [0x00]).wf = false := by decide +kernel
theorem test_wf_speed : (Instr.setSpeed 0x14).wf = false := by decide
theorem test_wf_outTooLong : (Instr.outSub (List.replicate 64 0)).wf = false := by decide +kernel
theorem test_wf_frameSeven : (Instr.gpioFrame (List.replicate 7 .leave)).wf = false := by decide +kernel
theorem test_wf_exchangeEmpty : (Instr.exchange [] 0).wf = false := by decide +kernel
theorem test_wf_exchangeTooLong : (Instr.exchange (List.replicate 513 0) 0).wf = false := by decide +kernel
theorem test_wf_exchangeAsksTooMuch : (Instr.exchange [0xAA] 513).wf = false := by decide +kernel

/-! ## Decoding: words written out from 30_encoding.md -/

/-- E2, and a read record (R81): FLAGS 01, ADDR 51, L = 0x0102 little-endian. -/
theorem test_decode_i2cXfer :
    decodeRequest [0x01, 0x01, 0x00, 0x50, 0x02, 0x00, 0x01, 0x02] = some (.i2cXfer [.write 0x50 [0x01, 0x02]]) ∧
    decodeRequest [0x01, 0x01, 0x01, 0x51, 0x02, 0x01] = some (.i2cXfer [.read 0x51 258]) := by decide
theorem test_decode_gpioRead : decodeRequest [0x02, 0x03] = some (.gpioRead 3) := by decide
theorem test_decode_gpioReadAll : decodeRequest [0x03, 0x85] = some (.gpioReadAll 0x85) := by decide
theorem test_decode_gpioWrite : decodeRequest [0x04, 0x03, 0x00] = some (.gpioWrite 3 false) := by decide
theorem test_decode_gpioWriteMultiple : decodeRequest [0x05, 0x18, 0x10] = some (.gpioWriteMultiple 0x18 0x10) := by decide
theorem test_decode_gpioDirInput : decodeRequest [0x06, 0x07] = some (.gpioDirInput 7) := by decide
theorem test_decode_gpioDirOutput : decodeRequest [0x07, 0x02, 0x01] = some (.gpioDirOutput 2 true) := by decide
theorem test_decode_gpioDirGet : decodeRequest [0x08, 0x05] = some (.gpioDirGet 5) := by decide
theorem test_decode_init : decodeRequest [0x09] = some .init := by decide
theorem test_decode_teardown : decodeRequest [0x0A] = some .teardown := by decide
theorem test_decode_i2cWrite : decodeRecord [0x00, 0x50, 0x01, 0x00, 0xAB] = some (.i2cWrite 0x50 [0xAB]) := by decide
theorem test_decode_i2cRead : decodeRecord [0x01, 0x7F, 0x00, 0x02] = some (.i2cRead 0x7F 512) := by decide
theorem test_decode_i2cMsgTen :
    decodeRecord [0x02, 0xFF, 0x01, 0x00, 0x09] = some (.i2cMsgTen false 0xFF 1 [0x09]) ∧
    decodeRecord [0x03, 0x50, 0x04, 0x00] = some (.i2cMsgTen true 0x50 4 []) := by decide
/-- 1010_1010 at byte 0 (R68). -/
theorem test_decode_stream : decodeWire true [0xAA] = some (.stream, []) := by decide
/-- 0111_0100 (R63). -/
theorem test_decode_start : decodeWire false [0x74] = some (.start, []) := by decide
/-- 0111_0101 (R63). -/
theorem test_decode_stop : decodeWire false [0x75] = some (.stop, []) := by decide
/-- 011_sssss with s = 10011 (R67), and the first code above the range. -/
theorem test_decode_setSpeed :
    decodeWire false [0x73] = some (.setSpeed 0x13, []) ∧ decodeWire false [0x76] = none := by decide
theorem test_decode_endPkt : decodeWire false [0x00] = some (.endPkt, []) := by decide
/-- 10_000010, then two data bytes (R64). -/
theorem test_decode_outSub : decodeWire false [0x82, 0x74, 0x75, 0x00] = some (.outSub [0x74, 0x75], [0x00]) := by decide
/-- 11_111110 (R64). -/
theorem test_decode_inSub : decodeWire false [0xFE] = some (.inSub 62, []) := by decide
/-- T8: the frame that requests output-high on pin 3 (R78, R79). -/
theorem test_decode_gpioFrame :
    decodeWire true [0xCC, 0x08, 0x00, 0x00, 0x00, 0x00, 0xB8, 0x00, 0x00, 0x00, 0x00] =
      some (.gpioFrame [.leave, .leave, .leave, .apply true true, .leave, .leave, .leave, .leave], []) := by decide
/-- E4, E5, E6, E7, E10 and the empty batch XF5. -/
theorem test_decode_refused :
    [[0x0B], [0x04, 0x03, 0x02], [0x01, 0x01, 0x00, 0xD0, 0x00, 0x00], [0x02, 0x03, 0x00],
      [0x01, 0x01, 0x04, 0x50, 0x00, 0x00], [0x01, 0x00]].map decodeRequest = List.replicate 6 none := by decide
/-- D3v: START and STOP values inside OUT data are data. -/
theorem test_decode_dataIsNoStop : hasStop 1 [0xAA, 0x82, 0x74, 0x75, 0x00] = false := by decide
/-- The rows' own numbering: one byte a row; a zero operand is read after it. -/
theorem test_decode_tableWord :
    decodeTableWord 8 0x09 = some .init ∧ decodeTableWord 8 0xAA = some .stream ∧
    decodeTableWord 8 0xC3 = some (.inSub 3) ∧ decodeTableWord 8 0x74 = some .start := by decide +kernel

/-- R84: the textual syntax, with the spec's own examples. -/
theorem test_asm_gpioWrite : assemble "gpio.write 3, 1" = some [0x04, 0x03, 0x01] := by decide +kernel
/-- R85: `i2c.write_read a, [bytes], #n` is E3 with these operands. -/
theorem test_asm_writeRead : assemble "i2c.write_read 0x50, [00], #4" =
    some [0x01, 0x02, 0x00, 0x50, 0x01, 0x00, 0x00, 0x01, 0x50, 0x04, 0x00] := by decide +kernel

/-- R84: one prefix at most; `0x` inside brackets is no byte. -/
theorem test_asm_brackets :
    assemble "i2c.write 0x50, [0x01 02]" = some [0x01, 0x01, 0x00, 0x50, 0x02, 0x00, 0x01, 0x02] ∧
    assemble "i2c.write 0x50, [0x0x01]" = none ∧ assemble "i2c.write 0x50, [0x]" = none := by decide +kernel

/-! ## Small states -/

/-- The parameters the vectors assume: `SPEED_CODE_100K = 1`, `IDLE_PIN = 2`, a variant that needs no idle pin. -/
def tcfg : Config := { Config.attached 0 with speedCode := 1, variantId := 7, idlePin := 2, epOut := 6, epIn := 134 }

/-- A session just attached, whose bridge answers every Send well. -/
def fresh (replies : List Bytes) : State :=
  { State.attach 0 with cfg := tcfg, sends := List.replicate 4 (.ok 512), recvs := replies.map .ok, regs := [some 5] }

/-- A session brought up. -/
def ready (replies : List Bytes) : State := { fresh replies with sstate := .initialized, regHandle := some 5 }

/-- A session brought up whose mirror has the given pin bytes. -/
def mirrored (pins : Bytes) (replies : List Bytes) : State :=
  { ready replies with gpi := Memory.putBytes [] 0 ([0xCC, 0x08, 0x00] ++ pins), gpiValid := true }

/-- A GPIO reply with the given pin bytes. -/
def frameReply (pins : Bytes) : Bytes := [0xCC, 0x08, 0x00] ++ pins

/-- Context 0 builds the packet of a write of no bytes to device 0x50, `AA 74 81 A0 75 00`, with `pkt` so far. -/
def building (pkt : Bytes) : State := (ready [[0x01, 0x5A]]).withBuilder (builderOf (.write 0x50 []) 0 pkt)

/-- Context 0 builds the packet of the only chunk of `msg`, with `pkt` so far. -/
def buildingMsg (msg : Msg) (pkt : Bytes) : State := (ready []).withBuilder (builderOf msg msg.length pkt)

/-- Context 0 runs INIT and builds the speed command. -/
def buildingSpeed : State := (fresh []).withBuilder { newCtx .init [] with pkt := [0xAA] }

/-- Context 0 forms the frame of a GPIO operation. -/
def framing (op : Instr) : State := (ready []).withBuilder (newCtx op [])

/-- What the step leads to. -/
def nextOf : Host.Outcome State Fault Refusal → Option State
  | .next s => some s
  | _ => none

/-- The result of the newest context. -/
def resultOf (o : Host.Outcome State Fault Refusal) : Option Result :=
  (nextOf o).bind fun s => s.ctxs.getLast?.bind (·.res)

/-- The packets sent. -/
def sentOf (o : Host.Outcome State Fault Refusal) : Option (List Bytes) := (nextOf o).map fun s => s.hist.map (·.sent)

/-- The packet context 0 builds. -/
def pktOf (o : Host.Outcome State Fault Refusal) : Option Bytes := (nextOf o).bind fun s => s.ctxs[0]?.map (·.pkt)

/-- The fault. -/
def faultOf : Host.Outcome State Fault Refusal → Option Fault
  | .fault f => some f
  | _ => none

/-- The refusal. -/
def refusalOf : Host.Outcome State Fault Refusal → Option Refusal
  | .refused r => some r
  | _ => none

/-! ## I2C -/

/-- XF1: a write, then a read of one byte. -/
theorem test_i2cXfer_writeRead :
    let o := exec (.i2cXfer [.write 0x50 [0x00], .read 0x50 1]) (ready [[0x01, 0x01], [0x01, 0xD0]])
    resultOf o = some (.okCount 2) ∧
    sentOf o = some [[0xAA, 0x74, 0x82, 0xA0, 0x00, 0x75, 0x00], [0xAA, 0x74, 0x81, 0xA1, 0xC1, 0x75, 0x00]] := by
  decide +kernel
/-- XF4: the first message fails, the second is not started. -/
theorem test_i2cXfer_stopsAtFirstError :
    let o := exec (.i2cXfer [.read 0x50 1, .write 0x51 [0x00]]) (ready [[0x00, 0xD0], [0x01, 0x01]])
    resultOf o = some (.err (.nackError 0 0)) ∧ sentOf o = some [[0xAA, 0x74, 0x81, 0xA1, 0xC1, 0x75, 0x00]] := by
  decide +kernel
/-- WE2. -/
theorem test_i2cWrite_nack :
    resultOf (exec (.i2cWrite 0x50 [0x01, 0x02]) (ready [[0x01, 0x00, 0x01]])) = some (.err (.nackError 0 1)) := by
  decide +kernel
/-- W63 (a shorter form of it): the second chunk carries no START, the first no STOP. -/
theorem test_i2cWrite_twoChunks :
    sentOf (exec (.i2cWrite 0x50 [0x01, 0x02, 0x03])
      { ready [[0x01, 0x01, 0x01], [0x01]] with cfg := { tcfg with wchunkFirst := 2 } }) =
      some [[0xAA, 0x74, 0x83, 0xA0, 0x01, 0x02, 0x00], [0xAA, 0x81, 0x03, 0x75, 0x00]] := by decide +kernel
/-- RD2: the reply's payload stands in DST. -/
theorem test_i2cRead_good :
    ((nextOf (exec (.i2cRead 0x50 2) (ready [[0x01, 0x11, 0x22]]))).map fun s => s.ctxs.map (·.dst)) =
      some [[[(0, 0x11), (1, 0x22)]]] := by decide +kernel
/-- RE3: the length is checked before the status byte. -/
theorem test_i2cRead_short :
    resultOf (exec (.i2cRead 0x50 2) (ready [[0x00, 0x11]])) = some (.err (.protocolError 0 3 2)) := by decide +kernel
/-- XF2: InvalidArgument, with no exchange. -/
theorem test_i2cMsgTen_refusesToFrame :
    let o := exec (.i2cMsgTen false 0x50 1 [0x00]) (ready [])
    resultOf o = some (.err (.invalidArgument (.tenBitAddress 0))) ∧ sentOf o = some [] := by decide +kernel

/-! ## GPIO -/

/-- G1. -/
theorem test_gpioRead_pin3 :
    let o := exec (.gpioRead 3) (ready [frameReply [0, 0, 0, 0xC0, 0, 0, 0, 0]])
    resultOf o = some (.okBit true) ∧ (nextOf o).map (·.gpiValid) = some true := by decide +kernel
/-- G19: a reply of ten bytes. -/
theorem test_gpioRead_short :
    let o := exec (.gpioRead 0) (ready [List.replicate 10 0])
    resultOf o = some (.err (.protocolError 0 11 10)) ∧ (nextOf o).map (·.gpiValid) = some false := by decide +kernel
/-- G3. -/
theorem test_gpioReadAll_mask85 :
    resultOf (exec (.gpioReadAll 0x85) (ready [frameReply [0x40, 0, 0x40, 0, 0, 0, 0, 0x40]])) = some (.okByte 0x85) := by
  decide +kernel
/-- G4. -/
theorem test_gpioReadAll_outsideMask :
    resultOf (exec (.gpioReadAll 0x05) (ready [frameReply [0x40, 0x40, 0, 0, 0, 0, 0, 0]])) = some (.okByte 0x01) := by
  decide +kernel
/-- G7: the cached direction (input) is kept. -/
theorem test_gpioWrite_keepsDirection :
    sentOf (exec (.gpioWrite 3 true) (mirrored [0, 0, 0, 0, 0, 0, 0, 0] [])) =
      some [[0xCC, 0x08, 0x00, 0, 0, 0, 0x38, 0, 0, 0, 0]] := by decide +kernel
/-- G8. -/
theorem test_gpioWrite_unknownMirror : faultOf (exec (.gpioWrite 3 false) (ready [])) = some .unwrittenRead := by
  decide +kernel
/-- G17: pin 2 is an input and is skipped. -/
theorem test_gpioWriteMultiple_skipsInputs :
    sentOf (exec (.gpioWriteMultiple 0x0C 0x0C) (mirrored [0, 0, 0x40, 0x80, 0, 0, 0, 0] [])) =
      some [[0xCC, 0x08, 0x00, 0, 0, 0, 0xB8, 0, 0, 0, 0]] := by decide +kernel
/-- G16. -/
theorem test_gpioWriteMultiple_bits :
    sentOf (exec (.gpioWriteMultiple 0x0C 0x08) (mirrored [0, 0, 0x80, 0x80, 0, 0, 0, 0] [])) =
      some [[0xCC, 0x08, 0x00, 0, 0, 0xB0, 0xB8, 0, 0, 0, 0]] := by decide +kernel
/-- G13. -/
theorem test_gpioDirInput_high :
    sentOf (exec (.gpioDirInput 2) (mirrored [0, 0, 0xC0, 0, 0, 0, 0, 0] [])) =
      some [[0xCC, 0x08, 0x00, 0, 0, 0x38, 0, 0, 0, 0, 0]] := by decide +kernel
/-- G14. -/
theorem test_gpioDirInput_low :
    sentOf (exec (.gpioDirInput 2) (mirrored [0, 0, 0x80, 0, 0, 0, 0, 0] [])) =
      some [[0xCC, 0x08, 0x00, 0, 0, 0x30, 0, 0, 0, 0, 0]] := by decide +kernel
/-- G10. -/
theorem test_gpioDirOutput_assign :
    let o := exec (.gpioDirOutput 2 true) (ready [List.replicate 11 0])
    resultOf o = some .ok ∧ sentOf o = some [[0xCC, 0x08, 0x00, 0, 0, 0xB8, 0, 0, 0, 0, 0]] := by decide +kernel
/-- G12. -/
theorem test_gpioDirOutput_copyOr :
    sentOf (exec (.gpioDirOutput 2 false)
      { mirrored [0, 0, 0x40, 0, 0, 0, 0, 0] [] with cfg := { tcfg with dirOutValueMode := .copyOr } }) =
      some [[0xCC, 0x08, 0x00, 0, 0, 0xB8, 0, 0, 0, 0, 0]] := by decide +kernel
/-- G15. -/
theorem test_gpioDirGet_output :
    resultOf (exec (.gpioDirGet 5) (ready [frameReply [0, 0, 0, 0, 0, 0x80, 0, 0]])) = some (.okBit true) := by
  decide +kernel
/-- G2, for this operation: pin 8 is out of range. -/
theorem test_gpioDirGet_range :
    resultOf (exec (.gpioDirGet 8) (ready [])) = some (.err (.invalidArgument (.pinRange 8))) := by decide +kernel

/-! ## INIT and TEARDOWN -/

/-- I1. -/
theorem test_init_plain :
    let o := exec .init (fresh [])
    resultOf o = some .ok ∧ sentOf o = some [[0xAA, 0x61, 0x00]] ∧
    (nextOf o).map (fun s => (s.sstate, s.regHandle, s.gpiValid)) = some (.initialized, some 5, false) := by decide +kernel
/-- I4: five bytes for the idle-pin frame. -/
theorem test_init_idlePinFails :
    let o := exec .init { fresh [List.replicate 5 0] with cfg := { tcfg with variant := 7 } }
    resultOf o = some (.err (.protocolError 0 11 5)) ∧ (nextOf o).map (·.sstate) = some .dead ∧
    sentOf o = some [[0xAA, 0x61, 0x00], [0xCC, 0x08, 0x00, 0, 0, 0xB8, 0, 0, 0, 0, 0]] := by decide +kernel
/-- I7. -/
theorem test_teardown_unregisters :
    (nextOf (exec .teardown (ready []))).map (fun s => (s.sstate, s.regHandle, s.hostLog)) =
      some (.dead, none, [.unregister 5]) := by decide +kernel
/-- R128: not while the lock is held. -/
theorem test_teardown_inFlight : refusalOf (exec .teardown (building [])) = some .hostDuty := by decide +kernel

/-! ## Wire rows and internal operations -/

theorem test_stream_emits : pktOf (exec .stream (building [])) = some [0xAA] := by decide +kernel
/-- R96: `p <- [0xAA]`, whatever stood in PKT. -/
theorem test_stream_begins : pktOf (exec .stream (building [0xAA, 0x74])) = some [0xAA] := by decide +kernel
theorem test_start_emits : pktOf (exec .start (building [0xAA])) = some [0xAA, 0x74] := by decide +kernel
/-- R77: START stands once, after the marker. -/
theorem test_start_place : refusalOf (exec .start (building [0xAA, 0x74])) = some .wirePosition := by decide +kernel
theorem test_stop_emits :
    pktOf (exec .stop (building [0xAA, 0x74, 0x81, 0xA0])) = some [0xAA, 0x74, 0x81, 0xA0, 0x75] := by decide +kernel
/-- R125, with `SPEED_CODE_100K = 1`. -/
theorem test_setSpeed_emits : pktOf (exec (.setSpeed 1) buildingSpeed) = some [0xAA, 0x61] := by decide +kernel
/-- R76: no other speed byte. -/
theorem test_setSpeed_other : refusalOf (exec (.setSpeed 2) buildingSpeed) = some .wirePosition := by decide +kernel
theorem test_endPkt_emits : pktOf (exec .endPkt (building [0xAA, 0x74, 0x81, 0xA0, 0x75])) =
    some [0xAA, 0x74, 0x81, 0xA0, 0x75, 0x00] := by decide +kernel
/-- R74: nothing follows END. -/
theorem test_endPkt_last : refusalOf (exec .endPkt (building [0xAA, 0x74, 0x81, 0xA0, 0x75, 0x00])) = some .wirePosition := by
  decide +kernel
/-- W1: the address byte and the data byte of a write. -/
theorem test_outSub_emits : pktOf (exec (.outSub [0xA0, 0x01]) (buildingMsg (.write 0x50 [0x01]) [0xAA, 0x74])) =
    some [0xAA, 0x74, 0x82, 0xA0, 0x01] := by decide +kernel
/-- R76: OUT of no bytes is never emitted. -/
theorem test_outSub_empty : refusalOf (exec (.outSub []) (building [0xAA, 0x74])) = some .wirePosition := by decide +kernel
/-- R101: the IN of a read of 63 bytes. -/
theorem test_inSub_emits : pktOf (exec (.inSub 62) (buildingMsg (.read 0x50 63) [0xAA, 0x74, 0x81, 0xA1])) =
    some [0xAA, 0x74, 0x81, 0xA1, 0xFE] := by decide +kernel
/-- R76: IN of no bytes only as `FINAL_IN`. -/
theorem test_inSub_zero :
    refusalOf (exec (.inSub 0) (buildingMsg (.read 0x50 1) [0xAA, 0x74, 0x81, 0xA1])) = some .wirePosition := by decide +kernel
/-- T9's frame. -/
theorem test_gpioFrame_forms :
    (nextOf (exec (.gpioFrame [.leave, .leave, .apply true true, .leave, .leave, .leave, .leave, .leave])
      (framing (.gpioDirOutput 2 true)))).bind
      (fun s => s.gpo.bytesAt 0 11) = some [0xCC, 0x08, 0x00, 0, 0, 0xB8, 0, 0, 0, 0, 0] := by decide +kernel
/-- R114: GPIO_READ requests no pin. -/
theorem test_gpioFrame_other :
    refusalOf (exec (.gpioFrame [.leave, .leave, .apply true true, .leave, .leave, .leave, .leave, .leave])
      (framing (.gpioRead 2))) = some .wirePosition := by decide +kernel
/-- X4: a short Send is no error. -/
theorem test_exchange_shortSend :
    (nextOf (exec (.exchange [0xAA, 0x74, 0x81, 0xA1, 0xC1, 0x75, 0x00] 512)
      { building [] with sends := [.ok 3] })).map (fun s => (s.outlen, s.inlen, s.reply)) =
      some (some 7, some 2, some [0x01, 0x5A]) := by decide +kernel
/-- X2: a failed Send. -/
theorem test_exchange_sendError :
    let o := exec (.exchange [0xAA, 0x61, 0x00] 512) { building [] with sends := [.err] }
    resultOf o = some (.err (.ioError .send)) ∧ (nextOf o).map (·.lock) = some .free := by decide +kernel
/-- R86. -/
theorem test_acquire_holderFaults : faultOf (exec .acquire (building [])) = some .lockReentry := by decide +kernel
/-- R86, R98: the first chunk is chosen before the Acquire. -/
theorem test_acquire_fromAdmit :
    ((nextOf (exec .acquire { ready [] with ctxs := [newCtx (.i2cXfer [.write 0x50 [0x01]]) [[]]] })).map fun s =>
      (s.lock, s.ctxs.map fun x => (x.phase, x.n, x.last))) = some (.held 0, [(.build, some 1, some true)]) := by decide +kernel
/-- R87. -/
theorem test_release_frees : (nextOf (exec .release (building []))).map (·.lock) = some .free := by decide +kernel
theorem test_release_notHeld : faultOf (exec .release (ready [])) = some .lockNotHeld := by decide +kernel
/-- R111. -/
theorem test_gpioRt_good :
    (nextOf (exec .gpioRt { building [] with
      gpo := Memory.putBytes [] 0 [0xCC, 8, 0, 0, 0, 0, 0, 0, 0, 0, 0], recvs := [.ok (List.replicate 11 7)] })).bind
      (fun s => s.gpi.bytesAt 0 11) = some (List.replicate 11 7) := by decide +kernel

/-! ## Steps and whole runs -/

/-- P2 without its first operation (70_reset_and_hazards.md R149). -/
theorem test_step_firstWriteFaults :
    faultOf (step { ready [] with port := [.request [0x04, 0x03, 0x01]] }) = some .unwrittenRead := by decide +kernel
/-- E4 through the request port. -/
theorem test_step_badDescriptor : refusalOf (step { ready [] with port := [.request [0x0B]] }) = some .badDescriptor := by
  decide +kernel
/-- P4, in small: B's frame falls between A's two chunks, inside A's open transaction. -/
theorem test_interleaving :
    (match core.run 3 { ready [[0x01, 0x01], frameReply [0x40, 0, 0, 0, 0, 0, 0, 0], [0x01]] with
        cfg := { tcfg with wchunkFirst := 1 }
        quanta := [5]
        port := [.request [0x01, 0x01, 0x00, 0x50, 0x02, 0x00, 0x01, 0x02], .request [0x02, 0x00], .turn 0] } with
      | .next s => some (s.hist.map (fun e => (e.ctx, e.sent.length)), s.ctxs.map (·.res))
      | _ => none) =
      some ([(0, 6), (1, 11), (0, 5)], [some (.okCount 1), some (.okBit true)]) := by decide +kernel

/-! ## Witnesses: a state and operands that meet the hypotheses of each statement -/

theorem next_exists {o : Host.Outcome State Fault Refusal} (h : (nextOf o).isSome = true) : ∃ t, o = .next t := by
  cases o with
  | next s => exact ⟨s, rfl⟩
  | fault f => simp [nextOf] at h
  | refused r => simp [nextOf] at h

theorem tcfg_wf : tcfg.wf = true := by decide
theorem reset_gpo : Memory.wf [(0, 0xCC), (1, 0x08), (2, 0x00)] ∧
    Memory.bytesAt [(0, 0xCC), (1, 0x08), (2, 0x00)] 0 3 = some gpioHeader := by decide
theorem ready_Ready (r : List Bytes) : (ready r).Ready := ⟨tcfg_wf, rfl, rfl, rfl⟩
theorem ready_Frame (r : List Bytes) : (ready r).FrameReady := ⟨reset_gpo.1, reset_gpo.2⟩
theorem mirrored_Ready (p : Bytes) (r : List Bytes) : (mirrored p r).Ready := ⟨tcfg_wf, rfl, rfl, rfl⟩
theorem mirrored_Frame (p : Bytes) (r : List Bytes) : (mirrored p r).FrameReady := ⟨reset_gpo.1, reset_gpo.2⟩

theorem wit_WireBytesHaveTheirFields : (0x00 : BitVec 5).toNat ≤ 0x13 ∧ (0x13 : BitVec 5).toNat ≤ 0x13 := by decide

theorem wit_EncodeThenDecodeIsIdentity :
    (Instr.i2cXfer [.write 0x7F [], .read 0x00 65535, .ten false 0xFF 1 [0x09]]).wf = true ∧
    (Instr.i2cXfer []).format ≠ .internal ∧ (Instr.setSpeed 0x13).wf = true ∧
    (Instr.outSub (List.replicate 63 0)).wf = true := by decide +kernel

theorem wit_DecodeThenEncodeIsIdentity :
    (decodeRequest [0x0A]).isSome = true ∧ (decodeRecord [0x03, 0xFF, 0xFF, 0xFF]).isSome = true ∧
    (decodeSub [0x81, 0x00, 0x75]).isSome = true ∧
    (decodeWireG [0xCC, 0x08, 0x00, 0x00, 0x30, 0x38, 0xB0, 0xB8, 0x00, 0x00, 0x00]).isSome = true := by decide

/-- Every clause at a boundary: the first reserved selector, `val` 2, one record short of K, FLAGS 4, a prefix of one byte,
one byte left over, a decoded batch, a refused request. -/
theorem wit_InvalidDescriptorsAreRefused :
    0x0B ≤ (0x0B : Byte).toNat ∧ ((0x02 : Byte) ≠ 0 ∧ (0x02 : Byte) ≠ 1) ∧
    ([Msg.read 0x50 1].all Msg.wf = true ∧ [Msg.read 0x50 1].length < (2 : Byte).toNat) ∧
    4 ≤ (0x04 : Byte).toNat ∧ ((0x01 : Byte).toNat < 2 ∧ (0x80 : Byte).msb = true) ∧
    ((Instr.gpioRead 3).wf = true ∧ (Instr.gpioRead 3).format = .req ∧ [0x02] <+: encode (.gpioRead 3) ∧
      [0x02] ≠ encode (.gpioRead 3)) ∧
    ([0x00] : Bytes) ≠ [] ∧ (decodeRequest [0x01, 0x01, 0x01, 0x50, 0xFF, 0xFF]).isSome = true ∧
    decodeRequest [0x00] = none := by decide

theorem wit_BuiltPacketsDecode :
    tcfg.wf = true ∧ 0 + 62 ≤ (List.replicate 62 (0 : Byte)).length ∧ 0 + 63 ≤ (List.replicate 63 (0 : Byte)).length ∧
    1 ≤ 63 := by decide +kernel

theorem wit_PacketLengths :
    tcfg.wf = true ∧ (⟨0, 62, true, true⟩ : Chunk) ∈ wchunks tcfg (List.replicate 62 (0 : Byte)).length ∧
    0 + 62 ≤ (List.replicate 62 (0 : Byte)).length := by decide +kernel

/-- W125's plan, and that of the empty message. -/
theorem wit_WriteChunkPlan :
    tcfg.wf = true ∧ (wchunks tcfg 125)[0]? = some ⟨0, 62, true, false⟩ ∧
    (wchunks tcfg 125)[2]? = some ⟨124, 1, false, true⟩ ∧ (wchunks tcfg 0)[0]? = some ⟨0, 0, true, true⟩ := by
  decide +kernel

/-- RD127's plan. -/
theorem wit_ReadChunkPlan : tcfg.wf = true ∧ (rchunks tcfg 127)[2]? = some (126, 1) := by decide +kernel

theorem wit_StepRunsTheDecodedInstruction :
    decodeRequest [0x09] = some .init ∧ decodeRecord [0x01, 0x50, 0x01, 0x00] = some (.i2cRead 0x50 1) ∧
    whole (decodeWire ((building []).atPacketStart 0) [0xAA]) = some .stream ∧ Instr.release.format = .internal := by
  decide +kernel

/-! A state in the middle of an exchange, which the next step makes. -/

/-- Context 0 builds and its exchange is the next command. -/
def mid : State := { building [] with port := [.internal 0 (.exchange [0xAA, 0x75, 0x00] 512)] }

theorem mid_ctx {c : Nat} {x : Ctx} (h : mid.ctxs[c]? = some x) :
    c = 0 ∧ x = { newCtx (.i2cXfer [.write 0x50 []]) [[]] with phase := .build, n := some 0, last := some true } := by
  cases c with
  | zero => exact ⟨rfl, (Option.some.inj h).symm⟩
  | succ c => simp [mid, building, State.withBuilder, ready, fresh, State.attach] at h

theorem mid_next : ∃ t, step mid = .next t := next_exists (by decide +kernel)

theorem mid_mutex : mid.MutexInv := by
  constructor
  · intro c x hx
    obtain ⟨rfl, rfl⟩ := mid_ctx hx
    exact ⟨fun _ => rfl, fun _ => rfl⟩
  · intro c hc
    have h : c = 0 := by simpa [mid, building, State.withBuilder, ready, fresh, State.attach, eq_comm] using hc
    subst h
    decide

theorem mid_gpo : mid.gpo = [(0, 0xCC), (1, 0x08), (2, 0x00)] := rfl

theorem wit_StepKeepsLockAndPhases : mid.MutexInv ∧ ∃ t, step mid = .next t := ⟨mid_mutex, mid_next⟩

theorem wit_FrameHeaderNeverChanges : mid.gpo.bytesAt 0 3 = some [0xCC, 0x08, 0x00] ∧ ∃ t, step mid = .next t :=
  ⟨by decide, mid_next⟩

theorem wit_StepKeepsControlBytes : mid.GpoPinsInv ∧ ∃ t, step mid = .next t := by
  refine ⟨fun p hp => .inl ?_, mid_next⟩
  rw [mid_gpo]
  simp only [Memory.byteAt]
  repeat' rw [if_neg (by omega)]

theorem wit_StepKeepsBuffers : mid.BufferInv ∧ mid.LengthInv ∧ mid.LastPacketInv ∧ ∃ t, step mid = .next t := by
  refine ⟨⟨by decide, by decide, by decide, by decide, fun c hc => ?_, fun c hc => ?_⟩, ⟨fun n hn => ?_, fun n hn => ?_⟩,
    ⟨fun _ => rfl, fun e he => ?_⟩, mid_next⟩
  · cases hc
  · cases hc
  · cases hn
  · cases hn
  · cases he

theorem wit_StepKeepsOpenTxn : mid.MutexInv ∧ mid.OpenTxnInv ∧ ∃ t, step mid = .next t :=
  ⟨mid_mutex, ⟨fun h => (by cases h), fun h => (by cases h)⟩, mid_next⟩

theorem wit_StepKeepsMirror : mid.MutexInv ∧ mid.MirrorInv ∧ ∃ t, step mid = .next t := by
  refine ⟨mid_mutex, ⟨fun _ => rfl, fun h => (by cases h), fun c x hx hp => ?_⟩, mid_next⟩
  obtain ⟨rfl, rfl⟩ := mid_ctx hx
  cases hp

theorem wit_StepKeepsContextBounds : mid.MutexInv ∧ mid.ContextInv ∧ ∃ t, step mid = .next t := by
  refine ⟨mid_mutex, ⟨by decide, ?_, fun c x hx => ?_, fun m hm => (by cases hm)⟩, mid_next⟩
  · rw [mid_gpo]
    intro cell h
    simp only [List.mem_cons, List.not_mem_nil, or_false] at h
    rcases h with rfl | rfl | rfl <;> decide
  · obtain ⟨rfl, rfl⟩ := mid_ctx hx
    refine ⟨by decide, fun _ => by decide, fun h => (by cases h), fun n hn => ?_, by decide, fun m hm => ?_,
      rfl, fun m hm => ?_, fun p hp => (by cases hp)⟩
    · cases hn
      decide
    · cases hm
      decide
    · simp only [newCtx, List.mem_cons, List.not_mem_nil, or_false] at hm
      subst hm
      exact List.Pairwise.nil

theorem wit_StepKeepsStatuses : mid.MutexInv ∧ mid.StatusInv ∧ ∃ t, step mid = .next t := by
  refine ⟨mid_mutex, fun c x hx => ?_, mid_next⟩
  obtain ⟨rfl, rfl⟩ := mid_ctx hx
  decide

theorem wit_StepKeepsLifecycle : mid.MutexInv ∧ mid.LifecycleInv ∧ ∃ t, step mid = .next t := by
  refine ⟨mid_mutex, ⟨fun c d x y hx hy => ?_, fun c x hx h => ?_, by decide⟩, mid_next⟩
  · obtain ⟨rfl, -⟩ := mid_ctx hx
    obtain ⟨rfl, -⟩ := mid_ctx hy
    exact fun _ _ => rfl
  · obtain ⟨rfl, rfl⟩ := mid_ctx hx
    cases h

theorem wit_HistoryOnlyGrows : ∃ t, step mid = .next t := mid_next

/-- Context 0 ended. -/
def ended : State := { ready [] with ctxs := [(newCtx (.gpioRead 0) []).finish (.okBit true)], port := [.turn 0] }

theorem wit_EndedContextsStay :
    ended.MutexInv ∧ (∃ x, ended.ctxs[0]? = some x ∧ x.phase.isFinal = true) ∧ ∃ t, step ended = .next t := by
  refine ⟨⟨fun c x hx => ?_, fun c hc => (by cases hc)⟩, ⟨_, rfl, rfl⟩, next_exists (by decide +kernel)⟩
  cases c with
  | zero =>
    cases (Option.some.inj hx)
    exact ⟨fun h => (by cases h), fun h => (by cases h)⟩
  | succ c => simp [ended, ready, fresh, State.attach] at hx

/-- Another caller's request waits while context 0 holds the lock. -/
def other : State := { mid with port := [.request [0x02, 0x00]] }

theorem wit_LockGuardsTheSession :
    other.MutexInv ∧ other.lock = .held 0 ∧ other.actor ≠ 0 ∧ ∃ t, step other = .next t :=
  ⟨⟨mid_mutex.holder, mid_mutex.exists_⟩, rfl, by decide, next_exists (by decide +kernel)⟩

/-- Context 1 waits while context 0 holds the lock, and takes its turn. -/
def waiting : State :=
  { mid with
    ctxs := mid.ctxs ++ [{ newCtx (.gpioRead 0) [] with phase := .waitLock }]
    cur := 1
    port := [.turn 1] }

theorem wit_WaitingContextHasNoStep :
    ∃ x, waiting.port = [.turn 1] ∧ waiting.ctxs[1]? = some x ∧ x.phase = .waitLock ∧ waiting.lock = .held 0 ∧ 0 ≠ 1 :=
  ⟨_, rfl, rfl, rfl, rfl, by decide⟩

/-- Waiting; a GPIO context in `Next` and in `Admit`; INIT in `Admit`; a write and a read with a chunk left; an ended
context; a free lock, a lock held by another, a lock held by the context itself. -/
theorem wit_AcquireTakesTheFreeLock :
    (∃ x, waiting.ctxs[waiting.cur]? = some x ∧ x.phase = .waitLock) ∧
    ({ waiting with lock := .free } : State).lock = .free ∧ waiting.lock = .held 0 ∧ 0 ≠ waiting.cur ∧
    (engineOf (newCtx (.gpioRead 7) []).op = .gpio ∧ (newCtx (.gpioRead 7) []).phase = .admitting ∧
      ∀ p, checkedPin (newCtx (.gpioRead 7) []).op = some p → p.toNat < 8) ∧
    ((newCtx .init []).op = .init ∧ (newCtx .init []).phase = .admitting) ∧
    (∃ x : Ctx, x.phase = .next ∧ x.msg = some (.write 0x50 [0x01]) ∧ x.first = true) ∧
    (∃ x : Ctx, x.phase = .next ∧ x.msg = some (.write 0x50 [0x01]) ∧ x.off < [0x01].length ∧ x.first = false) ∧
    (∃ x : Ctx, x.phase = .next ∧ x.msg = some (.read 0x50 1) ∧ x.off < 1) ∧
    ((∃ x, ended.ctxs[ended.cur]? = some x ∧ x.phase.isFinal = true) ∧ ended.lock ≠ .held ended.cur) ∧
    mid.lock = .held mid.cur ∧ ∃ x, mid.ctxs[mid.cur]? = some x :=
  ⟨⟨_, rfl, rfl⟩, rfl, rfl, by decide, ⟨rfl, rfl, fun p h => by cases h; decide⟩, ⟨rfl, rfl⟩,
    ⟨{ newCtx (.i2cWrite 0x50 [0x01]) [[]] with phase := .next }, rfl, rfl, rfl⟩,
    ⟨{ newCtx (.i2cWrite 0x50 [0x01]) [[]] with phase := .next, first := false }, rfl, rfl, by decide, rfl⟩,
    ⟨{ newCtx (.i2cRead 0x50 1) [[]] with phase := .next }, rfl, rfl, by decide⟩,
    ⟨⟨_, rfl, rfl⟩, by decide⟩, rfl, _, rfl⟩

theorem wit_ReleaseFreesTheLock : mid.lock = .held mid.cur ∧ waiting.lock ≠ .held waiting.cur := by decide

/-- Not held; 0, 513 and 513 asked for; 1 and 512 bytes. -/
theorem wit_ExchangeDoesWhatItsRuleSays :
    waiting.lock ≠ .held waiting.cur ∧ mid.lock = .held mid.cur ∧ ([] : Bytes).length = 0 ∧
    512 < (List.replicate 513 (0 : Byte)).length ∧ 512 < 513 ∧ 1 ≤ ([0xAA] : Bytes).length ∧
    (List.replicate 512 (0 : Byte)).length ≤ 512 ∧ 512 ≤ 512 := by decide +kernel

/-- A whole frame in GPO. -/
def framed (s : State) : State := { s with gpo := Memory.putBytes [] 0 [0xCC, 8, 0, 0, 0, 0, 0, 0, 0, 0, 0] }

theorem wit_GpioRoundTripDoesWhatItsRuleSays :
    (∃ o, (framed mid).gpo.bytesAt 0 11 = some o) ∧ (framed mid).lock = .held (framed mid).cur ∧
    (framed waiting).lock ≠ .held (framed waiting).cur :=
  ⟨⟨_, rfl⟩, rfl, by decide⟩

theorem wit_AbortLeavesWhatItsRuleSays : (∃ x, waiting.ctxs[0]? = some x) ∧ (∃ x, waiting.ctxs[1]? = some x) :=
  ⟨⟨_, rfl⟩, ⟨_, rfl⟩⟩

/-- A builder of each packet shape, at the place of each row; a place where START is refused. -/
theorem wit_WireRowsEmitTheirBytes :
    (∃ x, (building [0xAA]).ctxs[(building [0xAA]).cur]? = some x ∧ x.phase = .build ∧
      x.packet (building [0xAA]).cfg = some [0xAA, 0x74, 0x81, 0xA0, 0x75, 0x00] ∧ x.pkt ++ [0x74] <+:
        [0xAA, 0x74, 0x81, 0xA0, 0x75, 0x00]) ∧
    (building [0xAA]).lock = .held (building [0xAA]).cur ∧
    ([0xAA, 0x74, 0x81, 0xA0] ++ [0x75] : Bytes) <+: [0xAA, 0x74, 0x81, 0xA0, 0x75, 0x00] ∧
    ([0xAA, 0x74, 0x81, 0xA0, 0x75] ++ [0x00] : Bytes) <+: [0xAA, 0x74, 0x81, 0xA0, 0x75, 0x00] ∧
    ¬ (([0xAA, 0x74] ++ encode .start : Bytes) <+: [0xAA, 0x74, 0x81, 0xA0, 0x75, 0x00]) ∧
    (∃ x, buildingSpeed.ctxs[buildingSpeed.cur]? = some x ∧ x.packet buildingSpeed.cfg = some [0xAA, 0x61, 0x00] ∧
      (0x01 : BitVec 5).toNat = buildingSpeed.cfg.speedCode.val ∧
      x.pkt ++ [0x60 ||| (0x01 : BitVec 5).setWidth 8] <+: [0xAA, 0x61, 0x00]) ∧
    ((builderOf (.read 0x50 63) 63 [0xAA, 0x74, 0x81, 0xA1]).packet tcfg =
        some [0xAA, 0x74, 0x81, 0xA1, 0xFE, 0xC1, 0x75, 0x00] ∧ (62 : BitVec 6) ≠ 0 ∧
      ([0xAA, 0x74, 0x81, 0xA1] ++ [0xC0 ||| (62 : BitVec 6).setWidth 8] : Bytes) <+:
        [0xAA, 0x74, 0x81, 0xA1, 0xFE, 0xC1, 0x75, 0x00]) ∧
    ((builderOf (.write 0x50 [0x01]) 1 [0xAA, 0x74]).packet tcfg = some [0xAA, 0x74, 0x82, 0xA0, 0x01, 0x75, 0x00] ∧
      ([0xAA, 0x74] ++ (0x80 ||| BitVec.ofNat 8 [0xA0, 0x01].length) :: [0xA0, 0x01] : Bytes) <+:
        [0xAA, 0x74, 0x82, 0xA0, 0x01, 0x75, 0x00]) ∧
    (∃ t, exec (.inSub 0) { buildingMsg (.read 0x50 1) [0xAA, 0x74, 0x81, 0xA1] with cfg := { tcfg with finalIn := 0xC0 } } =
      .next t) ∧
    (∃ t, exec (.setSpeed 1) buildingSpeed = .next t) ∧
    (Instr.start.format = .wireB ∧ (ready []).building = none ∧
      ∃ x, (framing (.gpioRead 0)).building = some x ∧ x.packet (framing (.gpioRead 0)).cfg = none) :=
  ⟨⟨_, rfl, rfl, by decide, by decide⟩, rfl, by decide, by decide, by decide, ⟨_, rfl, by decide, by decide, by decide⟩,
    by decide, by decide, next_exists (by decide +kernel), next_exists (by decide +kernel), rfl, rfl, _, rfl, rfl⟩

theorem wit_PacketGrammarIsKept :
    inSubPosition [0xAA, 0x74] = true ∧ (Instr.outSub [0x01]).wf = true ∧ (Instr.outSub [0x01]).format = .wireL ∧
    (Instr.endPkt.format = .wireB ∧ Instr.endPkt ≠ .stream) := by decide +kernel

/-- A context that forms no frame; one whose mirror is unknown; the frame of GPIO_DIR_OUTPUT, and another. -/
theorem wit_GpioFrameFormsTheFrame :
    ((∃ x, (building []).ctxs[(building []).cur]? = some x ∧ x.phase = .build ∧ x.buildsFrame = false) ∧
      (building []).lock = .held (building []).cur) ∧
    (∃ x, (framing (.gpioDirInput 7)).ctxs[(framing (.gpioDirInput 7)).cur]? = some x ∧ x.buildsFrame = true ∧
      gpioFrameOf x.op (framing (.gpioDirInput 7)) = .error .unwrittenRead) ∧
    (∃ x g, (framing (.gpioDirOutput 7 true)).ctxs[(framing (.gpioDirOutput 7 true)).cur]? = some x ∧
      x.buildsFrame = true ∧ gpioFrameOf x.op (framing (.gpioDirOutput 7 true)) = .ok g ∧
      g.bytesAt 3 8 = some ((List.replicate 7 PinCtl.leave ++ [PinCtl.apply true true]).map PinCtl.byte) ∧
      g.bytesAt 3 8 ≠ some ((List.replicate 8 PinCtl.leave).map PinCtl.byte) ∧
      ∀ p, checkedPin x.op = some p → p.toNat < 8) ∧
    (framing (.gpioDirOutput 7 true)).gpo.bytesAt 0 3 = some [0xCC, 0x08, 0x00] :=
  ⟨⟨⟨_, rfl, rfl, rfl⟩, rfl⟩, ⟨_, rfl, rfl, rfl⟩,
    ⟨_, _, rfl, rfl, rfl, by decide, by decide, fun p h => by cases h; decide⟩, by decide⟩

/-- Attached, an illegal configuration, Initialized. -/
theorem wit_RequestsThatAreNotAdmitted :
    (engineOf (.gpioRead 0) = .gpio ∧ engineOf (.i2cXfer []) = .i2c ∧ (fresh []).cfg.wf = true ∧
      (fresh []).sstate ≠ .initialized) ∧
    (engineOf .init ≠ .none ∧ engineOf .teardown = .none ∧ ({ tcfg with rchunk := 64 } : Config).wf = false) ∧
    ((ready []).cfg.wf = true ∧ (ready []).sstate ≠ .attached ∧ (ready []).sstate = .initialized) := by decide +kernel

theorem wit_UnwrittenMirrorFaults :
    (ready []).Ready ∧ (ready []).FrameReady ∧ (ready []).gpiValid = false ∧ (7 : Byte).toNat < 8 ∧ (0x80 : Byte) ≠ 0 ∧
    ({ ready [] with cfg := { tcfg with dirOutValueMode := .copyOr } } : State).Ready :=
  ⟨ready_Ready _, ready_Frame _, rfl, by decide, by decide, ⟨by decide, rfl, rfl, rfl⟩⟩

theorem wit_GpioReadDoesWhatItsRuleSays : (ready []).Ready ∧ (ready []).FrameReady := ⟨ready_Ready _, ready_Frame _⟩

theorem wit_GpioReadAllDoesWhatItsRuleSays : (ready []).Ready ∧ (ready []).FrameReady ∧ 7 < 8 :=
  ⟨ready_Ready _, ready_Frame _, by decide⟩

/-- Pins 7 and 8. -/
theorem wit_GpioWriteDoesWhatItsRuleSays :
    (mirrored [0, 0, 0, 0, 0, 0, 0, 0xC0] []).Ready ∧ (mirrored [0, 0, 0, 0, 0, 0, 0, 0xC0] []).FrameReady ∧
    (7 : Byte).toNat < 8 ∧ (mirrored [0, 0, 0, 0, 0, 0, 0, 0xC0] []).gpiValid = true ∧
    (mirrored [0, 0, 0, 0, 0, 0, 0, 0xC0] []).gpi.byteAt (3 + 7) = some 0xC0 ∧ 8 ≤ (8 : Byte).toNat :=
  ⟨mirrored_Ready _ _, mirrored_Frame _ _, by decide, rfl, by decide, by decide⟩

theorem wit_GpioWriteMultipleDoesWhatItsRuleSays :
    (mirrored [0x80, 0, 0, 0, 0, 0, 0, 0xC0] []).Ready ∧ (mirrored [0x80, 0, 0, 0, 0, 0, 0, 0xC0] []).FrameReady ∧
    ∀ p, p < 8 → (0x81 : Byte).getLsbD p = true → (mirrored [0x80, 0, 0, 0, 0, 0, 0, 0xC0] []).gpiValid = true ∧
      (mirrored [0x80, 0, 0, 0, 0, 0, 0, 0xC0] []).gpi.byteAt (3 + p) = some (if p = 0 then 0x80 else 0xC0) :=
  ⟨mirrored_Ready _ _, mirrored_Frame _ _, by decide⟩

theorem wit_GpioDirInputDoesWhatItsRuleSays :
    (mirrored [0xC0, 0, 0, 0, 0, 0, 0, 0] []).Ready ∧ (mirrored [0xC0, 0, 0, 0, 0, 0, 0, 0] []).FrameReady ∧
    (0 : Byte).toNat < 8 ∧ (mirrored [0xC0, 0, 0, 0, 0, 0, 0, 0] []).gpi.byteAt (3 + 0) = some 0xC0 ∧ 8 ≤ (8 : Byte).toNat :=
  ⟨mirrored_Ready _ _, mirrored_Frame _ _, by decide, by decide, by decide⟩

/-- Both modes, and pin 255. -/
theorem wit_GpioDirOutputDoesWhatItsRuleSays :
    (ready []).Ready ∧ (ready []).FrameReady ∧ (ready []).cfg.dirOutValueMode = .assign ∧
    (∃ s : State, s.Ready ∧ s.FrameReady ∧ s.cfg.dirOutValueMode = .copyOr ∧ s.gpiValid = true ∧
      s.gpi.byteAt (3 + 7) = some 0x40) ∧ 8 ≤ (255 : Byte).toNat :=
  ⟨ready_Ready _, ready_Frame _, rfl,
    ⟨{ mirrored [0, 0, 0, 0, 0, 0, 0, 0x40] [] with cfg := { tcfg with dirOutValueMode := .copyOr } },
      ⟨by decide, rfl, rfl, rfl⟩, ⟨by decide, by decide⟩, rfl, rfl, by decide⟩, by decide⟩

theorem wit_GpioDirGetDoesWhatItsRuleSays : (ready []).Ready ∧ (ready []).FrameReady := ⟨ready_Ready _, ready_Frame _⟩

theorem wit_FrameRequestsOnlyItsPin : 0 < 8 ∧ 7 < 8 := by decide

theorem wit_GpioOperationsMakeOneExchange :
    (ready []).Ready ∧ (ready []).FrameReady ∧ engineOf (.gpioRead 7) = .gpio ∧
    (∀ p, checkedPin (.gpioRead 7) = some p → p.toNat < 8) ∧ ∃ t, exec (.gpioRead 7) (ready []) = .next t :=
  ⟨ready_Ready _, ready_Frame _, rfl, fun p h => by cases h; decide, next_exists (by decide +kernel)⟩

theorem wit_I2cXferDoesWhatItsRulesSay : (ready []).Ready ∧ [Msg.write 0x50 []] ≠ [] := ⟨ready_Ready _, by decide⟩

theorem wit_MessageRecordsDoWhatTheirRulesSay : (ready []).Ready := ready_Ready _

theorem wit_I2cOperationsLeaveTheRestAlone :
    (ready [[0x01]]).Ready ∧ engineOf (.i2cWrite 0x50 []) = .i2c ∧ ∃ t, exec (.i2cWrite 0x50 []) (ready [[0x01]]) = .next t :=
  ⟨ready_Ready _, rfl, next_exists (by decide +kernel)⟩

theorem wit_TenBitMessagesAreNeverFramed :
    (ready []).Ready ∧ (ready []).cfg.tenBitCheck = .prescan ∧
    firstTen [.write 0x50 [], .ten false 0x50 0 [], .ten true 0x51 1 []] = some 1 :=
  ⟨ready_Ready _, rfl, by decide⟩

theorem wit_ZeroLengthWriteSendsTheAddress :
    (ready [[0x01]]).Ready ∧ (∃ ss, (ready [[0x01]]).sends = .ok 512 :: ss) ∧ (ready [[0x01]]).recvs = [.ok [0x01]] :=
  ⟨ready_Ready _, ⟨_, rfl⟩, rfl⟩

theorem wit_ZeroLengthReadDoesNothing : (ready []).Ready := ready_Ready _

theorem wit_WriteSendsItsBytesInOrder :
    (ready [[0x01, 0x01]]).Ready ∧
    ∃ t x, exec (.i2cXfer [.write 0x50 [0x07]]) (ready [[0x01, 0x01]]) = .next t ∧
      t.ctxs = (ready [[0x01, 0x01]]).ctxs ++ [x] ∧ x.res = some (.okCount 1) := by
  refine ⟨ready_Ready _, ?_⟩
  have h : ((nextOf (exec (.i2cXfer [.write 0x50 [0x07]]) (ready [[0x01, 0x01]]))).map fun t => t.ctxs.map (·.res)) =
      some [some (.okCount 1)] := by decide +kernel
  obtain ⟨t, ht, hc⟩ := Option.map_eq_some_iff.mp h
  obtain ⟨t', ht'⟩ := next_exists (by rw [ht]; rfl)
  rw [ht'] at ht
  cases ht
  obtain ⟨x, hx, hr⟩ := List.map_eq_singleton_iff.mp hc
  exact ⟨t, x, ht', by rw [hx]; rfl, hr⟩

theorem wit_ReadConcatenatesItsChunks :
    (ready [[0x01, 0x5A]]).Ready ∧
    ∃ t x, exec (.i2cXfer [.read 0x50 1]) (ready [[0x01, 0x5A]]) = .next t ∧
      t.ctxs = (ready [[0x01, 0x5A]]).ctxs ++ [x] ∧ x.res = some (.okCount 1) := by
  refine ⟨ready_Ready _, ?_⟩
  have h : ((nextOf (exec (.i2cXfer [.read 0x50 1]) (ready [[0x01, 0x5A]]))).map fun t => t.ctxs.map (·.res)) =
      some [some (.okCount 1)] := by decide +kernel
  obtain ⟨t, ht, hc⟩ := Option.map_eq_some_iff.mp h
  obtain ⟨t', ht'⟩ := next_exists (by rw [ht]; rfl)
  rw [ht'] at ht
  cases ht
  obtain ⟨x, hx, hr⟩ := List.map_eq_singleton_iff.mp hc
  exact ⟨t, x, ht', by rw [hx]; rfl, hr⟩

/-- The first chunk of a read of one byte; the second chunk of a read of 64 (RE4). -/
theorem wit_NackedReadWritesNothing :
    ((ready [[0x00, 0x5A]]).Ready ∧ (rchunks tcfg 1)[0]? = some (0, 1) ∧
      (ready [[0x00, 0x5A]]).recvs =
        ((rchunks tcfg 1).take 0).map (fun p => .ok (0x01 :: memRead [] p.1 p.2)) ++ .ok [0x00, 0x5A] :: []) ∧
    (ready [0x01 :: List.replicate 63 0xB0, [0x00, 0xFF]]).Ready ∧ (rchunks tcfg 64)[1]? = some (63, 1) ∧
    (List.replicate 63 (0xB0 : Byte)).length = 63 ∧
    (ready [0x01 :: List.replicate 63 0xB0, [0x00, 0xFF]]).recvs =
      ((rchunks tcfg 64).take 1).map (fun p => .ok (0x01 :: memRead (List.replicate 63 0xB0) p.1 p.2)) ++
        .ok [0x00, 0xFF] :: [] ∧
    (ready [0x01 :: List.replicate 63 0xB0, [0x00, 0xFF]]).sends = [512, 512].map SendAns.ok ++ [.ok 512, .ok 512] ∧
    [512, 512].length = 1 + 1 ∧ ([0x00, 0xFF] : Bytes).length = 1 + 1 ∧ ([0x00, 0xFF] : Bytes).head? ≠ some 0x01 :=
  ⟨⟨ready_Ready _, by decide, by decide⟩, ready_Ready _, by decide +kernel, by decide, by decide +kernel, by decide,
    by decide, by decide, by decide⟩

/-- XF1. -/
theorem wit_WellAnsweredBatchSucceeds :
    (ready [[0x01, 0x01], [0x01, 0xD0]]).Ready ∧ (∀ m ∈ [Msg.write 0x50 [0x00], .read 0x50 1], m.isTen = false) ∧
    ([[], [0xD0]] : List Bytes).length = [Msg.write 0x50 [0x00], .read 0x50 1].length ∧
    (ready [[0x01, 0x01], [0x01, 0xD0]]).recvs =
      (goodReplies tcfg [.write 0x50 [0x00], .read 0x50 1] [[], [0xD0]]).map RecvAns.ok ++ [] ∧
    (ready [[0x01, 0x01], [0x01, 0xD0]]).sends = [512, 512].map SendAns.ok ++ [.ok 512, .ok 512] ∧
    [512, 512].length = (goodReplies tcfg [.write 0x50 [0x00], .read 0x50 1] [[], [0xD0]]).length :=
  ⟨ready_Ready _, by decide, rfl, by decide, by decide, by decide⟩

theorem wit_InitDoesWhatItsRuleSays :
    (fresh []).cfg.wf = true ∧ (fresh []).sstate = .attached ∧ (fresh []).initSubmitted = false ∧
    (fresh []).lock = .free ∧ (fresh []).quanta = [] ∧ (fresh []).FrameReady :=
  ⟨by decide, rfl, rfl, rfl, rfl, ⟨by decide, by decide⟩⟩

/-- A session of the variant that needs the idle-pin frame. -/
def idle (replies : List Bytes) : State := { fresh replies with cfg := { tcfg with variant := 7 } }

/-- Both variants; an INIT that ends `Ok`, and one that fails. -/
theorem wit_InitSendsAndEnds :
    (fresh []).regHandle = none ∧ (fresh []).cfg.variant ≠ (fresh []).cfg.variantId ∧
    (idle []).cfg.variant = (idle []).cfg.variantId ∧ (idle []).cfg.wf = true ∧ (idle []).FrameReady ∧
    (∃ t x, exec .init (idle [List.replicate 11 0]) = .next t ∧ t.ctxs = [x] ∧ x.res = some .ok) ∧
    ∃ t x, exec .init (idle []) = .next t ∧ t.ctxs = [x] ∧ x.res ≠ some .ok := by
  refine ⟨rfl, by decide, rfl, by decide, ⟨by decide, by decide⟩, ?_, ?_⟩
  · have h : ((nextOf (exec .init (idle [List.replicate 11 0]))).map fun t => t.ctxs.map (·.res)) = some [some .ok] := by
      decide +kernel
    obtain ⟨t, ht, hc⟩ := Option.map_eq_some_iff.mp h
    obtain ⟨t', ht'⟩ := next_exists (by rw [ht]; rfl)
    rw [ht'] at ht
    cases ht
    obtain ⟨x, hx, hr⟩ := List.map_eq_singleton_iff.mp hc
    exact ⟨t, x, ht', hx, hr⟩
  · have h : ((nextOf (exec .init (idle []))).map fun t => t.ctxs.map (·.res)) =
        some [some (.err (.ioError .recv))] := by decide +kernel
    obtain ⟨t, ht, hc⟩ := Option.map_eq_some_iff.mp h
    obtain ⟨t', ht'⟩ := next_exists (by rw [ht]; rfl)
    rw [ht'] at ht
    cases ht
    obtain ⟨x, hx, hr⟩ := List.map_eq_singleton_iff.mp hc
    exact ⟨t, x, ht', hx, by rw [hr]; decide⟩

/-- Nothing in flight and the lock free; a context in flight; the lock held. -/
theorem wit_TeardownDoesWhatItsRuleSays :
    ended.cfg.wf = true ∧ waiting.cfg.wf = true ∧ mid.cfg.wf = true ∧
    ((∀ x ∈ ended.ctxs, x.phase.isFinal = true) ∧ ended.lock = .free) ∧
    (∃ x ∈ waiting.ctxs, x.phase.isFinal = false) ∧ mid.lock ≠ .free := by decide +kernel

theorem wit_UninterruptedOperationEnds :
    (ready [[0x01]]).Ready ∧ (ready [[0x01]]).FrameReady ∧ engineOf (.i2cXfer [.write 0x50 []]) = .i2c ∧
    (∃ t, exec (.i2cXfer [.write 0x50 []]) (ready [[0x01]]) = .next t) ∧ (ready [[0x01]]).runEnded = true ∧
    engineOf (.gpioRead 8) = .gpio ∧ ∃ t, exec (.gpioRead 8) (ready [[0x01]]) = .next t :=
  ⟨ready_Ready _, ready_Frame _, rfl, next_exists (by decide +kernel), by decide, rfl, next_exists (by decide +kernel)⟩

end Sys2Proof.Tests
end

section
/-! PROOFS. Everything a step can do, as a row of effects of the context it runs for: each effect is one shared update of the
state with what is known when it happens. Invariants of a step are then inductions over that row. -/

namespace Sys2Proof.Machine

/-! ## Effects -/

/-- How an effect may change the fields of its own context. -/
structure CtxChange (s : State) (x y : Ctx) : Prop where
  live : x.phase.isFinal = false
  op : y.op = x.op
  pins : x.phase = .admitting → y.phase ≠ .admitting → y.phase.isFinal = false →
    ∀ p, checkedPin x.op = some p → pinOk p = true
  commit : y.phase = .commit →
    x.phase = .commit ∨ engineOf x.op = .i2c ∨ ∃ r, s.reply = some r ∧ r.length = Config.gpioReplyLen

/-- Context `c` works inside its critical section: it owns the lock or exists, and it stands in a phase that holds it. -/
structure State.Inside (s : State) (c : Nat) : Prop where
  owns : s.lock = .held c ∨ ∃ x, s.ctxs[c]? = some x
  stands : ∀ x, s.ctxs[c]? = some x → x.phase.holdsLock = true

/-- One update of the state by context `c`, as the phases of 10_state.md R38 and the single commands make them. -/
inductive Effect (c : Nat) (s : State) : State → Prop
  | ctx (f : Ctx → Ctx) (hc : ∀ x, s.ctxs[c]? = some x → CtxChange s x (f x))
      (hl : ∀ x, s.ctxs[c]? = some x →
        (f x).phase.holdsLock = x.phase.holdsLock ∨ ((f x).phase.holdsLock = true ↔ s.lock = .held c)) :
      Effect c s (s.modCtx c f)
  | acquire {x : Ctx} (hl : s.lock = .free) (hx : s.ctxs[c]? = some x) (hc : CtxChange s x { x with phase := .build }) :
      Effect c s (({ s with lock := .held c } : State).setPhase c .build)
  | release (f : Ctx → Ctx) (hl : s.lock = .held c) (ho : ∀ x, (f x).op = x.op) (hp : ∀ x, (f x).phase.holdsLock = false) :
      Effect c s (({ s with lock := .free } : State).modCtx c f)
  | abort (e : Err) (hf : ∀ x, s.ctxs[c]? = some x → x.phase.isFinal = false) : Effect c s (abort c e s)
  | send (e : Exch) (hl : s.lock = .held c) (hc : e.ctx = c) (he : e.Legal) :
      Effect c s (((s.setPhase c .xchg).sent e.sent).record e)
  | recvFail (e : Exch) (hl : s.lock = .held c) (hc : e.ctx = c) (he : e.Legal) :
      Effect c s ((((s.setPhase c .xchg).sent e.sent).drewRecv e.m).record e)
  | recv (e : Exch) (r : Bytes) (hl : s.lock = .held c) (hc : e.ctx = c) (he : e.Legal) (hr : e.recvAns = some (.ok r)) :
      Effect c s (((((s.setPhase c .xchg).sent e.sent).drewRecv e.m).received r).record e)
  | dropMirror (hi : s.Inside c) : Effect c s s.dropMirror
  | setMirror (r : Bytes) (hi : s.Inside c) (hr : s.reply = some r)
      (hlen : r.length = Config.gpioReplyLen ∨ ∃ x, s.ctxs[c]? = some x ∧ x.phase = .commit ∧ engineOf x.op ≠ .i2c) :
      Effect c s (s.setMirror r)
  | frame {x : Ctx} {g : Memory} (hx : s.ctxs[c]? = some x) (hp : x.phase = .build) (hg : gpioFrameOf x.op s = .ok g) :
      Effect c s { s with gpo := g }
  | ask (rg : List (Option Nat)) (hl : List HostEvent) : Effect c s { s with regs := rg, hostLog := hl }
  | register {x : Ctx} (h : Nat) (hx : s.ctxs[c]? = some x) (hp : x.phase = .next) (ho : x.op = .init) :
      Effect c s (complete c .ok { s with regHandle := some h, sstate := .initialized })

/-- A row of effects of context `c`. -/
abbrev Effects (c : Nat) : State → State → Prop := Relation.ReflTransGen (Effect c)

/-! ## Single effects -/

/-- A change that leaves `Admit` for no pin check, and does not enter `Commit`. -/
theorem CtxChange.plain {s : State} {x y : Ctx} (live : x.phase.isFinal = false) (op : y.op = x.op)
    (pins : x.phase ≠ .admitting ∨ checkedPin x.op = none) (commit : y.phase ≠ .commit) : CtxChange s x y := by
  refine ⟨live, op, fun ha _ _ p hp => ?_, fun h => absurd h commit⟩
  rcases pins with h | h
  · exact absurd ha h
  · rw [h] at hp; cases hp

/-- A phase that holds the lock is no final one, and not `Admit`. -/
theorem Phase.of_holdsLock {p : Phase} (h : p.holdsLock = true) : p.isFinal = false ∧ p ≠ .admitting := by
  cases p <;> simp_all [Phase.holdsLock, Phase.isFinal]

/-- An operation that checks a pin is none of the I2C engine and not INIT. -/
theorem checkedPin_none {op : Instr} (h : engineOf op ≠ .gpio) : checkedPin op = none := by
  cases hc : checkedPin op with
  | none => rfl
  | some p => exact absurd (checkedPin_gpio hc) h

theorem State.Inside.of_phase {s : State} {c : Nat} {x : Ctx} (hx : s.ctxs[c]? = some x) (hp : x.phase.holdsLock = true) :
    s.Inside c := ⟨.inr ⟨x, hx⟩, fun y hy => by cases hx.symm.trans hy; exact hp⟩

theorem State.Inside.live {s : State} {c : Nat} (h : s.Inside c) {x : Ctx} (hx : s.ctxs[c]? = some x) :
    x.phase.isFinal = false := (Phase.of_holdsLock (h.stands x hx)).1

/-- Where the lock and the phases agree, a context inside its critical section owns the lock. -/
theorem State.Inside.lock {s : State} {c : Nat} (h : s.Inside c) (hm : s.MutexInv) : s.lock = .held c := by
  rcases h.owns with hl | ⟨x, hx⟩
  · exact hl
  · exact hm.held hx (h.stands x hx)

section Rows

variable {c : Nat} {s s' : State} {x : Ctx}

/-- A change of the context `x` that neither enters nor leaves its critical section. -/
theorem Effects.modCtx (hx : s.ctxs[c]? = some x) {f : Ctx → Ctx} (hc : CtxChange s x (f x))
    (hl : (f x).phase.holdsLock = x.phase.holdsLock) : Effects c s (s.modCtx c f) :=
  .single (.ctx f (fun y hy => by cases hx.symm.trans hy; exact hc) fun y hy => by cases hx.symm.trans hy; exact .inl hl)

theorem Effects.abort (hx : s.ctxs[c]? = some x) (hf : x.phase.isFinal = false) (e : Err) :
    Effects c s (Machine.abort c e s) := .single (.abort e fun y hy => by cases hx.symm.trans hy; exact hf)

theorem Effects.release {s1 : State} {f : Ctx → Ctx} (hr : release c s = .ok s1) (ho : ∀ x, (f x).op = x.op)
    (hp : ∀ x, (f x).phase.holdsLock = false) : Effects c s (s1.modCtx c f) := by
  obtain ⟨hl, rfl⟩ := release_ok hr
  exact .single (.release f hl ho hp)

theorem acquire_effects (hx : s.ctxs[c]? = some x) (hf : x.phase.isFinal = false)
    (hp : x.phase ≠ .admitting ∨ checkedPin x.op = none) (he : acquire c s = .ok s') : Effects c s s' := by
  rcases acquire_ok he with ⟨hl, rfl⟩ | ⟨d, hd, hl, rfl⟩
  · exact .single (.acquire hl hx (.plain hf rfl hp (by simp)))
  · refine .single (.ctx _ (fun y hy => ?_) fun y _ => .inr ?_)
    · cases hx.symm.trans hy; exact .plain hf rfl hp (by simp)
    · simpa [Phase.holdsLock, hl] using hd

/-! ## Attempts -/

/-- What an attempt of context `c` answers with is reached by a row of its effects, inside its critical section. -/
structure Attempt.Effects (c : Nat) (s : State) (a : Attempt) : Prop where
  ok : ∀ s1, a = .ok s1 → Machine.Effects c s s1 ∧ s1.Inside c
  fail : ∀ e s1, a = .fail e s1 → Machine.Effects c s s1 ∧ s1.Inside c

theorem Attempt.Effects.fault {f : Fault} : Attempt.Effects c s (.fault f) :=
  ⟨fun _ h => (by cases h), fun _ _ h => (by cases h)⟩

theorem Attempt.Effects.of_ok {s1 : State} (h : Machine.Effects c s s1) (hi : s1.Inside c) :
    Attempt.Effects c s (.ok s1) := ⟨fun _ h1 => (by cases h1; exact ⟨h, hi⟩), fun _ _ h1 => (by cases h1)⟩

theorem Attempt.Effects.of_fail {s1 : State} {e : Err} (h : Machine.Effects c s s1) (hi : s1.Inside c) :
    Attempt.Effects c s (.fail e s1) := ⟨fun _ h1 => (by cases h1), fun _ _ h1 => (by cases h1; exact ⟨h, hi⟩)⟩

theorem Attempt.Effects.orAbort {a : Attempt} (h : a.Effects c s) (he : a.orAbort c = .ok s') : Machine.Effects c s s' := by
  rcases orAbort_ok he with h1 | ⟨e, s1, h1, rfl⟩
  · exact (h.ok _ h1).1
  · obtain ⟨h2, hi⟩ := h.fail _ _ h1
    exact h2.tail (.abort e fun x hx => hi.live hx)

theorem Attempt.Effects.andThen {a : Attempt} (h : a.Effects c s) {k : State → Attempt}
    (hk : ∀ s1, Machine.Effects c s s1 → s1.Inside c → (k s1).Effects c s) : (a.andThen k).Effects c s := by
  cases a with
  | fault f => exact .fault
  | fail e s1 => exact .of_fail (h.fail _ _ rfl).1 (h.fail _ _ rfl).2
  | ok s1 => exact hk s1 (h.ok _ rfl).1 (h.ok _ rfl).2

/-- A change of phase inside the critical section, other than by the check of a reply. -/
theorem State.Inside.setPhase (hi : s.lock = .held c ∨ s.Inside c) {p : Phase} (hp : p.holdsLock = true) :
    (s.setPhase c p).Inside c := by
  refine ⟨?_, fun y hy => ?_⟩
  · rcases hi with hl | hi
    · exact .inl hl
    · rcases hi.owns with hl | ⟨x, hx⟩
      · exact .inl hl
      · exact .inr ⟨_, by simp [hx]; rfl⟩
  · obtain ⟨x, -, rfl⟩ := getElem?_modify_self hy
    exact hp

/-- An entry of HIST whose lengths EXCHANGE admits, and whose outcomes fit each other (40_transport.md R89 to R91). -/
theorem Exch.Legal.of_admitted {o : Bytes} {m : Nat}
    (hb : ¬ (o.length = 0 ∨ Config.scratchLen < o.length ∨ Config.scratchLen < m)) {m' : Nat} {a : SendAns}
    {ra : Option RecvAns} (hm : m' ≤ m) (send : ∀ k, a = .ok k → k ≤ o.length)
    (recv : ra ≠ none ↔ (∃ k, a = .ok k) ∧ m' ≠ 0) (reply : ∀ r, ra = some (.ok r) → r.length ≤ m') :
    (Exch.mk c o a m' ra).Legal :=
  ⟨by simp only; omega, by simp only; omega, by simp only; omega, send, recv, reply⟩

/-- The context's exchange went on, so it stands in `Check`. -/
theorem Attempt.Effects.checked {s1 : State} (h : Effect c s s1) (hl : s1.lock = .held c) (hi : s1.Inside c) :
    Attempt.Effects c s (.ok (s1.setPhase c .check)) := by
  refine .of_ok (.tail (.single h) (.ctx _ (fun x hx => ?_) fun x hx => .inl (hi.stands x hx).symm)) (.setPhase (.inl hl) rfl)
  exact .plain (hi.live hx) rfl (.inl (Phase.of_holdsLock (hi.stands x hx)).2) (by simp)

/-- Everything an exchange does (40_transport.md R89). -/
theorem exchange_effects (c : Nat) (o : Bytes) (m : Nat) (s : State) : (exchange c o m s).Effects c s := by
  by_cases hl : s.lock = .held c
  swap
  · rw [exchange_lockNotHeld hl]; exact .fault
  by_cases hb : o.length = 0 ∨ Config.scratchLen < o.length ∨ Config.scratchLen < m
  · unfold exchange; rw [if_neg (by simp [hl]), if_pos hb]; exact .fault
  have inside : ∀ {t : State}, t.lock = .held c → t.ctxs = (s.setPhase c .xchg).ctxs → t.Inside c := fun ht hc =>
    ⟨.inl ht, fun x hx => (State.Inside.setPhase (.inl hl) (p := .xchg) rfl).stands x (hc ▸ hx)⟩
  have unsent : ∀ {a : SendAns}, (∀ k, a ≠ .ok k) → (Exch.mk c o a m none).Legal := fun ha =>
    .of_admitted hb le_rfl (fun k h => absurd h (ha k)) (by simp [ha]) (by simp)
  unfold exchange
  rw [if_neg (by simp [hl]), if_neg hb]
  cases hs : (sendDraw o.length s.sends).1 with
  | err => exact .of_fail (.single (.send _ hl rfl (unsent (by simp)))) (inside hl rfl)
  | timeout => exact .of_fail (.single (.send _ hl rfl (unsent (by simp)))) (inside hl rfl)
  | ok k =>
    have hk : ∀ j, SendAns.ok k = .ok j → j ≤ o.length := fun j h => by cases h; exact sendDraw_ok hs
    have asked : m ≠ 0 → ∀ {a : RecvAns}, (∀ r, a = .ok r → r.length ≤ m) → (Exch.mk c o (.ok k) m (some a)).Legal :=
      fun hm _ ha => .of_admitted hb le_rfl hk (by simp [hm]) (by simpa using ha)
    simp only
    split
    · exact .checked (.send _ hl rfl (.of_admitted hb (Nat.zero_le m) hk (by simp) (by simp))) hl (inside hl rfl)
    · rename_i hm
      cases hr : (recvDraw m s.recvs).1 with
      | err =>
        exact .of_fail (.single (.recvFail ⟨c, o, .ok k, m, some .err⟩ hl rfl (asked hm (by simp)))) (inside hl rfl)
      | timeout =>
        exact .of_fail (.single (.recvFail ⟨c, o, .ok k, m, some .timeout⟩ hl rfl (asked hm (by simp)))) (inside hl rfl)
      | ok r =>
        have hlen : ∀ r', RecvAns.ok r = .ok r' → r'.length ≤ m := fun r' h => by cases h; exact recvDraw_ok hr
        exact .checked (.recv ⟨c, o, .ok k, m, some (.ok r)⟩ r hl rfl (asked hm hlen) rfl) hl (inside hl rfl)

end Rows
end Sys2Proof.Machine
end

section
/-! PROOFS. The row of effects of each move: the round-trip, the phases of every engine, and a turn. -/

namespace Sys2Proof.Machine
section Rows

variable {c : Nat} {s s' : State} {x : Ctx}

/-! ## The round-trip -/

theorem roundTripXchg_effects (c : Nat) (s : State) : (roundTripXchg c s).Effects c s := by
  unfold roundTripXchg
  split
  · exact .fault
  · rename_i o _
    have hx := exchange_effects c o Config.gpioReplyLen s
    split
    · rename_i e s1 h1
      obtain ⟨h2, hi⟩ := hx.fail _ _ h1
      exact .of_fail (h2.tail (.dropMirror hi)) ⟨hi.owns, hi.stands⟩
    · exact hx

theorem roundTripCheck_effects {off : Nat} {s1 : State} (h : Effects c s s1) (hi : s1.Inside c) :
    (roundTripCheck c off s1).Effects c s := by
  unfold roundTripCheck
  split
  · exact .fault
  · rename_i r hr
    split
    · exact .of_fail (h.tail (.dropMirror hi)) ⟨hi.owns, hi.stands⟩
    · rename_i hlen
      refine .of_ok (h.tail (.ctx _ (fun x hx => ?_) fun x hx => .inl (hi.stands x hx).symm)) (.setPhase (.inr hi) rfl)
      exact ⟨hi.live hx, rfl, fun ha => absurd ha (Phase.of_holdsLock (hi.stands x hx)).2,
        fun _ => .inr (.inr ⟨r, hr, not_not.mp hlen⟩)⟩

/-- A good check leaves a reply of eleven bytes in INBUF (42_gpio.md R111). -/
theorem roundTripCheck_ok {off : Nat} (h : roundTripCheck c off s = .ok s') :
    ∃ r, s'.reply = some r ∧ r.length = Config.gpioReplyLen := by
  unfold roundTripCheck at h
  split at h
  · cases h
  · rename_i r hr
    split at h
    · cases h
    · rename_i hlen; cases h; exact ⟨r, hr, not_not.mp hlen⟩

theorem roundTrip_effects (c off : Nat) (s : State) : (roundTrip c off s).Effects c s := by
  unfold roundTrip
  cases hx : roundTripXchg c s with
  | fault f => exact .fault
  | fail e s1 => obtain ⟨h1, hi⟩ := (roundTripXchg_effects c s).fail _ _ hx; exact .of_fail h1 hi
  | ok s1 =>
    obtain ⟨h1, hi1⟩ := (roundTripXchg_effects c s).ok _ hx
    have hk := roundTripCheck_effects (off := off) h1 hi1
    simp only [Attempt.andThen]
    cases hc : roundTripCheck c off s1 with
    | fault f => exact .fault
    | fail e s2 => obtain ⟨h2, hi⟩ := hk.fail _ _ hc; exact .of_fail h2 hi
    | ok s2 =>
      obtain ⟨h2, hi⟩ := hk.ok _ hc
      obtain ⟨r, hr, hlen⟩ := roundTripCheck_ok hc
      simp only [roundTripCommit, hr]
      exact .of_ok (h2.tail (.setMirror r hi hr (.inl hlen))) ⟨hi.owns, hi.stands⟩

/-! ## Moves -/

theorem Phase.chooses.live {p : Phase} (h : p.chooses) : p.isFinal = false ∧ p.holdsLock = false := by
  rcases h with rfl | rfl <;> exact ⟨rfl, rfl⟩

/-- The context `x` comes to its Acquire, with no pin to check. -/
theorem Effects.toWait (hx : s.ctxs[c]? = some x) (hp : x.phase.chooses) (he : engineOf x.op ≠ .gpio ∨ x.phase = .next)
    {f : Ctx → Ctx} (ho : (f x).op = x.op) (hf : (f x).phase = .waitLock) : Effects c s (s.modCtx c f) := by
  refine .modCtx hx (.plain hp.live.1 ho ?_ (by simp [hf])) (by rw [hf, hp.live.2]; rfl)
  rcases he with he | he
  · exact .inr (checkedPin_none he)
  · exact .inl (by simp [he])

theorem Effects.complete (hx : s.ctxs[c]? = some x) (hp : x.phase.chooses) (r : Result) :
    Effects c s (Machine.complete c r s) :=
  .modCtx hx ⟨hp.live.1, rfl, fun _ _ h => by simp [Phase.isFinal] at h, by simp⟩ (by rw [hp.live.2]; rfl)

theorem beginMsgs_effects {r : Result} {j : Nat} {ms : List Msg} (hx : s.ctxs[c]? = some x) (hp : x.phase.chooses)
    (he : engineOf x.op = .i2c) : Effects c s (beginMsgs c r j ms s) := by
  have hg : engineOf x.op ≠ .gpio := by simp [he]
  induction ms generalizing j s x with
  | nil => exact .complete hx hp r
  | cons m ms ih =>
    have hx1 : (s.modCtx c (Ctx.enter j)).ctxs[c]? = some (x.enter j) := by simp [hx]
    have h1 : Effects c s (s.modCtx c (Ctx.enter j)) :=
      .modCtx hx (.plain hp.live.1 rfl (.inr (checkedPin_none hg)) fun h => by rcases hp with hp | hp <;> simp [hp] at h) rfl
    cases m with
    | ten rd a len p => exact h1.trans (Effects.abort hx1 hp.live.1 _)
    | write a src => exact .toWait hx hp (.inl hg) rfl rfl
    | read a len =>
      unfold beginMsgs
      split
      · exact .toWait hx hp (.inl hg) rfl rfl
      · exact h1.trans (ih hx1 hp he hg)

theorem i2cAdmit_effects (hx : s.ctxs[c]? = some x) (hp : x.phase = .admitting) (he : engineOf x.op = .i2c) :
    Effects c s (i2cAdmit c x s) := by
  unfold i2cAdmit
  split
  · exact .abort hx (by rw [hp]; rfl) _
  · exact beginMsgs_effects hx (.inl hp) he

theorem i2cNext_effects (hx : s.ctxs[c]? = some x) (hp : x.phase = .next) (he : engineOf x.op = .i2c) :
    Effects c s (i2cNext c x s) := by
  unfold i2cNext
  split
  · exact .complete hx (.inr hp) _
  · exact .abort hx (by rw [hp]; rfl) _
  · split
    · exact beginMsgs_effects hx (.inr hp) he
    · exact .toWait hx (.inr hp) (.inr hp) rfl rfl
  · split
    · exact .toWait hx (.inr hp) (.inr hp) rfl rfl
    · exact beginMsgs_effects hx (.inr hp) he

theorem gpioAdmit_effects (hx : s.ctxs[c]? = some x) (hp : x.phase = .admitting) : Effects c s (gpioAdmit c x s) := by
  have hf : x.phase.isFinal = false := by rw [hp]; rfl
  have hw : (∀ p, checkedPin x.op = some p → pinOk p = true) → Effects c s (s.setPhase c .waitLock) := fun h =>
    .modCtx hx ⟨hf, rfl, fun _ _ _ => h, by simp⟩ (by rw [hp]; rfl)
  unfold gpioAdmit
  split
  · rename_i p hpin
    split
    · rename_i hok
      exact hw fun q hq => by rw [hpin] at hq; cases hq; exact hok
    · split
      · exact .complete hx (.inl hp) _
      · exact .abort hx hf _
  · rename_i hpin
    exact hw fun q hq => by rw [hpin] at hq; cases hq

theorem registerBus_effects (hx : s.ctxs[c]? = some x) (hp : x.phase = .next) (ho : x.op = .init) :
    Effects c s (registerBus c s) := by
  have h1 := Relation.ReflTransGen.single (Effect.ask (c := c) (s := s) (regDraw s.regs).2
    (s.hostLog ++ [.register Config.capabilities (regDraw s.regs).1]))
  unfold registerBus
  simp only
  split
  · rename_i h _
    exact h1.tail (.register h hx hp ho)
  · exact h1.tail (.abort _ fun y hy => by cases hx.symm.trans hy; rw [hp]; rfl)

theorem engineOf_init {op : Instr} (h : engineOf op = .initSeq) : op = .init := by
  cases op <;> simp_all [engineOf]

theorem initNext_effects (hx : s.ctxs[c]? = some x) (hp : x.phase = .next) (ho : x.op = .init) :
    Effects c s (initNext c x s) := by
  unfold initNext
  split
  · exact .toWait hx (.inr hp) (.inr hp) rfl rfl
  · split
    · exact .toWait hx (.inr hp) (.inr hp) rfl rfl
    · exact registerBus_effects hx hp ho

/-- The phase `Build` is done. -/
theorem Effects.built (hx : s.ctxs[c]? = some x) (hp : x.phase = .build) {f : Ctx → Ctx} (ho : (f x).op = x.op)
    (hf : (f x).phase = .xchg) : Effects c s (s.modCtx c f) :=
  .modCtx hx (.plain (by rw [hp]; rfl) ho (.inl (by simp [hp])) (by simp [hf])) (by rw [hp, hf]; rfl)

theorem gpioBuild_effects (hx : s.ctxs[c]? = some x) (hp : x.phase = .build) (he : gpioBuild c x s = .ok s') :
    Effects c s s' := by
  unfold gpioBuild at he
  split at he
  · cases he
  · rename_i g hg
    cases he
    exact .head (.frame hx hp hg) (Effects.built (s := { s with gpo := g }) hx hp rfl rfl)

theorem i2cCheck_effects (hx : s.ctxs[c]? = some x) (hp : x.phase = .check) (he : i2cCheck c x s = .ok s')
    (hen : engineOf x.op = .i2c) : Effects c s s' := by
  have hf : x.phase.isFinal = false := by rw [hp]; rfl
  unfold i2cCheck at he
  split at he
  · split at he
    · cases he; exact .abort hx hf _
    · split at he
      · cases he
      · rename_i hr; cases he; exact .release hr (fun _ => rfl) fun _ => rfl
  · split at he
    · cases he; exact .abort hx hf _
    · cases he
      exact .modCtx hx ⟨hf, rfl, fun ha => by simp [hp] at ha, fun _ => .inr (.inl hen)⟩ (by rw [hp]; rfl)
  · cases he

theorem i2cCommit_effects (he : i2cCommit c x s = .ok s') : Effects c s s' := by
  unfold i2cCommit at he
  split at he
  · split at he
    · cases he
    · rename_i hr; cases he; exact .release hr (fun _ => rfl) fun _ => rfl
  · cases he

/-- A commit of a GPIO reply, followed by the release. -/
theorem committed_effects (hx : s.ctxs[c]? = some x) (hp : x.phase = .commit) (hen : engineOf x.op ≠ .i2c) {s1 s2 : State}
    (hc : roundTripCommit s = .ok s1) (hr : release c s1 = .ok s2) {f : Ctx → Ctx} (ho : ∀ x, (f x).op = x.op)
    (hf : ∀ x, (f x).phase.holdsLock = false) : Effects c s (s2.modCtx c f) := by
  obtain ⟨r, hrep, rfl⟩ := roundTripCommit_ok hc
  have hi : s.Inside c := .of_phase hx (by rw [hp]; rfl)
  exact (Relation.ReflTransGen.single (.setMirror r hi hrep (.inr ⟨x, hx, hp, hen⟩))).trans (Effects.release hr ho hf)

/-- What phase `Admit` does. -/
theorem moveAdmit_effects (hx : s.ctxs[c]? = some x) (hp : x.phase = .admitting) : Effects c s (moveAdmit c x s) := by
  unfold moveAdmit
  split
  · exact i2cAdmit_effects hx hp ‹_›
  · exact gpioAdmit_effects hx hp
  · rename_i he; exact .toWait hx (.inl hp) (.inl (by simp [he])) rfl rfl
  · exact .refl

theorem moveBuild_effects (hx : s.ctxs[c]? = some x) (hp : x.phase = .build) (he : moveBuild c x s = .ok s') :
    Effects c s s' := by
  unfold moveBuild at he
  split at he
  · unfold i2cBuild at he
    split at he <;> cases he
    exact .built hx hp rfl rfl
  · exact gpioBuild_effects hx hp he
  · unfold initBuild at he
    split at he
    · cases he; exact .built hx hp rfl rfl
    · exact gpioBuild_effects hx hp he
  · cases he; exact .refl

theorem moveXchg_effects (he : moveXchg c x s = .ok s') : Effects c s s' := by
  have hrt := roundTripXchg_effects c s
  unfold moveXchg at he
  split at he
  · unfold i2cXchg at he
    split at he
    · exact (exchange_effects _ _ _ _).orAbort he
    · exact (exchange_effects _ _ _ _).orAbort he
    · cases he
  · exact hrt.orAbort he
  · unfold initXchg at he
    split at he
    · exact (exchange_effects _ _ _ _).orAbort he
    · exact hrt.orAbort he
  · cases he; exact .refl

theorem moveCheck_effects (hx : s.ctxs[c]? = some x) (hp : x.phase = .check) (he : moveCheck c x s = .ok s') :
    Effects c s s' := by
  have hrt := roundTripCheck_effects (off := x.off) (.refl : Effects c s s) (.of_phase hx (by rw [hp]; rfl))
  unfold moveCheck at he
  split at he
  · exact i2cCheck_effects hx hp he ‹_›
  · exact hrt.orAbort he
  · unfold initCheck at he
    split at he
    · split at he
      · cases he
      · rename_i hr; cases he; exact .release hr (fun _ => rfl) fun _ => rfl
    · exact hrt.orAbort he
  · cases he; exact .refl

theorem moveCommit_effects (hx : s.ctxs[c]? = some x) (hp : x.phase = .commit) (he : moveCommit c x s = .ok s') :
    Effects c s s' := by
  unfold moveCommit at he
  split at he
  · exact i2cCommit_effects he
  · rename_i hen
    unfold gpioCommit at he
    split at he
    · cases he
    · rename_i hc
      split at he
      · cases he
      · split at he
        · cases he
        · rename_i hr
          cases he
          exact committed_effects hx hp (by simp [hen]) hc hr (f := Ctx.finish _) (fun _ => rfl) fun _ => rfl
  · rename_i hen
    unfold initCommit at he
    split at he
    · cases he
    · rename_i hc
      split at he
      · cases he
      · rename_i hr
        cases he
        exact committed_effects hx hp (by simp [hen]) hc hr (fun _ => rfl) fun _ => rfl
  · cases he; exact .refl

/-- What phase `Next` does. -/
theorem moveNext_effects (hx : s.ctxs[c]? = some x) (hp : x.phase = .next) : Effects c s (moveNext c x s) := by
  unfold moveNext
  split
  · exact i2cNext_effects hx hp ‹_›
  · exact .toWait hx (.inr hp) (.inr hp) rfl rfl
  · exact initNext_effects hx hp (engineOf_init ‹_›)
  · exact .refl

/-- A move is a row of effects of its context. -/
theorem move_effects (he : move c s = .ok s') : Effects c s s' := by
  unfold move at he
  cases hx : s.ctxs[c]? with
  | none => simp only [hx] at he; cases he; exact .refl
  | some x =>
    simp only [hx] at he
    cases hp : x.phase <;> simp only [hp] at he
    case admitting => cases he; exact moveAdmit_effects hx hp
    case waitLock => exact acquire_effects hx (by rw [hp]; rfl) (.inl (by simp [hp])) he
    case build => exact moveBuild_effects hx hp he
    case xchg => exact moveXchg_effects he
    case check => exact moveCheck_effects hx hp he
    case commit => exact moveCommit_effects hx hp he
    case next => cases he; exact moveNext_effects hx hp
    case done => cases he; exact .refl
    case failed => cases he; exact .refl

/-- A turn uses up its quantum and is then a row of effects. -/
theorem runCtx_effects (he : runCtx c s = .ok s') : ∃ qs, Effects c { s with quanta := qs } s' := by
  have hd : ∀ {fuel : Nat} {t : State}, drive fuel c t = .ok s' → Effects c t s' := fun {fuel t} h =>
    drive_keeps (P := Effects c t) (fun _ _ h1 hm => h1.trans (move_effects hm)) .refl h
  unfold runCtx at he
  split at he
  · exact ⟨_, hd he⟩
  · split at he
    · cases he; exact ⟨s.quanta, .refl⟩
    · exact ⟨s.quanta, hd he⟩

end Rows
end Sys2Proof.Machine
end

section
/-! PROOFS. The row of effects of a step, and the lock and the phases along it. -/

namespace Sys2Proof.Machine

/-! ## Steps -/

/-- How a step begins, before the context it runs for does anything: a command is taken and the schedule read, then a request
may be admitted, or the session is closed. -/
inductive Begins (s : State) : State → Prop
  | taken (pt : List Command) (cu : Nat) (qs : List Nat) : Begins s { s with port := pt, cur := cu, quanta := qs }
  | admitted (pt : List Command) (cu : Nat) (qs : List Nat) (op : Instr) (hw : op.wf = true) (he : engineOf op ≠ .none)
      (hi : op = .init → s.sstate = .attached ∧ s.initSubmitted = false) :
      Begins s (({ s with port := pt, cur := cu, quanta := qs } : State).admitOp op)
  | closed (pt : List Command) (cu : Nat) (hf : s.anyInFlight = false) (hl : s.lock = .free) :
      Begins s (complete s.ctxs.length .noStatus
        ((closeSession ({ s with port := pt, cur := cu } : State)).admitOp .teardown))

section Commands

variable {s s' : State} {i : Instr}

theorem submit_effects (he : submit i s = .next s') :
    ∃ qs, Effects s.ctxs.length { s.admitOp i with quanta := qs } s' := runCtx_effects (toOutcome_next he)

theorem submitAdmitted_effects (he : submitAdmitted i s = .next s') :
    ∃ qs, Effects s.ctxs.length { s.admitOp i with quanta := qs } s' := by
  unfold submitAdmitted at he
  split at he
  · cases he
  · exact submit_effects he

/-- A request or a message record is admitted, and its context runs. -/
theorem exec_engine_effects (hen : engineOf i ≠ .none) (he : exec i s = .next s') :
    (i = .init → s.sstate = .attached ∧ s.initSubmitted = false) ∧
      ∃ qs, Effects s.ctxs.length { s.admitOp i with quanta := qs } s' := by
  cases i <;> simp only [engineOf, ne_eq, not_true_eq_false, reduceCtorEq, not_false_eq_true] at hen
  case i2cXfer msgs =>
    refine ⟨fun h => (by cases h), ?_⟩
    simp only [exec, execI2cXfer] at he
    split at he
    · cases he
    · split at he
      · cases he
      · exact submit_effects he
  case init =>
    simp only [exec, execInit] at he
    split at he
    · cases he
    · split at he
      · cases he
      · rename_i h
        simp only [not_or, Decidable.not_not, Bool.not_eq_true] at h
        exact ⟨fun _ => h, submit_effects he⟩
  all_goals exact ⟨fun h => (by cases h), submitAdmitted_effects he⟩

theorem emit_effects {keep : Bytes → Bytes} (he : emit keep i s = .next s') : Effects s.cur s s' := by
  obtain ⟨x, p, hb, -, -, -, rfl⟩ := emit_next he
  obtain ⟨hx, hp, -⟩ := building_some hb
  exact .modCtx hx (.plain (by rw [hp]; rfl) rfl (.inl (by simp [hp])) (by simp [hp])) rfl

theorem approach_effects (c : Nat) (s : State) : Effects c s (approach c s) := by
  rcases approach_move c s with h | h
  · rw [h]
  · exact move_effects h

theorem acquireCmd_effects (he : execAcquire s = .next s') : Effects s.cur s s' := by
  obtain ⟨-, ⟨-, rfl⟩ | ⟨hv, ha⟩⟩ := acquireCmd_next he
  · exact approach_effects _ _
  · obtain ⟨y, hy, hf⟩ := isLive_some hv
    refine (approach_effects _ _).trans (acquire_effects hy hf (or_iff_not_imp_left.mpr fun hn => ?_) ha)
    exact checkedPin_none (by simp [approach_phase hy (.inl (not_not.mp hn))])

theorem releaseCmd_effects (he : execRelease s = .next s') : Effects s.cur s s' := by
  unfold execRelease at he
  split at he
  · cases he
  · rename_i hr; cases he; exact .release hr (fun _ => rfl) fun _ => rfl

/-- A single wire or internal command is a row of effects of the context it runs for. -/
theorem exec_single_effects (hen : engineOf i = .none) (ht : i ≠ .teardown) (he : exec i s = .next s') :
    Effects s.cur s s' := by
  cases i <;> simp only [engineOf, reduceCtorEq] at hen
  case teardown => exact absurd rfl ht
  case stream => exact emit_effects (keep := fun _ => []) (i := .stream) he
  case gpioFrame pins =>
    obtain ⟨x, g, hb, -, hg, -, rfl⟩ := gpioFrame_next he
    obtain ⟨hx, hp, -⟩ := building_some hb
    exact .single (.frame hx hp hg)
  case exchange o m => exact (exchange_effects _ _ _ _).orAbort (toOutcome_next he)
  case acquire => exact acquireCmd_effects he
  case release => exact releaseCmd_effects he
  case gpioRt => exact (roundTrip_effects _ _ _).orAbort (toOutcome_next he)
  case start => exact emit_effects (keep := id) (i := .start) he
  case stop => exact emit_effects (keep := id) (i := .stop) he
  case setSpeed sp => exact emit_effects (keep := id) (i := .setSpeed sp) he
  case endPkt => exact emit_effects (keep := id) (i := .endPkt) he
  case outSub d => exact emit_effects (keep := id) (i := .outSub d) he
  case inSub n => exact emit_effects (keep := id) (i := .inSub n) he

/-- The context a fetched instruction runs for is the one the step acts for (30_encoding.md R81, R82). -/
theorem fetchInstr_actor {cmd : Command} {rest : List Command} (hp : s.port = cmd :: rest)
    (hf : fetchInstr cmd s = some i) :
    (engineOf i ≠ .none → s.actor = s.ctxs.length) ∧
      (engineOf i = .none → i ≠ .teardown → s.actor = commandCtx cmd s) := by
  unfold State.actor
  rw [hp]
  cases cmd with
  | request desc =>
    have hreq := (encode_decodeRequestPrefix (whole_some hf)).2.2
    exact ⟨fun _ => rfl, fun hen ht => by cases i <;> simp_all [engineOf, Instr.format]⟩
  | message record =>
    simp only [fetchInstr, decodeRecord, Option.map_eq_some_iff] at hf
    obtain ⟨msg, -, rfl⟩ := hf
    exact ⟨fun _ => rfl, fun hen _ => by cases msg <;> cases hen⟩
  | wire c bytes => exact ⟨fun hen => absurd (decodeWire_engine (whole_some hf)) hen, fun _ _ => rfl⟩
  | internal c op =>
    simp only [fetchInstr, internalOnly] at hf
    split at hf <;> cases hf
    exact ⟨fun hen => by cases i <;> simp_all [engineOf, Instr.format], fun _ _ => rfl⟩
  | turn c => simp [fetchInstr] at hf

/-- Everything a step does: it begins, and then comes a row of effects of the context it acts for. -/
theorem step_effects (he : step s = .next s') : ∃ t, Begins s t ∧ Effects s.actor t s' := by
  rcases step_cases he with ⟨-, rfl⟩ | ⟨c, rest, hp, hr⟩ | ⟨cmd, rest, i, hp, hf, hx⟩
  · exact ⟨_, .taken _ _ _, .refl⟩
  · obtain ⟨qs, h⟩ := runCtx_effects hr
    have ha : s.actor = c := by unfold State.actor; rw [hp]
    exact ⟨_, .taken rest s.cur qs, ha ▸ h⟩
  · obtain ⟨hact, hcmd⟩ := fetchInstr_actor hp hf
    by_cases hen : engineOf i = .none
    · by_cases ht : i = .teardown
      · subst ht
        obtain ⟨-, hfl, hl, rfl⟩ := teardown_next hx
        exact ⟨_, .closed rest (commandCtx cmd s) hfl hl, .refl⟩
      · exact ⟨_, .taken rest (commandCtx cmd s) s.quanta, hcmd hen ht ▸ exec_single_effects hen ht hx⟩
    · obtain ⟨hi, qs, h⟩ := exec_engine_effects hen hx
      exact ⟨_, .admitted rest (commandCtx cmd s) qs i (fetchInstr_wf hf hen) hen hi, hact hen ▸ h⟩

/-- A property is kept by a step when its beginning gives it and every effect of the acting context keeps it. -/
theorem step_keeps {P : State → Prop} (hb : ∀ t, Begins s t → P t)
    (hk : ∀ t t', P t → Effect s.actor t t' → P t') (he : step s = .next s') : P s' := by
  obtain ⟨t, ht, hrow⟩ := step_effects he
  have hPt := hb t ht
  clear he ht
  induction hrow with
  | refl => exact hPt
  | tail _ h ih => exact hk _ _ ih h

end Commands

/-! ## The lock and the phases -/

section Mutex

variable {c : Nat} {s s' : State}

/-- Every effect keeps the lock and the phases in agreement. -/
theorem Effect.mutex (h : Effect c s s') (hm : s.MutexInv) : s'.MutexInv := by
  have hx : ∀ {t : State}, s.lock = .held c → t.ctxs = (s.setPhase c .xchg).ctxs → t.lock = s.lock → t.MutexInv :=
    fun hl hc ht => (hm.modLocked (f := fun x => { x with phase := .xchg }) hl fun x => rfl).congr hc ht
  cases h with
  | ctx f hc hl =>
    refine hm.modCtx fun x hx => ?_
    rcases hl x hx with h | h
    · rw [h]; exact hm.holder c x hx
    · exact h
  | acquire hl hx hc => exact hm.acquire hx (by simp [Machine.acquire, hl])
  | release f hl ho hp => exact hm.modReleased hl hp
  | abort e hf => exact hm.abort c e
  | send e hl hc he => exact hx hl rfl rfl
  | recvFail e hl hc he => exact hx hl rfl rfl
  | recv e r hl hc he hr => exact hx hl rfl rfl
  | dropMirror hi => exact hm.congr rfl rfl
  | setMirror r hi hr hlen => exact hm.congr rfl rfl
  | frame hx hp hg => exact hm.congr rfl rfl
  | ask rg hl => exact hm.congr rfl rfl
  | @register x h hx hp ho =>
    have h1 : ({ s with regHandle := some h, sstate := .initialized } : State).MutexInv := hm.congr rfl rfl
    exact h1.modUnlocked (f := Ctx.finish .ok) (hm.notHeld hx (by rw [hp]; rfl)) fun x => rfl

/-- A context of a list with one more is an old one or the new one. -/
theorem getElem?_push {l : List Ctx} {x y : Ctx} {d : Nat} (h : (l ++ [x])[d]? = some y) :
    l[d]? = some y ∨ (d = l.length ∧ y = x) := by
  rcases lt_or_ge d l.length with hd | hd
  · rw [List.getElem?_append_left hd] at h
    exact .inl h
  · rw [List.getElem?_append_right hd, List.getElem?_singleton] at h
    split at h <;> cases h
    exact .inr ⟨by omega, rfl⟩

/-- One more context, which does not hold the lock. -/
theorem State.MutexInv.push (hm : s.MutexInv) {x : Ctx} (hx : x.phase.holdsLock = false)
    (hc : s'.ctxs = s.ctxs ++ [x]) (hl : s'.lock = s.lock) : s'.MutexInv := by
  constructor
  · intro d y hy
    rw [hl]
    rcases getElem?_push (hc ▸ hy) with hy | ⟨rfl, rfl⟩
    · exact hm.holder d y hy
    · have hne : s.lock ≠ .held s.ctxs.length := fun h => absurd (hm.exists_ _ h) (by omega)
      simp [hx, hne]
  · intro d hd
    rw [hl] at hd
    have := hm.exists_ d hd
    rw [hc, List.length_append]
    omega

theorem closeSession_ctxs (s : State) : (closeSession s).ctxs = s.ctxs := by
  unfold closeSession; split <;> rfl

/-- TEARDOWN leaves a context that is done (43_init.md R128). -/
theorem closed_ctxs (s : State) (pt : List Command) (cu : Nat) :
    (complete s.ctxs.length .noStatus ((closeSession ({ s with port := pt, cur := cu } : State)).admitOp .teardown)).ctxs =
      s.ctxs ++ [(newCtx .teardown []).finish .noStatus] := by
  simp only [complete_ctxs, State.admit_ctxs, closeSession_ctxs, modify_append_self]
  rfl

/-- The contexts a step begins with are those before it, and perhaps one more. -/
theorem Begins.ctxs (h : Begins s s') : s'.ctxs = s.ctxs ∨
    (∃ op, op.wf = true ∧ s'.ctxs = s.ctxs ++ [newCtx op (dstFor op s.dstPort)]) ∨
    s'.ctxs = s.ctxs ++ [(newCtx .teardown []).finish .noStatus] := by
  cases h with
  | taken pt cu qs => exact .inl rfl
  | admitted pt cu qs op hw he hi => exact .inr (.inl ⟨op, hw, rfl⟩)
  | closed pt cu hf hl => exact .inr (.inr (closed_ctxs s pt cu))

theorem Begins.lock (h : Begins s s') : s'.lock = s.lock := by
  cases h with
  | taken pt cu qs => rfl
  | admitted pt cu qs op hw he hi => rfl
  | closed pt cu hf hl => simp only [complete_lock, State.admit_lock]; unfold closeSession; split <;> rfl

theorem Begins.mutex (h : Begins s s') (hm : s.MutexInv) : s'.MutexInv := by
  rcases h.ctxs with hc | ⟨op, -, hc⟩ | hc
  · exact hm.congr hc h.lock
  · exact hm.push rfl hc h.lock
  · exact hm.push rfl hc h.lock

/-- A property is kept by a step from a state where the lock and the phases agree: they agree before each of its effects. -/
theorem step_keeps_mutex {P : State → Prop} (hm : s.MutexInv) (hb : ∀ t, Begins s t → P t)
    (hk : ∀ t t', t.MutexInv → P t → Effect s.actor t t' → P t') (he : step s = .next s') : P s' :=
  (step_keeps (P := fun t => t.MutexInv ∧ P t) (fun t ht => ⟨ht.mutex hm, hb t ht⟩)
    (fun t t' ht h => ⟨h.mutex ht.1, hk t t' ht.1 ht.2 h⟩) he).2

end Mutex

/-- Settles O13: a step begins with the lock and the phases in agreement, and every effect keeps them so. -/
theorem stepKeepsLockAndPhases : Obligations.StepKeepsLockAndPhases := fun _ _ hm he =>
  step_keeps (fun _ hb => hb.mutex hm) (fun _ _ ht h => h.mutex ht) he

end Sys2Proof.Machine
end

section
/-! PROOFS. What an effect leaves alone, and what it does to HIST and `OPEN_TXN`. -/

namespace Sys2Proof.Machine

/-! ## What an effect leaves alone -/

/-- The session's shared fields are those of the state before (10_state.md R29, R35, R42). -/
structure SameSession (s t : State) : Prop where
  cfg : t.cfg = s.cfg
  lock : t.lock = s.lock
  outbuf : t.outbuf = s.outbuf
  outlen : t.outlen = s.outlen
  inbuf : t.inbuf = s.inbuf
  inlen : t.inlen = s.inlen
  gpo : t.gpo = s.gpo
  gpi : t.gpi = s.gpi
  gpiValid : t.gpiValid = s.gpiValid
  hist : t.hist = s.hist
  openTxn : t.openTxn = s.openTxn
  sends : t.sends = s.sends
  recvs : t.recvs = s.recvs

theorem SameSession.trans {s t u : State} (h1 : SameSession s t) (h2 : SameSession t u) : SameSession s u :=
  ⟨h2.cfg.trans h1.cfg, h2.lock.trans h1.lock, h2.outbuf.trans h1.outbuf, h2.outlen.trans h1.outlen,
    h2.inbuf.trans h1.inbuf, h2.inlen.trans h1.inlen, h2.gpo.trans h1.gpo, h2.gpi.trans h1.gpi,
    h2.gpiValid.trans h1.gpiValid, h2.hist.trans h1.hist, h2.openTxn.trans h1.openTxn, h2.sends.trans h1.sends,
    h2.recvs.trans h1.recvs⟩

section Unchanged

variable {c d : Nat} {s s' : State} {x y : Ctx}

/-- Closing the session ends its lifecycle, and drops the handle that goes with it (43_init.md R128). -/
theorem closeSession_eq (s : State) : ∃ rh hl, closeSession s = { s with sstate := .dead, regHandle := rh, hostLog := hl } ∧
    ((s.regHandle ≠ none ↔ s.sstate = .initialized) → rh = none) := by
  unfold closeSession
  split
  · exact ⟨none, _, rfl, fun _ => rfl⟩
  · rename_i hn; exact ⟨s.regHandle, s.hostLog, rfl, fun _ => hn⟩
  · rename_i h1 h2
    refine ⟨s.regHandle, s.hostLog, rfl, fun h => ?_⟩
    cases hr : s.regHandle with
    | none => rfl
    | some a => exact absurd hr (h1 a (h.mp (by simp [hr])))

/-- The beginning of a step leaves the shared fields alone. -/
theorem Begins.same (h : Begins s s') : SameSession s s' := by
  cases h with
  | taken pt cu qs => constructor <;> rfl
  | admitted pt cu qs op hw he hi => constructor <;> rfl
  | closed pt cu hf hl =>
    obtain ⟨rh, hl, hc, -⟩ := closeSession_eq { s with port := pt, cur := cu }
    rw [hc]
    constructor <;> rfl

/-- The beginning of a step leaves every context that was there alone. -/
theorem Begins.ctx_stays (h : Begins s s') (hx : s.ctxs[d]? = some x) : s'.ctxs[d]? = some x := by
  have hd := (List.getElem?_eq_some_iff.mp hx).1
  rcases h.ctxs with hc | ⟨op, -, hc⟩ | hc <;> rw [hc]
  · exact hx
  · rw [List.getElem?_append_left hd, hx]
  · rw [List.getElem?_append_left hd, hx]

/-- A context at the beginning of a step was there before, or was just admitted, or is the one TEARDOWN left. -/
theorem Begins.ctx_before (h : Begins s s') (hy : s'.ctxs[d]? = some y) :
    s.ctxs[d]? = some y ∨ (∃ op, y = newCtx op (dstFor op s.dstPort)) ∨ y = (newCtx .teardown []).finish .noStatus := by
  have hpush : ∀ {z : Ctx}, s'.ctxs = s.ctxs ++ [z] → s.ctxs[d]? = some y ∨ y = z := fun hc =>
    (getElem?_push (hc ▸ hy)).imp_right And.right
  rcases h.ctxs with hc | ⟨op, -, hc⟩ | hc
  · exact .inl (hc ▸ hy)
  · exact (hpush hc).imp_right fun h => .inl ⟨op, h⟩
  · exact (hpush hc).imp_right .inr

/-- The contexts after an effect: those before, but for a change of the acting one. -/
theorem Effect.changed (h : Effect c s s') (hm : s.MutexInv) : s'.ctxs = s.ctxs ∨
    ∃ f, s'.ctxs = s.ctxs.modify c f ∧ ∀ x, s.ctxs[c]? = some x → CtxChange s x (f x) := by
  have held : ∀ {f : Ctx → Ctx}, s.lock = .held c → (∀ x, (f x).op = x.op) → (∀ x, (f x).phase ≠ .commit) →
      ∀ x, s.ctxs[c]? = some x → CtxChange s x (f x) := fun hl ho hp x hx => by
    obtain ⟨hf, ha⟩ := Phase.of_holdsLock ((hm.holder c x hx).mpr hl)
    exact .plain hf (ho x) (.inl ha) (hp x)
  have xchg : s.lock = .held c → s'.ctxs = (s.setPhase c .xchg).ctxs →
      s'.ctxs = s.ctxs ∨ ∃ f, s'.ctxs = s.ctxs.modify c f ∧ ∀ x, s.ctxs[c]? = some x → CtxChange s x (f x) :=
    fun hl hc => .inr ⟨_, hc, held hl (fun _ => rfl) fun _ => by simp⟩
  cases h with
  | ctx f hc hl => exact .inr ⟨f, rfl, hc⟩
  | acquire hl hx hc => exact .inr ⟨_, rfl, fun y hy => by cases hx.symm.trans hy; exact hc⟩
  | release f hl ho hp => exact .inr ⟨f, rfl, held hl ho fun x hc => by have := hp x; rw [hc] at this; cases this⟩
  | abort e hf =>
    exact .inr ⟨_, rfl, fun x hx => ⟨hf x hx, rfl, fun _ _ h => by simp [Phase.isFinal] at h, by simp⟩⟩
  | send e hl hc he => exact xchg hl rfl
  | recvFail e hl hc he => exact xchg hl rfl
  | recv e r hl hc he hr => exact xchg hl rfl
  | dropMirror hi => exact .inl rfl
  | setMirror r hi hr hlen => exact .inl rfl
  | frame hx hp hg => exact .inl rfl
  | ask rg hl => exact .inl rfl
  | register h hx hp ho =>
    exact .inr ⟨_, rfl, fun y hy => by
      cases hx.symm.trans hy
      exact .plain (by rw [hp]; rfl) rfl (.inl (by simp [hp])) (by simp)⟩

/-- A context after an effect is as it was, or it is the acting one, changed. -/
theorem Effect.ctx_before (h : Effect c s s') (hm : s.MutexInv) (hy : s'.ctxs[d]? = some y) :
    s.ctxs[d]? = some y ∨ (d = c ∧ ∃ x, s.ctxs[d]? = some x ∧ CtxChange s x y) := by
  rcases h.changed hm with hc | ⟨f, hc, hf⟩ <;> rw [hc] at hy
  · exact .inl hy
  · by_cases hd : d = c
    · subst hd
      obtain ⟨x, hx, rfl⟩ := getElem?_modify_self hy
      exact .inr ⟨rfl, x, hx, hf x hx⟩
    · rw [getElem?_modify_ne _ hd] at hy
      exact .inl hy

/-- An effect leaves every other context alone. -/
theorem Effect.others (h : Effect c s s') (hm : s.MutexInv) (hd : d ≠ c) : s'.ctxs[d]? = s.ctxs[d]? := by
  rcases h.changed hm with hc | ⟨f, hc, -⟩ <;> rw [hc]
  exact getElem?_modify_ne _ hd

/-- `Done` and `Failed` are final (10_state.md R38). -/
theorem Effect.ended_stays (h : Effect c s s') (hm : s.MutexInv) (hx : s.ctxs[d]? = some x)
    (hf : x.phase.isFinal = true) : s'.ctxs[d]? = some x := by
  by_cases hd : d = c
  · subst hd
    rcases h.changed hm with hc | ⟨f, hc, hl⟩
    · rw [hc, hx]
    · have := (hl x hx).live
      rw [hf] at this
      cases this
  · rw [h.others hm hd, hx]

/-- An effect of a context that does not own the lock, while another does, leaves the shared fields alone
(20_memory.md R52). -/
theorem Effect.same_of_held (h : Effect c s s') (hm : s.MutexInv) (hl : s.lock = .held d) (hd : d ≠ c) :
    SameSession s s' := by
  have hne : s.lock ≠ .held c := by simpa [hl] using hd
  cases h with
  | ctx f hc hl => constructor <;> rfl
  | acquire hf hx hc => rw [hl] at hf; cases hf
  | release f hl ho hp => exact absurd hl hne
  | abort e hf =>
    have hlock : (Machine.abort c e s).lock = s.lock := if_neg hne
    have hopen : (Machine.abort c e s).openTxn = s.openTxn := by simp [Machine.abort, hne]
    exact ⟨rfl, hlock, rfl, rfl, rfl, rfl, rfl, rfl, rfl, rfl, hopen, rfl, rfl⟩
  | send e hl hc he => exact absurd hl hne
  | recvFail e hl hc he => exact absurd hl hne
  | recv e r hl hc he hr => exact absurd hl hne
  | dropMirror hi => exact absurd (hi.lock hm) hne
  | setMirror r hi hr hlen => exact absurd (hi.lock hm) hne
  | frame hx hp hg => exact absurd (hm.held hx (by rw [hp]; rfl)) hne
  | ask rg hl => constructor <;> rfl
  | register h hx hp ho => constructor <;> rfl

end Unchanged

/-- Settles O24: the beginning of a step leaves the shared fields alone, and so does every effect of a context other than the
holder. -/
theorem lockGuardsTheSession : Obligations.LockGuardsTheSession := by
  intro s t d hm hl hact he
  obtain ⟨h, hd⟩ := step_keeps_mutex (P := fun u => SameSession s u ∧ u.ctxs[d]? = s.ctxs[d]?) hm
    (fun u hu => ⟨hu.same, by rw [hu.ctx_stays (List.getElem?_eq_getElem (hm.exists_ d hl)), List.getElem?_eq_getElem]⟩)
    (fun u u' hu ⟨h, hd⟩ hf => ⟨h.trans (hf.same_of_held hu (h.lock.trans hl) hact.symm),
      (hf.others hu hact.symm).trans hd⟩) he
  exact ⟨h.lock, h.outbuf, h.outlen, h.inbuf, h.inlen, h.gpo, h.gpi, h.gpiValid, h.hist, h.openTxn, h.sends, h.recvs, hd⟩

/-- Settles O23: no effect changes a context that ended. -/
theorem endedContextsStay : Obligations.EndedContextsStay := fun _ _ c x hm hx hf he =>
  step_keeps_mutex (P := fun u => u.ctxs[c]? = some x) hm (fun _ hu => hu.ctx_stays hx)
    (fun _ _ hu h he => he.ended_stays hu h hf) he

/-! ## HIST -/

/-- An effect appends legal exchanges of its own context to HIST, if anything (10_state.md R42). -/
theorem Effect.hist {c : Nat} {s s' : State} (h : Effect c s s') :
    s'.cfg = s.cfg ∧ ∃ es, s'.hist = s.hist ++ es ∧ ∀ e ∈ es, e.ctx = c ∧ e.Legal := by
  have same : s'.cfg = s.cfg → s'.hist = s.hist →
      s'.cfg = s.cfg ∧ ∃ es, s'.hist = s.hist ++ es ∧ ∀ e ∈ es, e.ctx = c ∧ e.Legal := fun hc hh =>
    ⟨hc, [], by simp [hh], by simp⟩
  cases h with
  | send e hl hc he => exact ⟨rfl, [e], rfl, by simp [hc, he]⟩
  | recvFail e hl hc he => exact ⟨rfl, [e], rfl, by simp [hc, he]⟩
  | recv e r hl hc he hr => exact ⟨rfl, [e], rfl, by simp [hc, he]⟩
  | _ => exact same rfl rfl

/-- Settles O22: a step begins with HIST and the parameters as they were, and every effect only appends to HIST. -/
theorem historyOnlyGrows : Obligations.HistoryOnlyGrows := by
  intro s t he
  refine step_keeps (P := fun u => u.cfg = s.cfg ∧ ∃ es, u.hist = s.hist ++ es ∧ ∀ e ∈ es, e.ctx = s.actor ∧ e.Legal)
    (fun u hu => ⟨hu.same.cfg, [], by simp [hu.same.hist], by simp⟩) (fun u u' hu hf => ?_) he
  obtain ⟨hc, es, hh, hes⟩ := hu
  obtain ⟨hc', es', hh', hes'⟩ := hf.hist
  exact ⟨hc'.trans hc, es ++ es', by rw [hh', hh, List.append_assoc],
    fun e hm => (List.mem_append.mp hm).elim (hes e) (hes' e)⟩

/-! ## OPEN_TXN -/

section OpenTxn

variable {c : Nat} {s s' : State}

/-- A packet closes the transaction, opens it, or leaves it: what was open before stays no less open. -/
theorem txnAfter_mono {speed : Fin 20} {a b : Bool} (h : a = true → b = true) (p : Bytes) :
    txnAfter speed a p = true → txnAfter speed b p = true := by
  unfold txnAfter
  split_ifs
  · exact id
  · exact id
  · exact h

theorem txnFold_mono {speed : Fin 20} (es : List Exch) {a b : Bool} (h : a = true → b = true) :
    es.foldl (fun o e => txnAfter speed o e.sent) a = true → es.foldl (fun o e => txnAfter speed o e.sent) b = true := by
  induction es generalizing a b with
  | nil => exact h
  | cons e es ih => exact ih (txnAfter_mono h e.sent)

/-- Where `OPEN_TXN` follows the packets sent, and the contexts that failed stay, its invariant stays. -/
theorem State.OpenTxnInv.follows (h : s.OpenTxnInv) (hf : s.Follows s')
    (hst : ∀ (d : Nat) (x : Ctx), s.ctxs[d]? = some x → x.phase.isFinal = true → s'.ctxs[d]? = some x) : s'.OpenTxnInv := by
  obtain ⟨hc, es, hh, ho⟩ := hf
  have hp : s'.packetsOpen = es.foldl (fun o e => txnAfter s.cfg.speedCode o e.sent) s.packetsOpen := by
    simp only [State.packetsOpen, hc, hh, List.foldl_append]
  refine ⟨fun h1 => ?_, fun h1 => ?_⟩
  · rw [hp] at h1
    rw [ho]
    exact txnFold_mono es h.packets h1
  · have same : s.packetsOpen = s.openTxn → s'.packetsOpen = true := fun h => by rw [hp, h, ← ho, h1]
    cases hs : s.openTxn with
    | false =>
      have : s.packetsOpen = false := Bool.eq_false_iff.mpr fun hp1 => by simp [h.packets hp1] at hs
      exact .inl (same (by rw [this, hs]))
    | true =>
      rcases h.aborted hs with hp1 | ⟨d, x, e, hx, he, hw⟩
      · exact .inl (same (by rw [hp1, hs]))
      · exact .inr ⟨d, x, e, hst d x hx (by rw [he]; rfl), he, hw⟩

/-- Every effect keeps the invariant of `OPEN_TXN`. -/
theorem Effect.openTxn (h : Effect c s s') (hm : s.MutexInv) (hi : s.OpenTxnInv) : s'.OpenTxnInv := by
  have hst : ∀ (d : Nat) (x : Ctx), s.ctxs[d]? = some x → x.phase.isFinal = true → s'.ctxs[d]? = some x :=
    fun _ _ => h.ended_stays hm
  cases h with
  | send e hl hc he => exact hi.follows (.record (.of_eq rfl rfl rfl) e) hst
  | recvFail e hl hc he => exact hi.follows (.record (.of_eq rfl rfl rfl) e) hst
  | recv e r hl hc he hr => exact hi.follows (.record (.of_eq rfl rfl rfl) e) hst
  | abort e hf =>
    rcases (State.Follows.of_eq rfl rfl rfl : s.Follows s).abort c e with h | ⟨x, e', hx, hp, hw⟩
    · exact hi.follows h hst
    · refine ⟨fun h => ?_, fun _ => .inr ⟨c, x, e', hx, hp, hw⟩⟩
      have h1 : s.openTxn = true := hi.packets h
      simp [Machine.abort, h1]
  | _ => exact hi.follows (.of_eq rfl rfl rfl) hst

end OpenTxn

/-- Settles O17: `OPEN_TXN` follows the packets of every effect but an abort, which sets it where it says so. -/
theorem stepKeepsOpenTxn : Obligations.StepKeepsOpenTxn := fun _ _ hm hi he =>
  step_keeps_mutex hm
    (fun _ hu => hi.follows (.of_eq hu.same.cfg hu.same.hist hu.same.openTxn) fun _ _ hx _ => hu.ctx_stays hx)
    (fun _ _ hu h hf => hf.openTxn hu h) he

end Sys2Proof.Machine
end

section
/-! PROOFS. The mirror and the lifecycle along a step. -/

namespace Sys2Proof.Machine

/-! ## The mirror -/

/-- A row written over one of the same length is all that stands there. -/
theorem putBytes_overwrite {r r' : Bytes} (h : r'.length = r.length) :
    Memory.putBytes (Memory.putBytes [] 0 r) 0 r' = Memory.putBytes [] 0 r' := by
  have h0 : Memory.wf [] := List.Pairwise.nil
  refine Memory.ext_of_wf (Memory.wf_putBytes (Memory.wf_putBytes h0 _ _) _ _) (Memory.wf_putBytes h0 _ _) fun a => ?_
  simp only [Memory.byteAt_putBytes]
  by_cases ha : 0 ≤ a ∧ a < 0 + r'.length
  · rw [if_pos ha, if_pos ha]
  · rw [if_neg ha, if_neg ha, if_neg (by omega)]

/-- Every effect keeps the invariant of the mirror. -/
theorem Effect.mirror {c : Nat} {s s' : State} (h : Effect c s s') (hm : s.MutexInv) (hi : s.MirrorInv) :
    s'.MirrorInv := by
  have hm' := h.mutex hm
  have commit : s'.reply = s.reply → ∀ (d : Nat) (y : Ctx), s'.ctxs[d]? = some y → y.phase = .commit →
      engineOf y.op ≠ .i2c → ∃ r, s'.reply = some r ∧ r.length = Config.gpioReplyLen := fun hr d y hy hp he => by
    rw [hr]
    rcases h.ctx_before hm hy with hx | ⟨-, x, hx, hc⟩
    · exact hi.commit d y hx hp he
    · rw [hc.op] at he
      rcases hc.commit hp with h1 | h1 | h1
      · exact hi.commit d x hx h1 he
      · exact absurd h1 he
      · exact h1
  cases h with
  | abort e hf => exact ⟨hi.invalid, hi.valid, commit rfl⟩
  | recv e r hl hc he hr =>
    refine ⟨hi.invalid, hi.valid, fun d y hy hp _ => ?_⟩
    have hd : s.lock = .held d := hm'.held hy (by rw [hp]; rfl)
    obtain rfl : c = d := by rw [hl] at hd; exact Lock.held.inj hd
    obtain ⟨x, -, rfl⟩ := getElem?_modify_self hy
    cases hp
  | dropMirror hin => exact ⟨fun _ => rfl, fun h => (by cases h), commit rfl⟩
  | setMirror r hin hr hlen =>
    have hl : r.length = Config.gpioReplyLen := by
      rcases hlen with h | ⟨x, hx, hp, he⟩
      · exact h
      · obtain ⟨r', hr', hl'⟩ := hi.commit c x hx hp he
        cases hr.symm.trans hr'
        exact hl'
    refine ⟨fun h => (by cases h), fun _ => ⟨r, hl, ?_⟩, commit rfl⟩
    cases hv : s.gpiValid with
    | false => simp [hi.invalid hv]
    | true =>
      obtain ⟨r0, hl0, hg⟩ := hi.valid hv
      rw [State.setMirror_gpi, hg, putBytes_overwrite (hl.trans hl0.symm)]
  | _ => exact ⟨hi.invalid, hi.valid, commit rfl⟩

/-- The beginning of a step keeps the invariant of the mirror. -/
theorem Begins.mirror {s s' : State} (h : Begins s s') (hi : s.MirrorInv) : s'.MirrorInv := by
  have hr : s'.reply = s.reply := by unfold State.reply; rw [h.same.inlen, h.same.inbuf]
  refine ⟨?_, ?_, fun d y hy hp he => ?_⟩
  · rw [h.same.gpiValid, h.same.gpi]; exact hi.invalid
  · rw [h.same.gpiValid, h.same.gpi]; exact hi.valid
  · rw [hr]
    rcases h.ctx_before hy with hx | ⟨op, rfl⟩ | rfl
    · exact hi.commit d y hx hp he
    · cases hp
    · cases hp

/-- Settles O18: the mirror is set from a checked reply only, and no other context is about to commit one while INBUF
changes. -/
theorem stepKeepsMirror : Obligations.StepKeepsMirror := fun _ _ hm hi he =>
  step_keeps_mutex hm (fun _ hu => hu.mirror hi) (fun _ _ hu h hf => hf.mirror hu h) he

/-! ## The lifecycle -/

section Lifecycle

variable {c : Nat} {s s' : State}

/-- The context that runs INIT, if `c` does. -/
theorem runsInit_iff : s.runsInit c = true ↔ ∃ x, s.ctxs[c]? = some x ∧ x.op = .init := by
  unfold State.runsInit
  cases s.ctxs[c]? <;> simp

/-- There is no handle but in an Initialized session. -/
theorem State.LifecycleInv.noHandle (hi : s.LifecycleInv) (h : s.sstate ≠ .initialized) : s.regHandle = none :=
  of_not_not fun hn => h (hi.handle.mp hn)

/-- An INIT context after an effect was one before, in flight if it still is. -/
theorem Effect.init_before (h : Effect c s s') (hm : s.MutexInv) {d : Nat} {y : Ctx} (hy : s'.ctxs[d]? = some y)
    (ho : y.op = .init) : ∃ x, s.ctxs[d]? = some x ∧ x.op = .init ∧ (y.inFlight = true → x.inFlight = true) := by
  rcases h.ctx_before hm hy with hx | ⟨-, x, hx, hc⟩
  · exact ⟨_, hx, ho, id⟩
  · exact ⟨x, hx, hc.op ▸ ho, fun _ => by simp [Ctx.inFlight, hc.live]⟩

/-- Every effect keeps the lifecycle. -/
theorem Effect.lifecycle (h : Effect c s s') (hm : s.MutexInv) (hi : s.LifecycleInv) : s'.LifecycleInv := by
  have unique : ∀ (d e : Nat) (x y : Ctx), s'.ctxs[d]? = some x → s'.ctxs[e]? = some y → x.op = .init → y.op = .init →
      d = e := fun d e x y hx hy hox hoy => by
    obtain ⟨x', hx', ho', -⟩ := h.init_before hm hx hox
    obtain ⟨y', hy', hp', -⟩ := h.init_before hm hy hoy
    exact hi.unique d e x' y' hx' hy' ho' hp'
  have same : s'.sstate = s.sstate → s'.regHandle = s.regHandle → s'.LifecycleInv := fun hs hr => by
    refine ⟨unique, fun d y hy ho hf => ?_, by rw [hs, hr]; exact hi.handle⟩
    obtain ⟨x, hx, hox, hfx⟩ := h.init_before hm hy ho
    rw [hs]
    exact hi.attached d x hx hox (hfx hf)
  have ended : ∀ {x : Ctx} {f : Ctx → Ctx}, s.ctxs[c]? = some x → x.op = .init → s'.ctxs = s.ctxs.modify c f →
      (∀ z, (f z).inFlight = false) → (s'.regHandle ≠ none ↔ s'.sstate = .initialized) → s'.LifecycleInv :=
    fun hx ho hc hf hh => ⟨unique, fun d y hy hoy hfy => by
      obtain ⟨x', hx', ho', -⟩ := h.init_before hm hy hoy
      obtain rfl := hi.unique _ _ _ _ hx' hx ho' ho
      rw [hc] at hy
      obtain ⟨z, -, rfl⟩ := getElem?_modify_self hy
      exact absurd hfy (by simp [hf z]), hh⟩
  cases h with
  | abort e hf =>
    by_cases hr : s.runsInit c = true
    · obtain ⟨x, hx, ho⟩ := runsInit_iff.mp hr
      have ha := hi.attached c x hx ho (by simp [Ctx.inFlight, hf x hx])
      have hn : s.regHandle = none := hi.noHandle (by simp [ha])
      have hd : (Machine.abort c e s).sstate = .dead := if_pos hr
      refine ended hx ho (f := Ctx.fail e) rfl (fun _ => rfl) ?_
      rw [hd]
      exact ⟨fun h => absurd hn h, fun h => by cases h⟩
    · exact same (if_neg hr) rfl
  | register h hx hp ho => exact ended hx ho (f := Ctx.finish .ok) rfl (fun _ => rfl) ⟨fun _ => rfl, fun _ => by simp⟩
  | _ => exact same rfl rfl

/-- The beginning of a step keeps the lifecycle: an INIT is admitted only as the first one, while the session is Attached. -/
theorem Begins.lifecycle (h : Begins s s') (hi : s.LifecycleInv) : s'.LifecycleInv := by
  cases h with
  | taken pt cu qs => exact ⟨hi.unique, hi.attached, hi.handle⟩
  | admitted pt cu qs op hw he ha =>
    have first : op = .init → ∀ (d : Nat) (x : Ctx), s.ctxs[d]? = some x → x.op ≠ .init := fun ho d x hx hox => by
      have h := (ha ho).2
      simp only [State.initSubmitted, List.any_eq_false, beq_iff_eq] at h
      exact h x (List.mem_of_getElem? hx) hox
    refine ⟨fun d e x y hx hy hox hoy => ?_, fun d y hy hoy hf => ?_, hi.handle⟩
    · rcases getElem?_push hx with hx | ⟨rfl, rfl⟩ <;> rcases getElem?_push hy with hy | ⟨rfl, rfl⟩
      · exact hi.unique d e x y hx hy hox hoy
      · exact absurd hox (first hoy d x hx)
      · exact absurd hoy (first hox e y hy)
      · rfl
    · rcases getElem?_push hy with hy | ⟨rfl, rfl⟩
      · exact hi.attached d y hy hoy hf
      · exact (ha hoy).1
  | closed pt cu hf hl =>
    obtain ⟨rh, hl', hcl, hrh⟩ := closeSession_eq { s with port := pt, cur := cu }
    have old : ∀ {d : Nat} {y : Ctx}, (complete s.ctxs.length .noStatus
        ((closeSession ({ s with port := pt, cur := cu } : State)).admitOp .teardown)).ctxs[d]? = some y → y.op = .init →
        s.ctxs[d]? = some y := fun hy ho => by
      rcases getElem?_push (closed_ctxs s pt cu ▸ hy) with h | ⟨-, rfl⟩
      · exact h
      · cases ho
    refine ⟨fun d e x y hx hy hox hoy => hi.unique d e x y (old hx hox) (old hy hoy) hox hoy, fun d y hy hoy hfy => ?_, ?_⟩
    · have := List.any_eq_false.mp hf y (List.mem_of_getElem? (old hy hoy))
      exact absurd hfy this
    · rw [hcl]
      simp [hrh hi.handle]

end Lifecycle

/-- Settles O21: the lifecycle changes only where INIT ends and where the session is closed. -/
theorem stepKeepsLifecycle : Obligations.StepKeepsLifecycle := fun _ _ hm hi he =>
  step_keeps_mutex hm (fun _ hu => hu.lifecycle hi) (fun _ _ hu h hf => hf.lifecycle hu h) he

end Sys2Proof.Machine
end

section
/-! PROOFS. The bounds of a context and of the frame along a step. -/

namespace Sys2Proof.Machine

/-! ## The bounds of a context -/

/-- The packet of a write chunk is at most six bytes longer than the chunk, and four when it is not the first
(41_i2c.md R96, R106). -/
theorem wpkt_length_le (a : BitVec 7) (src : Bytes) (off n : Nat) (first last : Bool) :
    (wpkt a src off n first last).length ≤ n + 4 + if first then 2 else 0 := by
  have hm : (memRead src off n).length ≤ n := by simp [memRead]
  cases first <;> cases last <;> simp [wpkt] <;> omega

theorem rpkt_length_le (cfg : Config) (a : BitVec 7) (n : Nat) : (rpkt cfg a n).length ≤ 8 := by
  rw [rpkt_length]; split <;> omega

/-- The packet a context builds fits PKT. -/
theorem Ctx.Bounded.packet_length {cfg : Config} {x : Ctx} (h : x.Bounded) {p : Bytes} (hp : x.packet cfg = some p) :
    p.length ≤ Config.scratchLen := by
  have h63 : Config.maxSubLen = 63 := rfl
  have h512 : Config.scratchLen = 512 := rfl
  unfold Ctx.packet at hp
  split at hp
  · rename_i a src n _ hn
    cases hp
    have h1 := wpkt_length_le a src x.off n x.first (x.last.getD false)
    have h2 := h.n n hn
    split at h1 <;> omega
  · cases hp
    have := rpkt_length_le cfg ‹_› ‹_›
    omega
  · split at hp <;> cases hp
    simp [speedPkt, h512]

/-- An operation that stands at a message checks no pin, and is not INIT. -/
theorem Ctx.msg_engine {x : Ctx} {m : Msg} (h : x.msg = some m) :
    (∀ p, checkedPin x.op ≠ some p) ∧ engineOf x.op ≠ .initSeq := by
  have he := (Ctx.msg_some h).1
  exact ⟨fun p hp => (by rw [checkedPin_none (by simp [he])] at hp; cases hp), by simp [he]⟩

/-- The choice of a write chunk keeps the bounds. -/
theorem Ctx.Bounded.chooseWrite {cfg : Config} (hw : cfg.wf = true) {x : Ctx} (h : x.Bounded) {a : BitVec 7} {src : Bytes}
    (hm : x.msg = some (.write a src)) : (x.chooseWrite cfg src).Bounded := by
  have hl := legalConfig hw
  have hoff := (h.chunk _ hm).1
  refine { h with n := fun n hn => ?_, chunk := fun m hm' => ?_, pin := fun p hp => absurd hp ((Ctx.msg_engine hm).1 p) }
  · cases hn
    have h63 : Config.maxSubLen = 63 := rfl
    have := hl.firstMax
    have := hl.contMax
    simp only [wchunkAt]
    split <;> omega
  · cases hm.symm.trans hm'
    refine ⟨hoff, fun _ => ?_⟩
    simp only [Msg.length] at hoff ⊢
    simp only [chooseWrite_off, chooseWrite_n, Option.getD_some, wchunkAt]
    omega

/-- The choice of a read chunk keeps the bounds. -/
theorem Ctx.Bounded.chooseRead {cfg : Config} (hw : cfg.wf = true) {x : Ctx} (h : x.Bounded) {a : BitVec 7} {len : Nat}
    (hm : x.msg = some (.read a len)) : (x.chooseRead cfg len).Bounded := by
  have hoff := (h.chunk _ hm).1
  refine { h with n := fun n hn => ?_, chunk := fun m hm' => ?_, pin := fun p hp => absurd hp ((Ctx.msg_engine hm).1 p) }
  · cases hn
    have h63 : Config.maxSubLen = 63 := rfl
    have := (legalConfig hw).readMax
    simp only [rchunkLen]
    omega
  · cases hm.symm.trans hm'
    refine ⟨hoff, fun _ => ?_⟩
    simp only [Msg.length] at hoff ⊢
    simp only [chooseRead_off, chooseRead_n, Option.getD_some, rchunkLen]
    omega

/-- A chunk is done: its bytes lie within the message. -/
theorem Ctx.Bounded.done_le {x : Ctx} (h : x.Bounded) (hp : x.phase.inChunk = true) {n : Nat} (hn : x.n = some n) {m : Msg}
    (hm : x.msg = some m) : x.off + n ≤ m.length := by
  have := (h.chunk m hm).2 hp
  rwa [hn] at this

/-- Every change an operation makes to a context keeps its bounds (10_state.md R28, R37). -/
theorem bounded_kept {cfg : Config} (hw : cfg.wf = true) : CtxKept cfg Ctx.Bounded where
  fail x e h _ _ :=
    { h with chunk := fun m hm => ⟨(h.chunk m hm).1, fun hc => (Bool.false_ne_true hc).elim⟩
             pin := fun _ _ _ hf => (Bool.false_ne_true hf.symm).elim }
  finish x r h _ _ :=
    { h with chunk := fun m hm => ⟨(h.chunk m hm).1, fun hc => (Bool.false_ne_true hc).elim⟩
             pin := fun _ _ _ hf => (Bool.false_ne_true hf.symm).elim }
  phase x p h hs := by
    refine { h with chunk := fun m hm => ⟨(h.chunk m hm).1, fun _ => (h.chunk m hm).2 ?_⟩, pin := fun q hq _ _ => ?_ }
    · have he := (Ctx.msg_some hm).1
      cases hx : x.phase with
      | admitting => exact absurd he (hs.admitting hx).1
      | next => exact absurd he (hs.next hx)
      | done r => have := hs.source; simp [hx, Phase.isFinal] at this
      | failed e => have := hs.source; simp [hx, Phase.isFinal] at this
      | _ => rfl
    · by_cases ha : x.phase = .admitting
      · exact (hs.admitting ha).2 q hq
      · exact h.pin q hq ha hs.source
  enter x j h hc hj := by
    have hno : x.phase.inChunk = false := by rcases hc with hp | hp <;> rw [hp] <;> rfl
    refine { h with idx := fun _ => hj.le, idxInit := fun he => ?_, chunk := fun m _ => ⟨Nat.zero_le _, fun hin => ?_⟩ }
    · rw [engineOf_init (op := x.op) he] at hj
      exact absurd hj (Nat.not_lt_zero j)
    · exact absurd (hno.symm.trans hin) Bool.false_ne_true
  firstChunk x a src h _ hm _ :=
    Ctx.Bounded.chooseWrite hw (x := { x with first := true }) { h with } hm
  writeChunk x a src h _ hm := h.chooseWrite hw hm
  readChunk x a len h _ hm _ := h.chooseRead hw hm
  pkt x p h hp hpk :=
    { h with pkt := h.packet_length hpk
             chunk := fun m hm => ⟨(h.chunk m hm).1, fun _ => (h.chunk m hm).2 (by rw [hp]; rfl)⟩
             pin := fun q hq _ _ => h.pin q hq (by simp [hp]) (by rw [hp]; rfl) }
  emit x p q h _ hq hpq := { h with pkt := hpq.length_le.trans (h.packet_length hq) }
  writeDone x a src n h hp hm hn :=
    { h with chunk := fun m hm' => ⟨h.done_le (by rw [hp]; rfl) hn hm', fun hc => (Bool.false_ne_true hc).elim⟩
             pin := fun p hpin => absurd hpin ((Ctx.msg_engine hm).1 p) }
  readDone x a len n r h hp hm hn := by
    refine { h with
      chunk := fun m hm' => ⟨h.done_le (by rw [hp]; rfl) hn hm', fun hc => (Bool.false_ne_true hc).elim⟩
      dst := by simpa using h.dst
      dstWf := fun m hmem => ?_
      pin := fun p hpin => absurd hpin ((Ctx.msg_engine hm).1 p) }
    rcases List.mem_or_eq_of_mem_set hmem with hmem | rfl
    · exact h.dstWf m hmem
    · refine Memory.wf_putBytes ?_ _ _
      have hi : x.idx < x.dst.length := h.dst ▸ (Ctx.msg_some hm).2
      simpa [List.getD_eq_getElem?_getD, hi] using h.dstWf _ (List.getElem_mem hi)
  initIdx x k h hf he hk := by
    have ho := engineOf_init he
    refine { h with
      idx := fun hi => by simp [he] at hi
      idxInit := fun _ => hk
      chunk := fun m hm => by simp [Ctx.msg, ho, msgsOf] at hm
      pin := fun p hp => by simp [ho, checkedPin] at hp }

/-- A context just admitted is within its bounds. -/
theorem newCtx_bounded {op : Instr} (hw : op.wf = true) {given : List Memory} (hd : ∀ m ∈ given, Memory.wf m) :
    (newCtx op (dstFor op given)).Bounded where
  op := hw
  idx _ := Nat.zero_le _
  idxInit _ := Nat.zero_le _
  n _ hn := by cases hn
  pkt := Nat.zero_le _
  chunk m _ := ⟨Nat.zero_le _, fun hc => (Bool.false_ne_true hc).elim⟩
  dst := by simp [dstFor]
  dstWf m hm := by
    simp only [newCtx_dst, dstFor, List.mem_map] at hm
    obtain ⟨j, -, rfl⟩ := hm
    by_cases hj : j < given.length
    · simpa [List.getD_eq_getElem?_getD, hj] using hd _ (List.getElem_mem hj)
    · simp [List.getD_eq_getElem?_getD, hj]
  pin _ _ ha := absurd rfl ha

/-- The pin operand of a context past its pin check is in range (42_gpio.md R112). -/
def Ctx.PinChecked (x : Ctx) : Prop :=
  ∀ p, checkedPin x.op = some p → x.phase ≠ .admitting → x.phase.isFinal = false → pinOk p = true

/-- A frame formed for a checked pin keeps to its eleven bytes. -/
theorem below_gpioFrameOf {op : Instr} {s : State} {g : Memory} (hs : Memory.below Config.gpioFrameLen s.gpo)
    (hp : ∀ p, checkedPin op = some p → pinOk p = true) (hg : gpioFrameOf op s = .ok g) :
    Memory.below Config.gpioFrameLen g := by
  have h11 : Config.gpioFrameLen = 11 := rfl
  obtain ⟨reqs, rfl, hq⟩ := gpioFrameOf_cases hg
  refine below_applyPins (Memory.below_putBytes hs (by simp [h11])) fun q hm => ?_
  rcases hq q hm with h | ⟨p, hpin, h⟩
  · omega
  · have : p.toNat < 8 := of_decide_eq_true (hp p hpin)
    omega

/-- Every effect keeps the frame to its eleven bytes, and every pin operand checked. -/
theorem Effect.gpo_below {c : Nat} {s s' : State} (h : Effect c s s') (hm : s.MutexInv)
    (hg : Memory.below Config.gpioFrameLen s.gpo) (hp : AllCtx Ctx.PinChecked s) :
    Memory.below Config.gpioFrameLen s'.gpo ∧ AllCtx Ctx.PinChecked s' := by
  refine ⟨?_, fun d y hy => ?_⟩
  · cases h with
    | frame hx hph hf => exact below_gpioFrameOf hg (fun p hpin => hp c _ hx p hpin (by simp [hph]) (by rw [hph]; rfl)) hf
    | _ => exact hg
  · rcases h.ctx_before hm hy with hx | ⟨-, x, hx, hc⟩
    · exact hp d y hx
    · intro p hpin ha hf
      rw [hc.op] at hpin
      by_cases hxa : x.phase = .admitting
      · exact hc.pins hxa ha hf p hpin
      · exact hp d x hx p hpin hxa hc.live

/-- GPO keeps to its eleven bytes (20_memory.md R44). -/
theorem step_gpo_below {s t : State} (hm : s.MutexInv) (hi : s.ContextInv) (he : step s = .next t) :
    Memory.below Config.gpioFrameLen t.gpo :=
  (step_keeps_mutex (P := fun u => Memory.below Config.gpioFrameLen u.gpo ∧ AllCtx Ctx.PinChecked u) hm
    (fun u hu => ⟨by rw [hu.same.gpo]; exact hi.gpoSize, fun d y hy => by
      rcases hu.ctx_before hy with hx | ⟨op, rfl⟩ | rfl
      · exact (hi.ctxs d y hx).pin
      · exact fun _ _ ha => absurd rfl ha
      · exact fun _ hpin => by cases hpin⟩)
    (fun _ _ hu h hf => hf.gpo_below hu h.1 h.2) he).1

/-- A step takes the DST buffers waiting, or leaves them. -/
theorem dstPort_closed (s : State) : Closed fun t => t.dstPort = s.dstPort ∨ t.dstPort = [] where
  move _ := by constructor <;> (intros; assumption)
  inputs _ _ _ _ h := h
  admitOp _ _ _ := .inr rfl

/-- Settles O19: every change of a context keeps its bounds, and a frame is formed only for a pin that was checked. -/
theorem stepKeepsContextBounds : Obligations.StepKeepsContextBounds := by
  intro s t hm hi he
  refine ⟨by rw [(historyOnlyGrows s t he).1]; exact hi.cfg, step_gpo_below hm hi he, ?_, fun m hmem => ?_⟩
  · refine (bounded_kept hi.cfg).step hm hi.ctxs (fun op hw _ => newCtx_bounded hw hi.dstPort) ?_ he
    exact (bounded_kept hi.cfg).finish _ _ (newCtx_bounded (op := .teardown) rfl hi.dstPort) rfl rfl
  · rcases (dstPort_closed s).step (.inl rfl) he with h | h <;> rw [h] at hmem
    · exact hi.dstPort m hmem
    · cases hmem

end Sys2Proof.Machine
end

section
/-! PROOFS. What no context is needed for: the frame's header and control bytes and the scratch buffers, each kept by the shared
updates alone; and what the rules of the I2C engine leave alone. -/

namespace Sys2Proof.Machine

/-! ## The frame -/

/-- Forming a frame leaves its header alone (10_state.md R33). -/
theorem header_closed (m : Memory) {a : Nat} (ha : a < 3) : Closed fun t => t.gpo.byteAt a = m.byteAt a where
  move _ := by
    constructor
    case frame =>
      intro s op g h hg
      obtain ⟨reqs, rfl, -⟩ := gpioFrameOf_cases hg
      exact (byteAt_applyPins_header ha).trans ((byteAt_clearPins_header s.gpo ha).trans h)
    all_goals (intros; assumption)
  inputs _ _ _ _ h := h
  admitOp _ _ h := h

theorem step_header {s t : State} {a : Nat} (ha : a < 3) (he : step s = .next t) : t.gpo.byteAt a = s.gpo.byteAt a :=
  (header_closed s.gpo ha).step rfl he

/-- Settles O14: no step changes a header byte. -/
theorem frameHeaderNeverChanges : Obligations.FrameHeaderNeverChanges := by
  refine ⟨by decide, fun s t h he => ?_, fun s t a ha he => step_header ha he⟩
  rw [Memory.bytesAt_congr fun i hi => step_header (by omega) he]
  exact h

/-- The control bytes of a frame are unwritten or ones the block writes (10_state.md R32). -/
def PinBytes (g : Memory) : Prop := ∀ p, p < 8 → g.byteAt (3 + p) = none ∨ ∃ pc : PinCtl, g.byteAt (3 + p) = some pc.byte

/-- Clearing the pins leaves every one alone. -/
theorem pinBytes_clearPins (g : Memory) : PinBytes (clearPins g) := fun p hp =>
  .inr ⟨.leave, by
    rw [clearPins, Memory.byteAt_putBytes, if_pos (by simp only [List.length_replicate]; omega), Nat.add_sub_cancel_left,
      List.getElem?_replicate_of_lt hp]
    rfl⟩

/-- Requesting a pin writes a control byte. -/
theorem pinBytes_applyPin {g : Memory} (h : PinBytes g) (q : Nat) (d v : Bool) : PinBytes (applyPin g q d v) := fun p hp => by
  by_cases hq : q = p
  · subst hq
    exact .inr ⟨.apply d v, Memory.byteAt_put_self _ _ _⟩
  · rw [applyPin, Memory.byteAt_put_ne _ _ (by omega)]
    exact h p hp

theorem pinBytes_applyPins {g : Memory} (h : PinBytes g) (reqs : List PinRequest) : PinBytes (applyPins g reqs) := by
  induction reqs generalizing g with
  | nil => exact h
  | cons q reqs ih => exact ih (pinBytes_applyPin h _ _ _)

theorem pins_closed : Closed State.GpoPinsInv where
  move _ := by
    constructor
    case frame =>
      intro s op g _ hg
      obtain ⟨reqs, rfl, -⟩ := gpioFrameOf_cases hg
      exact pinBytes_applyPins (pinBytes_clearPins s.gpo) reqs
    all_goals (intros; assumption)
  inputs _ _ _ _ h := h
  admitOp _ _ h := h

/-- Settles O15: every frame formed has its pins cleared and some requested. -/
theorem stepKeepsControlBytes : Obligations.StepKeepsControlBytes := fun _ _ hi he => pins_closed.step hi he

/-! ## The scratch buffers -/

theorem buffers_closed : Closed State.BufferInv where
  move _ :=
    { modCtx := fun _ _ h => { h with }
      lock := fun _ _ h => { h with }
      opened := fun _ h => { h with }
      sent := fun _ _ _ h _ ho _ =>
        { h with outbuf := Memory.wf_putBytes h.outbuf _ _
                 outbufSize := Memory.below_putBytes h.outbufSize (by omega) }
      recvFail := fun _ _ _ _ h _ ho _ =>
        { h with outbuf := Memory.wf_putBytes h.outbuf _ _
                 outbufSize := Memory.below_putBytes h.outbufSize (by omega) }
      recv := fun _ _ _ _ _ h _ ho hr _ =>
        { h with outbuf := Memory.wf_putBytes h.outbuf _ _
                 outbufSize := Memory.below_putBytes h.outbufSize (by omega)
                 inbuf := Memory.wf_putBytes h.inbuf _ _
                 inbufSize := Memory.below_putBytes h.inbufSize (by omega) }
      dropMirror := fun _ h => { h with gpi := List.Pairwise.nil }
      setMirror := fun _ _ h => { h with gpi := Memory.wf_putBytes h.gpi _ _ }
      frame := fun s op g h hg => by
        obtain ⟨reqs, rfl, -⟩ := gpioFrameOf_cases hg
        exact { h with gpo := wf_applyPins (Memory.wf_putBytes h.gpo _ _) reqs }
      host := fun _ _ _ _ _ h => { h with } }
  inputs _ _ _ _ h := { h with }
  admitOp _ _ h := { h with }

/-- A length field that says how many bytes were just written at the front of its buffer. -/
theorem length_known {m : Memory} {bs : Bytes} (hb : bs.length ≤ Config.scratchLen) {n : Nat} (hn : some bs.length = some n) :
    n ≤ Config.scratchLen ∧ ∃ r, (m.putBytes 0 bs).bytesAt 0 n = some r := by
  cases hn
  exact ⟨hb, bs, Memory.bytesAt_putBytes_self _ _ _⟩

theorem lengths_closed : Closed State.LengthInv where
  move _ :=
    { modCtx := fun _ _ h => ⟨h.out, h.inn⟩
      lock := fun _ _ h => ⟨h.out, h.inn⟩
      opened := fun _ h => ⟨h.out, h.inn⟩
      sent := fun _ _ _ h _ ho _ => ⟨fun _ => length_known ho, h.inn⟩
      recvFail := fun _ _ _ _ h _ ho _ => ⟨fun _ => length_known ho, h.inn⟩
      recv := fun _ _ _ _ _ _ _ ho hr _ => ⟨fun _ => length_known ho, fun _ => length_known hr⟩
      dropMirror := fun _ h => ⟨h.out, h.inn⟩
      setMirror := fun _ _ h => ⟨h.out, h.inn⟩
      frame := fun _ _ _ h _ => ⟨h.out, h.inn⟩
      host := fun _ _ _ _ _ h => ⟨h.out, h.inn⟩ }
  inputs _ _ _ _ h := ⟨h.out, h.inn⟩
  admitOp _ _ h := ⟨h.out, h.inn⟩

/-- Once a packet is handed to Send it is the last one, and stands in OUTBUF (10_state.md R30). -/
theorem lastPacket_record {s : State} {e : Exch} {o : Bytes} (he : e.sent = o) (hl : s.outlen = some o.length)
    (hb : s.outbuf.bytesAt 0 o.length = some o) : (s.record e).LastPacketInv := by
  subst he
  refine ⟨fun h => absurd h (List.concat_ne_nil _ _), fun e' h => ?_⟩
  rw [show (s.record e).hist = s.hist ++ [e] from rfl, List.getLast?_concat] at h
  cases h
  exact ⟨hl, hb⟩

theorem lastPacket_closed : Closed State.LastPacketInv where
  move _ :=
    { modCtx := fun _ _ h => ⟨h.none_, h.some_⟩
      lock := fun _ _ h => ⟨h.none_, h.some_⟩
      opened := fun _ h => ⟨h.none_, h.some_⟩
      sent := fun _ _ _ _ _ _ he => lastPacket_record he rfl (Memory.bytesAt_putBytes_self _ _ _)
      recvFail := fun _ _ _ _ _ _ _ he => lastPacket_record he rfl (Memory.bytesAt_putBytes_self _ _ _)
      recv := fun _ _ _ _ _ _ _ _ _ he => lastPacket_record he rfl (Memory.bytesAt_putBytes_self _ _ _)
      dropMirror := fun _ h => ⟨h.none_, h.some_⟩
      setMirror := fun _ _ h => ⟨h.none_, h.some_⟩
      frame := fun _ _ _ h _ => ⟨h.none_, h.some_⟩
      host := fun _ _ _ _ _ h => ⟨h.none_, h.some_⟩ }
  inputs _ _ _ _ h := ⟨h.none_, h.some_⟩
  admitOp _ _ h := ⟨h.none_, h.some_⟩

/-- Settles O16: the buffers are written by exchanges only, from their front and within their bounds. -/
theorem stepKeepsBuffers : Obligations.StepKeepsBuffers := fun _ _ he =>
  ⟨fun h => buffers_closed.step h he, fun h => lengths_closed.step h he, fun h => lastPacket_closed.step h he⟩

/-! ## What the I2C engine leaves alone -/

/-- From `s` to `t` OUTBUF is unchanged past the longest packet and INBUF past its 512 bytes (41_i2c.md R106). -/
structure BuffersPast (s t : State) : Prop where
  out : ∀ a, 68 ≤ a → t.outbuf.byteAt a = s.outbuf.byteAt a
  inn : ∀ a, 512 ≤ a → t.inbuf.byteAt a = s.inbuf.byteAt a

theorem BuffersPast.refl (s : State) : BuffersPast s s := ⟨fun _ _ => rfl, fun _ _ => rfl⟩

theorem BuffersPast.trans {s t u : State} (h1 : BuffersPast s t) (h2 : BuffersPast t u) : BuffersPast s u :=
  ⟨fun a ha => (h2.out a ha).trans (h1.out a ha), fun a ha => (h2.inn a ha).trans (h1.inn a ha)⟩

/-- An exchange of a packet within the bound of R106. -/
theorem bulk_buffersPast {s s1 : State} {c m : Nat} {o : Bytes} {ans : Except Err Bytes} (ho : o.length ≤ 68) (hm : m ≤ 512)
    (h : s.bulk c o m = (s1, ans)) : BuffersPast s s1 := by
  have hout : ∀ a, 68 ≤ a → (s.outbuf.putBytes 0 o).byteAt a = s.outbuf.byteAt a := fun a ha =>
    Memory.byteAt_putBytes_outside _ _ _ _ (by omega)
  unfold State.bulk at h
  split at h
  · split at h
    · cases h; exact ⟨hout, fun _ _ => rfl⟩
    · split at h
      · rename_i r hr
        have := recvDraw_ok hr
        cases h
        exact ⟨hout, fun a ha => Memory.byteAt_putBytes_outside _ _ _ _ (by omega)⟩
      · cases h; exact ⟨hout, fun _ _ => rfl⟩
  · cases h; exact ⟨hout, fun _ _ => rfl⟩

theorem writeLoop_buffersPast (c : Nat) (a : BitVec 7) (src : Bytes) {chs : List Chunk} {s : State}
    (hn : ∀ ch ∈ chs, ch.n ≤ if ch.first then 62 else 63) : BuffersPast s (writeLoop c a src chs s).1 := by
  induction chs generalizing s with
  | nil => exact .refl s
  | cons ch chs ih =>
    have hch := hn ch List.mem_cons_self
    have hlen := wpkt_length_le a src ch.off ch.n ch.first ch.last
    have ho : (wpkt a src ch.off ch.n ch.first ch.last).length ≤ 68 := by
      by_cases hf : ch.first = true
      · rw [if_pos hf] at hch hlen; omega
      · rw [if_neg hf] at hch hlen; omega
    have hm : writeReplyLen ch.n ch.first ≤ 512 := by unfold writeReplyLen; split at hch <;> split <;> omega
    simp only [writeLoop]
    split
    · rename_i hb
      exact ⟨(bulk_buffersPast ho hm hb).out, (bulk_buffersPast ho hm hb).inn⟩
    · rename_i hb
      have h1 := bulk_buffersPast ho hm hb
      split
      · exact ⟨h1.out, h1.inn⟩
      · split
        · exact ⟨h1.out, h1.inn⟩
        · exact h1.trans (ih fun ch' h' => hn ch' (List.mem_cons_of_mem _ h'))

theorem readLoop_buffersPast (c : Nat) (a : BitVec 7) {chs : List (Nat × Nat)} {dst : Memory} {s : State}
    (hw : s.cfg.wf = true) : BuffersPast s (readLoop c a chs dst s).1.1 := by
  induction chs generalizing s dst with
  | nil => exact .refl s
  | cons ch chs ih =>
    have ho : (rpkt s.cfg a ch.2).length ≤ 68 := (rpkt_length_le _ _ _).trans (by omega)
    have hm : s.cfg.maxSeg ≤ 512 := (legalConfig hw).segMax
    simp only [readLoop]
    split
    · exact bulk_buffersPast ho hm ‹_›
    · rename_i hb
      have h1 := bulk_buffersPast ho hm hb
      split
      · exact h1
      · split
        · exact h1
        · exact h1.trans (ih (by rw [(bulk_frame' hb).cfg]; exact hw))

theorem msgRule_buffersPast (c idx : Nat) (m : Msg) (dst : Memory) {s : State} (hw : s.cfg.wf = true) :
    BuffersPast s (msgRule c idx m dst s).1.1 := by
  cases m with
  | write a src => exact writeLoop_buffersPast c a src fun ch h => wchunks_bound hw h
  | read a len => exact readLoop_buffersPast c a hw
  | ten rd a len p => exact .refl s

theorem batchLoop_buffersPast (c : Nat) (ms : List Msg) {idx : Nat} {ds : List Memory} {s : State} (hw : s.cfg.wf = true) :
    BuffersPast s (batchLoop c idx ms ds s).1.1 := by
  induction ms generalizing idx ds s with
  | nil => exact .refl s
  | cons m ms ih =>
    have h1 := msgRule_buffersPast c idx m (ds.headD []) hw
    have hf := msgRule_frame c idx m (ds.headD []) s
    simp only [batchLoop]
    split
    · rename_i h; rw [h] at h1; exact h1
    · rename_i h
      rw [h] at h1 hf
      exact h1.trans (ih (by rw [hf.cfg]; exact hw))

/-- What the rule of an I2C operation leaves alone. -/
theorem i2cRule_frame (op : Instr) {s : State} (hw : s.cfg.wf = true) :
    BulkFrame s (i2cRule op s).1.1 ∧ BuffersPast s (i2cRule op s).1.1 := by
  unfold i2cRule
  split
  · exact ⟨BulkFrame.refl s, .refl s⟩
  · exact ⟨batchLoop_frame _ _ _ _ s, batchLoop_buffersPast _ _ hw⟩

/-- An I2C operation that goes on in a session that is ready was submitted. -/
theorem exec_i2c {s t : State} {op : Instr} (hr : s.Ready) (he : engineOf op = .i2c) (hx : exec op s = .next t) :
    submit op s = .next t := by
  have hn : engineRefusal s = none := by simp [engineRefusal, hr.cfg, hr.up]
  cases op <;> simp only [engineOf, reduceCtorEq] at he
  case i2cXfer msgs =>
    simp only [exec, execI2cXfer, hn] at hx
    split at hx
    · cases hx
    · exact hx
  all_goals
    simp only [exec, execI2cWrite, execI2cRead, execI2cMsgTen, submitAdmitted, hn] at hx
    exact hx

/-- Settles O47: an uninterrupted I2C operation does what its rule says, and the rule only makes exchanges. -/
theorem i2cOperationsLeaveTheRestAlone : Obligations.I2cOperationsLeaveTheRestAlone := by
  intro s t op hr he hx
  obtain ⟨x, hs, -, -⟩ := i2c_submit hr he
  obtain ⟨hf, hp⟩ := i2cRule_frame op hr.cfg
  cases (exec_i2c hr he hx).symm.trans hs
  exact ⟨hf.gpo, hf.gpi, hf.gpiValid, hf.sstate, hf.regHandle, hf.cfg, hf.lock, hf.hostLog, hf.regs, hf.port, hf.cur,
    hf.quanta, rfl, ⟨x, congrArg (· ++ [x]) hf.ctxs⟩, hp.out, hp.inn⟩

end Sys2Proof.Machine
end

section
/-! PROOFS. The state after reset meets the invariants. -/

namespace Sys2Proof.Machine

/-! ## Reset -/

/-- There is no engine context at reset (10_state.md R43). -/
theorem reset_noCtx {c : Nat} {x : Ctx} (h : State.reset.ctxs[c]? = some x) : False := by
  simp [State.reset, State.attach] at h

/-- A control byte is unwritten at reset (10_state.md R33). -/
theorem reset_pins : State.reset.GpoPinsInv := fun p _ => by
  left
  simp only [State.reset, State.attach, Memory.byteAt]
  rw [if_neg (by omega), if_neg (by omega), if_neg (by omega)]

theorem reset_buffers : State.reset.BufferInv where
  outbuf := List.Pairwise.nil
  inbuf := List.Pairwise.nil
  gpo := by decide
  gpi := List.Pairwise.nil
  outbufSize _ h := by cases h
  inbufSize _ h := by cases h

theorem reset_contexts : State.reset.ContextInv where
  cfg := rfl
  gpoSize := by unfold Memory.below; decide
  ctxs _ _ h := (reset_noCtx h).elim
  dstPort _ h := by cases h

theorem reset_mutex : State.reset.MutexInv where
  holder _ _ h := (reset_noCtx h).elim
  exists_ _ h := by cases h

theorem reset_lengths : State.reset.LengthInv where
  out _ h := by cases h
  inn _ h := by cases h

theorem reset_lastPacket : State.reset.LastPacketInv where
  none_ _ := rfl
  some_ _ h := by cases h

theorem reset_openTxn : State.reset.OpenTxnInv where
  packets h := by cases h
  aborted h := by cases h

theorem reset_mirror : State.reset.MirrorInv where
  invalid _ := rfl
  valid h := by cases h
  commit _ _ h := (reset_noCtx h).elim

theorem reset_lifecycle : State.reset.LifecycleInv where
  unique _ _ _ _ h := (reset_noCtx h).elim
  attached _ _ h := (reset_noCtx h).elim
  handle := ⟨fun h => absurd rfl h, fun h => by cases h⟩

/-- Settles O12: at reset there is no context, the lock is free, the buffers and the mirror are Unknown, and HIST is empty. -/
theorem resetMeetsTheInvariants : Obligations.ResetMeetsTheInvariants :=
  ⟨reset_mutex, frameHeaderNeverChanges.1, reset_pins, reset_buffers, reset_lengths, reset_lastPacket, reset_openTxn,
    reset_mirror, reset_contexts, fun _ _ h => (reset_noCtx h).elim, reset_lifecycle⟩

end Sys2Proof.Machine
end

section
/-! PROOFS. A turn of a context that waits for a held lock (20_memory.md R58, 40_transport.md R86). -/

namespace Sys2Proof.Machine

/-- A context that waits while another holds the lock has no move to make (40_transport.md R86). -/
theorem settled_waiting {s : State} {c d : Nat} {x : Ctx} (hx : s.ctxs[c]? = some x) (hp : x.phase = .waitLock)
    (hl : s.lock = .held d) (hd : d ≠ c) : settled c s = true := by
  simp [settled, hx, hp, hl, hd]

/-- A context with no move to make uses up its quantum, if the schedule holds one, and does nothing else
(notes/assumptions/29.md). -/
theorem runCtx_settled {s : State} {c : Nat} (h : settled c s = true) :
    runCtx c s = .ok { s with quanta := s.quanta.drop 1 } := by
  unfold runCtx
  split
  case h_1 q qs hq =>
    rw [hq]
    exact drive_settled (s := { s with quanta := qs }) h q
  case h_2 hq =>
    have hs : ({ s with quanta := s.quanta.drop 1 } : State) = s := by rw [hq, List.drop_nil, ← hq]
    rw [hs]
    split
    · rfl
    · exact drive_settled h _

/-- A step whose command is a turn runs the named context on (notes/assumptions/4.md). -/
theorem step_turn {s : State} {c : Nat} {rest : List Command} (hp : s.port = .turn c :: rest) :
    step s = toOutcome (runCtx c { s with port := rest }) := by
  rw [step, hp]
  rfl

/-- Settles O25: a waiting context is settled, so its turn only spends the command and the quantum. -/
theorem waitingContextHasNoStep : Obligations.WaitingContextHasNoStep := by
  intro s c d x rest hport hx hphase hlock hd
  have hset : settled c { s with port := rest } = true := settled_waiting hx hphase hlock hd
  rw [step_turn hport, runCtx_settled hset]
  rfl

end Sys2Proof.Machine
end

section
/-! PROOFS. The encodings (30_encoding.md R62 to R84): a sub-command, a GPIO frame, a request and a record are each read back
from their bytes, and what a decoder reads is what the encoder writes. -/

namespace Sys2Proof

/-! ## Sub-commands -/

/-- A sub-command of a packet (30_encoding.md R63): a wire row other than the stream marker and the GPIO frame. -/
def Instr.IsSub (i : Instr) : Prop := (i.format = .wireB ∧ i ≠ .stream) ∨ i.format = .wireL

/-- The sub-commands, row by row. -/
theorem Instr.IsSub.cases {i : Instr} (h : i.IsSub) : i = .start ∨ i = .stop ∨ i = .endPkt ∨ (∃ sp, i = .setSpeed sp) ∨
    (∃ data, i = .outSub data) ∨ ∃ n, i = .inSub n := by
  cases i <;> simp [Instr.IsSub, Instr.format] at h ⊢

/-- A well-formed sub-command reads back, whatever follows it. -/
theorem decodeSub_encode {i : Instr} (hw : i.wf = true) (hs : i.IsSub) (rest : Bytes) :
    decodeSub (encode i ++ rest) = some (i, rest) := by
  rcases hs.cases with rfl | rfl | rfl | ⟨sp, rfl⟩ | ⟨data, rfl⟩ | ⟨n, rfl⟩
  · exact decodeSub_start rest
  · exact decodeSub_stop rest
  · exact decodeSub_end rest
  · exact decodeSub_setSpeed (Instr.wf_setSpeed.mp hw) rest
  · exact decodeSub_out (Instr.wf_outSub.mp hw) rest
  · have h := decodeSub_in (Nat.le_of_lt_succ n.isLt) rest
    rwa [BitVec.ofNat_toNat, BitVec.setWidth_eq] at h

/-- A bare sub-command byte is what the encoder writes. -/
theorem encode_decodeWireB {b : Byte} {i : Instr} (h : decodeWireB b = some i) :
    encode i = [b] ∧ i.wf = true ∧ i.format = .wireB ∧ i ≠ .stream := by
  unfold decodeWireB at h
  split at h
  · cases h; subst b; decide
  · split at h
    · cases h; subst b; decide
    · split at h
      · cases h; subst b; decide
      · split at h
        · rename_i hb
          cases h
          have key : ∀ b : Byte, 0x60 ≤ b.toNat ∧ b.toNat ≤ 0x73 →
              setSpeedByte (b.setWidth 5) = b ∧ (b.setWidth 5).toNat ≤ 19 := by decide
          exact ⟨by rw [encode, (key b hb).1], Instr.wf_setSpeed.mpr (key b hb).2, rfl, by simp⟩
        · cases h

/-- A length-carrying sub-command is what the encoder writes. -/
theorem encode_decodeWireL {b : Byte} {bs rest : Bytes} {i : Instr} (h : decodeWireL b bs = some (i, rest)) :
    encode i ++ rest = b :: bs ∧ i.wf = true ∧ i.format = .wireL := by
  have hn : b.toNat % 64 ≤ 63 := by omega
  simp only [decodeWireL] at h
  split at h
  · rename_i hb
    split at h <;> cases h
    rename_i hl
    have hlen : (bs.take (b.toNat % 64)).length = b.toNat % 64 := List.length_take_of_le hl
    have hbyte : outByte (b.toNat % 64) = b := byte_ext (by rw [outByte_toNat hn]; omega)
    refine ⟨?_, Instr.wf_outSub.mpr (by omega), rfl⟩
    rw [encode, hlen, hbyte, List.cons_append, List.take_append_drop]
  · split at h <;> cases h
    rename_i hb
    have hbyte : inByte (b.toNat % 64) = b := byte_ext (by rw [inByte_toNat hn]; omega)
    refine ⟨?_, rfl, rfl⟩
    rw [encode, BitVec.toNat_ofNat, Nat.mod_eq_of_lt (show b.toNat % 64 < 2 ^ 6 by omega), hbyte]
    rfl

/-- What stands in sub-command position is read by its format's own decoder. -/
theorem decodeSub_cons {b : Byte} {bs rest : Bytes} {i : Instr} (h : decodeSub (b :: bs) = some (i, rest)) :
    decodeWireL b bs = some (i, rest) ∨ (decodeWireB b = some i ∧ rest = bs) := by
  simp only [decodeSub] at h
  split at h
  · rename_i hl
    cases h
    exact .inl hl
  · obtain ⟨j, hj, he⟩ := Option.map_eq_some_iff.mp h
    cases he
    exact .inr ⟨hj, rfl⟩

/-- What is read in sub-command position is a well-formed sub-command, and what the encoder writes. -/
theorem encode_decodeSub {bs rest : Bytes} {i : Instr} (h : decodeSub bs = some (i, rest)) :
    encode i ++ rest = bs ∧ i.wf = true ∧ i.IsSub := by
  cases bs with
  | nil => cases h
  | cons b bs =>
    rcases decodeSub_cons h with hl | ⟨hb, rfl⟩
    · obtain ⟨he, hw, hf⟩ := encode_decodeWireL hl
      exact ⟨he, hw, .inr hf⟩
    · obtain ⟨he, hw, hf⟩ := encode_decodeWireB hb
      exact ⟨by rw [he]; rfl, hw, .inl hf⟩

/-! ## GPIO frames -/

theorem byte_decodePins {bs : Bytes} {pins : List PinCtl} (h : decodePins bs = some pins) : pins.map PinCtl.byte = bs := by
  induction bs generalizing pins with
  | nil => cases h; rfl
  | cons b bs ih =>
    simp only [decodePins] at h
    split at h
    · rename_i hp hps
      cases h
      rw [List.map_cons, pinCtl_forth hp, ih hps]
    · cases h

/-- A decoded GPIO frame is what the encoder writes. -/
theorem encode_decodeWireG {bs : Bytes} {i : Instr} (h : decodeWireG bs = some i) : encode i = bs ∧ i.wf = true := by
  unfold decodeWireG at h
  split at h
  · rename_i hbs
    obtain ⟨hhead, hlen⟩ := hbs
    obtain ⟨pins, hpins, rfl⟩ := Option.map_eq_some_iff.mp h
    have hb := byte_decodePins hpins
    constructor
    · rw [encode, hb, ← hhead, List.take_append_drop]
    · have := congrArg List.length hb
      rw [List.length_map, List.length_drop, hlen] at this
      exact Instr.wf_gpioFrame.mpr this
  · cases h

/-! ## Requests and records -/

theorem decodeRequest_encode {i : Instr} (hw : i.wf = true) (hf : i.format = .req) : decodeRequest (encode i) = some i := by
  have h := decodeRequestPrefix_encode hw hf []
  rw [List.append_nil] at h
  rw [decodeRequest, h]
  rfl

theorem encode_decodeRequest {bs : Bytes} {i : Instr} (h : decodeRequest bs = some i) :
    encode i = bs ∧ i.wf = true ∧ i.format = .req := by
  obtain ⟨he, hw, hf⟩ := encode_decodeRequestPrefix (Machine.whole_some h)
  exact ⟨by rw [he, List.append_nil], hw, hf⟩

/-- A record as an instruction has the record's bytes and well-formedness. -/
theorem encode_toInstr (m : Msg) : encode m.toInstr = encodeMsg m ∧ m.toInstr.wf = m.wf ∧ m.toInstr.format = .msg := by
  cases m <;> exact ⟨rfl, rfl, rfl⟩

theorem decodeRecord_encode {m : Msg} (hw : m.wf = true) : decodeRecord (encodeMsg m) = some m.toInstr := by
  have h := decodeMsg_encodeMsg hw []
  rw [List.append_nil] at h
  rw [decodeRecord, h]
  rfl

theorem encode_decodeRecord {bs : Bytes} {i : Instr} (h : decodeRecord bs = some i) :
    encode i = bs ∧ i.wf = true ∧ i.format = .msg := by
  obtain ⟨m, hm, rfl⟩ := Option.map_eq_some_iff.mp h
  obtain ⟨he, hw⟩ := encodeMsg_decodeMsg (Machine.whole_some hm)
  obtain ⟨h1, h2, h3⟩ := encode_toInstr m
  exact ⟨by rw [h1, he, List.append_nil], h2.trans hw, h3⟩

/-! ## Each format's decoder -/

/-- The instructions of the record format are the message records. -/
theorem eq_toInstr_of_msg {i : Instr} (hf : i.format = .msg) : ∃ m : Msg, i = m.toInstr := by
  cases i <;> simp only [Instr.format, reduceCtorEq] at hf
  case i2cWrite a src => exact ⟨.write a src, rfl⟩
  case i2cRead a len => exact ⟨.read a len, rfl⟩
  case i2cMsgTen rd a len p => exact ⟨.ten rd a len p, rfl⟩

/-- The decoder of its format reads a sub-command back. -/
theorem decodeAs_sub {i : Instr} (hw : i.wf = true) (hs : i.IsSub) : decodeAs i.format (encode i) = some i := by
  have h := decodeSub_encode hw hs []
  rw [List.append_nil] at h
  generalize encode i = bs at h
  cases bs with
  | nil => cases h
  | cons b bs =>
    rcases decodeSub_cons h with hl | ⟨hb, rfl⟩
    · rw [(encode_decodeWireL hl).2.2, decodeAs, hl]
      rfl
    · have hne : b ≠ streamByte := fun hb' => by subst hb'; cases hb
      rw [(encode_decodeWireB hb).2.2.1, decodeAs, if_neg hne, hb]

/-- Settles O3: by the decoder of each format, which reads its rows back from their bytes. -/
theorem encodeThenDecodeIsIdentity : Obligations.EncodeThenDecodeIsIdentity := by
  intro i hw hint
  cases hf : i.format with
  | req => exact decodeRequest_encode hw hf
  | msg =>
    obtain ⟨m, rfl⟩ := eq_toInstr_of_msg hf
    obtain ⟨he, hm, -⟩ := encode_toInstr m
    rw [he]
    exact decodeRecord_encode (hm.symm.trans hw)
  | wireB =>
    by_cases hstream : i = .stream
    · subst hstream; rfl
    · exact hf ▸ decodeAs_sub hw (.inl ⟨hf, hstream⟩)
  | wireL => exact hf ▸ decodeAs_sub hw (.inr hf)
  | wireG =>
    cases i <;> simp only [Instr.format, reduceCtorEq] at hf
    exact decodeWireG_frame (Instr.wf_gpioFrame.mp hw)
  | internal => exact absurd hf hint

/-- Settles O4: each decoder inverted, the request's and the record's on the whole of the bytes. -/
theorem decodeThenEncodeIsIdentity : Obligations.DecodeThenEncodeIsIdentity :=
  ⟨fun _ _ h => encode_decodeRequest h, fun _ _ h => encode_decodeRecord h,
    fun _ _ _ h => ⟨(encode_decodeSub h).1, (encode_decodeSub h).2.1⟩, fun _ _ h => encode_decodeWireG h⟩

end Sys2Proof
end

section
/-! PROOFS. The invalid descriptors (30_encoding.md R83): what decodes is the encoding of a well-formed request, so bytes that no
encoding has are refused. -/

namespace Sys2Proof

/-! ## Requests that decode -/

/-- The first byte of a request is one of the ten selectors. -/
theorem encode_req_selector {i : Instr} (hf : i.format = .req) {op : Byte} {tl : Bytes} (h : encode i = op :: tl) :
    1 ≤ op.toNat ∧ op.toNat ≤ 10 := by
  cases i <;> simp only [Instr.format, reduceCtorEq] at hf
  all_goals
    cases h
    decide

/-- The third byte of GPIO_WRITE and GPIO_DIR_OUTPUT is a `val`. -/
theorem encode_req_val {i : Instr} (hf : i.format = .req) {op pin v : Byte} {tl : Bytes} (ho : op = 0x04 ∨ op = 0x07)
    (h : encode i = op :: pin :: v :: tl) : v = 0 ∨ v = 1 := by
  have hbit : ∀ b, bitByte b = 0 ∨ bitByte b = 1 := by decide
  cases i <;> simp only [Instr.format, reduceCtorEq] at hf
  case gpioWrite p b => cases h; exact hbit b
  case gpioDirOutput p b => cases h; exact hbit b
  all_goals exact absurd ho (by rw [← (List.cons.inj h).1]; decide)

/-- The second byte of I2C_XFER, its number of messages, is not 0. -/
theorem encode_req_count {i : Instr} (hf : i.format = .req) (hw : i.wf = true) {k : Byte} {tl : Bytes}
    (h : encode i = 0x01 :: k :: tl) : k ≠ 0 := by
  cases i <;> simp only [Instr.format, reduceCtorEq] at hf
  case i2cXfer ms =>
    obtain ⟨h1, h2, -⟩ := Instr.wf_i2cXfer.mp hw
    cases h
    intro hk
    have hk0 : ms.length % 256 = 0 := congrArg BitVec.toNat hk
    omega
  all_goals cases h

/-- Bytes that are the encoding of no well-formed request are refused. -/
theorem decodeRequest_none {bs : Bytes} (h : ∀ i : Instr, i.wf = true → i.format = .req → encode i ≠ bs) :
    decodeRequest bs = none := by
  cases hd : decodeRequest bs with
  | none => rfl
  | some i =>
    obtain ⟨he, hw, hf⟩ := encode_decodeRequest hd
    exact absurd he (h i hw hf)

/-! ## Records that do not decode -/

/-- A record with FLAGS bits 7:2 set, or with ADDR bit 7 set while TEN = 0, is refused. -/
theorem decodeMsg_none {flags addr lo hi : Byte} {rest : Bytes}
    (h : 4 ≤ flags.toNat ∨ (flags.toNat < 2 ∧ addr.msb = true)) : decodeMsg (flags :: addr :: lo :: hi :: rest) = none := by
  cases hd : decodeMsg (flags :: addr :: lo :: hi :: rest) with
  | none => rfl
  | some r =>
    obtain ⟨m, tl⟩ := r
    have he := (encodeMsg_decodeMsg hd).1
    cases m with
    | write a src => cases he; simp [addr_msb] at h
    | read a len => cases he; simp [addr_msb] at h
    | ten rd a len p => cases he; cases rd <;> simp [bitByte] at h

/-- Records that read back leave the decoder at what follows them. -/
theorem decodeMsgs_append {ms : List Msg} (h : ms.all Msg.wf = true) (k : Nat) (rest : Bytes) :
    decodeMsgs (ms.length + k) (ms.flatMap encodeMsg ++ rest) = (decodeMsgs k rest).map fun r => (ms ++ r.1, r.2) := by
  induction ms with
  | nil => simp
  | cons m ms ih =>
    simp only [List.all_cons, Bool.and_eq_true] at h
    obtain ⟨hm, hms⟩ := h
    rw [List.length_cons, Nat.add_right_comm, List.flatMap_cons, List.append_assoc, decodeMsgs, decodeMsg_encodeMsg hm]
    simp only [ih hms, Option.map_map]
    rfl

/-- A batch is refused when one of its `K` records, after some that read back, does not decode. -/
theorem decodeRequest_badRecord {k : Byte} {ms : List Msg} {rest : Bytes} (hms : ms.all Msg.wf = true)
    (hk : ms.length < k.toNat) (h : decodeMsg rest = none) :
    decodeRequest (0x01 :: k :: (ms.flatMap encodeMsg ++ rest)) = none := by
  obtain ⟨j, hj⟩ : ∃ j, k.toNat = ms.length + (j + 1) := ⟨k.toNat - ms.length - 1, by omega⟩
  have hd : decodeMsgs k.toNat (ms.flatMap encodeMsg ++ rest) = none := by
    rw [hj, decodeMsgs_append hms, decodeMsgs, h]
    rfl
  simp only [decodeRequest, decodeRequestPrefix, if_true, hd, Option.map_none, ite_self]
  rfl

/-! ## Cut short, or with bytes left over -/

/-- No encoding of a request is the front of another's bytes. -/
theorem encode_req_prefix {i j : Instr} (hi : i.wf = true) (hfi : i.format = .req) (hj : j.wf = true)
    (hfj : j.format = .req) (h : encode j <+: encode i) : encode j = encode i := by
  obtain ⟨tl, htl⟩ := h
  have h1 := decodeRequestPrefix_encode hj hfj tl
  have h2 := decodeRequestPrefix_encode hi hfi []
  rw [List.append_nil, ← htl, h1] at h2
  cases h2
  rfl

/-- Every message of a well-formed request is at most `MAX_XFER_LEN` long. -/
theorem msgsOf_length_le {i : Instr} (hf : i.format = .req) (hw : i.wf = true) {m : Msg} (hm : m ∈ Machine.msgsOf i) :
    m.length ≤ Config.maxXferLen := by
  cases i <;> simp only [Instr.format, reduceCtorEq] at hf
  case i2cXfer ms =>
    have hmw := (Instr.wf_i2cXfer.mp hw).2.2 m hm
    cases m with
    | write a src => exact Msg.wf_write.mp hmw
    | read a len => exact Msg.wf_read.mp hmw
    | ten rd a len p => exact (Msg.wf_ten.mp hmw).1
  all_goals cases hm

/-- Settles O5: each invalid form is the encoding of no well-formed request, or holds a record that does not decode. -/
theorem invalidDescriptorsAreRefused : Obligations.InvalidDescriptorsAreRefused := by
  refine ⟨fun op rest ho => ?_, fun op pin v rest ho h0 h1 => ?_, fun rest => ?_, fun k ms flags addr lo hi rest hms hk hbad => ?_,
    fun i bs hw hf hp hne => ?_, fun i extra hw hf hne => ?_, fun bs i hd m hm => ?_, fun s bs rest hport hd => ?_⟩
  · refine decodeRequest_none fun i _ hf he => ?_
    have := encode_req_selector hf he
    rcases ho with rfl | ho
    · exact absurd this.1 (by decide)
    · omega
  · exact decodeRequest_none fun i _ hf he => (encode_req_val hf ho he).elim h0 h1
  · exact decodeRequest_none fun i hw hf he => encode_req_count hf hw he rfl
  · exact decodeRequest_badRecord hms hk (decodeMsg_none hbad)
  · refine decodeRequest_none fun j hwj hfj he => hne ?_
    subst he
    exact encode_req_prefix hw hf hwj hfj hp
  · refine decodeRequest_none fun j hwj hfj he => hne ?_
    have := encode_req_prefix hwj hfj hw hf ⟨extra, he.symm⟩
    rw [← this] at he
    exact List.self_eq_append_right.mp he
  · obtain ⟨-, hw, hf⟩ := encode_decodeRequest hd
    exact msgsOf_length_le hf hw hm
  · rw [Machine.step, hport]
    simp only [Machine.stepCommand, Machine.fetchInstr, hd]

end Sys2Proof
end

section
/-! PROOFS. Packets (30_encoding.md R62, R75): a packet written from sub-commands decodes to them, the block's builders write such
packets, and a packet begun takes one sub-command after another up to its END. -/

namespace Sys2Proof

/-- A sub-command has a byte. -/
theorem encode_sub_length_pos {i : Instr} (hw : i.wf = true) (hs : i.IsSub) : 0 < (encode i).length := by
  have h := decodeSub_encode hw hs []
  rw [List.append_nil] at h
  exact List.length_pos_iff.mpr fun hn => by rw [hn] at h; cases h

/-! ## Written packets -/

/-- A sub-command the packet decoder takes before END (30_encoding.md R75). -/
structure Instr.InBody (speed : Fin 20) (i : Instr) : Prop where
  wf : i.wf = true
  sub : i.IsSub
  notEnd : i ≠ .endPkt
  code : ∀ s, i = .setSpeed s → s.toNat = speed.val

/-- The packet of a list of sub-commands: the marker, their bytes, and END (30_encoding.md R62). -/
def packetOf (is : List Instr) : Bytes := streamByte :: (is.flatMap encode ++ [endByte])

/-- The body loop takes one sub-command (30_encoding.md R75). -/
theorem decodeBody_encode {speed : Fin 20} {i : Instr} (hi : i.InBody speed) (fuel : Nat) (rest : Bytes) :
    decodeBody speed (fuel + 1) (encode i ++ rest) = (decodeBody speed fuel rest).map (i :: ·) := by
  have h := decodeSub_encode hi.wf hi.sub rest
  by_cases hs : ∃ s, i = .setSpeed s
  · obtain ⟨s, rfl⟩ := hs
    simp only [decodeBody, h, hi.code s rfl, if_true]
  · exact decodeBody_sub h hi.notEnd fun s he => hs ⟨s, he⟩

theorem decodeBody_packet {speed : Fin 20} {is : List Instr} (h : ∀ i ∈ is, i.InBody speed) (fuel : Nat)
    (hf : (is.flatMap encode).length < fuel) : decodeBody speed fuel (is.flatMap encode ++ [endByte]) = some is := by
  induction is generalizing fuel with
  | nil =>
    obtain ⟨fuel, rfl⟩ := Nat.exists_eq_add_one_of_ne_zero (Nat.ne_of_gt hf)
    exact decodeBody_end speed fuel
  | cons i is ih =>
    obtain ⟨hi, his⟩ := List.forall_mem_cons.mp h
    have hpos := encode_sub_length_pos hi.wf hi.sub
    rw [List.flatMap_cons, List.length_append] at hf
    obtain ⟨fuel, rfl⟩ := Nat.exists_eq_add_one_of_ne_zero (Nat.ne_zero_of_lt hf)
    rw [List.flatMap_cons, List.append_assoc, decodeBody_encode hi, ih his fuel (by omega)]
    rfl

/-- A packet decodes to the sub-commands it was written from. -/
theorem decodePacket_packetOf {speed : Fin 20} {is : List Instr} (h : ∀ i ∈ is, i.InBody speed) :
    decodePacket speed (packetOf is) = some is := by
  rw [packetOf, decodePacket, if_pos rfl, decodeBody_packet h _ (by simp)]

/-! ## The block's builders -/

theorem inBody_start (speed : Fin 20) : Instr.start.InBody speed := ⟨rfl, .inl ⟨rfl, by simp⟩, by simp, by simp⟩

theorem inBody_stop (speed : Fin 20) : Instr.stop.InBody speed := ⟨rfl, .inl ⟨rfl, by simp⟩, by simp, by simp⟩

theorem inBody_out (speed : Fin 20) {data : Bytes} (h : data.length ≤ 63) : (Instr.outSub data).InBody speed :=
  ⟨Instr.wf_outSub.mpr h, .inr rfl, by simp, by simp⟩

theorem inBody_in (speed : Fin 20) (n : BitVec 6) : (Instr.inSub n).InBody speed := ⟨rfl, .inr rfl, by simp, by simp⟩

/-- The sub-commands of a write packet (41_i2c.md R96). -/
def writeSubs (a : BitVec 7) (data : Bytes) (first last : Bool) : List Instr :=
  (if first then [.start, .outSub (addrByte a false :: data)] else [.outSub data]) ++ if last then [.stop] else []

/-- The sub-commands of a read packet (41_i2c.md R101). -/
def readSubs (cfg : Config) (a : BitVec 7) (n : Nat) : List Instr :=
  [.start, .outSub [addrByte a true]] ++ (if 1 < n then [.inSub (BitVec.ofNat 6 (n - 1))] else []) ++
    [.inSub (cfg.finalIn.setWidth 6), .stop]

theorem memRead_length {src : Bytes} {off n : Nat} (h : off + n ≤ src.length) : (Machine.memRead src off n).length = n := by
  rw [Machine.memRead, List.length_take_of_le (by rw [List.length_drop]; omega)]

/-- The write packet builder writes its sub-commands. -/
theorem wpkt_eq_packetOf (a : BitVec 7) {src : Bytes} {off n : Nat} (first last : Bool) (h : off + n ≤ src.length) :
    Machine.wpkt a src off n first last = packetOf (writeSubs a (Machine.memRead src off n) first last) := by
  cases first <;> cases last <;> simp [Machine.wpkt, packetOf, writeSubs, encode, memRead_length h]

theorem writeSubs_inBody (speed : Fin 20) (a : BitVec 7) {data : Bytes} {first : Bool} (last : Bool)
    (h : data.length ≤ if first then 62 else 63) : ∀ i ∈ writeSubs a data first last, i.InBody speed := by
  have hstop : ∀ i ∈ (if last then [Instr.stop] else []), i.InBody speed := fun i hi => by
    cases last
    · cases hi
    · exact List.mem_singleton.mp hi ▸ inBody_stop speed
  refine List.forall_mem_append.mpr ⟨?_, hstop⟩
  cases first
  · exact List.forall_mem_singleton.mpr (inBody_out speed h)
  · exact List.forall_mem_cons.mpr ⟨inBody_start speed, List.forall_mem_singleton.mpr
      (inBody_out speed (Nat.succ_le_succ h))⟩

/-- IN of `n` bytes has `n` in its byte. -/
theorem encode_inSub_ofNat {n : Nat} (h : n ≤ 63) : encode (.inSub (BitVec.ofNat 6 n)) = [inByte n] := by
  rw [encode, BitVec.toNat_ofNat, Nat.mod_eq_of_lt (show n < 2 ^ 6 by omega)]

/-- `FINAL_IN` is the byte of an IN (00_scope.md R10). -/
theorem encode_finalIn {cfg : Config} (h : cfg.finalIn = 0xC0 ∨ cfg.finalIn = 0xC1) :
    encode (.inSub (cfg.finalIn.setWidth 6)) = [cfg.finalIn] := by
  rcases h with h | h <;> rw [h] <;> decide

/-- The read packet builder writes its sub-commands. -/
theorem rpkt_eq_packetOf {cfg : Config} (hf : cfg.finalIn = 0xC0 ∨ cfg.finalIn = 0xC1) (a : BitVec 7) {n : Nat}
    (hn : n ≤ 63) : Machine.rpkt cfg a n = packetOf (readSubs cfg a n) := by
  have hin := encode_inSub_ofNat (show n - 1 ≤ 63 by omega)
  have hfin := encode_finalIn hf
  simp only [Machine.rpkt, packetOf, readSubs]
  split <;> simp only [List.cons_append, List.nil_append, List.flatMap_cons, hin, hfin] <;> rfl

theorem readSubs_inBody (speed : Fin 20) (cfg : Config) (a : BitVec 7) (n : Nat) :
    ∀ i ∈ readSubs cfg a n, i.InBody speed := by
  have hin : ∀ i ∈ (if 1 < n then [Instr.inSub (BitVec.ofNat 6 (n - 1))] else []), i.InBody speed := fun i hi => by
    split at hi
    · exact List.mem_singleton.mp hi ▸ inBody_in speed _
    · cases hi
  have hhead : ∀ i ∈ [Instr.start, .outSub [addrByte a true]], i.InBody speed :=
    List.forall_mem_cons.mpr ⟨inBody_start speed, List.forall_mem_singleton.mpr
      (inBody_out speed (Nat.le_add_left 1 62))⟩
  have htail : ∀ i ∈ [Instr.inSub (cfg.finalIn.setWidth 6), .stop], i.InBody speed :=
    List.forall_mem_cons.mpr ⟨inBody_in speed _, List.forall_mem_singleton.mpr (inBody_stop speed)⟩
  exact List.forall_mem_append.mpr ⟨List.forall_mem_append.mpr ⟨hhead, hin⟩, htail⟩

/-- SET-SPEED with the configured code belongs in a packet (30_encoding.md R67). -/
theorem inBody_setSpeed (speed : Fin 20) : (Instr.setSpeed (BitVec.ofNat 5 speed.val)).InBody speed := by
  have hv : (BitVec.ofNat 5 speed.val).toNat = speed.val := by
    rw [BitVec.toNat_ofNat]
    omega
  exact ⟨Instr.wf_setSpeed.mpr (by omega), .inl ⟨rfl, by simp⟩, by simp, fun s hs => by cases hs; exact hv⟩

/-- Settles O6: each builder writes the packet of its sub-commands, and such packets decode. -/
theorem builtPacketsDecode : Obligations.BuiltPacketsDecode := by
  intro cfg hc
  refine ⟨fun a src off n first last hoff hn => ?_, fun a n _ hn => ?_, ?_⟩
  · rw [wpkt_eq_packetOf a first last hoff]
    exact decodePacket_packetOf (writeSubs_inBody _ a last (by rwa [memRead_length hoff]))
  · rw [rpkt_eq_packetOf (Machine.legalConfig hc).finalIn a hn]
    exact decodePacket_packetOf (readSubs_inBody _ cfg a n)
  · exact decodePacket_packetOf (is := [.setSpeed (BitVec.ofNat 5 cfg.speedCode.val)])
      (List.forall_mem_singleton.mpr (inBody_setSpeed cfg.speedCode))

/-! ## Packets begun -/

/-- A well-formed sub-command at the front keeps the packet open exactly when it is not END (30_encoding.md R74). -/
theorem subsOpen_encode {i : Instr} (hw : i.wf = true) (hs : i.IsSub) (fuel : Nat) (rest : Bytes) :
    Machine.subsOpen (fuel + 1) (encode i ++ rest) = true ↔ i ≠ .endPkt ∧ Machine.subsOpen fuel rest = true := by
  have h := decodeSub_encode hw hs rest
  generalize encode i ++ rest = bs at h
  cases bs with
  | nil => cases h
  | cons b bs =>
    rw [Machine.subsOpen, h]
    by_cases he : i = .endPkt
    · subst he; simp
    · simp only [ne_eq, he, not_false_eq_true, true_and]

/-- An open packet is empty, or has a sub-command other than END at its front. -/
theorem subsOpen_cons {fuel : Nat} {b : Byte} {bs : Bytes} (h : Machine.subsOpen (fuel + 1) (b :: bs) = true) :
    ∃ j rest, decodeSub (b :: bs) = some (j, rest) ∧ j ≠ .endPkt ∧ Machine.subsOpen fuel rest = true := by
  rw [Machine.subsOpen] at h
  split at h
  · cases h
  · cases h
  · rename_i j rest hne hd
    exact ⟨j, rest, hd, hne, h⟩

/-- One sub-command alone. -/
theorem subsOpen_one {i : Instr} (hw : i.wf = true) (hs : i.IsSub) {fuel : Nat} (hf : (encode i).length ≤ fuel) :
    Machine.subsOpen fuel (encode i) = true ↔ i ≠ .endPkt := by
  have hpos := encode_sub_length_pos hw hs
  obtain ⟨fuel, rfl⟩ : ∃ f, fuel = f + 1 := Nat.exists_eq_add_one_of_ne_zero (by omega)
  have h := subsOpen_encode hw hs fuel []
  rwa [List.append_nil, Machine.subsOpen, eq_self, and_true] at h

/-- After the sub-commands of an open packet another one keeps it open exactly when it is not END. -/
theorem subsOpen_append {i : Instr} (hw : i.wf = true) (hs : i.IsSub) {fuel fuel' : Nat} {bs : Bytes}
    (ho : Machine.subsOpen fuel bs = true) (hf : (bs ++ encode i).length ≤ fuel') :
    Machine.subsOpen fuel' (bs ++ encode i) = true ↔ i ≠ .endPkt := by
  induction fuel generalizing bs fuel' with
  | zero =>
    cases bs with
    | nil => exact subsOpen_one hw hs hf
    | cons b bs => cases ho
  | succ fuel ih =>
    cases bs with
    | nil => exact subsOpen_one hw hs hf
    | cons b bs =>
      obtain ⟨j, rest, hd, hj, hrest⟩ := subsOpen_cons ho
      obtain ⟨he, hwj, hsj⟩ := encode_decodeSub hd
      have hpos := encode_sub_length_pos hwj hsj
      rw [← he, List.append_assoc, List.length_append] at hf
      obtain ⟨fuel', rfl⟩ : ∃ f, fuel' = f + 1 := Nat.exists_eq_add_one_of_ne_zero (by omega)
      rw [← he, List.append_assoc, subsOpen_encode hwj hsj, ih hrest (by omega)]
      exact and_iff_right hj

/-- Settles O32: by induction on the sub-commands the packet already has. -/
theorem packetGrammarIsKept : Obligations.PacketGrammarIsKept := by
  refine ⟨rfl, rfl, fun p i hp hw hs => ?_⟩
  cases p with
  | nil => cases hp
  | cons b bs =>
    simp only [Machine.inSubPosition, List.cons_append, Bool.and_eq_true] at hp ⊢
    obtain ⟨hb, ho⟩ := hp
    rw [subsOpen_append hw hs ho (Nat.le_refl _)]
    simp only [hb, true_and]

end Sys2Proof
end

section
/-! PROOFS. The wire rows and GPIO_FRAME as instructions of a context (30_encoding.md R76 to R79): an emission succeeds exactly where
the bytes stand next in the packet, and a frame is formed exactly when it is the operation's own. -/

namespace Sys2Proof.Machine

/-- A context that builds under the lock is the one that emits (10_state.md R38). -/
theorem building_of {s : State} {x : Ctx} (hx : s.ctxs[s.cur]? = some x) (hp : x.phase = .build)
    (hl : s.lock = .held s.cur) : s.building = some x := by
  simp only [State.building, hx, hp, hl, and_self, if_true]

/-! ## Emission -/

/-- STREAM runs as an emission that begins the packet afresh. -/
theorem exec_stream (s : State) : exec .stream s = emit (fun _ => []) .stream s := rfl

/-- A sub-command runs as an emission at the end of the packet so far. -/
theorem exec_sub {i : Instr} (h : i.IsSub) (s : State) : exec i s = emit id i s := by
  rcases h.cases with rfl | rfl | rfl | ⟨_, rfl⟩ | ⟨_, rfl⟩ | ⟨_, rfl⟩ <;> rfl

/-- Every wire row but GPIO_FRAME runs as an emission. -/
theorem exec_wire {i : Instr} (h : i.format = .wireB ∨ i.format = .wireL) (s : State) : ∃ keep, exec i s = emit keep i s := by
  by_cases hs : i = .stream
  · subst hs
    exact ⟨_, exec_stream s⟩
  · exact ⟨id, exec_sub (h.imp_left fun hf => ⟨hf, hs⟩) s⟩

section

variable {s : State} {x : Ctx} {p : Bytes} {keep : Bytes → Bytes} {i : Instr}

theorem emit_notBuilding (hb : s.building = none) : emit keep i s = .refused .notBuilding := by
  simp only [emit, hb]

theorem emit_noPacket (hb : s.building = some x) (hp : x.packet s.cfg = none) :
    emit keep i s = .refused .wirePosition := by
  simp only [emit, hb, hp]

theorem emit_place (hb : s.building = some x) (hp : x.packet s.cfg = some p) (hn : neverEmitted s.cfg i = false)
    (hpre : keep x.pkt ++ encode i <+: p) :
    emit keep i s = .next (s.modCtx s.cur fun x => { x with pkt := keep x.pkt ++ encode i }) := by
  simp only [emit, hb, hp]
  exact if_pos ⟨hn, List.isPrefixOf_iff_prefix.mpr hpre⟩

theorem emit_notPlace (hb : s.building = some x) (hp : x.packet s.cfg = some p) (hpre : ¬ keep x.pkt ++ encode i <+: p) :
    emit keep i s = .refused .wirePosition := by
  simp only [emit, hb, hp]
  exact if_neg fun h => hpre (List.isPrefixOf_iff_prefix.mp h.2)

/-- Every packet a context builds begins with the stream marker (30_encoding.md R68). -/
theorem stream_prefix_packet {cfg : Config} (h : x.packet cfg = some p) : [streamByte] <+: p := by
  unfold Ctx.packet at h
  split at h
  · cases h; simp [wpkt]
  · cases h; simp [rpkt]
  · split at h <;> cases h
    simp [speedPkt]

end

/-- A sub-command that stands next in the packet is emitted. -/
theorem exec_sub_place {s : State} {x : Ctx} {p : Bytes} (hb : s.building = some x) (hp : x.packet s.cfg = some p)
    {i : Instr} (hs : i.IsSub) (hn : neverEmitted s.cfg i = false) (hpre : x.pkt ++ encode i <+: p) :
    exec i s = .next (s.modCtx s.cur fun x => { x with pkt := x.pkt ++ encode i }) :=
  (exec_sub hs s).trans (emit_place (keep := id) hb hp hn hpre)

/-- What is never emitted does not go on (30_encoding.md R76). -/
theorem neverEmitted_of_next {s t : State} {i : Instr} (hf : i.format = .wireB ∨ i.format = .wireL)
    (h : exec i s = .next t) : neverEmitted s.cfg i = false := by
  obtain ⟨keep, he⟩ := exec_wire hf s
  obtain ⟨_, _, -, -, hn, -⟩ := emit_next (he.symm.trans h)
  exact hn

/-- Settles O31: every wire row is an emission, which the packet's own bytes decide. -/
theorem wireRowsEmitTheirBytes : Obligations.WireRowsEmitTheirBytes := by
  refine ⟨fun s x p hx hph hl hp => ?_, fun s i hf => ?_, fun s t => ⟨fun h => ?_, fun h => ?_, fun sp h => ?_⟩⟩
  · have hb := building_of hx hph hl
    have hstart : Instr.start.IsSub := .inl ⟨rfl, by simp⟩
    have hstop : Instr.stop.IsSub := .inl ⟨rfl, by simp⟩
    have hend : Instr.endPkt.IsSub := .inl ⟨rfl, by simp⟩
    have hspeed : ∀ sp, (Instr.setSpeed sp).IsSub := fun _ => .inl ⟨rfl, by simp⟩
    refine ⟨?_, exec_sub_place hb hp hstart rfl, exec_sub_place hb hp hstop rfl, exec_sub_place hb hp hend rfl,
      fun sp hsp => ?_, fun n hn => ?_, fun data hd => ?_, fun i hs hpre => ?_⟩
    · exact (exec_stream s).trans (emit_place (keep := fun _ => []) hb hp rfl (stream_prefix_packet hp))
    · exact exec_sub_place hb hp (hspeed sp) (by simp [neverEmitted, hsp])
    · have hbyte : encode (.inSub n) = [0xC0 ||| n.setWidth 8] := by rw [encode, inByte, BitVec.ofNat_toNat]
      have hfin : n = 0 → s.cfg.finalIn = 0xC0 := fun h0 => hn.resolve_left (not_not_intro h0)
      rw [← hbyte]
      exact exec_sub_place hb hp (.inr rfl) (by simpa [neverEmitted] using hfin)
    · exact exec_sub_place (i := .outSub data) hb hp (.inr rfl) (by simp [neverEmitted, hd])
    · rw [exec_sub hs]
      exact emit_notPlace (keep := id) hb hp hpre
  · obtain ⟨keep, he⟩ := exec_wire hf s
    rw [he]
    exact ⟨emit_notBuilding, fun x hb hp => emit_noPacket hb hp⟩
  · cases neverEmitted_of_next (.inr rfl) h
  · simpa [neverEmitted] using neverEmitted_of_next (.inr rfl) h
  · simpa [neverEmitted] using neverEmitted_of_next (.inl rfl) h

/-! ## GPIO_FRAME -/

/-- Requesting pins below an address leaves it alone. -/
theorem byteAt_applyPins_above {g : Memory} {reqs : List PinRequest} {a : Nat} (h : ∀ q ∈ reqs, 3 + q.1 < a) :
    (applyPins g reqs).byteAt a = g.byteAt a := by
  induction reqs generalizing g with
  | nil => rfl
  | cons q reqs ih =>
    obtain ⟨hq, hreqs⟩ := List.forall_mem_cons.mp h
    exact (ih hreqs (g := applyPin g q.1 q.2.1 q.2.2)).trans (Memory.byteAt_put_ne _ _ (Nat.ne_of_lt hq))

/-- A frame has the header that stood in GPO (10_state.md R33). -/
theorem header_gpioFrameOf {op : Instr} {s : State} {g : Memory} (h : gpioFrameOf op s = .ok g) :
    g.bytesAt 0 3 = s.gpo.bytesAt 0 3 := by
  obtain ⟨reqs, rfl, -⟩ := gpioFrameOf_cases h
  exact Memory.bytesAt_congr fun i hi =>
    (byteAt_applyPins_header (by omega)).trans (byteAt_clearPins_header s.gpo (by omega))

/-- A frame whose checked pin is in range leaves GPO alone above its eleven bytes. -/
theorem byteAt_gpioFrameOf_above {op : Instr} {s : State} {g : Memory} (h : gpioFrameOf op s = .ok g)
    (hpin : ∀ p, checkedPin op = some p → p.toNat < 8) {a : Nat} (ha : 11 ≤ a) : g.byteAt a = s.gpo.byteAt a := by
  obtain ⟨reqs, rfl, hreqs⟩ := gpioFrameOf_cases h
  have hclear : (clearPins s.gpo).byteAt a = s.gpo.byteAt a :=
    Memory.byteAt_putBytes_outside _ _ _ _ (.inr (by simpa using ha))
  refine (byteAt_applyPins_above fun q hq => ?_).trans hclear
  rcases hreqs q hq with h8 | ⟨p, hp, hqp⟩
  · omega
  · have := hpin p hp
    omega

/-- Two rows of bytes that stand one after the other read as one. -/
theorem bytesAt_append {m : Memory} {a n k : Nat} {xs ys : Bytes} (hx : m.bytesAt a n = some xs)
    (hy : m.bytesAt (a + n) k = some ys) : m.bytesAt a (n + k) = some (xs ++ ys) := by
  obtain ⟨hlx, hix⟩ := Memory.bytesAt_eq_some.mp hx
  obtain ⟨hly, hiy⟩ := Memory.bytesAt_eq_some.mp hy
  refine Memory.bytesAt_eq_some.mpr ⟨by rw [List.length_append, hlx, hly], fun i hi => ?_⟩
  by_cases hin : i < n
  · rw [hix i hin, List.getElem?_append_left (by omega)]
  · rw [List.getElem?_append_right (by omega), hlx, ← hiy (i - n) (by omega)]
    congr 1
    omega

/-- Settles O33: by the branches of GPIO_FRAME and by what every frame is. -/
theorem gpioFrameFormsTheFrame : Obligations.GpioFrameFormsTheFrame := by
  intro s x pins hx hph hl
  have hb := building_of hx hph hl
  have hexec : exec (.gpioFrame pins) s = execGpioFrame pins s := rfl
  refine ⟨fun hf => ?_, fun hf f hg => ?_, fun hf g hg => ⟨fun hp => ?_, fun hp => ⟨?_, fun hh => ?_, fun hpin a ha => ?_⟩⟩⟩
  · simp only [hexec, execGpioFrame, hb, hf, Bool.false_eq_true, if_false]
  · simp only [hexec, execGpioFrame, hb, hf, if_true, hg]
  · simp only [hexec, execGpioFrame, hb, hf, if_true, hg]
    exact if_neg hp
  · simp only [hexec, execGpioFrame, hb, hf, if_true, hg]
    exact if_pos hp
  · exact bytesAt_append ((header_gpioFrameOf hg).trans hh) hp
  · exact byteAt_gpioFrameOf_above hg hpin ha

end Sys2Proof.Machine
end

section
/-! PROOFS. The fetch of a command (30_encoding.md R81, R82), and the spec's own bytes and wire fields (R66, R67, R75, R78, R79,
R84, R85). -/

namespace Sys2Proof.Machine

/-- A step whose command brings an instruction runs it on behalf of the command's context. -/
theorem step_command {s : State} {cmd : Command} {rest : List Command} {i : Instr} (hp : s.port = cmd :: rest)
    (h : fetchInstr cmd s = some i) : step s = exec i { s with port := rest, cur := commandCtx cmd s } := by
  rw [step, hp]
  cases cmd with
  | turn c => cases h
  | _ => simp only [stepCommand, h, takeCommand]

/-- Settles O10: by what each kind of command fetches. -/
theorem stepRunsTheDecodedInstruction : Obligations.StepRunsTheDecodedInstruction := by
  refine fun s rest => ⟨fun bs i hp h => step_command (cmd := .request bs) hp h,
    fun bs i hp h => step_command (cmd := .message bs) hp h, fun c bs i hp h => step_command (cmd := .wire c bs) hp h,
    fun c i hp hf => step_command (cmd := .internal c i) hp (if_pos hf), fun c hp => step_turn hp, fun hp => ?_⟩
  rw [step, hp]

/-- Settles O1: each line is a run of the decoder or the assembler on bytes written out. -/
theorem specBytesDecode : Obligations.SpecBytesDecode := by
  unfold Obligations.SpecBytesDecode
  decide +kernel

/-- Settles O2: by the values of a 7-bit address with its direction, of a 5-bit speed and of three bits. -/
theorem wireBytesHaveTheirFields : Obligations.WireBytesHaveTheirFields := by
  unfold Obligations.WireBytesHaveTheirFields
  exact ⟨by decide, by decide, by decide⟩

end Sys2Proof.Machine
end

section
/-! PROOFS. The internal operations of the transport as single commands: EXCHANGE, ACQUIRE and RELEASE (40_transport.md R86 to
R92). -/

namespace Sys2Proof.Machine

/-! ## Setting a phase -/

/-- Of two phases set in turn the second stays. -/
@[simp] theorem State.setPhase_setPhase (s : State) (c : Nat) (p q : Phase) :
    (s.setPhase c p).setPhase c q = s.setPhase c q := by
  simp only [State.setPhase, State.modCtx, List.modify_modify_eq]
  rfl

/-- Setting the phase a context stands in changes nothing. -/
theorem State.setPhase_self {s : State} {c : Nat} {x : Ctx} (hx : s.ctxs[c]? = some x) : s.setPhase c x.phase = s := by
  have hm : s.ctxs.modify c (fun y => { y with phase := x.phase }) = s.ctxs := by
    refine List.ext_getElem? fun d => ?_
    rw [List.getElem?_modify]
    split
    · subst_vars; rw [hx]; rfl
    · simp
  simp only [State.setPhase, State.modCtx, hm]

/-- An abort overwrites the phase, whatever it was. -/
theorem abort_setPhase (c : Nat) (e : Err) (s : State) (p : Phase) : abort c e (s.setPhase c p) = abort c e s := by
  have hw : (s.setPhase c p).midWrite c = s.midWrite c := by
    simp only [State.midWrite, State.setPhase_ctxs, List.getElem?_modify_eq]
    cases s.ctxs[c]? <;> rfl
  have hi : (s.setPhase c p).runsInit c = s.runsInit c := by
    simp only [State.runsInit, State.setPhase_ctxs, List.getElem?_modify_eq]
    cases s.ctxs[c]? <;> rfl
  simp only [abort, hw, hi, State.setPhase_ctxs, List.modify_modify_eq]
  rfl

/-! ## EXCHANGE -/

/-- A phase is no part of what an exchange looks at, so it can as well be set after the exchange. -/
theorem State.bulk_setPhase (s : State) (c : Nat) (p : Phase) (o : Bytes) (m : Nat) :
    (s.setPhase c p).bulk c o m = ((s.bulk c o m).1.setPhase c p, (s.bulk c o m).2) := by
  simp only [State.bulk, State.setPhase_sends, State.setPhase_recvs]
  cases (sendDraw o.length s.sends).1 with
  | err => rfl
  | timeout => rfl
  | ok k =>
    by_cases hm : m = 0
    · simp only [hm, if_true]; rfl
    · simp only [hm, if_false]
      cases (recvDraw m s.recvs).1 <;> rfl

/-- What an attempt makes of one exchange: a reply is to be checked, an IOError is to be raised. -/
def Attempt.ofBulk (c : Nat) : State × Except Err Bytes → Attempt
  | (t, .ok _) => .ok (t.setPhase c .check)
  | (t, .error e) => .fail e t

/-- A legal exchange goes as R89 to R91 say, its context in `Xchg` meanwhile. -/
theorem exchange_legal {c : Nat} {o : Bytes} {m : Nat} {s : State} (h : ExchangeLegal c o m s) :
    exchange c o m s = Attempt.ofBulk c ((s.setPhase c .xchg).bulk c o m) := by
  obtain ⟨hl, hpos, hlen, hrecv⟩ := h
  have hb : ¬ (o.length = 0 ∨ Config.scratchLen < o.length ∨ Config.scratchLen < m) := by omega
  simp only [exchange, State.bulk, hl, ne_eq, not_true_eq_false, if_false, hb, State.setPhase_sends, State.setPhase_recvs]
  cases (sendDraw o.length s.sends).1 with
  | err => simp only [State.sent, State.record, sendDraw_rest]; rfl
  | timeout => simp only [State.sent, State.record, sendDraw_rest]; rfl
  | ok k =>
    by_cases hm : m = 0
    · simp only [hm, if_true, State.sent, State.record, sendDraw_rest]; rfl
    · simp only [hm, if_false]
      cases (recvDraw m s.recvs).1 <;>
        (simp only [State.sent, State.drewRecv, State.received, State.record, sendDraw_rest, recvDraw_rest]; rfl)

/-- With the lock but lengths out of range an exchange faults (60_exceptions.md R138). -/
theorem exchange_badExchange {c : Nat} {o : Bytes} {m : Nat} {s : State} (hl : s.lock = .held c)
    (h : o.length = 0 ∨ Config.scratchLen < o.length ∨ Config.scratchLen < m) :
    exchange c o m s = .fault .badExchange := by
  rw [exchange, if_neg (not_not_intro hl), if_pos h]

theorem exec_exchange (o : Bytes) (m : Nat) (s : State) :
    exec (.exchange o m) s = toOutcome ((exchange s.cur o m s).orAbort s.cur) := rfl

/-- Settles O28: a legal exchange is the rule's with the context in `Xchg`, and both its ends overwrite that phase. -/
theorem exchangeDoesWhatItsRuleSays : Obligations.ExchangeDoesWhatItsRuleSays := by
  refine fun s o m => ⟨fun hl => ?_, fun hl hb => ?_, fun hl hpos hlen hrecv => ?_⟩
  · rw [exec_exchange, exchange_lockNotHeld hl]; rfl
  · rw [exec_exchange, exchange_badExchange hl hb]; rfl
  · rw [exec_exchange, exchange_legal ⟨hl, hpos, hlen, hrecv⟩, State.bulk_setPhase]
    obtain ⟨t, ans⟩ := s.bulk s.cur o m
    cases ans with
    | ok r => exact congrArg _ (State.setPhase_setPhase ..)
    | error e => exact congrArg _ (abort_setPhase ..)

/-! ## RELEASE -/

theorem exec_release (s : State) : exec .release s = execRelease s := rfl

/-- Settles O27: by the two branches of RELEASE. -/
theorem releaseFreesTheLock : Obligations.ReleaseFreesTheLock := by
  refine fun s => ⟨fun hl => ?_, fun hl => ?_⟩
  · rw [exec_release, execRelease, release, if_pos hl]; rfl
  · rw [exec_release, execRelease, release, if_neg hl]

/-! ## ACQUIRE -/

theorem exec_acquire (s : State) : exec .acquire s = execAcquire s := rfl

/-- The free lock is taken (40_transport.md R86). -/
theorem acquire_of_free {c : Nat} {s : State} (hl : s.lock = .free) :
    acquire c s = .ok (({ s with lock := .held c } : State).setPhase c .build) := by
  simp only [acquire, hl]

/-- A lock that another context holds is waited for (40_transport.md R86). -/
theorem acquire_of_held {c d : Nat} {s : State} (hl : s.lock = .held d) (hd : d ≠ c) :
    acquire c s = .ok (s.setPhase c .waitLock) := by
  simp only [acquire, hl, hd, if_false]

/-- An existing context that was changed is live where its new phase is not final. -/
theorem isLive_modCtx {c : Nat} {s : State} {x : Ctx} {f : Ctx → Ctx} (hx : s.ctxs[c]? = some x) :
    (s.modCtx c f).isLive c = !(f x).phase.isFinal := by
  simp [State.isLive, Ctx.inFlight, hx]

section Acquire

variable {s : State} {x : Ctx}

/-- A context that the change `f` brings to its Acquire acquires from there. -/
theorem exec_acquire_of_approach {f : Ctx → Ctx} (hl : s.lock ≠ .held s.cur) (hx : s.ctxs[s.cur]? = some x)
    (ha : approach s.cur s = s.modCtx s.cur f) (hf : (f x).phase = .waitLock) :
    exec .acquire s = toOutcome (acquire s.cur (s.modCtx s.cur f)) := by
  have hv : (s.modCtx s.cur f).isLive s.cur = true := by rw [isLive_modCtx hx, hf]; rfl
  simp only [exec_acquire, execAcquire, hl, if_false, ha, hv, if_true]

/-- Where the lock is free, a context that the change `f` brings to its Acquire goes on to `Build` with it. -/
theorem exec_acquire_free {f : Ctx → Ctx} (hl : s.lock = .free) (hx : s.ctxs[s.cur]? = some x)
    (ha : approach s.cur s = s.modCtx s.cur f) (hf : (f x).phase = .waitLock) :
    exec .acquire s =
      .next (({ s with lock := .held s.cur } : State).modCtx s.cur fun x => { f x with phase := .build }) := by
  rw [exec_acquire_of_approach (by simp [hl]) hx ha hf, acquire_of_free (s := s.modCtx s.cur f) hl]
  simp only [toOutcome, State.setPhase, State.modCtx, List.modify_modify_eq]
  rfl

/-- Where another context holds the lock, a context that the change `f` brings to its Acquire waits there. -/
theorem exec_acquire_held {f : Ctx → Ctx} {d : Nat} (hl : s.lock = .held d) (hd : d ≠ s.cur) (hx : s.ctxs[s.cur]? = some x)
    (ha : approach s.cur s = s.modCtx s.cur f) (hf : (f x).phase = .waitLock) :
    exec .acquire s = .next (s.modCtx s.cur fun x => { f x with phase := .waitLock }) := by
  rw [exec_acquire_of_approach (by simp [hl, hd]) hx ha hf, acquire_of_held (s := s.modCtx s.cur f) hl hd]
  simp only [toOutcome, State.setPhase, State.modCtx, List.modify_modify_eq]
  rfl

theorem approach_admitting {c : Nat} (hx : s.ctxs[c]? = some x) (hp : x.phase = .admitting) :
    approach c s = moveAdmit c x s := by
  simp only [approach, hx, hp]

theorem approach_next {c : Nat} (hx : s.ctxs[c]? = some x) (hp : x.phase = .next) : approach c s = moveNext c x s := by
  simp only [approach, hx, hp]

/-- In every phase but `Admit` and `Next` nothing is left to do before the Acquire. -/
theorem approach_else {c : Nat} (hx : s.ctxs[c]? = some x) (ha : x.phase ≠ .admitting) (hn : x.phase ≠ .next) :
    approach c s = s := by
  simp only [approach, hx]

/-- In `Admit` a GPIO operation whose pin is in range, or that checks none, only waits (42_gpio.md R112). -/
theorem gpioAdmit_inRange {c : Nat} (h : ∀ p, checkedPin x.op = some p → p.toNat < 8) :
    gpioAdmit c x s = s.setPhase c .waitLock := by
  unfold gpioAdmit
  split
  · rename_i p hp
    exact if_pos (decide_eq_true (h p hp))
  · rfl

/-- In `Next` a write that has a chunk left chooses it (41_i2c.md R95, R98). -/
theorem approach_write {c : Nat} {a : BitVec 7} {src : Bytes} (hx : s.ctxs[c]? = some x) (hp : x.phase = .next)
    (hm : x.msg = some (.write a src)) (h : x.first = true ∨ x.off < src.length) :
    approach c s = s.modCtx c (Ctx.chooseWrite s.cfg src) := by
  have hleft : ¬ (x.first = false ∧ x.off = src.length) := by
    rintro ⟨hf, ho⟩
    rcases h with h | h
    · cases hf.symm.trans h
    · omega
  simp only [approach_next hx hp, moveNext, (Ctx.msg_some hm).1, i2cNext, hm, hleft, if_false]

/-- In `Next` a read that has a chunk left chooses it (41_i2c.md R100, R102). -/
theorem approach_read {c : Nat} {a : BitVec 7} {len : Nat} (hx : s.ctxs[c]? = some x) (hp : x.phase = .next)
    (hm : x.msg = some (.read a len)) (h : x.off < len) :
    approach c s = s.modCtx c (Ctx.chooseRead s.cfg len) := by
  simp only [approach_next hx hp, moveNext, (Ctx.msg_some hm).1, i2cNext, hm, h, if_true]

/-- A waiting context, a GPIO operation and INIT come to their Acquire with no choice to make. -/
theorem approach_waits {c : Nat} (hx : s.ctxs[c]? = some x)
    (h : x.phase = .waitLock ∨
      (engineOf x.op = .gpio ∧ (x.phase = .next ∨ (x.phase = .admitting ∧ ∀ p, checkedPin x.op = some p → p.toNat < 8))) ∨
      (x.op = .init ∧ x.phase = .admitting)) : approach c s = s.setPhase c .waitLock := by
  rcases h with hp | ⟨hg, hp | ⟨hp, hpin⟩⟩ | ⟨ho, hp⟩
  · rw [approach_else hx (by simp [hp]) (by simp [hp]), ← hp, State.setPhase_self hx]
  · simp only [approach_next hx hp, moveNext, hg, gpioNext]
  · simp only [approach_admitting hx hp, moveAdmit, hg, gpioAdmit_inRange hpin]
  · simp only [approach_admitting hx hp, moveAdmit, ho, engineOf, initAdmit]

/-- A context that ended acquires nothing (10_state.md R38). -/
theorem exec_acquire_ended (hl : s.lock ≠ .held s.cur) (hx : s.ctxs[s.cur]? = some x) (hf : x.phase.isFinal = true) :
    exec .acquire s = .next s := by
  have ha : approach s.cur s = s :=
    approach_else hx (fun h => by rw [h] at hf; cases hf) fun h => by rw [h] at hf; cases hf
  have hv : s.isLive s.cur = false := by simp [State.isLive, hx, Ctx.inFlight, hf]
  simp only [exec_acquire, execAcquire, hl, if_false, ha, hv, Bool.false_eq_true]

end Acquire

/-- Settles O26: by how each context comes to its Acquire, and by the lock it finds there. -/
theorem acquireTakesTheFreeLock : Obligations.AcquireTakesTheFreeLock := by
  refine fun s x hx => ⟨fun h => ⟨fun hl => ?_, fun d hl hd => ?_⟩, fun hp hl a src hm h => ?_, fun hp hl a len hm h => ?_,
    fun hl hf => exec_acquire_ended hl hx hf, fun hl => if_pos hl⟩
  · exact (exec_acquire_free hl hx (approach_waits hx h) rfl :)
  · exact (exec_acquire_held hl hd hx (approach_waits hx h) rfl :)
  · exact exec_acquire_free hl hx (approach_write hx hp hm h) rfl
  · exact exec_acquire_free hl hx (approach_read hx hp hm h) rfl

end Sys2Proof.Machine
end

section
/-! PROOFS. The chunk plans of 41_i2c.md R95 and R100 as inductive relations: what holds of a plan is proved along its chunks. -/

namespace Sys2Proof.Machine

/-! ## The write chunk plan -/

/-- The chunks of a write of `len` bytes from `off` on (41_i2c.md R95): the one that reaches the end is the last, and any other
takes its ceiling. -/
inductive WritePlan (cfg : Config) (len : Nat) : Nat → Bool → List Chunk → Prop where
  | last {off : Nat} {first : Bool} (ho : off ≤ len) (h : len - off ≤ wceil cfg first) :
      WritePlan cfg len off first [⟨off, len - off, first, true⟩]
  | more {off : Nat} {first : Bool} {chs : List Chunk} (h : wceil cfg first < len - off)
      (rest : WritePlan cfg len (off + wceil cfg first) false chs) :
      WritePlan cfg len off first (⟨off, wceil cfg first, first, false⟩ :: chs)

/-- A ceiling lets a chunk have a byte (00_scope.md R10). -/
theorem wceil_pos {cfg : Config} (hw : cfg.wf = true) (first : Bool) : 1 ≤ wceil cfg first := by
  cases first
  · exact (legalConfig hw).contPos
  · exact (legalConfig hw).firstPos

theorem wchunksFrom_plan {cfg : Config} (hw : cfg.wf = true) {len : Nat} (fuel : Nat) {off : Nat} {first : Bool}
    (ho : off ≤ len) (hf : len - off < fuel) : WritePlan cfg len off first (wchunksFrom cfg len fuel off first) := by
  induction fuel generalizing off first with
  | zero => omega
  | succ fuel ih =>
    have hpos := wceil_pos hw first
    by_cases h : len - off ≤ wceil cfg first
    · rw [wchunksFrom_last ho h]
      exact .last ho h
    · rw [wchunksFrom_more (Nat.lt_of_not_le h)]
      exact .more (Nat.lt_of_not_le h) (ih (by omega) (by omega))

/-- `wchunks(L)` is the plan from the message's first byte on. -/
theorem wchunks_plan {cfg : Config} (hw : cfg.wf = true) (len : Nat) : WritePlan cfg len 0 true (wchunks cfg len) :=
  wchunksFrom_plan hw _ (Nat.zero_le _) (by omega)

namespace WritePlan

variable {cfg : Config} {len off : Nat} {first : Bool} {chs : List Chunk}

/-- A write has a chunk always (41_i2c.md R99). -/
theorem length_pos (h : WritePlan cfg len off first chs) : 0 < chs.length := by
  cases h <;> exact Nat.succ_pos _

/-- A chunk ends within the message. -/
theorem end_le (h : WritePlan cfg len off first chs) {ch : Chunk} (hc : ch ∈ chs) : ch.off + ch.n ≤ len := by
  induction h with
  | last ho _ => rw [List.mem_singleton.mp hc]; exact (Nat.add_sub_of_le ho).le
  | more h _ ih =>
    rcases List.mem_cons.mp hc with rfl | hc
    · dsimp only; omega
    · exact ih hc

/-- The chunks take what is left of the message. -/
theorem sum (h : WritePlan cfg len off first chs) : (chs.map Chunk.n).sum = len - off := by
  induction h with
  | last => rfl
  | more h _ ih => rw [List.map_cons, List.sum_cons, ih]; show wceil cfg _ + _ = _; omega

/-- One chunk, and one more for each begun ceiling of what it leaves (41_i2c.md R107). -/
theorem length (hw : cfg.wf = true) (h : WritePlan cfg len off first chs) :
    chs.length = 1 + (len - off - wceil cfg first + (cfg.wchunkCont - 1)) / cfg.wchunkCont := by
  have hpos : 0 < cfg.wchunkCont := (legalConfig hw).contPos
  induction h with
  | last _ h => rw [Nat.sub_eq_zero_of_le h, Nat.div_eq_of_lt (by omega)]; rfl
  | @more o f l h _ ih =>
    have hc : wceil cfg false = cfg.wchunkCont := rfl
    rw [List.length_cons, ih, hc]
    by_cases hle : len - o - wceil cfg f ≤ cfg.wchunkCont
    · have h1 : (len - o - wceil cfg f + (cfg.wchunkCont - 1)) / cfg.wchunkCont = 1 :=
        Nat.div_eq_of_lt_le (by omega) (by omega)
      rw [h1, Nat.div_eq_of_lt (by omega)]
    · have h1 : len - o - wceil cfg f + (cfg.wchunkCont - 1) =
          len - (o + wceil cfg f) - cfg.wchunkCont + (cfg.wchunkCont - 1) + cfg.wchunkCont := by omega
      rw [h1, Nat.add_div_right _ hpos]
      omega

/-- The chunk at index `i`: its flags, its place and its length (41_i2c.md R95). -/
theorem chunk_at (h : WritePlan cfg len off first chs) {i : Nat} {ch : Chunk} (hi : chs[i]? = some ch) :
    (ch.first = true ↔ first = true ∧ i = 0) ∧ (ch.last = true ↔ i + 1 = chs.length) ∧
    ch.off = off + ((chs.take i).map Chunk.n).sum ∧ ch.n = min (len - ch.off) (wceil cfg (first && i == 0)) := by
  induction h generalizing i with
  | last ho h =>
    obtain ⟨rfl, rfl⟩ : i = 0 ∧ _ = ch := by
      cases i with
      | zero => exact ⟨rfl, by simpa using hi⟩
      | succ i => simp at hi
    simpa using h
  | more h rest ih =>
    cases i with
    | zero =>
      obtain rfl : _ = ch := by simpa using hi
      refine ⟨by simp, by simpa using List.ne_nil_of_length_pos rest.length_pos, by simp, ?_⟩
      simp only [beq_self_eq_true, Bool.and_true]
      omega
    | succ i =>
      obtain ⟨h1, h2, h3, h4⟩ := ih (by simpa using hi)
      refine ⟨by simpa using h1, by simpa using h2, ?_, by simpa using h4⟩
      rw [h3, List.take_succ_cons, List.map_cons, List.sum_cons, Nat.add_assoc]

end WritePlan

/-- Settles O8: by what the plan's relation says of each chunk, of their sum and of their number. -/
theorem writeChunkPlan : Obligations.WriteChunkPlan := by
  intro cfg len hw
  have hp := wchunks_plan hw len
  refine ⟨fun i ch hi => ?_, hp.sum, hp.length hw⟩
  obtain ⟨h1, h2, h3, h4⟩ := hp.chunk_at hi
  exact ⟨by simpa using h1, h2, by simpa using h3, by simpa [wceil] using h4⟩

/-! ## The read chunk plan -/

/-- The chunks `(off, n)` of a read of `len` bytes from `off` on up to `stop` (41_i2c.md R100). -/
inductive ReadPlan (cfg : Config) (len : Nat) : Nat → List (Nat × Nat) → Nat → Prop where
  | nil {off : Nat} : ReadPlan cfg len off [] off
  | cons {off stop : Nat} {chs : List (Nat × Nat)} (h : off < len)
      (rest : ReadPlan cfg len (off + min (len - off) cfg.rchunk) chs stop) :
      ReadPlan cfg len off ((off, min (len - off) cfg.rchunk) :: chs) stop

theorem rchunksFrom_plan {cfg : Config} (hw : cfg.wf = true) {len : Nat} (fuel : Nat) {off : Nat} (ho : off ≤ len)
    (hf : len - off < fuel) : ReadPlan cfg len off (rchunksFrom cfg len fuel off) len := by
  induction fuel generalizing off with
  | zero => omega
  | succ fuel ih =>
    have hpos := (legalConfig hw).readPos
    by_cases h : off < len
    · rw [rchunksFrom_more h]
      exact .cons h (ih (by omega) (by omega))
    · obtain rfl : off = len := by omega
      rw [rchunksFrom_end _ (Nat.le_refl _)]
      exact .nil

/-- The read chunk plan goes from the message's first byte to its end. -/
theorem rchunks_plan {cfg : Config} (hw : cfg.wf = true) (len : Nat) : ReadPlan cfg len 0 (rchunks cfg len) len :=
  rchunksFrom_plan hw _ (Nat.zero_le _) (by omega)

/-- A list cut at one of its elements. -/
theorem take_cons_drop {α : Type} {l : List α} {i : Nat} {p : α} (h : l[i]? = some p) :
    l.take i ++ p :: l.drop (i + 1) = l := by
  obtain ⟨hlt, rfl⟩ := List.getElem?_eq_some_iff.mp h
  rw [← List.drop_eq_getElem_cons hlt, List.take_append_drop]

namespace ReadPlan

variable {cfg : Config} {len off stop : Nat} {chs : List (Nat × Nat)}

theorem le (h : ReadPlan cfg len off chs stop) : off ≤ stop := by
  induction h with
  | nil => exact Nat.le_refl _
  | cons _ _ ih => omega

/-- A plan cut in two. -/
theorem split {pre post : List (Nat × Nat)} (h : ReadPlan cfg len off (pre ++ post) stop) :
    ∃ mid, ReadPlan cfg len off pre mid ∧ ReadPlan cfg len mid post stop := by
  induction pre generalizing off with
  | nil => exact ⟨off, .nil, h⟩
  | cons p pre ih =>
    cases h with
    | cons hlt rest =>
      obtain ⟨mid, h1, h2⟩ := ih rest
      exact ⟨mid, .cons hlt h1, h2⟩

/-- The plan before the chunk at index `i` ends where that chunk begins. -/
theorem chunk_at {i : Nat} {p : Nat × Nat} (h : ReadPlan cfg len off chs stop) (hi : chs[i]? = some p) :
    ReadPlan cfg len off (chs.take i) p.1 ∧ p.1 < len ∧ p.2 = min (len - p.1) cfg.rchunk := by
  rw [← take_cons_drop hi] at h
  obtain ⟨mid, hpre, hpost⟩ := h.split
  cases hpost with
  | cons hlt _ => exact ⟨hpre, hlt, rfl⟩

/-- The chunks go from the beginning of the plan to its end. -/
theorem sum (h : ReadPlan cfg len off chs stop) : off + (chs.map Prod.snd).sum = stop := by
  induction h with
  | nil => rfl
  | cons _ _ ih => rw [List.map_cons, List.sum_cons, ← Nat.add_assoc, ih]

/-- One chunk for each begun `RCHUNK` of the message (41_i2c.md R107). -/
theorem length (hw : cfg.wf = true) (h : ReadPlan cfg len off chs stop) (hs : stop = len) :
    chs.length = (len - off + (cfg.rchunk - 1)) / cfg.rchunk := by
  have hpos : 0 < cfg.rchunk := (legalConfig hw).readPos
  induction h with
  | nil => rw [hs, Nat.sub_self, Nat.div_eq_of_lt (by omega)]; rfl
  | @cons o _ _ h rest ih =>
    rw [List.length_cons, ih hs]
    by_cases hle : len - o ≤ cfg.rchunk
    · have h1 : (len - o + (cfg.rchunk - 1)) / cfg.rchunk = 1 := Nat.div_eq_of_lt_le (by omega) (by omega)
      rw [h1, Nat.div_eq_of_lt (by omega)]
    · have h1 : len - o + (cfg.rchunk - 1) =
          len - (o + min (len - o) cfg.rchunk) + (cfg.rchunk - 1) + cfg.rchunk := by omega
      rw [h1, Nat.add_div_right _ hpos]

end ReadPlan

/-- Settles O9: the plan cut before a chunk gives that chunk's place. -/
theorem readChunkPlan : Obligations.ReadChunkPlan := by
  intro cfg len hw
  have hp := rchunks_plan hw len
  refine ⟨fun i p hi => ?_, by simpa using hp.sum, hp.length hw rfl⟩
  obtain ⟨hpre, hlt, hn⟩ := hp.chunk_at hi
  exact ⟨by simpa using hpre.sum.symm, hlt, hn⟩

/-! ## Packet lengths -/

/-- Settles O7: by the builders' lengths, and by the ceilings of a plan's chunks. -/
theorem packetLengths : Obligations.PacketLengths := by
  have hlen : ∀ (a : BitVec 7) (src : Bytes) (off n : Nat) (first last : Bool), off + n ≤ src.length →
      (wpkt a src off n first last).length = n + 3 + 2 * first.toNat + last.toNat := by
    intro a src off n first last h
    rw [wpkt_length a src off n first last h]
    cases first <;> cases last <;> rfl
  refine ⟨hlen, fun cfg a src hw ch hch => ?_, fun cfg a n hn => ?_, by decide⟩
  · rw [hlen a src ch.off ch.n ch.first ch.last ((wchunks_plan hw _).end_le hch)]
    have hbound : ch.n + ch.first.toNat ≤ 63 := by
      have h := wchunks_bound hw hch
      cases hf : ch.first <;> rw [hf] at h
      · exact h
      · exact Nat.succ_le_succ h
    have hfirst := ch.first.toNat_le
    have hlast := ch.last.toNat_le
    rw [← Bool.toNat_eq_one, ← Bool.toNat_eq_one]
    omega
  · rw [rpkt_length]
    split <;> split <;> omega

end Sys2Proof.Machine
end

section
/-! PROOFS. From an I2C operation in a session that is ready to the pseudocode of its rule (41_i2c.md R98, R102, R104, R105). -/

namespace Sys2Proof.Machine

/-! ## Admission -/

/-- A session that is ready refuses no request (60_exceptions.md R139). -/
theorem State.Ready.engineRefusal {s : State} (hr : s.Ready) : engineRefusal s = none := by
  simp [Machine.engineRefusal, hr.cfg, hr.up]

theorem exec_i2cXfer {s : State} {msgs : List Msg} (hr : s.Ready) (hne : msgs ≠ []) :
    exec (.i2cXfer msgs) s = submit (.i2cXfer msgs) s := by
  simp only [exec, execI2cXfer, hr.engineRefusal, hne, if_false]

theorem submitAdmitted_ready {s : State} (op : Instr) (hr : s.Ready) : submitAdmitted op s = submit op s := by
  simp only [submitAdmitted, hr.engineRefusal]

/-- Settles O45: I2C_XFER is submitted, and a submitted operation that nothing interrupts does what its rule says. -/
theorem i2cXferDoesWhatItsRulesSay : Obligations.I2cXferDoesWhatItsRulesSay := by
  intro s msgs hr hne
  rw [exec_i2cXfer hr hne]
  exact i2c_submit hr rfl

/-- Settles O46: a record is submitted, and the rule reads its messages as those of a batch of one. -/
theorem messageRecordsDoWhatTheirRulesSay : Obligations.MessageRecordsDoWhatTheirRulesSay := by
  refine fun s a hr => ⟨fun src => ?_, fun len => ?_⟩
  · obtain ⟨x, hx, h⟩ := i2c_submit (op := .i2cWrite a src) hr rfl
    exact ⟨x, (submitAdmitted_ready _ hr).trans hx, h⟩
  · obtain ⟨x, hx, h⟩ := i2c_submit (op := .i2cRead a len) hr rfl
    exact ⟨x, (submitAdmitted_ready _ hr).trans hx, h⟩

/-! ## 10-bit messages -/

/-- An I2C operation whose first move ends it is over after that move. -/
theorem submit_of_admit_final {s : State} {op : Instr} {y : Ctx} (hr : s.Ready) (he : engineOf op = .i2c)
    (ha : i2cAdmit s.ctxs.length (newCtx op (dstFor op s.dstPort)) (s.admitOp op) =
      ({ s with dstPort := [] } : State).push y) (hy : y.phase.isFinal = true) :
    submit op s = .next (s.withCtx y) := by
  have hget : (s.admitOp op).ctxs[s.ctxs.length]? = some (newCtx op (dstFor op s.dstPort)) :=
    State.push_get { s with dstPort := [] } _
  have hset : settled s.ctxs.length (s.admitOp op) = false :=
    settled_push (s := { s with dstPort := [] }) rfl hr.lock
  have hmove : move s.ctxs.length (s.admitOp op) = .ok (({ s with dstPort := [] } : State).push y) := by
    simp only [move, hget, newCtx_phase, moveAdmit, newCtx_op, he, ha]
  have hq : (s.admitOp op).quanta = [] := hr.quanta
  have hdrive := (Runs.step hset hmove).drive (settled_push_final (s := { s with dstPort := [] }) hy)
    (show 1 ≤ moveBound op by unfold moveBound; omega)
  simp only [submit, runCtx, hq, hget, newCtx_op, hdrive]
  rfl

/-- The abort of an I2C operation just admitted. -/
theorem abort_admitOp {s : State} {op : Instr} (hr : s.Ready) (he : engineOf op = .i2c) (e : Err) :
    abort s.ctxs.length e (s.admitOp op) =
      ({ s with dstPort := [] } : State).push ((newCtx op (dstFor op s.dstPort)).fail e) :=
  abort_push (s := { s with dstPort := [] }) e hr.lock fun h : op = .init => by simp [h, engineOf] at he

/-- With the prescan an operation with a 10-bit message ends in `Admit` (41_i2c.md R104, R108 item 4). -/
theorem submit_prescan {s : State} {op : Instr} {j : Nat} (hr : s.Ready) (he : engineOf op = .i2c)
    (ht : s.cfg.tenBitCheck = .prescan) (hj : firstTen (msgsOf op) = some j) :
    submit op s = .next (s.withCtx ((newCtx op (dstFor op s.dstPort)).fail (.invalidArgument (.tenBitAddress j)))) := by
  refine submit_of_admit_final hr he ?_ rfl
  have ht' : (s.admitOp op).cfg.tenBitCheck = .prescan := ht
  simp only [i2cAdmit, ht', newCtx_op, hj, abort_admitOp hr he]

/-- A single 10-bit record ends in `Admit` in both modes: in order it is the first message (41_i2c.md R105). -/
theorem submit_tenRecord {s : State} (hr : s.Ready) (rd : Bool) (a : Byte) (len : Nat) (p : Bytes) :
    submit (.i2cMsgTen rd a len p) s = .next (s.withCtx
      ((newCtx (.i2cMsgTen rd a len p) (dstFor (.i2cMsgTen rd a len p) s.dstPort)).fail
        (.invalidArgument (.tenBitAddress 0)))) := by
  cases ht : s.cfg.tenBitCheck with
  | prescan => exact submit_prescan hr rfl ht rfl
  | inorder =>
    refine submit_of_admit_final hr rfl ?_ rfl
    have ht' : (s.admitOp (.i2cMsgTen rd a len p)).cfg.tenBitCheck = .inorder := ht
    have henter : (s.admitOp (.i2cMsgTen rd a len p)).modCtx s.ctxs.length (Ctx.enter 0) =
        s.admitOp (.i2cMsgTen rd a len p) := State.push_modCtx { s with dstPort := [] } _ _
    simp only [i2cAdmit, ht', newCtx_op, msgsOf, beginMsgs, henter]
    exact abort_admitOp hr rfl _

/-- Settles O48: a batch with a 10-bit message is no empty one, and the prescan, or the record's own turn, ends it in `Admit`. -/
theorem tenBitMessagesAreNeverFramed : Obligations.TenBitMessagesAreNeverFramed := by
  refine fun s hr => ⟨fun msgs j ht hj => ?_, fun rd a len p => ?_⟩
  · have hne : msgs ≠ [] := fun h => by subst h; cases hj
    rw [exec_i2cXfer hr hne]
    exact submit_prescan hr rfl ht hj
  · exact (submitAdmitted_ready _ hr).trans (submit_tenRecord hr rd a len p)

/-! ## Batches with no 10-bit message -/

/-- With no 10-bit message the rule is the loop over the messages, in both modes (41_i2c.md R104). -/
theorem i2cRule_noTen {op : Instr} (s : State) (h : ∀ m ∈ msgsOf op, m.isTen = false) :
    i2cRule op s = batchLoop s.ctxs.length 0 (msgsOf op) (dstFor op s.dstPort) s := by
  have hn : firstTen (msgsOf op) = none := List.findIdx?_eq_none_iff.mpr h
  unfold i2cRule
  rw [hn]
  cases s.cfg.tenBitCheck <;> rfl

/-- A batch of one message has the first of the buffers handed over. -/
theorem dstFor_one (m : Msg) (given : List Memory) : dstFor (.i2cXfer [m]) given = [given.headD []] := by
  cases given <;> rfl

/-- The rule of a batch of one message is that message's. -/
theorem i2cRule_one {m : Msg} (s : State) (h : m.isTen = false) :
    i2cRule (.i2cXfer [m]) s =
      (((msgRule s.ctxs.length 0 m (s.dstPort.headD []) s).1.1,
        [(msgRule s.ctxs.length 0 m (s.dstPort.headD []) s).1.2]),
        (msgRule s.ctxs.length 0 m (s.dstPort.headD []) s).2) := by
  rw [i2cRule_noTen (op := .i2cXfer [m]) s (List.forall_mem_singleton.mpr h), dstFor_one]
  simp only [msgsOf, batchLoop, List.headD_cons, List.tail_cons]
  split <;> rename_i hm <;> rw [hm]

/-- An I2C_XFER that nothing interrupts goes on in the state its rule gives, with the context it ended. -/
theorem exec_i2cXfer_of_rule {s s1 : State} {msgs : List Msg} {ds : List Memory} {e : Option Err} (hr : s.Ready)
    (hne : msgs ≠ []) (h : i2cRule (.i2cXfer msgs) s = ((s1, ds), e)) :
    ∃ x, exec (.i2cXfer msgs) s = .next (s1.withCtx x) ∧ (s1.withCtx x).ctxs = s.ctxs ++ [x] ∧
      x.EndedWith (.i2cXfer msgs) (.okCount msgs.length) e ∧ x.dst = ds := by
  obtain ⟨x, hx, he, hd⟩ := i2cXferDoesWhatItsRulesSay s msgs hr hne
  have hf := (i2cRule_frame (.i2cXfer msgs) hr.cfg).1
  rw [h] at hx he hd hf
  exact ⟨x, hx, congrArg (· ++ [x]) hf.ctxs, he, hd⟩

/-- The same, of the context that an I2C_XFER is seen to have ended. -/
theorem i2cXfer_next {s t : State} {msgs : List Msg} {x : Ctx} (hr : s.Ready) (hne : msgs ≠ [])
    (ht : exec (.i2cXfer msgs) s = .next t) (hx : t.ctxs = s.ctxs ++ [x]) :
    t = (i2cRule (.i2cXfer msgs) s).1.1.withCtx x ∧
      x.EndedWith (.i2cXfer msgs) (.okCount msgs.length) (i2cRule (.i2cXfer msgs) s).2 ∧
      x.dst = (i2cRule (.i2cXfer msgs) s).1.2 := by
  obtain ⟨y, hy, hc, he, hd⟩ := exec_i2cXfer_of_rule (s := s) hr hne rfl
  cases ht.symm.trans hy
  obtain rfl : x = y := by simpa using hx.symm.trans hc
  exact ⟨rfl, he, hd⟩

/-- A batch whose result is a count failed nowhere (60_exceptions.md R134). -/
theorem Ctx.EndedWith.noError {x : Ctx} {msgs : List Msg} {r : Result} {k : Nat} {e : Option Err}
    (h : x.EndedWith (.i2cXfer msgs) r e) (hx : x.res = some (.okCount k)) : e = none := by
  cases e with
  | none => rfl
  | some e => cases hx.symm.trans h.res

/-- Settles O50: a read of length 0 has no chunk. -/
theorem zeroLengthReadDoesNothing : Obligations.ZeroLengthReadDoesNothing := by
  intro s a hr
  obtain ⟨x, hx, -, he, hd⟩ := exec_i2cXfer_of_rule hr (List.cons_ne_nil _ _) (i2cRule_one (m := .read a 0) s rfl)
  exact ⟨x, hx, he.phase, he.res, hd⟩

end Sys2Proof.Machine
end

section
/-! PROOFS. The write loop and the read loop of 41_i2c.md R98 and R102: what a loop that ends well sent and stored, and what a
bridge that answers well makes of one. -/

namespace Sys2Proof.Machine

/-! ## One exchange -/

/-- The entry an exchange leaves in HIST, whatever the bridge answers (10_state.md R42). -/
theorem bulk_hist {s s1 : State} {c m : Nat} {o : Bytes} {ans : Except Err Bytes} (h : s.bulk c o m = (s1, ans)) :
    ∃ e : Exch, s1.hist = s.hist ++ [e] ∧ e.sent = o ∧ e.m = m ∧ ∀ r, ans = .ok r → e.payload = r.drop 1 := by
  unfold State.bulk at h
  split at h
  · split at h
    · rename_i hm; cases h; exact ⟨_, rfl, rfl, hm.symm, fun r hr => by cases hr; rfl⟩
    · split at h
      · cases h; exact ⟨_, rfl, rfl, rfl, fun r hr => by cases hr; rfl⟩
      · cases h; exact ⟨_, rfl, rfl, rfl, fun r hr => by cases hr⟩
  · cases h; exact ⟨_, rfl, rfl, rfl, fun r hr => by cases hr⟩

/-- The bridge's coming Sends are good and its coming replies are these; then `ss` and `rs` are left. -/
structure State.Answers (s : State) (replies : List Bytes) (ss : List SendAns) (rs : List RecvAns) : Prop where
  recvs : s.recvs = replies.map .ok ++ rs
  sends : ∃ ks : List Nat, ks.length = replies.length ∧ s.sends = ks.map .ok ++ ss

theorem State.Answers.done {s : State} {ss : List SendAns} {rs : List RecvAns} (h : s.Answers [] ss rs) :
    s.sends = ss ∧ s.recvs = rs := by
  obtain ⟨ks, hk, hs⟩ := h.sends
  obtain rfl := List.length_eq_zero_iff.mp hk
  exact ⟨hs, h.recvs⟩

/-- An exchange takes the next answer (40_transport.md R90, R91). -/
theorem State.Answers.bulk {s : State} {r : Bytes} {more : List Bytes} {ss : List SendAns} {rs : List RecvAns}
    (h : s.Answers (r :: more) ss rs) (c : Nat) (o : Bytes) {m : Nat} (hm : 0 < m) (hr : r.length ≤ m) :
    ∃ s1, s.bulk c o m = (s1, .ok r) ∧ s1.Answers more ss rs := by
  obtain ⟨hrecvs, ks, hk, hsends⟩ := h
  obtain _ | ⟨k, ks⟩ := ks
  · cases hk
  rw [List.map_cons, List.cons_append] at hrecvs hsends
  refine ⟨s.exchanged c o (min k o.length) m r, ?_, ?_, ks, Nat.succ.inj hk, ?_⟩
  · simp only [State.bulk, hsends, sendDraw, hrecvs, recvDraw, Nat.ne_of_gt hm, if_false, List.take_of_length_le hr]
  · simp only [State.exchanged, hrecvs, List.drop_succ_cons, List.drop_zero]
  · simp only [State.exchanged, hsends, List.drop_succ_cons, List.drop_zero]

/-! ## The write loop -/

/-- The packet of a chunk of a write (41_i2c.md R96). -/
def Chunk.packet (a : BitVec 7) (src : Bytes) (ch : Chunk) : Bytes := wpkt a src ch.off ch.n ch.first ch.last

/-- The bridge's reply to a chunk of a write that was acknowledged throughout (41_i2c.md R97). -/
def Chunk.acks (ch : Chunk) : Bytes := List.replicate (writeReplyLen ch.n ch.first) Config.ack

section
variable {c : Nat} {a : BitVec 7} {src : Bytes} {ch : Chunk} {chs : List Chunk} {s : State}

/-- A write loop that ends well had a good exchange for its first chunk, and the others end well. -/
theorem writeLoop_cons_none {s2 : State} (h : writeLoop c a src (ch :: chs) s = (s2, none)) :
    ∃ s1 r, s.bulk c (ch.packet a src) (writeReplyLen ch.n ch.first) = (s1, .ok r) ∧
      writeLoop c a src chs s1 = (s2, none) := by
  simp only [writeLoop] at h
  split at h
  · cases h
  · split at h
    · cases h
    · split at h
      · cases h
      · exact ⟨_, _, ‹_›, h⟩

/-- A write loop that ends well sent the packet of each of its chunks, in order (41_i2c.md R98). -/
theorem writeLoop_hist {s2 : State} (h : writeLoop c a src chs s = (s2, none)) :
    ∃ es : List Exch, s2.hist = s.hist ++ es ∧ es.map Exch.sent = chs.map (Chunk.packet a src) := by
  induction chs generalizing s with
  | nil => cases h; exact ⟨[], (List.append_nil _).symm, rfl⟩
  | cons ch chs ih =>
    obtain ⟨s1, r, hb, hrest⟩ := writeLoop_cons_none h
    obtain ⟨e, he, hsent, -, -⟩ := bulk_hist hb
    obtain ⟨es, hes, hmap⟩ := ih hrest
    exact ⟨e :: es, by rw [hes, he, List.append_assoc]; rfl, by rw [List.map_cons, List.map_cons, hsent, hmap]⟩

/-- Status bytes that are all the ACK marker hold no NACK. -/
theorem firstNack_replicate (m : Nat) : firstNack (List.replicate m Config.ack) = none := by
  induction m with
  | zero => rfl
  | succ m ih => simp [List.replicate_succ, firstNack, isAck, ih]

/-- A chunk acknowledged throughout: the loop goes on. -/
theorem writeLoop_cons_acks {s1 : State}
    (hb : s.bulk c (ch.packet a src) (writeReplyLen ch.n ch.first) = (s1, .ok ch.acks)) :
    writeLoop c a src (ch :: chs) s = writeLoop c a src chs s1 := by
  unfold Chunk.packet at hb
  simp only [writeLoop, hb, Chunk.acks, List.length_replicate, ne_eq, not_true_eq_false, if_false, firstNack_replicate]

/-- A write acknowledged throughout ends well and takes its answers. -/
theorem writeLoop_answered {more : List Bytes} {ss : List SendAns} {rs : List RecvAns}
    (hpos : ∀ ch ∈ chs, 0 < writeReplyLen ch.n ch.first) (h : s.Answers (chs.map Chunk.acks ++ more) ss rs) :
    ∃ s1, writeLoop c a src chs s = (s1, none) ∧ s1.Answers more ss rs := by
  induction chs generalizing s with
  | nil => exact ⟨s, rfl, h⟩
  | cons ch chs ih =>
    obtain ⟨hch, hchs⟩ := List.forall_mem_cons.mp hpos
    obtain ⟨s1, hb, h1⟩ := h.bulk c (ch.packet a src) hch (by simp [Chunk.acks])
    obtain ⟨s2, hw, h2⟩ := ih hchs h1
    exact ⟨s2, (writeLoop_cons_acks hb).trans hw, h2⟩

/-- A write of one chunk makes one exchange, whatever the bridge answers. -/
theorem writeLoop_one_hist (c : Nat) (a : BitVec 7) (src : Bytes) (ch : Chunk) (s : State) :
    ∃ e : Exch, (writeLoop c a src [ch] s).1.hist = s.hist ++ [e] ∧ e.sent = ch.packet a src ∧
      e.m = writeReplyLen ch.n ch.first := by
  obtain ⟨⟨s1, ans⟩, hb⟩ : ∃ q, s.bulk c (ch.packet a src) (writeReplyLen ch.n ch.first) = q := ⟨_, rfl⟩
  obtain ⟨e, he, hsent, hm, -⟩ := bulk_hist hb
  refine ⟨e, ?_, hsent, hm⟩
  unfold Chunk.packet at hb
  simp only [writeLoop, hb]
  cases ans with
  | error err => exact he
  | ok r =>
    simp only
    split
    · exact he
    · split <;> exact he

end

/-! ## The bytes of a buffer -/

/-- Two rows written one after the other are one row. -/
theorem memWrite_append (dst : Memory) (off : Nat) (p q : Bytes) :
    memWrite (memWrite dst off p) (off + p.length) q = memWrite dst off (p ++ q) := by
  unfold memWrite
  induction p generalizing dst off with
  | nil => rfl
  | cons b p ih => rw [List.length_cons, Nat.add_comm p.length, ← Nat.add_assoc]; exact ih _ _

/-- Two rows read one after the other are one row. -/
theorem memRead_append (src : Bytes) (off n k : Nat) :
    memRead src off n ++ memRead src (off + n) k = memRead src off (n + k) := by
  simp only [memRead, List.take_add, List.drop_drop]

/-- The whole of the bytes. -/
theorem memRead_all (src : Bytes) : memRead src 0 src.length = src := List.take_length

/-- What was written at the front of a buffer reads back. -/
theorem bytesAt_memWrite {bs : Bytes} {n : Nat} (dst : Memory) (h : bs.length = n) :
    (memWrite dst 0 bs).bytesAt 0 n = some bs := h ▸ Memory.bytesAt_putBytes_self dst 0 bs

/-! ## The read loop -/

section
variable {c : Nat} {a : BitVec 7} {off n : Nat} {chs : List (Nat × Nat)} {dst : Memory} {s : State}

/-- A chunk acknowledged: its payload is stored and the loop goes on. -/
theorem readLoop_cons_ack {s1 : State} {bs : Bytes} (hb : s.bulk c (rpkt s.cfg a n) s.cfg.maxSeg = (s1, .ok (Config.ack :: bs)))
    (hn : bs.length = n) :
    readLoop c a ((off, n) :: chs) dst s = readLoop c a chs (memWrite dst off bs) s1 := by
  simp [readLoop, hb, hn]

/-- A chunk not acknowledged: the loop ends there, and DST is as before (41_i2c.md R108 item 3). -/
theorem readLoop_cons_nack {s1 : State} {r : Bytes} (hb : s.bulk c (rpkt s.cfg a n) s.cfg.maxSeg = (s1, .ok r))
    (hn : r.length = n + 1) (hr : r.head? ≠ some Config.ack) :
    readLoop c a ((off, n) :: chs) dst s = ((s1, dst), some (.nackError off 0)) := by
  simp only [readLoop, hb, hn, ne_eq, not_true_eq_false, if_false, hr, not_false_eq_true, if_true]

/-- A read loop that ends well had its first chunk acknowledged and stored it, and the others end well. -/
theorem readLoop_cons_none {s2 : State} {d : Memory} (h : readLoop c a ((off, n) :: chs) dst s = ((s2, d), none)) :
    ∃ s1 bs, s.bulk c (rpkt s.cfg a n) s.cfg.maxSeg = (s1, .ok (Config.ack :: bs)) ∧ bs.length = n ∧
      readLoop c a chs (memWrite dst off bs) s1 = ((s2, d), none) := by
  simp only [readLoop] at h
  split at h
  · cases h
  · rename_i r hb
    split at h
    · cases h
    · rename_i hlen
      split at h
      · cases h
      · rename_i hack
        obtain ⟨bs, rfl⟩ := List.head?_eq_some_iff.mp (not_not.mp hack)
        exact ⟨_, bs, hb, Nat.succ.inj (not_not.mp hlen), h⟩

/-- Chunks that end well are left behind. -/
theorem readLoop_append {post : List (Nat × Nat)} {s1 : State} {d : Memory} (h : readLoop c a chs dst s = ((s1, d), none)) :
    readLoop c a (chs ++ post) dst s = readLoop c a post d s1 := by
  induction chs generalizing dst s with
  | nil => cases h; rfl
  | cons p chs ih =>
    obtain ⟨s2, bs, hb, hn, hrest⟩ := readLoop_cons_none h
    rw [List.cons_append, readLoop_cons_ack hb hn, ih hrest]

/-- A read loop that ends well made an exchange for each chunk and wrote their payloads to DST one after the other, in one
row (41_i2c.md R102, R108 item 2). -/
theorem readLoop_payloads {cfg : Config} {len stop : Nat} {s2 : State} {d : Memory} (hp : ReadPlan cfg len off chs stop)
    (h : readLoop c a chs dst s = ((s2, d), none)) :
    ∃ es : List Exch, s2.hist = s.hist ++ es ∧ es.length = chs.length ∧
      d = memWrite dst off (es.flatMap Exch.payload) ∧ off + (es.flatMap Exch.payload).length = stop := by
  induction hp generalizing dst s with
  | nil => cases h; exact ⟨[], (List.append_nil _).symm, rfl, rfl, rfl⟩
  | cons _ _ ih =>
    obtain ⟨s1, bs, hb, hn, hrest⟩ := readLoop_cons_none h
    obtain ⟨e, he, -, -, hpay⟩ := bulk_hist hb
    obtain ⟨es, hes, hlen, hd, hstop⟩ := ih hrest
    have hall : (e :: es).flatMap Exch.payload = bs ++ es.flatMap Exch.payload := by
      rw [List.flatMap_cons, hpay _ rfl, List.drop_one, List.tail_cons]
    refine ⟨e :: es, by rw [hes, he, List.append_assoc]; rfl, congrArg (· + 1) hlen, ?_, ?_⟩
    · rw [hd, hall, ← hn, memWrite_append]
    · rw [hall, List.length_append, hn, ← Nat.add_assoc, hstop]

/-- Chunks of a read answered well with the bytes `data`: the loop goes through, those bytes stand in DST, and the answers are
taken. -/
theorem readLoop_answered {len stop : Nat} {data : Bytes} {more : List Bytes} {ss : List SendAns} {rs : List RecvAns}
    {cfg : Config} (hp : ReadPlan cfg len off chs stop) (hcfg : s.cfg = cfg) (hw : cfg.wf = true)
    (hd : stop ≤ data.length)
    (h : s.Answers (chs.map (fun p => Config.ack :: memRead data p.1 p.2) ++ more) ss rs) :
    ∃ s1, readLoop c a chs dst s = ((s1, memWrite dst off (memRead data off (stop - off))), none) ∧
      s1.Answers more ss rs := by
  induction hp generalizing dst s with
  | nil => exact ⟨s, by rw [Nat.sub_self]; rfl, h⟩
  | @cons o stop _ hlt rest ih =>
    have hle := rest.le
    have hseg := (legalConfig hw).seg
    have hn : (memRead data o (min (len - o) cfg.rchunk)).length = min (len - o) cfg.rchunk :=
      memRead_length (by omega)
    obtain ⟨s1, hb, h1⟩ := h.bulk c (rpkt s.cfg a (min (len - o) cfg.rchunk)) (m := s.cfg.maxSeg)
      (by rw [hcfg]; omega) (by rw [hcfg, List.length_cons, hn]; omega)
    obtain ⟨s2, hr, h2⟩ := ih (dst := memWrite dst o (memRead data o (min (len - o) cfg.rchunk)))
      ((bulk_frame' hb).cfg.trans hcfg) hd h1
    have hrow : memRead data o (min (len - o) cfg.rchunk) ++
        memRead data (o + min (len - o) cfg.rchunk) (stop - (o + min (len - o) cfg.rchunk)) =
        memRead data o (stop - o) := by
      rw [memRead_append]
      congr 1
      omega
    refine ⟨s2, ?_, h2⟩
    rw [readLoop_cons_ack hb hn, hr, ← hrow, ← memWrite_append, hn]

end

end Sys2Proof.Machine
end

section
/-! PROOFS. A write from beginning to end (41_i2c.md R95 to R99, R108 item 1). -/

namespace Sys2Proof.Machine

/-! ## Acknowledgements -/

/-- The least index of a NACK, as the library has it. -/
theorem firstNack_eq_findIdx? (r : Bytes) : firstNack r = r.findIdx? fun b => !isAck b := by
  induction r with
  | nil => rfl
  | cons b r ih => rw [firstNack, ih, List.findIdx?_cons]; cases isAck b <;> rfl

theorem isAck_iff (b : Byte) : isAck b = true ↔ b = 0x01 := beq_iff_eq

/-- Settles O54: `firstNack` is the library's least index of a byte that is not the ACK marker. -/
theorem leastNackIndex : Obligations.LeastNackIndex := by
  intro r
  rw [firstNack_eq_findIdx?]
  refine ⟨fun i => ?_, by simp [isAck_iff]⟩
  rw [List.findIdx?_eq_some_iff_getElem]
  simp only [Bool.not_eq_true', ← Bool.not_eq_true, isAck_iff, not_not]
  constructor
  · rintro ⟨hi, hb, hlt⟩
    refine ⟨⟨r[i], List.getElem?_eq_getElem hi, hb⟩, fun j hj => ?_⟩
    rw [List.getElem?_eq_getElem (hj.trans hi)]
    exact congrArg some (hlt j hj)
  · rintro ⟨⟨b, hb, hne⟩, hlt⟩
    obtain ⟨hi, rfl⟩ := List.getElem?_eq_some_iff.mp hb
    refine ⟨hi, hne, fun j hj => ?_⟩
    have := hlt j hj
    rw [List.getElem?_eq_getElem (hj.trans hi)] at this
    exact Option.some.inj this

/-! ## What a write's packets hold -/

/-- A chunk of the plan has a packet that decodes to its sub-commands (41_i2c.md R96, 30_encoding.md R75). -/
theorem chunk_packet_decodes {cfg : Config} (hw : cfg.wf = true) (speed : Fin 20) (a : BitVec 7) {src : Bytes} {ch : Chunk}
    (h : ch ∈ wchunks cfg src.length) :
    decodePacket speed (ch.packet a src) = some (writeSubs a (memRead src ch.off ch.n) ch.first ch.last) := by
  have hoff := (wchunks_plan hw _).end_le h
  rw [Chunk.packet, wpkt_eq_packetOf a ch.first ch.last hoff]
  refine decodePacket_packetOf (writeSubs_inBody speed a ch.last ?_)
  rw [memRead_length hoff]
  exact wchunks_bound hw h

/-- What a packet of a write's sub-commands says: START and STOP stand for FIRST and LAST, and the data is the address byte and
the chunk's bytes (41_i2c.md R96). -/
theorem writeSubs_says {speed : Fin 20} {p : Bytes} {a : BitVec 7} {data : Bytes} {first last : Bool}
    (h : decodePacket speed p = some (writeSubs a data first last)) :
    hasStart speed p = first ∧ hasStop speed p = last ∧
      packetData speed p = (if first then [addrByte a false] else []) ++ data := by
  unfold hasStart hasStop packetData
  rw [h]
  cases first <;> cases last <;> simp [writeSubs]

/-- The data of a plan's chunks in order: the first's byte in front, and then what is left of the message. -/
theorem WritePlan.data {cfg : Config} {src : Bytes} {off : Nat} {first : Bool} {chs : List Chunk} (b : Byte)
    (h : WritePlan cfg src.length off first chs) :
    chs.flatMap (fun ch => (if ch.first then [b] else []) ++ memRead src ch.off ch.n) =
      (if first then [b] else []) ++ src.drop off := by
  induction h with
  | last ho h => simp [memRead, List.take_of_length_le]
  | more h _ ih =>
    rw [List.flatMap_cons, ih, List.append_assoc]
    simp [memRead, ← List.drop_drop]

/-- Settles O51: a write loop that ended well sent the packets of its plan, whose places in the plan say where START and STOP
stand. -/
theorem writeSendsItsBytesInOrder : Obligations.WriteSendsItsBytesInOrder := by
  intro s t a src x hr ht hx hres
  obtain ⟨rfl, he, -⟩ := i2cXfer_next hr (List.cons_ne_nil _ _) ht hx
  rw [i2cRule_one s rfl] at he ⊢
  have hloop : writeLoop s.ctxs.length a src (wchunks s.cfg src.length) s = (_, none) := Prod.ext rfl (he.noError hres)
  obtain ⟨es, hes, hsent⟩ := writeLoop_hist hloop
  have hlen : es.length = (wchunks s.cfg src.length).length := by simpa using congrArg List.length hsent
  have hsays := fun ch (h : ch ∈ wchunks s.cfg src.length) =>
    writeSubs_says (chunk_packet_decodes hr.cfg s.cfg.speedCode a h)
  have hp := wchunks_plan hr.cfg src.length
  refine ⟨es, hes, hlen, fun i e hi => ?_, ?_⟩
  · obtain ⟨ch, hch, hpk⟩ : ∃ ch, (wchunks s.cfg src.length)[i]? = some ch ∧ ch.packet a src = e.sent := by
      have h := congrArg (·[i]?) hsent
      simpa [hi] using h.symm
    obtain ⟨hstart, hstop, -⟩ := hsays ch (List.mem_of_getElem? hch)
    obtain ⟨hfirst, hlast, -⟩ := hp.chunk_at hch
    rw [← hpk, hstart, hstop, hlen]
    exact ⟨by simpa using hfirst, hlast⟩
  · calc es.flatMap (fun e => packetData s.cfg.speedCode e.sent)
      _ = (es.map Exch.sent).flatMap (packetData s.cfg.speedCode) := by rw [List.flatMap_map]
      _ = (wchunks s.cfg src.length).flatMap fun ch => packetData s.cfg.speedCode (ch.packet a src) := by
        rw [hsent, List.flatMap_map]
      _ = (wchunks s.cfg src.length).flatMap fun ch =>
          (if ch.first then [addrByte a false] else []) ++ memRead src ch.off ch.n :=
        List.flatMap_congr fun ch h => (hsays ch h).2.2
      _ = addrByte a false :: src := hp.data _

/-- A write of length 0 has one chunk, of no byte (41_i2c.md R99). -/
theorem wchunks_zero (cfg : Config) : wchunks cfg 0 = [⟨0, 0, true, true⟩] :=
  wchunksFrom_last (Nat.le_refl 0) (Nat.zero_le _)

/-- Settles O49: the one chunk of a write of length 0 makes one exchange, and the reply `01` acknowledges it. -/
theorem zeroLengthWriteSendsTheAddress : Obligations.ZeroLengthWriteSendsTheAddress := by
  intro s a hr
  have hrule : i2cRule (.i2cXfer [.write a []]) s = _ := i2cRule_one s rfl
  simp only [msgRule, List.length_nil, wchunks_zero] at hrule
  obtain ⟨x, hx, hctxs, he, -⟩ := exec_i2cXfer_of_rule hr (List.cons_ne_nil _ _) hrule
  obtain ⟨e, hhist, hsent, hm⟩ := writeLoop_one_hist s.ctxs.length a [] ⟨0, 0, true, true⟩ s
  refine ⟨_, x, e, hx, hctxs, hhist, hsent, hm, fun k ss rs hs hrecv => ?_⟩
  have hans : s.Answers (([⟨0, 0, true, true⟩] : List Chunk).map Chunk.acks ++ []) ss rs := ⟨hrecv, [k], rfl, hs⟩
  obtain ⟨s1, hloop, -⟩ := writeLoop_answered (c := s.ctxs.length) (a := a) (src := []) (by simp [writeReplyLen]) hans
  rw [hloop] at he
  exact ⟨he.phase, he.res⟩

end Sys2Proof.Machine
end

section
/-! PROOFS. A read, and a batch answered well, from beginning to end (41_i2c.md R100 to R104, R108). -/

namespace Sys2Proof.Machine

/-- Settles O52: a read loop that ended well wrote its payloads to DST in one row. -/
theorem readConcatenatesItsChunks : Obligations.ReadConcatenatesItsChunks := by
  intro s t a len x hr ht hx hres
  obtain ⟨rfl, he, hd⟩ := i2cXfer_next hr (List.cons_ne_nil _ _) ht hx
  rw [i2cRule_one s rfl] at he hd ⊢
  have hloop : readLoop s.ctxs.length a (rchunks s.cfg len) (s.dstPort.headD []) s = ((_, _), none) :=
    Prod.ext rfl (he.noError hres)
  obtain ⟨es, hes, -, hdst, hlen⟩ := readLoop_payloads (rchunks_plan hr.cfg len) hloop
  rw [Nat.zero_add] at hlen
  refine ⟨es, _, hes, hd, ?_, fun b hb => ?_⟩
  · exact hdst ▸ bytesAt_memWrite _ hlen
  · exact hdst ▸ Memory.byteAt_putBytes_outside _ _ _ _ (by omega)

/-- A read whose chunk `i` is not acknowledged, after the chunks before it were answered well with the bytes `data`: the loop
ends there, and DST holds those bytes (41_i2c.md R108 item 3). -/
theorem readLoop_nack {s : State} {c len i off n : Nat} {a : BitVec 7} {dst : Memory} {data r : Bytes} {ss : List SendAns}
    {rs : List RecvAns} (hw : s.cfg.wf = true) (hi : (rchunks s.cfg len)[i]? = some (off, n)) (hdata : data.length = off)
    (h : s.Answers (((rchunks s.cfg len).take i).map (fun p => Config.ack :: memRead data p.1 p.2) ++ [r]) ss rs)
    (hr : r.length = n + 1) (hnack : r.head? ≠ some Config.ack) :
    ∃ (s2 : State) (es : List Exch),
      readLoop c a (rchunks s.cfg len) dst s = ((s2, memWrite dst 0 data), some (.nackError off 0)) ∧
      s2.hist = s.hist ++ es ∧ es.length = i + 1 := by
  obtain ⟨hpre, -, hn⟩ := (rchunks_plan hw len).chunk_at hi
  obtain ⟨s1, hloop, h1⟩ := readLoop_answered (c := c) (a := a) (dst := dst) hpre rfl hw hdata.ge h
  have hrow : memRead data 0 (off - 0) = data := by rw [Nat.sub_zero, ← hdata, memRead_all]
  rw [hrow] at hloop
  have hframe := readLoop_frame c a ((rchunks s.cfg len).take i) dst s
  rw [hloop] at hframe
  have hseg : n + 1 ≤ s1.cfg.maxSeg := by
    have := (legalConfig hw).seg
    rw [hframe.cfg]
    omega
  obtain ⟨s2, hb, -⟩ := h1.bulk c (rpkt s1.cfg a n) (by omega) (hr.trans_le hseg)
  have hend := (readLoop_append (post := (off, n) :: (rchunks s.cfg len).drop (i + 1)) hloop).trans
    (readLoop_cons_nack hb hr hnack)
  rw [take_cons_drop hi] at hend
  obtain ⟨es, hes, hlen, -, -⟩ := readLoop_payloads hpre hloop
  obtain ⟨e, he, -, -, -⟩ := bulk_hist hb
  refine ⟨s2, es ++ [e], hend, by rw [he, hes, List.append_assoc], ?_⟩
  rw [List.length_append, hlen, List.length_take_of_le (List.getElem?_eq_some_iff.mp hi).1.le]
  rfl

/-- Settles O53: the answers are those of the chunks before the NACK and the NACK itself, at which the loop ends. -/
theorem nackedReadWritesNothing : Obligations.NackedReadWritesNothing := by
  intro s a len i off n data r ks ss rs hr hi hdata hrecv hsend hks hrlen hnack
  have hans : s.Answers (((rchunks s.cfg len).take i).map (fun p => Config.ack :: memRead data p.1 p.2) ++ [r]) ss rs := by
    refine ⟨?_, ks, ?_, hsend⟩
    · rw [hrecv, List.map_append, List.map_map, List.append_assoc]; rfl
    · rw [hks, List.length_append, List.length_map, List.length_take_of_le (List.getElem?_eq_some_iff.mp hi).1.le]; rfl
  obtain ⟨s2, es, hloop, hes, hlen⟩ := readLoop_nack (c := s.ctxs.length) (a := a) (dst := s.dstPort.headD []) hr.cfg hi hdata
    hans hrlen hnack
  have hrule : i2cRule (.i2cXfer [.read a len]) s = _ := i2cRule_one s rfl
  simp only [msgRule, hloop] at hrule
  obtain ⟨x, hx, hctxs, he, hd⟩ := exec_i2cXfer_of_rule hr (List.cons_ne_nil _ _) hrule
  exact ⟨_, x, es, _, hx, hctxs, hes, hlen, he.phase, he.res, hd, bytesAt_memWrite _ hdata,
    fun b hb => Memory.byteAt_putBytes_outside _ _ _ _ (by omega)⟩

/-! ## A batch answered well -/

/-- The bytes the device gives fit the message: no 10-bit one, and for a read as many as it asks for. -/
structure DataFits (m : Msg) (d : Bytes) : Prop where
  notTen : m.isTen = false
  length : ∀ a len, m = .read a len → d.length = len

/-- A read's buffer holds the bytes the device gave. -/
def BufferHolds (m : Msg) (d : Bytes) (dst : Memory) : Prop := ∀ a len, m = .read a len → dst.bytesAt 0 len = some d

/-- Every chunk of a write asks for a status byte (41_i2c.md R97). -/
theorem WritePlan.reply_pos {cfg : Config} (hw : cfg.wf = true) {len off : Nat} {first : Bool} {chs : List Chunk}
    (h : WritePlan cfg len off first chs) (ho : first = true ∨ off < len) :
    ∀ ch ∈ chs, 0 < writeReplyLen ch.n ch.first := by
  have hpos : ∀ (n : Nat) (f : Bool), f = true ∨ 0 < n → 0 < writeReplyLen n f := by
    rintro n (_ | _) h
    · exact h.resolve_left Bool.false_ne_true
    · exact Nat.succ_pos n
  induction h with
  | last _ _ => exact List.forall_mem_singleton.mpr (hpos _ _ (ho.imp_right Nat.sub_pos_of_lt))
  | more h _ ih => exact List.forall_mem_cons.mpr ⟨hpos _ _ (.inr (wceil_pos hw _)), ih (.inr (by omega))⟩

/-- A message answered well ends well, takes one answer of each kind for each chunk, and fills its buffer. -/
theorem msgRule_answered {c idx : Nat} {m : Msg} {d : Bytes} {dst : Memory} {s : State} {more : List Bytes}
    {ss : List SendAns} {rs : List RecvAns} (hw : s.cfg.wf = true) (hm : DataFits m d)
    (h : s.Answers (msgReplies s.cfg m d ++ more) ss rs) :
    ∃ s1 dst', msgRule c idx m dst s = ((s1, dst'), none) ∧ s1.Answers more ss rs ∧
      s1.hist.length = s.hist.length + (msgReplies s.cfg m d).length ∧ BufferHolds m d dst' := by
  cases m with
  | write a src =>
    obtain ⟨s1, hloop, h1⟩ := writeLoop_answered (c := c) (a := a) (src := src)
      ((wchunks_plan hw src.length).reply_pos hw (.inl rfl)) h
    obtain ⟨es, hes, hsent⟩ := writeLoop_hist hloop
    have hlen : es.length = (wchunks s.cfg src.length).length := by simpa using congrArg List.length hsent
    refine ⟨s1, dst, by rw [msgRule, hloop], h1, ?_, fun a len hr => by cases hr⟩
    rw [hes, List.length_append, hlen, msgReplies, List.length_map]
  | read a len =>
    have hd := hm.length a len rfl
    obtain ⟨s1, hloop, h1⟩ := readLoop_answered (c := c) (a := a) (dst := dst) (rchunks_plan hw len) rfl hw hd.ge h
    obtain ⟨es, hes, hlen, -, -⟩ := readLoop_payloads (rchunks_plan hw len) hloop
    refine ⟨s1, _, hloop, h1, ?_, fun a' len' hr => ?_⟩
    · rw [hes, List.length_append, hlen, msgReplies, List.length_map]
    · cases hr
      rw [Nat.sub_zero, ← hd, memRead_all]
      exact bytesAt_memWrite _ rfl
  | ten rd a len p => cases hm.notTen

/-- The messages of a batch answered well, one after the other (41_i2c.md R104). -/
theorem batchLoop_answered {c idx : Nat} {msgs : List Msg} {data : List Bytes} {dsts : List Memory} {s : State}
    {ss : List SendAns} {rs : List RecvAns} (hw : s.cfg.wf = true) (hm : List.Forall₂ DataFits msgs data)
    (h : s.Answers (goodReplies s.cfg msgs data) ss rs) :
    ∃ s1 ds, batchLoop c idx msgs dsts s = ((s1, ds), none) ∧ s1.Answers [] ss rs ∧
      s1.hist.length = s.hist.length + (goodReplies s.cfg msgs data).length ∧
      ∀ (j : Nat) (m : Msg) (d : Bytes), msgs[j]? = some m → data[j]? = some d →
        ∃ dst, ds[j]? = some dst ∧ BufferHolds m d dst := by
  induction hm generalizing idx dsts s with
  | nil => exact ⟨s, dsts, rfl, h, rfl, fun j m d hj => by cases hj⟩
  | @cons m _ _ _ hmsg _ ih =>
    obtain ⟨s1, dst, hrule, h1, hh1, hholds⟩ := msgRule_answered (c := c) (idx := idx) (dst := dsts.headD []) hw hmsg h
    have hcfg : s1.cfg = s.cfg := by
      have hframe := msgRule_frame c idx m (dsts.headD []) s
      rw [hrule] at hframe
      exact hframe.cfg
    rw [List.tail_cons, ← hcfg] at h1
    obtain ⟨s2, ds, hloop, h2, hh2, hrest⟩ := ih (idx := idx + 1) (dsts := dsts.tail) (by rw [hcfg]; exact hw) h1
    refine ⟨s2, dst :: ds, by simp only [batchLoop, hrule, hloop], h2, ?_, fun j m d hj hd => ?_⟩
    · rw [hh2, hh1, goodReplies, List.length_append, List.headD_cons, List.tail_cons, hcfg, Nat.add_assoc]
    · cases j with
      | zero => cases hj; cases hd; exact ⟨dst, rfl, hholds⟩
      | succ j => exact hrest j m d hj hd

/-- Settles O55: the batch's loop goes through its messages, each of which takes its answers and fills its buffer. -/
theorem wellAnsweredBatchSucceeds : Obligations.WellAnsweredBatchSucceeds := by
  intro s msgs data ks ss rs hr hne hten hdl hlen hrecv hsend hks
  have hfits : List.Forall₂ DataFits msgs data := by
    refine List.forall₂_iff_get.mpr ⟨hdl.symm, fun j hj hj' => ⟨hten _ (List.get_mem _ _), fun a len hm => ?_⟩⟩
    exact hlen j a len _ ((List.getElem?_eq_getElem hj).trans (congrArg some hm)) (List.getElem?_eq_getElem hj')
  obtain ⟨s1, ds, hloop, h1, hh, hholds⟩ := batchLoop_answered (c := s.ctxs.length) (idx := 0)
    (dsts := dstFor (.i2cXfer msgs) s.dstPort) hr.cfg hfits ⟨hrecv, ks, hks, hsend⟩
  obtain ⟨hss, hrs⟩ := h1.done
  have hrule : i2cRule (.i2cXfer msgs) s = ((s1, ds), none) := (i2cRule_noTen (op := .i2cXfer msgs) s hten).trans hloop
  obtain ⟨x, hx, hctxs, he, hd⟩ := exec_i2cXfer_of_rule hr hne hrule
  refine ⟨_, x, hx, hctxs, he.phase, he.res, hrs, hss, by rw [hks]; exact hh, fun j a len d hj hdj => ?_⟩
  obtain ⟨dst, hdst, hholds⟩ := hholds j _ d hj hdj
  exact ⟨dst, hd ▸ hdst, hholds a len rfl⟩

end Sys2Proof.Machine
end

section
/-! PROOFS. The frame of a GPIO operation as a row of eight control bytes (42_gpio.md R109, R110, R117), and what the operation
reads from its reply (R114, R115, R120). -/

namespace Sys2Proof.Machine

/-! ## One control byte -/

/-- Clearing writes the control bytes that request nothing. -/
theorem clearPins_eq_putBytes (g : Memory) : clearPins g = g.putBytes 3 noPins := rfl

/-- Requesting a pin in a frame changes the pin's control byte and no other. -/
theorem applyPin_putBytes {g : Memory} (hg : g.wf) {pins : Bytes} {p : Nat} (hp : p < pins.length) (dir val : Bool) :
    applyPin (g.putBytes 3 pins) p dir val = g.putBytes 3 (pins.set p (pinctl dir true val)) := by
  refine Memory.ext_of_wf (Memory.wf_put (Memory.wf_putBytes hg _ _) _ _) (Memory.wf_putBytes hg _ _) fun a => ?_
  simp only [applyPin, Memory.byteAt_put, Memory.byteAt_putBytes, List.length_set]
  by_cases ha : 3 ≤ a ∧ a < 3 + pins.length
  · rw [if_pos ha, if_pos ha, List.getElem?_set]
    by_cases hpa : 3 + p = a
    · rw [if_pos hpa, if_pos (by omega), if_pos hp]
    · rw [if_neg hpa, if_neg (by omega)]
  · rw [if_neg ha, if_neg ha, if_neg (by omega)]

/-- The frame that requests one pin (42_gpio.md R110). -/
theorem applyPin_clearPins {g : Memory} (hg : g.wf) {p : Nat} (hp : p < 8) (dir val : Bool) :
    applyPin (clearPins g) p dir val = g.putBytes 3 (onePin p dir val) :=
  applyPin_putBytes hg hp dir val

@[simp] theorem length_noPins : noPins.length = 8 := rfl

@[simp] theorem length_onePin (p : Nat) (dir val : Bool) : (onePin p dir val).length = 8 := List.length_set

/-- Behind the header stand the control bytes (30_encoding.md R78). -/
theorem frameBytes_pin (pins : Bytes) (q : Nat) : (frameBytes pins)[3 + q]? = pins[q]? :=
  (List.getElem?_append_right (Nat.le_add_right 3 q)).trans (congrArg (pins[·]?) (Nat.add_sub_cancel_left 3 q))

theorem length_frameBytes {pins : Bytes} (h : pins.length = 8) : (frameBytes pins).length = 11 := by
  rw [frameBytes, List.length_append, h]; rfl

/-- Settles O43: the control bytes stand behind the header, and those of one pin are those of none with one byte set. -/
theorem frameRequestsOnlyItsPin : Obligations.FrameRequestsOnlyItsPin := by
  intro p q dir val hp hq
  have hnone : noPins[q]? = some 0x00 := List.getElem?_replicate_of_lt hq
  refine ⟨length_frameBytes (length_onePin p dir val), ?_, (frameBytes_pin _ _).trans hnone⟩
  rw [frameBytes_pin, onePin, List.getElem?_set, hnone]
  by_cases h : p = q
  · rw [if_pos h, if_pos (by simpa using hp), if_pos h.symm]
  · rw [if_neg h, if_neg (Ne.symm h)]

/-! ## Every frame -/

/-- Requesting pins in range in a frame leaves a frame. -/
theorem applyPins_putBytes {g : Memory} (hg : g.wf) {reqs : List PinRequest} {pins : Bytes}
    (h : ∀ q ∈ reqs, q.1 < pins.length) :
    ∃ pins' : Bytes, pins'.length = pins.length ∧ applyPins (g.putBytes 3 pins) reqs = g.putBytes 3 pins' := by
  induction reqs generalizing pins with
  | nil => exact ⟨pins, rfl, rfl⟩
  | cons q reqs ih =>
    obtain ⟨hq, hreqs⟩ := List.forall_mem_cons.mp h
    obtain ⟨pins', hlen, happ⟩ := ih (pins := pins.set q.1 (pinctl q.2.1 true q.2.2)) (by simpa using hreqs)
    refine ⟨pins', by simpa using hlen, ?_⟩
    rw [← happ, ← applyPin_putBytes hg hq]
    rfl

/-- An operation whose checked pin is in range forms a frame of eight control bytes. -/
theorem gpioFrameOf_pins {op : Instr} {s : State} {g : Memory} (hg : s.gpo.wf)
    (hpin : ∀ p, checkedPin op = some p → p.toNat < 8) (h : gpioFrameOf op s = .ok g) :
    ∃ pins : Bytes, pins.length = 8 ∧ g = s.gpo.putBytes 3 pins := by
  obtain ⟨reqs, rfl, hreqs⟩ := gpioFrameOf_cases h
  refine applyPins_putBytes (pins := noPins) hg fun q hq => ?_
  rcases hreqs q hq with h8 | ⟨p, hp, hqp⟩
  · exact h8
  · exact hqp ▸ hpin p hp

/-! ## Several pins -/

/-- The cached status of a pin is read where it is known (10_state.md R34). -/
theorem pinStat_of_known {s : State} {p : Nat} {b : Byte} (hv : s.gpiValid = true) (hb : s.gpi.byteAt (3 + p) = some b) :
    s.pinStat p = .ok b := by
  simp only [State.pinStat, hv, if_true, hb]

/-- The control byte GPIO_WRITE_MULTIPLE gives pin `p`, whose cached status is `st p` (42_gpio.md R117). -/
def multiplePin (mask bits : Byte) (st : Nat → Byte) (p : Nat) : Byte :=
  if mask.getLsbD p && (st p).getLsbD 7 then pinctl true true (bits.getLsbD p) else 0x00

/-- One turn of the loop of GPIO_WRITE_MULTIPLE. -/
theorem frameMultiple_cons {mask bits : Byte} {s : State} {st : Nat → Byte} {p : Nat} (ps : List Nat) (g : Memory)
    (hst : mask.getLsbD p = true → s.pinStat p = .ok (st p)) :
    frameMultiple mask bits s (p :: ps) g = frameMultiple mask bits s ps
      (if mask.getLsbD p && (st p).getLsbD 7 then applyPin g p true (bits.getLsbD p) else g) := by
  by_cases hm : mask.getLsbD p = true
  · simp only [frameMultiple, maskBit, dirBit, hm, hst hm, Bool.true_and, if_true]
    rfl
  · simp only [frameMultiple, maskBit, hm, Bool.false_and, Bool.false_eq_true, if_false]

/-- The loop of GPIO_WRITE_MULTIPLE over the last `n` pins, which were cleared before, gives each its control byte. -/
theorem frameMultiple_range' {mask bits : Byte} {s : State} {st : Nat → Byte} {g : Memory} (hg : g.wf) (n : Nat) (done : Bytes)
    (hst : ∀ p ∈ List.range' done.length n, mask.getLsbD p = true → s.pinStat p = .ok (st p)) :
    frameMultiple mask bits s (List.range' done.length n) (g.putBytes 3 (done ++ List.replicate n 0x00)) =
      .ok (g.putBytes 3 (done ++ (List.range' done.length n).map (multiplePin mask bits st))) := by
  induction n generalizing done with
  | zero => rfl
  | succ n ih =>
    obtain ⟨hp, hps⟩ := List.forall_mem_cons.mp (List.range'_succ ▸ hst)
    have hset : ∀ b : Byte, (done ++ List.replicate (n + 1) 0x00).set done.length b = (done ++ [b]) ++ List.replicate n 0x00 := by
      intro b
      rw [List.set_append_right _ _ (Nat.le_refl _), Nat.sub_self, List.append_assoc]
      rfl
    have hstep : (if mask.getLsbD done.length && (st done.length).getLsbD 7 then
          applyPin (g.putBytes 3 (done ++ List.replicate (n + 1) 0x00)) done.length true (bits.getLsbD done.length)
        else g.putBytes 3 (done ++ List.replicate (n + 1) 0x00)) =
        g.putBytes 3 ((done ++ [multiplePin mask bits st done.length]) ++ List.replicate n 0x00) := by
      unfold multiplePin
      split
      · rw [applyPin_putBytes hg (by simp), hset]
      · rw [List.append_assoc]
        rfl
    have hlen : (done ++ [multiplePin mask bits st done.length]).length = done.length + 1 := List.length_append
    have hrest := ih (done ++ [multiplePin mask bits st done.length]) (hlen ▸ hps)
    rw [hlen, List.append_assoc _ _ (List.map ..)] at hrest
    rw [List.range'_succ, frameMultiple_cons _ _ hp, hstep, hrest]
    rfl

/-- The frame of GPIO_WRITE_MULTIPLE (42_gpio.md R117). -/
theorem frameGpioWriteMultiple_known {mask bits : Byte} {s : State} {st : Nat → Byte} (hg : s.gpo.wf)
    (hst : ∀ p, p < 8 → mask.getLsbD p = true → s.pinStat p = .ok (st p)) :
    frameGpioWriteMultiple mask bits s = .ok (s.gpo.putBytes 3 ((List.range 8).map (multiplePin mask bits st))) :=
  frameMultiple_range' hg 8 [] fun p hp => hst p (by simpa using hp)

/-! ## Results -/

/-- After a round-trip the status of a pin is the one in the reply (30_encoding.md R80). -/
theorem pinStat_of_reply {t : State} {r : Bytes} (hr : r.length = Config.gpioReplyLen) (hv : t.gpiValid = true)
    (hi : ∀ a, a < 11 → t.gpi.byteAt a = r[a]?) {p : Nat} (hp : p < 8) : t.pinStat p = .ok (replyPin r p) := by
  have hlt : 3 + p < r.length := by rw [hr, Config.gpioReplyLen]; omega
  refine pinStat_of_known hv ((hi _ (by omega)).trans ?_)
  rw [replyPin, List.getD_eq_getElem?_getD, List.getElem?_eq_getElem hlt, Option.getD_some]

/-- What GPIO_READ_ALL adds to its result for pin `p` of the reply `r` (42_gpio.md R115). -/
def readAllBit (mask : Byte) (r : Bytes) (p : Nat) : Byte :=
  if mask.getLsbD p && valBit (replyPin r p) then (1 : Byte) <<< p else 0

/-- The loop of GPIO_READ_ALL adds up what its pins give. -/
theorem collectValues_known {mask : Byte} {t : State} {r : Bytes} {ps : List Nat} (acc : Byte)
    (hst : ∀ p ∈ ps, t.pinStat p = .ok (replyPin r p)) :
    collectValues mask t ps acc = .ok ((ps.map (readAllBit mask r)).foldl (· ||| ·) acc) := by
  induction ps generalizing acc with
  | nil => rfl
  | cons p ps ih =>
    obtain ⟨hp, hps⟩ := List.forall_mem_cons.mp hst
    rw [collectValues, List.map_cons, List.foldl_cons]
    by_cases hm : mask.getLsbD p = true
    · have hbit : bitByte (valBit (replyPin r p)) <<< p = readAllBit mask r p := by
        simp only [readAllBit, hm, Bool.true_and, bitByte]
        split
        · rfl
        · exact BitVec.zero_shiftLeft p
      simp only [maskBit, hm, if_true, hp, ih _ hps, hbit]
    · simp only [maskBit, readAllBit, hm, Bool.false_and, Bool.false_eq_true, if_false, ih _ hps]
      rw [show acc ||| 0 = acc from BitVec.or_zero]

/-- A bit of a row of bytes added up is set where it is set in one of them. -/
theorem getLsbD_foldl_or (bs : Bytes) (acc : Byte) (q : Nat) :
    (bs.foldl (· ||| ·) acc).getLsbD q = (acc.getLsbD q || bs.any (·.getLsbD q)) := by
  induction bs generalizing acc with
  | nil => exact (Bool.or_false _).symm
  | cons b bs ih => rw [List.foldl_cons, ih, BitVec.getLsbD_or, List.any_cons, Bool.or_assoc]

/-- A pin gives its own bit only. -/
theorem getLsbD_readAllBit (mask : Byte) (r : Bytes) (p q : Nat) :
    (readAllBit mask r p).getLsbD q =
      ((mask.getLsbD p && valBit (replyPin r p)) && (decide (p < 8) && decide (p = q))) := by
  unfold readAllBit
  split <;> rename_i h
  · rw [h, Bool.true_and]
    exact BitVec.getLsbD_twoPow p q
  · rw [Bool.eq_false_of_not_eq_true h, Bool.false_and]
    exact BitVec.getLsbD_zero

/-- The result byte of GPIO_READ_ALL, bit by bit (42_gpio.md R115). -/
theorem getLsbD_readAllByte (mask : Byte) (r : Bytes) {q : Nat} (hq : q < 8) :
    (readAllByte mask r).getLsbD q = (mask.getLsbD q && valBit (replyPin r q)) := by
  have hsum : readAllByte mask r = ((List.range 8).map (readAllBit mask r)).foldl (· ||| ·) 0 := rfl
  have hzero : (0 : Byte).getLsbD q = false := BitVec.getLsbD_zero
  rw [hsum, getLsbD_foldl_or, hzero, Bool.false_or, List.any_map, Bool.eq_iff_iff]
  simp only [Function.comp_apply, getLsbD_readAllBit, List.any_eq_true, List.mem_range, Bool.and_eq_true, decide_eq_true_eq]
  constructor
  · rintro ⟨p, -, hbit, -, rfl⟩
    exact hbit
  · exact fun hbit => ⟨q, hq, hbit, hq, rfl⟩

/-- What a GPIO operation reads from its reply (42_gpio.md R114 to R120). -/
def replyResult (op : Instr) (r : Bytes) : Result :=
  match op with
  | .gpioRead p => .okBit (valBit (replyPin r p.toNat))
  | .gpioReadAll mask => .okByte (readAllByte mask r)
  | .gpioDirGet p => .okBit (dirBit (replyPin r p.toNat))
  | .gpioWrite _ _ => .noStatus
  | .gpioWriteMultiple _ _ => .noStatus
  | _ => .ok

/-- The result of an operation whose mirror holds the reply. -/
theorem gpioResultOf_reply {op : Instr} {t : State} {r : Bytes} (hpin : ∀ p, checkedPin op = some p → p.toNat < 8)
    (hr : r.length = Config.gpioReplyLen) (hv : t.gpiValid = true) (hi : ∀ a, a < 11 → t.gpi.byteAt a = r[a]?) :
    gpioResultOf op t = .ok (replyResult op r) := by
  have hst : ∀ p, p < 8 → t.pinStat p = .ok (replyPin r p) := fun p => pinStat_of_reply hr hv hi
  cases op with
  | gpioRead p => simp only [gpioResultOf, resultGpioRead, hst _ (hpin p rfl), replyResult]
  | gpioReadAll mask =>
    have hsum := collectValues_known (mask := mask) (ps := List.range 8) 0x00 fun p hp => hst p (List.mem_range.mp hp)
    simp only [gpioResultOf, resultGpioReadAll, hsum]
    rfl
  | gpioDirGet p => simp only [gpioResultOf, resultGpioDirGet, hst _ (hpin p rfl), replyResult]
  | _ => rfl

end Sys2Proof.Machine
end

section
/-! PROOFS. From a GPIO operation in a session that is ready to its rule (42_gpio.md R109 to R120): the operation whose frame is known,
the one whose frame cannot be formed, and the one its pin check turns away. -/

namespace Sys2Proof.Machine

/-! ## How a submitted operation runs -/

/-- A run whose next move faults ends there. -/
theorem Runs.drive_fault {c k n : Nat} {s s' : State} {f : Fault} (h : Runs c k s s') (hs : settled c s' = false)
    (hm : move c s' = .error f) (hk : k < n) : Machine.drive n c s = .error f := by
  obtain ⟨fuel, rfl⟩ := Nat.exists_eq_add_of_le hk
  rw [show k + 1 + fuel = (fuel + 1) + k by omega, h, Machine.drive, hs, hm]
  rfl

/-- Nothing stops an operation submitted with the empty schedule before its bound. -/
theorem submit_eq_drive {s : State} (op : Instr) (hr : s.Ready) :
    submit op s = toOutcome (drive (moveBound op) s.ctxs.length (s.admitOp op)) := by
  have hq : (s.admitOp op).quanta = [] := hr.quanta
  have hget : (s.admitOp op).ctxs[s.ctxs.length]? = some (newCtx op (dstFor op s.dstPort)) :=
    State.push_get { s with dstPort := [] } _
  simp only [submit, runCtx, hq, hget, newCtx_op]

theorem exec_eq_submitAdmitted {op : Instr} (he : engineOf op = .gpio) (s : State) : exec op s = submitAdmitted op s := by
  cases op <;> cases he <;> rfl

/-- A GPIO operation is submitted in a session that is ready (42_gpio.md R113). -/
theorem exec_eq_submit {s : State} {op : Instr} (hr : s.Ready) (he : engineOf op = .gpio) : exec op s = submit op s :=
  (exec_eq_submitAdmitted he s).trans (submitAdmitted_ready op hr)

theorem ne_init_of_gpio {op : Instr} (he : engineOf op = .gpio) : op ≠ .init := fun h => by subst h; cases he

/-- A GPIO operation has no message, so it takes no DST buffer. -/
theorem dstFor_of_gpio {op : Instr} (he : engineOf op = .gpio) (given : List Memory) : dstFor op given = [] := by
  cases op <;> cases he <;> rfl

theorem gpio_admit_push {s : State} {op : Instr} (he : engineOf op = .gpio) :
    s.admitOp op = ({ s with dstPort := [] } : State).push (newCtx op []) := by
  rw [admit_push, dstFor_of_gpio he]

section Admission

variable {s : State} {op : Instr}

/-- The pin check looks at a context of a GPIO operation just admitted (42_gpio.md R112). -/
theorem move_gpio_admitting (he : engineOf op = .gpio) :
    move s.ctxs.length (s.push (newCtx op [])) =
      .ok (gpioAdmit s.ctxs.length (newCtx op []) (s.push (newCtx op []))) := by
  simp only [move, State.push_get, newCtx_phase, moveAdmit, newCtx_op, he]

/-! ## A frame that cannot be formed -/

/-- From its admission to its `Build` an operation whose pin is in range makes two moves. -/
theorem runs_to_gpioBuild (hl : s.lock = .free) (he : engineOf op = .gpio)
    (hpin : ∀ p, checkedPin op = some p → p.toNat < 8) :
    Runs s.ctxs.length 2 (s.push (newCtx op [])) (s.pushLocked { newCtx op [] with phase := .build }) := by
  have hmove : move s.ctxs.length (s.push (newCtx op [])) = .ok (s.push { newCtx op [] with phase := .waitLock }) := by
    rw [move_gpio_admitting he, gpioAdmit_inRange hpin, State.setPhase, State.push_modCtx]
  exact (Runs.step (settled_push rfl hl) hmove).trans (runs_acquire hl rfl)

/-- A `Build` that cannot form its frame faults. -/
theorem move_gpioBuild_fault {x : Ctx} {f : Fault} (hp : x.phase = .build) (he : engineOf x.op = .gpio)
    (hg : gpioFrameOf x.op (s.pushLocked x) = .error f) : move s.ctxs.length (s.pushLocked x) = .error f := by
  simp only [move, State.pushLocked_get, hp, moveBuild, he, gpioBuild, hg]

/-- An operation that cannot form its frame faults before it sends anything (70_reset_and_hazards.md R149). -/
theorem submit_of_frame_fault {f : Fault} (hr : s.Ready) (he : engineOf op = .gpio)
    (hpin : ∀ p, checkedPin op = some p → p.toNat < 8) (hg : gpioFrameOf op s = .error f) : submit op s = .fault f := by
  let s0 : State := { s with dstPort := [] }
  have hframe : gpioFrameOf op (s0.pushLocked { newCtx op [] with phase := .build }) = .error f :=
    (gpioFrameOf_congr op rfl rfl rfl rfl).trans hg
  have hdrive := (runs_to_gpioBuild (s := s0) hr.lock he hpin).drive_fault (settled_pushLocked rfl)
    (move_gpioBuild_fault rfl he hframe)
    (show 2 < moveBound op by unfold moveBound; omega)
  rw [submit_eq_drive op hr, gpio_admit_push he]
  exact congrArg toOutcome hdrive

/-! ## A pin out of range -/

/-- A GPIO operation that the pin check ends is over after that move. -/
theorem submit_of_gpioAdmit_final {y : Ctx} (hr : s.Ready) (he : engineOf op = .gpio) (hy : y.phase.isFinal = true)
    (ha : gpioAdmit s.ctxs.length (newCtx op []) (s.admitOp op) = ({ s with dstPort := [] } : State).push y) :
    submit op s = .next (s.withCtx y) := by
  let s0 : State := { s with dstPort := [] }
  rw [gpio_admit_push he] at ha
  have hmove : move s0.ctxs.length (s0.push (newCtx op [])) = .ok (s0.push y) :=
    (move_gpio_admitting he).trans (congrArg _ ha)
  have hdrive := (Runs.step (settled_push (s := s0) rfl hr.lock) hmove).drive (settled_push_final (s := s0) hy)
    (show 1 ≤ moveBound op by unfold moveBound; omega)
  rw [submit_eq_drive op hr, gpio_admit_push he]
  exact congrArg toOutcome hdrive

/-- The pin check on a pin out of range: InvalidArgument, or a silent end (42_gpio.md R112, R116). -/
theorem gpioAdmit_outOfRange {c : Nat} {x : Ctx} {p : Byte} (hp : checkedPin x.op = some p) (h8 : 8 ≤ p.toNat) :
    gpioAdmit c x s =
      if isFireAndForget x.op then complete c .noStatus s else abort c (.invalidArgument (.pinRange p)) s := by
  have hpin : pinOk p = false := decide_eq_false (Nat.not_lt.mpr h8)
  simp only [gpioAdmit, hp, hpin, Bool.false_eq_true, if_false]

/-- A pin out of range is answered with InvalidArgument and no exchange (42_gpio.md R112). -/
theorem exec_pinRefused {p : Byte} (hr : s.Ready) (he : engineOf op = .gpio) (hf : isFireAndForget op = false)
    (hp : checkedPin op = some p) (h8 : 8 ≤ p.toNat) : exec op s = .next (s.pinRefused op p) := by
  rw [exec_eq_submit hr he]
  refine submit_of_gpioAdmit_final hr he rfl ?_
  rw [gpioAdmit_outOfRange hp h8, newCtx_op, hf, gpio_admit_push he]
  exact abort_push (s := { s with dstPort := [] }) _ hr.lock (ne_init_of_gpio he)

/-- GPIO_WRITE of a pin out of range ends silently (42_gpio.md R116). -/
theorem exec_gpioWrite_outOfRange {p : Byte} {v : Bool} (hr : s.Ready) (h8 : 8 ≤ p.toNat) :
    exec (.gpioWrite p v) s = .next (s.withCtx ((newCtx (.gpioWrite p v) []).finish .noStatus)) := by
  rw [exec_eq_submit hr rfl]
  refine submit_of_gpioAdmit_final hr rfl rfl ?_
  rw [gpioAdmit_outOfRange rfl h8, gpio_admit_push rfl]
  exact State.push_modCtx { s with dstPort := [] } _ _

/-! ## A frame that is known -/

/-- An operation whose pin check passed and whose frame is known does what its rule says. -/
theorem exec_gpioRun {pins : Bytes} (hr : s.Ready) (hf : s.FrameReady) (he : engineOf op = .gpio)
    (hpin : ∀ p, checkedPin op = some p → p.toNat < 8) (hlen : pins.length = 8)
    (hg : gpioFrameOf op s = .ok (s.gpo.putBytes 3 pins)) : exec op s = .next (s.gpioRun op pins (replyResult op)) :=
  (exec_eq_submit hr he).trans <| gpio_submit hr hf he hlen (fun p hp => decide_eq_true (hpin p hp)) hg
    fun _ _ hrl hv hi => gpioResultOf_reply hpin hrl hv hi

/-- An operation whose pin check passed makes its round-trip whenever it goes on. -/
theorem exec_gpio_next {t : State} (hr : s.Ready) (hf : s.FrameReady) (he : engineOf op = .gpio)
    (hpin : ∀ p, checkedPin op = some p → p.toNat < 8) (hx : exec op s = .next t) :
    ∃ pins : Bytes, pins.length = 8 ∧ t = s.gpioRun op pins (replyResult op) := by
  cases hg : gpioFrameOf op s with
  | error f =>
    rw [exec_eq_submit hr he, submit_of_frame_fault hr he hpin hg] at hx
    cases hx
  | ok g =>
    obtain ⟨pins, hlen, rfl⟩ := gpioFrameOf_pins hf.wf hpin hg
    rw [exec_gpioRun hr hf he hpin hlen hg] at hx
    exact ⟨pins, hlen, (Host.Outcome.next.inj hx).symm⟩

end Admission

/-! ## The operations that read -/

theorem inRange_of_unchecked {op : Instr} (h : checkedPin op = none) : ∀ p, checkedPin op = some p → p.toNat < 8 :=
  fun _ hp => by rw [h] at hp; cases hp

theorem inRange_of_checked {op : Instr} {p : Byte} (h : checkedPin op = some p) (hp : p.toNat < 8) :
    ∀ q, checkedPin op = some q → q.toNat < 8 := fun _ hq => Option.some.inj (h.symm.trans hq) ▸ hp

/-- An operation that reads its pin does what its rule says, in range and out of it. -/
theorem exec_readPin {s : State} {op : Instr} {p : Byte} (hr : s.Ready) (hf : s.FrameReady) (he : engineOf op = .gpio)
    (hff : isFireAndForget op = false) (hop : checkedPin op = some p) (hg : gpioFrameOf op s = .ok (clearPins s.gpo)) :
    exec op s = .next (if p.toNat < 8 then s.gpioRun op noPins (replyResult op) else s.pinRefused op p) := by
  by_cases hp : p.toNat < 8
  · rw [if_pos hp]
    exact exec_gpioRun hr hf he (inRange_of_checked hop hp) length_noPins hg
  · rw [if_neg hp]
    exact exec_pinRefused hr he hff hop (Nat.not_lt.mp hp)

/-- Settles O36: by the pin check, and by the cleared frame. -/
theorem gpioReadDoesWhatItsRuleSays : Obligations.GpioReadDoesWhatItsRuleSays :=
  fun _ _ hr hf => exec_readPin hr hf rfl rfl rfl rfl

/-- Settles O37: by the cleared frame, and by the bits of the byte collected from the reply. -/
theorem gpioReadAllDoesWhatItsRuleSays : Obligations.GpioReadAllDoesWhatItsRuleSays :=
  ⟨fun _ _ hr hf => exec_gpioRun hr hf rfl (inRange_of_unchecked rfl) length_noPins rfl,
    fun mask r _ hp => getLsbD_readAllByte mask r hp⟩

/-- Settles O42: by the pin check, and by the cleared frame. -/
theorem gpioDirGetDoesWhatItsRuleSays : Obligations.GpioDirGetDoesWhatItsRuleSays :=
  fun _ _ hr hf => exec_readPin hr hf rfl rfl rfl rfl

/-! ## The operations that request pins -/

/-- An operation that requests its pin only does what its rule says. -/
theorem exec_onePin {s : State} {op : Instr} {p : Byte} {dir val : Bool} (hr : s.Ready) (hf : s.FrameReady)
    (he : engineOf op = .gpio) (hop : checkedPin op = some p) (hp : p.toNat < 8)
    (hg : gpioFrameOf op s = .ok (applyPin (clearPins s.gpo) p.toNat dir val)) :
    exec op s = .next (s.gpioRun op (onePin p.toNat dir val) (replyResult op)) :=
  exec_gpioRun hr hf he (inRange_of_checked hop hp) (length_onePin ..) (hg.trans (congrArg _ (applyPin_clearPins hf.wf hp dir val)))

/-- Settles O38: the frame keeps the cached direction; a pin out of range ends the operation in `Admit`. -/
theorem gpioWriteDoesWhatItsRuleSays : Obligations.GpioWriteDoesWhatItsRuleSays := by
  refine fun s p v hr hf => ⟨fun b hp hv hb => exec_onePin hr hf rfl rfl hp ?_, exec_gpioWrite_outOfRange hr⟩
  simp only [gpioFrameOf, frameGpioWrite, pinStat_of_known hv hb, dirBit]

/-- Settles O39: by the frame that the loop over the pins forms. -/
theorem gpioWriteMultipleDoesWhatItsRuleSays : Obligations.GpioWriteMultipleDoesWhatItsRuleSays := by
  intro s mask bits st hr hf hst
  refine exec_gpioRun hr hf rfl (inRange_of_unchecked rfl) (by simp) (frameGpioWriteMultiple_known (st := st) hf.wf fun p hp hm => ?_)
  obtain ⟨hv, hb⟩ := hst p hp hm
  exact pinStat_of_known hv hb

/-- Settles O40: the frame requests input with the cached value; a pin out of range is refused. -/
theorem gpioDirInputDoesWhatItsRuleSays : Obligations.GpioDirInputDoesWhatItsRuleSays := by
  refine fun s p hr hf => ⟨fun b hp hv hb => exec_onePin hr hf rfl rfl hp ?_, exec_pinRefused hr rfl rfl rfl⟩
  simp only [gpioFrameOf, frameGpioDirInput, pinStat_of_known hv hb, valBit]

/-- Settles O41: by the frame of each mode; a pin out of range is refused. -/
theorem gpioDirOutputDoesWhatItsRuleSays : Obligations.GpioDirOutputDoesWhatItsRuleSays := by
  refine fun s p v hr hf => ⟨fun hp hm => exec_onePin hr hf rfl rfl hp ?_,
    fun b hp hm hv hb => exec_onePin hr hf rfl rfl hp ?_, exec_pinRefused hr rfl rfl rfl⟩
  · simp only [gpioFrameOf, frameGpioDirOutput, hm]
  · simp only [gpioFrameOf, frameGpioDirOutput, hm, pinStat_of_known hv hb, valBit]

end Sys2Proof.Machine
end

section
/-! PROOFS. The round-trip (42_gpio.md R111) as a single command, and as the one exchange of a GPIO operation (R122). -/

namespace Sys2Proof.Machine

/-! ## GPIO_RT -/

section RoundTrip

variable {s : State} {o : Bytes}

theorem exec_gpioRt (s : State) : exec .gpioRt s = toOutcome ((roundTrip s.cur 0 s).orAbort s.cur) := rfl

/-- Without the lock a round-trip faults (60_exceptions.md R138). -/
theorem roundTrip_lockNotHeld {c off : Nat} (ho : s.gpo.bytesAt 0 11 = some o) (hl : s.lock ≠ .held c) :
    roundTrip c off s = .fault .lockNotHeld := by
  have ho' : s.gpo.bytesAt 0 Config.gpioFrameLen = some o := ho
  simp only [roundTrip, roundTripXchg, ho', exchange_lockNotHeld hl, Attempt.andThen]

/-- With the lock the exchange of a round-trip is the rule's, its context in `Xchg` meanwhile. -/
theorem roundTripXchg_locked {c : Nat} (ho : s.gpo.bytesAt 0 11 = some o) (hl : s.lock = .held c) :
    roundTripXchg c s = match s.bulk c o Config.gpioReplyLen with
      | (t, .ok _) => .ok (t.setPhase c .check)
      | (t, .error e) => .fail e (t.dropMirror.setPhase c .xchg) := by
  have ho' : s.gpo.bytesAt 0 Config.gpioFrameLen = some o := ho
  have hlen : o.length = 11 := (Memory.bytesAt_eq_some.mp ho).1
  have hlegal : ExchangeLegal c o Config.gpioReplyLen s := ⟨hl, by omega, by rw [hlen]; decide, by decide⟩
  simp only [roundTripXchg, ho', exchange_legal hlegal, State.bulk_setPhase]
  obtain ⟨t, ans⟩ := s.bulk c o Config.gpioReplyLen
  cases ans with
  | ok r => exact congrArg _ (State.setPhase_setPhase ..)
  | error e => rfl

/-- A round-trip whose exchange failed drops the mirror. -/
theorem gpioTrip_of_error {c : Nat} {t : State} {e : Err} (hb : s.bulk c o Config.gpioReplyLen = (t, .error e)) :
    s.gpioTrip c o = (t.dropMirror, .error e) := by
  simp only [State.gpioTrip, hb]
  rfl

/-- A round-trip whose reply has not eleven bytes drops the mirror. -/
theorem gpioTrip_of_badReply {c : Nat} {t : State} {r : Bytes} (hb : s.bulk c o Config.gpioReplyLen = (t, .ok r))
    (hr : r.length ≠ Config.gpioReplyLen) :
    s.gpioTrip c o = (t.dropMirror, .error (.protocolError 0 Config.gpioReplyLen r.length)) := by
  simp only [State.gpioTrip, hb, hr, ne_eq, not_false_eq_true, if_true]
  rfl

/-- A good round-trip: the mirror takes the reply. -/
theorem gpioTrip_of_reply {c : Nat} {t : State} {r : Bytes} (hb : s.bulk c o Config.gpioReplyLen = (t, .ok r))
    (hr : r.length = Config.gpioReplyLen) : s.gpioTrip c o = (t.setMirror r, .ok r) := by
  simp only [State.gpioTrip, hb, hr, ne_eq, not_true_eq_false, if_false]
  rfl

end RoundTrip

/-- Settles O29: the exchange is the rule's, the reply's length is checked, and the phases set on the way are overwritten. -/
theorem gpioRoundTripDoesWhatItsRuleSays : Obligations.GpioRoundTripDoesWhatItsRuleSays := by
  refine fun s o ho => ⟨fun hl => ?_, fun hl => ?_⟩
  · rw [exec_gpioRt, roundTrip_lockNotHeld ho hl]; rfl
  rw [exec_gpioRt, roundTrip, roundTripXchg_locked ho hl]
  obtain ⟨⟨t, ans⟩, hb⟩ : ∃ q, s.bulk s.cur o Config.gpioReplyLen = q := ⟨_, rfl⟩
  cases ans with
  | error e =>
    rw [hb, gpioTrip_of_error hb]
    exact congrArg Host.Outcome.next (abort_setPhase ..)
  | ok r =>
    have hreply : (t.setPhase s.cur .check).reply = some r := bulk_reply (s1 := t) (by decide) hb
    rw [hb]
    by_cases hr : r.length = Config.gpioReplyLen
    · rw [gpioTrip_of_reply hb hr]
      have hcheck : roundTripCheck s.cur 0 (t.setPhase s.cur .check) = .ok (t.setPhase s.cur .commit) := by
        simp only [roundTripCheck, hreply, hr, ne_eq, not_true_eq_false, if_false, State.setPhase_setPhase]
      have hcommit : roundTripCommit (t.setPhase s.cur .commit) = .ok ((t.setMirror r).setPhase s.cur .commit) := by
        rw [roundTripCommit, show (t.setPhase s.cur .commit).reply = some r from hreply]
        rfl
      simp only [Attempt.andThen, hcheck, hcommit, Attempt.orAbort, toOutcome]
    · rw [gpioTrip_of_badReply hb hr]
      have hcheck : roundTripCheck s.cur 0 (t.setPhase s.cur .check) =
          .fail (.protocolError 0 Config.gpioReplyLen r.length) (t.dropMirror.setPhase s.cur .check) := by
        simp only [roundTripCheck, hreply, hr, ne_eq, not_false_eq_true, if_true]
        rfl
      simp only [Attempt.andThen, hcheck, Attempt.orAbort, toOutcome, abort_setPhase]

/-! ## The one exchange of an operation -/

/-- The entry of HIST is the exchange of `o` by context `c` that asked for `m` bytes and was answered with `ans`
(10_state.md R42). -/
structure Exch.Records (e : Exch) (c : Nat) (o : Bytes) (m : Nat) (ans : Except Err Bytes) : Prop where
  ctx : e.ctx = c
  sent : e.sent = o
  m : e.m = m
  reply : ∀ r, e.recvAns = some (.ok r) ↔ ans = .ok r

/-- An exchange that asks for a reply is recorded with what it was answered. -/
theorem bulk_records {s s1 : State} {c m : Nat} {o : Bytes} {ans : Except Err Bytes} (hm : m ≠ 0)
    (h : s.bulk c o m = (s1, ans)) : ∃ e : Exch, s1.hist = s.hist ++ [e] ∧ e.Records c o m ans := by
  unfold State.bulk at h
  split at h
  · rw [if_neg hm] at h
    split at h
    · cases h; exact ⟨_, rfl, rfl, rfl, rfl, by simp⟩
    · rename_i hne
      cases h
      exact ⟨_, rfl, rfl, rfl, rfl, fun r => ⟨fun hr => absurd (Option.some.inj hr) (hne r), fun hr => by cases hr⟩⟩
  · cases h; exact ⟨_, rfl, rfl, rfl, rfl, fun r => by simp⟩

/-- What one round-trip leaves: its exchange in HIST, and the mirror as the reply has it (42_gpio.md R111). -/
structure TripLeaves (s t : State) (e : Exch) : Prop where
  hist : t.hist = s.hist ++ [e]
  gpo : t.gpo = s.gpo
  valid : t.gpiValid = true ↔ ∃ r, e.recvAns = some (.ok r) ∧ r.length = 11
  mirror : ∀ r, e.recvAns = some (.ok r) → r.length = 11 → t.gpi.bytesAt 0 11 = some r

theorem gpioTrip_leaves (s : State) (c : Nat) (o : Bytes) :
    ∃ e : Exch, (e.ctx = c ∧ e.sent = o ∧ e.m = 11) ∧ TripLeaves s (s.gpioTrip c o).1 e := by
  obtain ⟨⟨t, ans⟩, hb⟩ : ∃ q, s.bulk c o Config.gpioReplyLen = q := ⟨_, rfl⟩
  obtain ⟨e, hhist, hrec⟩ := bulk_records (by decide) hb
  have hgpo : t.gpo = s.gpo := (bulk_frame' hb).gpo
  have dropped (hbad : ∀ r, e.recvAns = some (.ok r) → r.length ≠ 11) : TripLeaves s t.dropMirror e :=
    ⟨hhist, hgpo, ⟨fun h => (by cases h), fun ⟨r, hr, h11⟩ => absurd h11 (hbad r hr)⟩, fun r hr h11 => absurd h11 (hbad r hr)⟩
  refine ⟨e, ⟨hrec.ctx, hrec.sent, hrec.m⟩, ?_⟩
  cases ans with
  | error err =>
    rw [gpioTrip_of_error hb]
    exact dropped fun r hr => by cases (hrec.reply r).mp hr
  | ok r =>
    by_cases hlen : r.length = Config.gpioReplyLen
    · rw [gpioTrip_of_reply hb hlen]
      refine ⟨hhist, hgpo, ⟨fun _ => ⟨r, (hrec.reply r).mpr rfl, hlen⟩, fun _ => rfl⟩, fun r' hr' _ => ?_⟩
      cases (hrec.reply r').mp hr'
      have hread := Memory.bytesAt_putBytes_self t.gpi 0 r
      rw [hlen] at hread
      exact hread
    · rw [gpioTrip_of_badReply hb hlen]
      exact dropped fun r' hr' => by cases (hrec.reply r').mp hr'; exact hlen

/-- A GPIO operation leaves what its round-trip leaves, and its ended context. -/
theorem gpioRun_eq_withCtx (s : State) (op : Instr) (pins : Bytes) (res : Bytes → Result) :
    ∃ x, s.gpioRun op pins res =
      (({ s with gpo := s.gpo.putBytes 3 pins } : State).gpioTrip s.ctxs.length (frameBytes pins)).1.withCtx x := by
  unfold State.gpioRun
  split
  · rename_i h; exact ⟨_, by rw [h]⟩
  · rename_i h; exact ⟨_, by rw [h]⟩

/-- Settles O44: an operation that goes on makes its round-trip, which is one exchange of the frame in GPO. -/
theorem gpioOperationsMakeOneExchange : Obligations.GpioOperationsMakeOneExchange := by
  intro s t op hr hf he hpin hx
  obtain ⟨pins, hlen, rfl⟩ := exec_gpio_next hr hf he hpin hx
  obtain ⟨x, hrun⟩ := gpioRun_eq_withCtx s op pins (replyResult op)
  obtain ⟨e, ⟨hctx, hsent, hm⟩, hl⟩ :=
    gpioTrip_leaves { s with gpo := s.gpo.putBytes 3 pins } s.ctxs.length (frameBytes pins)
  rw [hrun]
  refine ⟨e, pins, hl.hist, hctx, hlen, hsent, hm, ?_, hl.valid, hl.mirror⟩
  exact (congrArg (·.bytesAt 0 11) hl.gpo).trans (hsent ▸ frame_bytes hf.header hlen)

end Sys2Proof.Machine
end

section
/-! PROOFS. INIT and TEARDOWN as whole operations (43_init.md R124 to R128): INIT runs its rule, whose two exchanges and two ends
say what it sends and how it leaves the session; TEARDOWN closes the session, or is the host's breach of duty. -/

namespace Sys2Proof.Machine

/-! ## INIT runs its rule -/

/-- The first INIT of an Attached session is admitted (43_init.md R129). -/
theorem exec_init {s : State} (hc : s.cfg.wf = true) (ha : s.sstate = .attached) (hi : s.initSubmitted = false) :
    exec .init s = submit .init s := by
  show execInit s = submit .init s
  rw [execInit, hc, ha, hi]
  rfl

/-- Settles O56: the first INIT is admitted, and a submitted INIT that nothing interrupts does what its rule says. -/
theorem initDoesWhatItsRuleSays : Obligations.InitDoesWhatItsRuleSays :=
  fun _ hc ha hi hl hq hf => (exec_init hc ha hi).trans (init_submit hl hq hf)

/-! ## The exchanges of INIT -/

/-- An exchange that asks for no reply is recorded without one (10_state.md R42). -/
theorem bulk_zero_hist (s : State) (c : Nat) (o : Bytes) :
    ∃ e : Exch, (s.bulk c o 0).1.hist = s.hist ++ [e] ∧ e.sent = o ∧ e.m = 0 ∧ e.recvAns = none := by
  unfold State.bulk
  split
  · exact ⟨_, rfl, rfl, rfl, rfl⟩
  · exact ⟨_, rfl, rfl, rfl, rfl⟩

/-- A round-trip leaves the handle of the session alone. -/
theorem gpioTrip_regHandle (s : State) (c : Nat) (o : Bytes) : (s.gpioTrip c o).1.regHandle = s.regHandle := by
  obtain ⟨⟨t, ans⟩, hb⟩ : ∃ q, s.bulk c o Config.gpioReplyLen = q := ⟨_, rfl⟩
  have ht : t.regHandle = s.regHandle := (bulk_frame' hb).regHandle
  cases ans with
  | error e => rwa [gpioTrip_of_error hb]
  | ok r =>
    by_cases hr : r.length = Config.gpioReplyLen
    · rwa [gpioTrip_of_reply hb hr]
    · rwa [gpioTrip_of_badReply hb hr]

/-- The speed command's three bytes (43_init.md R125): a code below 20 fits the five bits of its field (30_encoding.md R67). -/
theorem speedPkt_eq (cfg : Config) : speedPkt cfg = [0xAA, 0x60 ||| BitVec.ofNat 8 cfg.speedCode.val, 0x00] := by
  have hcode : ∀ v : Fin 20, setSpeedByte (BitVec.ofNat 5 v.val) = 0x60 ||| BitVec.ofNat 8 v.val := by decide
  rw [speedPkt, hcode]
  rfl

/-- The control bytes of the idle-pin frame: output-high at `IDLE_PIN` (43_init.md R126). -/
def idlePins (cfg : Config) : Bytes := noPins.set cfg.idlePin.val 0xB8

/-- The session after INIT's speed command. -/
def State.speedSent (s : State) : State := (s.bulk s.ctxs.length (speedPkt s.cfg) 0).1

/-- The session after INIT's idle-pin frame. -/
def State.idleTripped (s : State) : State :=
  (({ s.speedSent with gpo := s.speedSent.gpo.putBytes 3 (idlePins s.cfg) } : State).gpioTrip s.ctxs.length
    (frameBytes (idlePins s.cfg))).1

theorem speedSent_frame (s : State) : BulkFrame s s.speedSent := bulk_frame ..

theorem idleTripped_ctxs (s : State) : s.idleTripped.ctxs = s.ctxs :=
  (gpioTrip_frame ..).1.trans (speedSent_frame s).ctxs

theorem idleTripped_regHandle (s : State) : s.idleTripped.regHandle = s.regHandle :=
  (gpioTrip_regHandle ..).trans (speedSent_frame s).regHandle

theorem idleTripped_hist (s : State) :
    ∃ e : Exch, s.idleTripped.hist = s.speedSent.hist ++ [e] ∧ e.sent = frameBytes (idlePins s.cfg) := by
  obtain ⟨e, ⟨-, hsent, -⟩, hl⟩ := gpioTrip_leaves
    { s.speedSent with gpo := s.speedSent.gpo.putBytes 3 (idlePins s.cfg) } s.ctxs.length (frameBytes (idlePins s.cfg))
  exact ⟨e, hl.hist, hsent⟩

/-! ## The ends of INIT -/

/-- INIT, whose last exchange left the session `s`, ended in `t` with the context `x`: Initialized with a handle, or Dead
(43_init.md R124, 60_exceptions.md R137). -/
structure InitEnds (s t : State) (x : Ctx) : Prop where
  ctxs : t.ctxs = s.ctxs ++ [x]
  hist : t.hist = s.hist
  gpiValid : t.gpiValid = s.gpiValid
  up : x.res = some .ok → t.sstate = .initialized ∧ t.regHandle ≠ none
  down : x.res ≠ some .ok → t.sstate = .dead ∧ t.regHandle = s.regHandle

theorem initFailed_ends (s : State) (idx : Nat) (e : Err) :
    InitEnds s (s.initFailed idx e) ((initCtx s.cfg idx).fail e) where
  ctxs := rfl
  hist := rfl
  gpiValid := rfl
  up := nofun
  down _ := ⟨rfl, rfl⟩

theorem initRegister_ends (s : State) (idx : Nat) : ∃ x, InitEnds s (s.initRegister idx) x := by
  unfold State.initRegister
  cases (regDraw s.regs).1 with
  | some h => exact ⟨(initCtx s.cfg idx).finish .ok, rfl, rfl, rfl, fun _ => ⟨rfl, nofun⟩, fun hx => absurd rfl hx⟩
  | none => exact ⟨(initCtx s.cfg idx).fail (.ioError .registration), rfl, rfl, rfl, nofun, fun _ => ⟨rfl, rfl⟩⟩

/-- INIT ends after its speed command, and of the one variant only with a failure; or, of that variant, after its idle-pin
frame (43_init.md R124). -/
theorem initRun_ends (s : State) : ∃ x,
    (InitEnds s.speedSent s.initRun x ∧ (s.cfg.variant = s.cfg.variantId → x.res ≠ some .ok)) ∨
    (s.cfg.variant = s.cfg.variantId ∧ InitEnds s.idleTripped s.initRun x) := by
  unfold State.initRun
  split
  case h_1 b e hb =>
    obtain rfl : s.speedSent = b := congrArg Prod.fst hb
    exact ⟨_, .inl ⟨initFailed_ends _ 0 e, fun _ => nofun⟩⟩
  case h_2 b r hb =>
    obtain rfl : s.speedSent = b := congrArg Prod.fst hb
    split
    case isTrue hv =>
      dsimp only
      split
      case h_1 t e ht =>
        obtain rfl : s.idleTripped = t := congrArg Prod.fst ht
        exact ⟨_, .inr ⟨hv, initFailed_ends _ 1 e⟩⟩
      case h_2 t r' ht =>
        obtain rfl : s.idleTripped = t := congrArg Prod.fst ht
        exact (initRegister_ends _ 2).imp fun _ hx => .inr ⟨hv, hx⟩
    case isFalse hv => exact (initRegister_ends _ 1).imp fun _ hx => .inl ⟨hx, fun h => absurd h hv⟩

/-- Settles O57: INIT does what its rule says, and the rule ends after the speed command or after the idle-pin frame. -/
theorem initSendsAndEnds : Obligations.InitSendsAndEnds := by
  intro s t x hc ha hh hi hl hq hf he hx
  obtain rfl : s.initRun = t := Host.Outcome.next.inj ((initDoesWhatItsRuleSays s hc ha hi hl hq hf).symm.trans he)
  obtain ⟨e, hhist, hsent, hm, hrecv⟩ := bulk_zero_hist s s.ctxs.length (speedPkt s.cfg)
  change s.speedSent.hist = _ at hhist
  rw [speedPkt_eq] at hsent
  have hfr := speedSent_frame s
  obtain ⟨y, ⟨hy, hbad⟩ | ⟨hv, hy⟩⟩ := initRun_ends s
  · obtain rfl : y = x := by simpa [hfr.ctxs, hx] using hy.ctxs.symm
    exact ⟨e, [], hy.hist.trans hhist, hsent, hm, hrecv, fun _ => ⟨rfl, hy.gpiValid.trans hfr.gpiValid⟩,
      fun hv hok => absurd hok (hbad hv), hy.up, fun h => ⟨(hy.down h).1, (hy.down h).2.trans (hfr.regHandle.trans hh)⟩⟩
  · obtain rfl : y = x := by simpa [idleTripped_ctxs, hx] using hy.ctxs.symm
    obtain ⟨e2, hhist2, hsent2⟩ := idleTripped_hist s
    refine ⟨e, [e2], ?_, hsent, hm, hrecv, fun hn => absurd hv hn, fun _ _ => ⟨e2, rfl, hsent2⟩, hy.up,
      fun h => ⟨(hy.down h).1, (hy.down h).2.trans ((idleTripped_regHandle s).trans hh)⟩⟩
    rw [hy.hist, hhist2, hhist, List.append_assoc]
    rfl

/-! ## TEARDOWN -/

/-- An operation is in flight exactly when a context has not ended (60_exceptions.md R144). -/
theorem anyInFlight_iff {s : State} : s.anyInFlight = true ↔ ∃ x ∈ s.ctxs, x.phase.isFinal = false := by
  simp [State.anyInFlight, Ctx.inFlight]

/-- The host keeps its duty: nothing is in flight and the lock is free (43_init.md R128). -/
theorem exec_teardown {s : State} (hc : s.cfg.wf = true) (hf : ∀ x ∈ s.ctxs, x.phase.isFinal = true) (hl : s.lock = .free) :
    exec .teardown s = .next (complete s.ctxs.length .noStatus ((closeSession s).admitOp .teardown)) := by
  have hn : ¬ (s.anyInFlight = true ∨ s.lock ≠ .free) := by
    rw [anyInFlight_iff]
    rintro (⟨x, hx, hlive⟩ | hlock)
    · rw [hf x hx] at hlive; cases hlive
    · exact hlock hl
  show execTeardown s = _
  rw [execTeardown, hc]
  exact if_neg hn

/-- The host breaks its duty. -/
theorem exec_teardown_hostDuty {s : State} (hc : s.cfg.wf = true)
    (h : (∃ x ∈ s.ctxs, x.phase.isFinal = false) ∨ s.lock ≠ .free) : exec .teardown s = .refused .hostDuty := by
  show execTeardown s = _
  rw [execTeardown, hc]
  exact if_pos (h.imp_left anyInFlight_iff.mpr)

/-- Closing the session, as one record update: only an Initialized session had a handle to unregister (43_init.md R128). -/
theorem closeSession_eq_update (s : State) : closeSession s = { s with
    sstate := .dead
    regHandle := if s.sstate = .initialized then none else s.regHandle
    hostLog := s.hostLog ++ (if s.sstate = .initialized then (s.regHandle.map HostEvent.unregister).toList else []) } := by
  unfold closeSession
  split
  case h_1 hs hr => simp [hs, hr]
  case h_2 hs hr => simp [hs, hr]
  case h_3 h1 h2 =>
    have hs : s.sstate ≠ .initialized := fun hs => by
      cases hr : s.regHandle with
      | none => exact h2 hs hr
      | some a => exact h1 a hs hr
    simp [hs]

/-- A request that completes as it is admitted leaves its ended context. -/
theorem complete_admitOp (s : State) (op : Instr) (r : Result) :
    complete s.ctxs.length r (s.admitOp op) = s.withCtx ((newCtx op (dstFor op s.dstPort)).finish r) :=
  State.push_modCtx { s with dstPort := [] } _ _

/-- Settles O58: TEARDOWN closes the session and leaves its ended context, or the host's duty is broken. -/
theorem teardownDoesWhatItsRuleSays : Obligations.TeardownDoesWhatItsRuleSays := by
  refine fun s hc => ⟨fun hf hl => ?_, exec_teardown_hostDuty hc⟩
  rw [exec_teardown hc hf hl, ← closeSession_ctxs s, complete_admitOp, closeSession_eq_update]
  rfl

end Sys2Proof.Machine
end

section
/-! PROOFS. The status of every context along a step (10_state.md R38, 60_exceptions.md R131, R132, R134). -/

namespace Sys2Proof.Machine

/-! ## The status of a context -/

section Status

variable {x y : Ctx}

/-- A context that has not ended runs an operation of some engine, and has no result. -/
theorem Ctx.statusOk_live (hx : x.phase.isFinal = false) :
    x.statusOk = true ↔ x.res = none ∧ engineOf x.op ≠ .none := by
  unfold Ctx.statusOk
  split
  case h_1 r hp => rw [hp] at hx; cases hx
  case h_2 e hp => rw [hp] at hx; cases hx
  case h_3 => simp

/-- A context in flight that goes on keeps its status. -/
theorem Ctx.statusOk_goesOn (h : x.statusOk = true) (hx : x.phase.isFinal = false) (hy : y.phase.isFinal = false)
    (ho : y.op = x.op) (hr : y.res = x.res) : y.statusOk = true := by
  rw [Ctx.statusOk_live hy, ho, hr]
  exact (Ctx.statusOk_live hx).mp h

/-- A completed context is as its result may be. -/
theorem Ctx.statusOk_finish (r : Result) (x : Ctx) : (x.finish r).statusOk = resultAllowed x.op r := by
  simp [Ctx.statusOk]

/-- A failed context is as its error may be. -/
theorem Ctx.statusOk_fail (e : Err) (x : Ctx) : (x.fail e).statusOk = errAllowed x.op e := by
  simp [Ctx.statusOk]

end Status

/-- Every change an operation makes to a context keeps its status: it ends with an error or a result its operation may have,
and until then only goes on. -/
theorem status_kept (cfg : Config) : CtxKept cfg fun x => x.statusOk = true where
  fail x e h hx he := by
    rw [Ctx.statusOk_fail]
    exact he ((Ctx.statusOk_live hx).mp h).2
  finish x r _ _ hr := by rwa [Ctx.statusOk_finish]
  phase x p h hs := Ctx.statusOk_goesOn h hs.source hs.target rfl rfl
  enter x j h hc _ := Ctx.statusOk_goesOn h hc.live.1 hc.live.1 rfl rfl
  firstChunk x a src h hc _ _ := Ctx.statusOk_goesOn h hc.live.1 rfl rfl rfl
  writeChunk x a src h hp _ := Ctx.statusOk_goesOn h (by rw [hp]; rfl) rfl rfl rfl
  readChunk x a len h hc _ _ := Ctx.statusOk_goesOn h hc.live.1 rfl rfl rfl
  pkt x p h hp _ := Ctx.statusOk_goesOn h (by rw [hp]; rfl) rfl rfl rfl
  emit x p q h hp _ _ := Ctx.statusOk_goesOn h (by rw [hp]; rfl) (by rw [hp]; rfl) rfl rfl
  writeDone x a src n h hp _ _ := Ctx.statusOk_goesOn h (by rw [hp]; rfl) rfl rfl rfl
  readDone x a len n r h hp _ _ := Ctx.statusOk_goesOn h (by rw [hp]; rfl) rfl rfl rfl
  initIdx x k h hf _ _ := Ctx.statusOk_goesOn h hf rfl rfl rfl

/-- A context just admitted has no result. -/
theorem newCtx_statusOk {op : Instr} (he : engineOf op ≠ .none) (dst : List Memory) : (newCtx op dst).statusOk = true :=
  (Ctx.statusOk_live rfl).mpr ⟨rfl, he⟩

/-- Settles O20: a context begins with no result, every change of one keeps its status, and TEARDOWN leaves one that is done
with nothing. -/
theorem stepKeepsStatuses : Obligations.StepKeepsStatuses := fun s _ hm hi he =>
  (status_kept s.cfg).step hm hi (fun _ _ hen => newCtx_statusOk hen _) (Ctx.statusOk_finish .noStatus _) he

/-- Settles O60: each code and each class is the one its constructor has. -/
theorem statusCodesAndClasses : Obligations.StatusCodesAndClasses :=
  ⟨fun _ => ⟨rfl, rfl⟩, fun _ _ _ => ⟨rfl, rfl⟩, fun _ _ => ⟨rfl, rfl⟩, fun _ => ⟨rfl, rfl⟩, fun _ => rfl, rfl,
    fun _ => rfl, fun _ => rfl, fun _ => rfl, rfl⟩

end Sys2Proof.Machine
end

section
/-! PROOFS. What an abort leaves (60_exceptions.md R134, R135, R137), and the requests that are not admitted (R139). -/

namespace Sys2Proof.Machine

/-! ## Aborts -/

section Abort

variable {s : State} {c : Nat} {x : Ctx} (hx : s.ctxs[c]? = some x)
include hx

/-- The aborted context, read back. -/
theorem abort_get_self (e : Err) : (abort c e s).ctxs[c]? = some (x.fail e) := by
  rw [abort_ctxs, List.getElem?_modify_eq, hx]
  rfl

theorem State.midWrite_eq : s.midWrite c = x.midWrite := by simp only [State.midWrite, hx]

theorem State.runsInit_eq : s.runsInit c = (x.op == .init) := by simp only [State.runsInit, hx]

end Abort

/-- An aborted context does not hold the lock. -/
theorem abort_lock_ne (c : Nat) (e : Err) (s : State) : (abort c e s).lock ≠ .held c := by
  rw [abort_lock]
  split
  case isTrue => nofun
  case isFalse h => exact h

/-- An abort leaves the lock of another context alone. -/
theorem abort_lock_other {c d : Nat} {s : State} (e : Err) (hd : d ≠ c) (hl : s.lock = .held d) :
    (abort c e s).lock = .held d := by
  rw [abort_lock, hl, if_neg fun h => hd (Lock.held.inj h)]

/-- Settles O30: the aborted context and the lock, read back; the other fields as their update has them. -/
theorem abortLeavesWhatItsRuleSays : Obligations.AbortLeavesWhatItsRuleSays := by
  intro s c e x hx
  have hstate : (abort c e s).sstate = if x.op = .init then .dead else s.sstate := by
    rw [abort_sstate, State.runsInit_eq hx]
    simp only [beq_iff_eq]
  have htxn : (abort c e s).openTxn = (s.openTxn || (decide (s.lock = .held c) && x.midWrite)) := by
    rw [abort_openTxn, State.midWrite_eq hx]
  exact ⟨abort_get_self hx e, fun _ hd => getElem?_modify_ne _ hd, abort_lock_ne c e s, fun _ => abort_lock_other e, hstate,
    rfl, rfl, rfl, rfl, rfl, rfl, htxn, rfl⟩

/-! ## Requests that are not admitted -/

section Refused

variable {s : State} {op : Instr}

theorem submitAdmitted_refused {r : Refusal} (hr : engineRefusal s = some r) : submitAdmitted op s = .refused r := by
  simp only [submitAdmitted, hr]

/-- A request of the I2C or the GPIO engine that the session does not admit is refused. -/
theorem exec_refused {r : Refusal} (he : engineOf op = .i2c ∨ engineOf op = .gpio) (hr : engineRefusal s = some r) :
    exec op s = .refused r := by
  rcases he with he | he
  · cases op <;> simp only [engineOf, reduceCtorEq] at he
    case i2cXfer msgs => simp only [exec, execI2cXfer, hr]
    case i2cWrite a src => exact submitAdmitted_refused hr
    case i2cRead a len => exact submitAdmitted_refused hr
    case i2cMsgTen rd a len p => exact submitAdmitted_refused hr
  · exact (exec_eq_submitAdmitted he s).trans (submitAdmitted_refused hr)

theorem engineRefusal_badConfig (hc : s.cfg.wf = false) : engineRefusal s = some .badConfig := if_pos hc

theorem engineRefusal_notInitialized (hc : s.cfg.wf = true) (hs : s.sstate ≠ .initialized) :
    engineRefusal s = some .notInitialized := by
  rw [engineRefusal, hc]
  exact if_pos hs

theorem engineRefusal_up (hc : s.cfg.wf = true) (hs : s.sstate = .initialized) : engineRefusal s = none := by
  rw [engineRefusal, hc, hs]
  rfl

/-- Under illegal parameters every request is refused, TEARDOWN included (60_exceptions.md R139). -/
theorem exec_badConfig (ho : engineOf op ≠ .none ∨ op = .teardown) (hc : s.cfg.wf = false) :
    exec op s = .refused .badConfig := by
  rcases ho with he | rfl
  · cases hk : engineOf op with
    | i2c => exact exec_refused (.inl hk) (engineRefusal_badConfig hc)
    | gpio => exact exec_refused (.inr hk) (engineRefusal_badConfig hc)
    | initSeq =>
      obtain rfl := engineOf_init hk
      exact if_pos hc
    | none => exact absurd hk he
  · exact if_pos hc

theorem exec_init_badLifecycle (hc : s.cfg.wf = true) (hs : s.sstate ≠ .attached) :
    exec .init s = .refused .badLifecycle := by
  show execInit s = _
  rw [execInit, hc]
  exact if_pos (Or.inl hs)

theorem exec_emptyBatch (hc : s.cfg.wf = true) (hs : s.sstate = .initialized) :
    exec (.i2cXfer []) s = .refused .emptyBatch := by
  simp only [exec, execI2cXfer, engineRefusal_up hc hs, if_true]

end Refused

/-- Settles O34: the parameters are looked at first, then the session, then the batch. -/
theorem requestsThatAreNotAdmitted : Obligations.RequestsThatAreNotAdmitted := fun _ _ =>
  ⟨fun he hc hs => exec_refused he (engineRefusal_notInitialized hc hs), exec_badConfig, exec_init_badLifecycle,
    exec_emptyBatch⟩

end Sys2Proof.Machine
end

section
/-! PROOFS. The state after reset (70_reset_and_hazards.md R146), the unknown mirror (R149), and the end of an operation that
nothing interrupts (R157, R159). -/

namespace Sys2Proof.Machine

/-! ## Reset -/

/-- Settles O11: every field is the one the session is created with, and GPO lists its three header bytes only. -/
theorem resetState : Obligations.ResetState := by
  refine ⟨rfl, fun v => ⟨rfl, rfl, rfl, rfl, fun a ha => ?_, rfl, fun a => ⟨rfl, rfl, rfl⟩, rfl, rfl, rfl, rfl, rfl, rfl⟩⟩
  simp only [State.attach, Memory.byteAt]
  rw [if_neg (by omega), if_neg (by omega), if_neg (by omega)]

/-! ## The unknown mirror -/

section UnknownMirror

variable {s : State} (hv : s.gpiValid = false)
include hv

/-- No status may be read while the mirror is Unknown (10_state.md R34). -/
theorem pinStat_of_unknown (p : Nat) : s.pinStat p = .error .unwrittenRead := by
  rw [State.pinStat, hv]
  rfl

/-- The loop of GPIO_WRITE_MULTIPLE faults at the first of its pins that `mask` has (42_gpio.md R117). -/
theorem frameMultiple_of_unknown {mask bits : Byte} {p : Nat} {ps : List Nat} (hp : p ∈ ps) (hm : mask.getLsbD p = true)
    (g : Memory) : frameMultiple mask bits s ps g = .error .unwrittenRead := by
  induction ps with
  | nil => cases hp
  | cons q ps ih =>
    by_cases hq : mask.getLsbD q = true
    · simp only [frameMultiple, maskBit, hq, if_true, pinStat_of_unknown hv]
    · have hne : p ≠ q := fun h => hq (h ▸ hm)
      simp only [frameMultiple, maskBit, hq, Bool.false_eq_true, if_false, ih (List.mem_of_ne_of_mem hne hp)]

end UnknownMirror

/-- A mask that is not zero has a pin. -/
theorem exists_pin_of_mask_ne_zero {mask : Byte} (h : mask ≠ 0) : ∃ p, p < 8 ∧ mask.getLsbD p = true := by
  by_contra hnone
  refine h (BitVec.eq_of_getLsbD_eq fun p hp => ?_)
  rw [Bool.eq_false_of_not_eq_true fun hm => hnone ⟨p, hp, hm⟩]
  exact BitVec.getLsbD_zero.symm

/-- An operation whose pin is in range and whose frame cannot be formed faults (60_exceptions.md R138). -/
theorem exec_of_frame_fault {s : State} {op : Instr} {f : Fault} (hr : s.Ready) (he : engineOf op = .gpio)
    (hpin : ∀ p, checkedPin op = some p → p.toNat < 8) (hg : gpioFrameOf op s = .error f) : exec op s = .fault f :=
  (exec_eq_submit hr he).trans (submit_of_frame_fault hr he hpin hg)

/-- Settles O35: each frame reads a status of the unknown mirror, so its `Build` faults. -/
theorem unwrittenMirrorFaults : Obligations.UnwrittenMirrorFaults := by
  intro s hr _ hv
  have hst := pinStat_of_unknown hv
  refine ⟨fun p v hp => ?_, fun mask bits hmask => ?_, fun p hp => ?_, fun p v hp hmode => ?_⟩
  · refine exec_of_frame_fault hr rfl (inRange_of_checked rfl hp) ?_
    simp only [gpioFrameOf, frameGpioWrite, hst]
  · obtain ⟨p, hp, hm⟩ := exists_pin_of_mask_ne_zero hmask
    exact exec_of_frame_fault hr rfl (inRange_of_unchecked rfl) (frameMultiple_of_unknown hv (List.mem_range.mpr hp) hm _)
  · refine exec_of_frame_fault hr rfl (inRange_of_checked rfl hp) ?_
    simp only [gpioFrameOf, frameGpioDirInput, hst]
  · refine exec_of_frame_fault hr rfl (inRange_of_checked rfl hp) ?_
    simp only [gpioFrameOf, frameGpioDirOutput, hmode, hst]

/-! ## The end of an operation -/

/-- The operation `op` began in `s` and ended in `t`: its context is the newest and final, every other context is as it was, and
the lock is free in a session that is up (70_reset_and_hazards.md R159). -/
structure OperationEnded (op : Instr) (s t : State) : Prop where
  ctxs : ∃ x, t.ctxs = s.ctxs ++ [x] ∧ x.op = op ∧ x.phase.isFinal = true
  lock : t.lock = .free
  up : t.sstate = .initialized

/-- A run that had ended has ended again after the operation. -/
theorem OperationEnded.runEnded {op : Instr} {s t : State} (h : OperationEnded op s t) (hs : s.runEnded = true) :
    t.runEnded = true := by
  obtain ⟨x, hctxs, -, hfinal⟩ := h.ctxs
  obtain ⟨hall, -⟩ := Bool.and_eq_true_iff.mp hs
  simp [State.runEnded, hctxs, List.all_append, hall, hfinal, h.lock]

/-- A round-trip leaves the session's lifecycle alone. -/
theorem gpioTrip_sstate (s : State) (c : Nat) (o : Bytes) : (s.gpioTrip c o).1.sstate = s.sstate := by
  obtain ⟨⟨t, ans⟩, hb⟩ : ∃ q, s.bulk c o Config.gpioReplyLen = q := ⟨_, rfl⟩
  have ht : t.sstate = s.sstate := (bulk_frame' hb).sstate
  cases ans with
  | error e => rwa [gpioTrip_of_error hb]
  | ok r =>
    by_cases hlen : r.length = Config.gpioReplyLen
    · rwa [gpioTrip_of_reply hb hlen]
    · rwa [gpioTrip_of_badReply hb hlen]

/-- Of the operations that check a pin GPIO_WRITE alone has no status (42_gpio.md R112, R121). -/
theorem eq_gpioWrite_of_fireAndForget {op : Instr} {p : Byte} (hf : isFireAndForget op = true) (hop : checkedPin op = some p) :
    ∃ v, op = .gpioWrite p v := by
  cases op with
  | gpioWrite q v => exact ⟨v, congrArg (Instr.gpioWrite · v) (Option.some.inj hop)⟩
  | gpioWriteMultiple mask bits => cases hop
  | _ => cases hf

section Ends

variable {s : State} {op : Instr} (hr : s.Ready)
include hr

/-- An operation whose exchanges led to `t`, and left there the other contexts, the lock and the session alone, ends with its
final context. -/
theorem OperationEnded.withCtx {t : State} {x : Ctx} (hctxs : t.ctxs = s.ctxs) (hlock : t.lock = s.lock)
    (hstate : t.sstate = s.sstate) (hop : x.op = op) (hx : x.phase.isFinal = true) : OperationEnded op s (t.withCtx x) where
  ctxs := ⟨x, congrArg (· ++ [x]) hctxs, hop, hx⟩
  lock := hlock.trans hr.lock
  up := hstate.trans hr.up

/-- The rule of an I2C operation makes exchanges only. -/
theorem i2c_ends {t : State} (he : engineOf op = .i2c) (hx : exec op s = .next t) : OperationEnded op s t := by
  obtain ⟨x, hsubmit, hend, -⟩ := i2c_submit hr he
  obtain ⟨hf, -⟩ := i2cRule_frame op hr.cfg
  cases (exec_i2c hr he hx).symm.trans hsubmit
  refine .withCtx hr hf.ctxs hf.lock hf.sstate hend.op ?_
  rw [hend.phase]
  split <;> rfl

/-- A GPIO operation that makes its round-trip ends with the reply or with the error. -/
theorem gpioRun_ends (pins : Bytes) (res : Bytes → Result) : OperationEnded op s (s.gpioRun op pins res) := by
  let framed : State := { s with gpo := s.gpo.putBytes 3 pins }
  obtain ⟨hctxs, hlock, -, -⟩ := gpioTrip_frame framed s.ctxs.length (frameBytes pins)
  have hstate := gpioTrip_sstate framed s.ctxs.length (frameBytes pins)
  unfold State.gpioRun
  split
  all_goals
    rename_i htrip
    obtain rfl := congrArg Prod.fst htrip
    exact .withCtx hr hctxs hlock hstate rfl rfl

/-- A GPIO operation whose pin is out of range ends in `Admit`: with InvalidArgument, or silently (42_gpio.md R112, R116). -/
theorem exec_outOfRange_ends {t : State} {p : Byte} (hop : checkedPin op = some p) (h8 : 8 ≤ p.toNat)
    (hx : exec op s = .next t) : OperationEnded op s t := by
  cases hf : isFireAndForget op with
  | false =>
    cases hx.symm.trans (exec_pinRefused hr (checkedPin_gpio hop) hf hop h8)
    exact .withCtx hr rfl rfl rfl rfl rfl
  | true =>
    obtain ⟨v, rfl⟩ := eq_gpioWrite_of_fireAndForget hf hop
    cases hx.symm.trans (exec_gpioWrite_outOfRange hr h8)
    exact .withCtx hr rfl rfl rfl rfl rfl

/-- A GPIO operation that does not fault makes its round-trip, or its pin check turns it away. -/
theorem gpio_ends {t : State} (hframe : s.FrameReady) (he : engineOf op = .gpio) (hx : exec op s = .next t) :
    OperationEnded op s t := by
  have ends_inRange (hpin : ∀ p, checkedPin op = some p → p.toNat < 8) : OperationEnded op s t := by
    obtain ⟨pins, -, rfl⟩ := exec_gpio_next hr hframe he hpin hx
    exact gpioRun_ends hr pins (replyResult op)
  cases hop : checkedPin op with
  | none => exact ends_inRange (inRange_of_unchecked hop)
  | some p =>
    rcases Nat.lt_or_ge p.toNat 8 with hp | h8
    · exact ends_inRange (inRange_of_checked hop hp)
    · exact exec_outOfRange_ends hr hop h8 hx

end Ends

/-- Settles O59: an I2C operation ends after its rule's exchanges, a GPIO operation after its round-trip or its pin check, and
a run that had ended gets one more final context. -/
theorem uninterruptedOperationEnds : Obligations.UninterruptedOperationEnds := by
  intro s t op hr hframe he hx
  have hend : OperationEnded op s t := he.elim (i2c_ends hr · hx) (gpio_ends hr hframe · hx)
  exact ⟨hend.ctxs, hend.lock, hend.up, hend.runEnded⟩

end Sys2Proof.Machine
end
